-- ==== Sys2Proof/Word.lean ====
section
/-! DEFINITION. The word types of the BQC: bytes of MEM, 16-bit fields, 32-bit registers (10_state.md R22, 20_memory.md R60). -/

namespace Sys2Proof

/-- One cell of `MEM`, one sample, one level, one record byte (00_scope.md R5). -/
abbrev Byte := BitVec 8

/-- A 16-bit field: `WIDTH`, `HEIGHT`, `BLK_X`, `BLK_Y`, a header field (10_state.md R28, R29; 30_encoding.md R101). -/
abbrev Half := BitVec 16

/-- A 32-bit register or an offset into `MEM` (00_scope.md R5). -/
abbrev Word := BitVec 32

/-- The implemented bits of the command word: `IL`, `FMODE`, `PLANE`, `OP`; bits 31:10 read 0 (10_state.md R25). -/
abbrev CmdBits := BitVec 10

end Sys2Proof
end

