-- ==== Sys2Proof/Config.lean ====
section
/-! DEFINITION. What an implementation fixes: the named readings a parameter can take (00_scope.md R5; their values stand
in Machine/Params.lean), and the FREE VALUES, constants without a body for what the spec leaves a draw. -/

namespace Sys2Proof.Config

/-- The readings of "interior" in the gradient window (41_classifier.md R142, D8). -/
inductive GradWindow
  /-- `1 <= x, y <= 6` -/
  | interior
  /-- `0 <= x, y <= 6` -/
  | forward
deriving DecidableEq, Repr

/-- The rounding of the half-resolution averages (42_block_codec.md R171, D10). -/
inductive AvgRound
  /-- the floor -/
  | trunc
  /-- half a unit is rounded up -/
  | halfUp
deriving DecidableEq, Repr

/-- The number format the dequantizers are evaluated in (42_block_codec.md R168 to R170, D9). -/
inductive DeqEval
  /-- exact rationals, floored -/
  | exactly
  /-- IEEE binary64 -/
  | binary64
  /-- IEEE binary32 -/
  | binary32
deriving DecidableEq, Repr

/-- FREE VALUE: what the cell of `MEM` at an address holds after power-on (70_reset_and_hazards.md R303;
93_implementation_defined.md F1). Safe: nothing constrains it (log 1). -/
opaque powerOnByte : Nat → Byte

/-- FREE VALUE: what the `n`-th draw gives for a progress register the host reads while `BUSY = 1`
(10_state.md R37; F4). Safe (log 6). -/
opaque busyRegister : Nat → Word

/-- FREE VALUE: what the `n`-th draw gives for a byte, by its address, of a region the running command writes
(20_memory.md R73; F2). Safe (log 7). -/
opaque busyByte : Nat → Nat → Byte

/-- FREE VALUE: how many more engine steps of the current instruction were made when a reset cut it short
(70_reset_and_hazards.md R301; F6). Safe (log 8). -/
opaque cutPoint : Nat → Nat

end Sys2Proof.Config
end

