-- ==== Sys2Proof/Syntax.lean ====
section
/-! DEFINITION. The BQC's two instruction sets as one syntax: the commands of the command word (30_encoding.md R92) and the
block records a decoding command interprets (30_encoding.md R97). One constructor for each row of spec/opcode_table.json. -/

namespace Sys2Proof

/-- An instruction of the BQC. A command carries the fields of the command word its opcode reads (30_encoding.md R93), raw,
because a reserved value of such a field is an error the command raises (60_exceptions.md R265). A record carries the six
high bits of its control byte, its range byte, and its sample bytes as they lie in the stream (30_encoding.md R95). -/
inductive Instr
  /-- `NOP`, OP 0x0 (44_container.md R234) -/
  | nop
  /-- `PACK2`, OP 0x1 (40_bitpacker.md R125) -/
  | pack2
  /-- `PACK4`, OP 0x2 (40_bitpacker.md R126) -/
  | pack4
  /-- `UNPACK2`, OP 0x3 (40_bitpacker.md R127) -/
  | unpack2
  /-- `UNPACK4`, OP 0x4 (40_bitpacker.md R128) -/
  | unpack4
  /-- `CLASSIFY`, OP 0x5 (41_classifier.md R146) -/
  | classify (plane : BitVec 2)
  /-- `ENCODE_BLOCK`, OP 0x6 (42_block_codec.md R167) -/
  | encodeBlock (plane : BitVec 2) (fmode : BitVec 3)
  /-- `DECODE_BLOCK`, OP 0x7 (42_block_codec.md R178) -/
  | decodeBlock (plane : BitVec 2)
  /-- `DOWNSAMPLE`, OP 0x8 (43_resampler.md R211) -/
  | downsample (plane : BitVec 2)
  /-- `UPSAMPLE`, OP 0x9 (43_resampler.md R213) -/
  | upsample (plane : BitVec 2)
  /-- `SPLIT`, OP 0xA (44_container.md R235) -/
  | split
  /-- `MERGE`, OP 0xB (44_container.md R236) -/
  | merge
  /-- `ENCODE_IMAGE`, OP 0xC (44_container.md R237) -/
  | encodeImage (fmode : BitVec 3) (il : Bool)
  /-- `DECODE_IMAGE`, OP 0xD (44_container.md R238) -/
  | decodeImage (il : Bool)
  /-- the reserved opcodes 0xE (`low = 0`) and 0xF (`low = 1`) (60_exceptions.md R265) -/
  | illegalCommand (low : BitVec 1)
  /-- `SKIP` record (42_block_codec.md R172) -/
  | skip (base : BitVec 6)
  /-- `SOLID` record (42_block_codec.md R173) -/
  | solid (base : BitVec 6) (fill : Byte)
  /-- `HALF2` record (42_block_codec.md R174) -/
  | half2 (base : BitVec 6) (range : Byte) (samples : List Byte)
  /-- `FULL2` record (42_block_codec.md R175) -/
  | full2 (base : BitVec 6) (range : Byte) (samples : List Byte)
  /-- `FULL4` record (42_block_codec.md R176) -/
  | full4 (base : BitVec 6) (range : Byte) (samples : List Byte)
deriving DecidableEq, Repr

end Sys2Proof
end

