-- ==== Sys2Proof/WellFormed.lean ====
section
/-! DEFINITION. Which terms of the syntax are instructions: the checks of 30_encoding.md R97 and R98. -/

namespace Sys2Proof

/-- A `SOLID` record has a non-zero range byte (with zero it is `SKIP`), and a record with levels has the sample bytes of
its kind (30_encoding.md R97). Every value of every command field is a command word, a reserved one too (R94). -/
def Instr.wellFormed : Instr → Bool
  | .nop => true
  | .pack2 => true
  | .pack4 => true
  | .unpack2 => true
  | .unpack4 => true
  | .classify _ => true
  | .encodeBlock _ _ => true
  | .decodeBlock _ => true
  | .downsample _ => true
  | .upsample _ => true
  | .split => true
  | .merge => true
  | .encodeImage _ _ => true
  | .decodeImage _ => true
  | .illegalCommand _ => true
  | .skip _ => true
  | .solid _ fill => decide (fill ≠ 0)
  | .half2 _ _ samples => decide (samples.length = 4)
  | .full2 _ _ samples => decide (samples.length = 16)
  | .full4 _ _ samples => decide (samples.length = 32)

end Sys2Proof
end

