-- ==== Sys2Proof/Decode.lean ====
section
/-! DEFINITION. Decoding and encoding of the two instruction sets: the command word (30_encoding.md R91 to R94) and the block
record (30_encoding.md R95 to R98, R107). Decoding is total; what it cannot read it rejects by name. -/

namespace Sys2Proof

/-- Which of the two instruction sets bytes are read as: a command word reaches the BQC through the register `CMD`, a record
through the stream (30_encoding.md R90, R95). -/
inductive Format
  | command
  | record
deriving DecidableEq, Repr

/-- Why bytes are no instruction. No complete command word and no complete record is rejected (30_encoding.md R94, R103). -/
inductive DecodeError
  /-- fewer than the four bytes of a command word (R90) -/
  | truncatedCommand
  /-- fewer bytes than the record's length (R107) -/
  | truncatedRecord
deriving DecidableEq, Repr

/-- The `n` low bytes of `v`, the least significant first (20_memory.md R62). -/
def bytesLE : Nat → Nat → List Byte
  | 0, _ => []
  | n + 1, v => BitVec.ofNat 8 v :: bytesLE n (v / 256)

/-- `OP`, bits 3:0 of the command word (30_encoding.md R91). -/
def opField (w : CmdBits) : BitVec 4 := w.extractLsb' 0 4

/-- `PLANE`, bits 5:4 (30_encoding.md R91). -/
def planeField (w : CmdBits) : BitVec 2 := w.extractLsb' 4 2

/-- `FMODE`, bits 8:6 (30_encoding.md R91). -/
def fmodeField (w : CmdBits) : BitVec 3 := w.extractLsb' 6 3

/-- `IL`, bit 9 (30_encoding.md R91). -/
def ilField (w : CmdBits) : Bool := w.getLsbD 9

/-- The opcode map of 30_encoding.md R92, each opcode with the fields R93 says it reads. Opcodes 0xE and 0xF are the
reserved ones. -/
def decodeCmd (w : CmdBits) : Instr :=
  match (opField w).toNat with
  | 0 => .nop
  | 1 => .pack2
  | 2 => .pack4
  | 3 => .unpack2
  | 4 => .unpack4
  | 5 => .classify (planeField w)
  | 6 => .encodeBlock (planeField w) (fmodeField w)
  | 7 => .decodeBlock (planeField w)
  | 8 => .downsample (planeField w)
  | 9 => .upsample (planeField w)
  | 10 => .split
  | 11 => .merge
  | 12 => .encodeImage (fmodeField w) (ilField w)
  | 13 => .decodeImage (ilField w)
  | 14 => .illegalCommand 0
  | _ => .illegalCommand 1

/-- The implemented bits of a 32-bit command word; bits 31:10 are ignored (30_encoding.md R91, R94). -/
def cmdBits (w : Word) : CmdBits := w.extractLsb' 0 10

/-- The command a 32-bit command word selects. -/
def decodeCommandWord (w : Word) : Instr := decodeCmd (cmdBits w)

/-- The command in the four bytes of a command word, the least significant first (20_memory.md R62). -/
def decodeCommand : List Byte → Except DecodeError (Instr × List Byte)
  | b0 :: b1 :: b2 :: b3 :: rest => .ok (decodeCommandWord (b3 ++ b2 ++ b1 ++ b0), rest)
  | _ => .error .truncatedCommand

/-- `control[1:0]`, the mode (30_encoding.md R96). -/
def modeField (control : Byte) : BitVec 2 := control.extractLsb' 0 2

/-- `control[7:2]`, the six high bits (30_encoding.md R96). -/
def baseField (control : Byte) : BitVec 6 := control.extractLsb' 2 6

/-- A record's length from its control byte alone (30_encoding.md R107). -/
def recordLength (control : Byte) : Nat :=
  match (modeField control).toNat with
  | 0 => 2
  | 1 => 6
  | 2 => 18
  | _ => 34

/-- The record kind of a control byte, a range byte and the sample bytes (30_encoding.md R97); `range = 0` is tested first
(R98). -/
def recordInstr (control range : Byte) (samples : List Byte) : Instr :=
  match (modeField control).toNat with
  | 0 => if range = 0 then .skip (baseField control) else .solid (baseField control) range
  | 1 => .half2 (baseField control) range samples
  | 2 => .full2 (baseField control) range samples
  | _ => .full4 (baseField control) range samples

/-- The first record of a byte sequence and the bytes after it (30_encoding.md R95, R107). -/
def decodeRecord : List Byte → Except DecodeError (Instr × List Byte)
  | control :: range :: rest =>
    if rest.length < recordLength control - 2 then .error .truncatedRecord
    else .ok (recordInstr control range (rest.take (recordLength control - 2)), rest.drop (recordLength control - 2))
  | _ => .error .truncatedRecord

/-- Decoding by format. -/
def decode (f : Format) (bytes : List Byte) : Except DecodeError (Instr × List Byte) :=
  match f with
  | .command => decodeCommand bytes
  | .record => decodeRecord bytes

/-- The command word `CMDWORD` of its fields, the reserved bits 0 (30_encoding.md R91, R104). -/
def commandWord (op : BitVec 4) (plane : BitVec 2) (fmode : BitVec 3) (il : Bool) : Word :=
  0#22 ++ BitVec.ofBool il ++ fmode ++ plane ++ op

/-- A control byte of its mode and its six high bits (30_encoding.md R96). -/
def controlByte (base : BitVec 6) (mode : BitVec 2) : Byte := base ++ mode

/-- The command word of a command, with 0 in every field its opcode does not read (30_encoding.md R92, R93); 0 for a record,
which has no command word. -/
def encodeCommandWord : Instr → Word
  | .nop => commandWord 0 0 0 false
  | .pack2 => commandWord 1 0 0 false
  | .pack4 => commandWord 2 0 0 false
  | .unpack2 => commandWord 3 0 0 false
  | .unpack4 => commandWord 4 0 0 false
  | .classify plane => commandWord 5 plane 0 false
  | .encodeBlock plane fmode => commandWord 6 plane fmode false
  | .decodeBlock plane => commandWord 7 plane 0 false
  | .downsample plane => commandWord 8 plane 0 false
  | .upsample plane => commandWord 9 plane 0 false
  | .split => commandWord 10 0 0 false
  | .merge => commandWord 11 0 0 false
  | .encodeImage fmode il => commandWord 12 0 fmode il
  | .decodeImage il => commandWord 13 0 0 il
  | .illegalCommand low => commandWord (7#3 ++ low) 0 0 false
  | .skip _ => 0
  | .solid _ _ => 0
  | .half2 _ _ _ => 0
  | .full2 _ _ _ => 0
  | .full4 _ _ _ => 0

/-- The instruction set a term belongs to. -/
def Instr.format : Instr → Format
  | .skip _ => .record
  | .solid _ _ => .record
  | .half2 _ _ _ => .record
  | .full2 _ _ _ => .record
  | .full4 _ _ _ => .record
  | .nop => .command
  | .pack2 => .command
  | .pack4 => .command
  | .unpack2 => .command
  | .unpack4 => .command
  | .classify _ => .command
  | .encodeBlock _ _ => .command
  | .decodeBlock _ => .command
  | .downsample _ => .command
  | .upsample _ => .command
  | .split => .command
  | .merge => .command
  | .encodeImage _ _ => .command
  | .decodeImage _ => .command
  | .illegalCommand _ => .command

/-- The bytes of an instruction: the four bytes of a command word, or a record as it lies in the stream
(30_encoding.md R91, R95 to R97). -/
def encode (i : Instr) : List Byte :=
  match i with
  | .skip base => [controlByte base 0, 0]
  | .solid base fill => [controlByte base 0, fill]
  | .half2 base range samples => controlByte base 1 :: range :: samples
  | .full2 base range samples => controlByte base 2 :: range :: samples
  | .full4 base range samples => controlByte base 3 :: range :: samples
  | .nop => bytesLE 4 (encodeCommandWord i).toNat
  | .pack2 => bytesLE 4 (encodeCommandWord i).toNat
  | .pack4 => bytesLE 4 (encodeCommandWord i).toNat
  | .unpack2 => bytesLE 4 (encodeCommandWord i).toNat
  | .unpack4 => bytesLE 4 (encodeCommandWord i).toNat
  | .classify _ => bytesLE 4 (encodeCommandWord i).toNat
  | .encodeBlock _ _ => bytesLE 4 (encodeCommandWord i).toNat
  | .decodeBlock _ => bytesLE 4 (encodeCommandWord i).toNat
  | .downsample _ => bytesLE 4 (encodeCommandWord i).toNat
  | .upsample _ => bytesLE 4 (encodeCommandWord i).toNat
  | .split => bytesLE 4 (encodeCommandWord i).toNat
  | .merge => bytesLE 4 (encodeCommandWord i).toNat
  | .encodeImage _ _ => bytesLE 4 (encodeCommandWord i).toNat
  | .decodeImage _ => bytesLE 4 (encodeCommandWord i).toNat
  | .illegalCommand _ => bytesLE 4 (encodeCommandWord i).toNat

/-- How many bytes an instruction's encoding has (30_encoding.md R90, R97). -/
def Instr.encodedLength : Instr → Nat
  | .skip _ => 2
  | .solid _ _ => 2
  | .half2 _ _ _ => 6
  | .full2 _ _ _ => 18
  | .full4 _ _ _ => 34
  | .nop => 4
  | .pack2 => 4
  | .pack4 => 4
  | .unpack2 => 4
  | .unpack4 => 4
  | .classify _ => 4
  | .encodeBlock _ _ => 4
  | .decodeBlock _ => 4
  | .downsample _ => 4
  | .upsample _ => 4
  | .split => 4
  | .merge => 4
  | .encodeImage _ _ => 4
  | .decodeImage _ => 4
  | .illegalCommand _ => 4

/-- The format of an opcode-table row of `nbits` bits: a record row has the 16 bits of its first two bytes or its whole
length (more than 32 bits), every other width is a command word's (log 15). -/
def tableFormat (nbits : Nat) : Format :=
  if nbits = 16 ∨ 32 < nbits then .record else .command

/-- How many bytes the longest instruction of a format has (30_encoding.md R90, R97). -/
def maxLength : Format → Nat
  | .command => 4
  | .record => 34

/-- The instruction the decoder reads from an opcode-table row's bits: `w` laid out as bytes, the first word's low byte
first, every byte above `nbits` zero. -/
def decodeTableWord (nbits w : Nat) : Option Instr :=
  match decode (tableFormat nbits) (bytesLE (maxLength (tableFormat nbits)) w) with
  | .ok (i, _) => some i
  | .error _ => none

end Sys2Proof
end

