-- ==== Sys2Proof/Machine/State.lean ====
section
/-! DEFINITION. The state of the BQC (10_state.md), the moves of the host that are its inputs, and the reasons a step can
stop. INVENTORY.md, '## State', lists every field with its rule. -/

namespace Sys2Proof.Machine

/-- The planes of 10_state.md R30. -/
inductive Plane
  /-- luma -/
  | y
  /-- Cb at full resolution -/
  | cbf
  /-- Cr at full resolution -/
  | crf
  /-- Cb at half resolution -/
  | cbh
  /-- Cr at half resolution -/
  | crh
deriving DecidableEq, Repr

/-- The block modes, numbered 0 to 3 (00_scope.md R11). -/
inductive BlockMode
  | solid
  | half2
  | full2
  | full4
deriving DecidableEq, Repr

/-- The error codes of 60_exceptions.md R261; 6 to 15 are never written. -/
inductive ErrCode
  | none
  | unexpectedEndOfInput
  | ioFailure
  | invalidDimensions
  | illegalCommand
  | argumentRange
deriving DecidableEq, Repr

/-- The stages of 60_exceptions.md R267; 4 to 7 are never written. -/
inductive ErrStage
  | none
  | setup
  | header
  | block
deriving DecidableEq, Repr

/-- `ENG_STATE` (10_state.md R39); `STATUS.BUSY = 1` exactly when it is `run`. -/
inductive EngMode
  | idle
  | run
deriving DecidableEq, Repr

/-- Where a running command stands (10_state.md R40; log 12). -/
inductive Phase
  /-- at the first statement of the command's pseudocode -/
  | command
  /-- a decoding command before the record of its current block -/
  | record
  /-- a decoding command after its last record -/
  | finish
deriving DecidableEq, Repr

/-- One element `(n, plane, bx, by)` of the traversal (44_container.md R231). -/
structure Block where
  index : Nat
  plane : Plane
  x : Nat
  y : Nat
deriving DecidableEq, Repr

/-- The result of one classification, the contents of `CLS_MINMAX` and `CLS_GRAD` (10_state.md R34, R35). -/
structure Cls where
  mode : BlockMode
  max : Byte
  min : Byte
  grad2 : BitVec 9
deriving DecidableEq, Repr

/-- The platform's parameters (00_scope.md R5): no step changes them (log 2). -/
structure Platform where
  /-- `MEM_BYTES` -/
  memBytes : Nat
  /-- `REG_BASE` -/
  regBase : Nat
  /-- `MEM_BASE` -/
  memBase : Nat
deriving DecidableEq, Repr

/-- The registers of 10_state.md R22 but `STATUS` and `ERR_INDEX`, each with its implemented bits (R23). -/
structure Regs where
  /-- `CTRL.IRQ_EN` (R24) -/
  irqEn : Bool
  /-- `CMD` (R25) -/
  cmd : CmdBits
  /-- `WIDTH` (R28) -/
  width : Half
  /-- `HEIGHT` (R28) -/
  height : Half
  /-- `BLK_X` (R29) -/
  blkX : Half
  /-- `BLK_Y` (R29) -/
  blkY : Half
  /-- `Y_BASE` (R30) -/
  yBase : Word
  /-- `CBF_BASE` (R30) -/
  cbfBase : Word
  /-- `CRF_BASE` (R30) -/
  crfBase : Word
  /-- `CBH_BASE` (R30) -/
  cbhBase : Word
  /-- `CRH_BASE` (R30) -/
  crhBase : Word
  /-- `IMG_BASE` (R30) -/
  imgBase : Word
  /-- `STREAM_BASE` (R31) -/
  streamBase : Word
  /-- `STREAM_LEN` (R31) -/
  streamLen : Word
  /-- `STREAM_PTR` (R32) -/
  streamPtr : Word
  /-- `PK_SRC` (R33) -/
  pkSrc : Word
  /-- `PK_DST` (R33) -/
  pkDst : Word
  /-- `PK_COUNT` (R33) -/
  pkCount : Word
  /-- `CLS_MINMAX` and `CLS_GRAD` (R34, R35) -/
  cls : Cls
  /-- `BLK_COUNT` (R36) -/
  blkCount : Word
deriving DecidableEq, Repr

/-- `STATUS` but `BUSY`, and `ERR_INDEX` (10_state.md R26, R27). -/
structure Status where
  done : Bool
  err : Bool
  code : ErrCode
  stage : ErrStage
  /-- `ERR_INDEX` -/
  index : Word
deriving DecidableEq, Repr

/-- Where the engine stands inside an instruction some of whose engine steps are made (10_state.md R40, R41; 60_exceptions.md
R271; log 12). -/
structure Underway where
  /-- the registers as they were before the instruction's first step -/
  entry : Regs
  /-- for each step made, the oldest first, the byte a read of `MEM` returned; none for a write and a register update -/
  answers : List (Option Byte)
deriving DecidableEq, Repr

/-- The engine (10_state.md R39, R40). -/
structure Engine where
  /-- `ENG_STATE` -/
  mode : EngMode
  /-- `ENG_CMD` -/
  cmd : CmdBits
  phase : Phase
  block : Block
  /-- none before the first engine step of an instruction -/
  underway : Option Underway
deriving DecidableEq, Repr

/-- What the host can do to the BQC (70_reset_and_hazards.md R314). -/
inductive HostMove
  /-- a read of `size` bytes at an offset of the register window (10_state.md R23) -/
  | regRead (off : Byte) (size : Nat)
  /-- a write of `size` bytes at an offset of the register window (10_state.md R23) -/
  | regWrite (off : Byte) (size : Nat) (value : Word)
  /-- a read of `n` bytes through the memory port, one move (20_memory.md R69; log 21) -/
  | memRead (off : Nat) (n : Nat)
  /-- a write of bytes through the memory port, one move (20_memory.md R69; log 21) -/
  | memWrite (off : Nat) (bytes : List Byte)
  /-- a read of `n` bytes at a host address, one move (20_memory.md R79; log 17, log 21) -/
  | busRead (addr : Nat) (n : Nat)
  /-- a write of bytes at a host address, one move (20_memory.md R79; log 17, log 21) -/
  | busWrite (addr : Nat) (bytes : List Byte)
  /-- the level of the input `rst` (70_reset_and_hazards.md R300) -/
  | setRst (level : Bool)
deriving DecidableEq, Repr

/-- Who moves (60_exceptions.md R271; log 3, log 4). -/
inductive Turn
  /-- the host makes a move -/
  | host (m : HostMove)
  /-- the engine runs to the end of its instruction, if it runs -/
  | engine
  /-- the engine makes one engine step, one access to `MEM` or one register update, if it runs -/
  | engineStep
  /-- the host polls `STATUS.BUSY` until the engine is idle (30_encoding.md R105) -/
  | wait
deriving DecidableEq, Repr

/-- What the last host read returned (70_reset_and_hazards.md R314; the model's own field, log 5). -/
inductive Reply
  | none
  | word (v : Word)
  | bytes (l : List Byte)
deriving DecidableEq, Repr

/-- The machine. `mem` lists the cells of `MEM` written since power-on, in rising order of address; a cell it does not list
holds its power-on draw (70_reset_and_hazards.md R303; log 1). -/
structure State where
  platform : Platform
  regs : Regs
  status : Status
  engine : Engine
  mem : List Host.Cell
  /-- the level of the input `rst` (log 9) -/
  rst : Bool
  /-- how many draws were made (the model's own, log 6) -/
  draws : Nat
  /-- the pending moves, the next one first (the model's own, log 4) -/
  agenda : List Turn
  /-- what the last host read returned (the model's own, log 5) -/
  reply : Reply
deriving DecidableEq, Repr

/-- Why the machine stops. -/
inductive Fault
  /-- An access to an offset of `MEM` that does not exist, `>= MEM_BYTES` (20_memory.md R60). Raised by a host access through
  the memory port (safe: the spec gives it no effect), and by an engine access, of which R68 says there is none (safe). -/
  | accessOutsideMem (addr : Nat)
deriving DecidableEq, Repr

/-- Why a step has no meaning. -/
inductive Refusal
  /-- Raised by `exec` for an instruction without a meaning; no instruction is (safe). -/
  | notModelled (mnemonic : String)
  /-- Raised by a host register access that is not 32 bits wide (10_state.md R23: "the model refuses it"; safe). -/
  | registerAccessWidth (size : Nat)
  /-- Raised by a host write to `MEM` while `STATUS.BUSY = 1` (20_memory.md R73: "has no move in the model"; safe). -/
  | memWriteWhileBusy
  /-- Raised by a host access at a host address in neither window of the BQC (20_memory.md R79; safe). -/
  | addressOfAnotherDevice (addr : Nat)
deriving DecidableEq, Repr

/-- The reset values of 70_reset_and_hazards.md R304. -/
def Regs.reset : Regs where
  irqEn := false
  cmd := 0
  width := 0
  height := 0
  blkX := 0
  blkY := 0
  yBase := 0
  cbfBase := 0
  crfBase := 0
  cbhBase := 0
  crhBase := 0
  imgBase := 0
  streamBase := 0
  streamLen := 0
  streamPtr := 0
  pkSrc := 0
  pkDst := 0
  pkCount := 0
  cls := { mode := .solid, max := 0, min := 0, grad2 := 0 }
  blkCount := 0

/-- The reset values of 70_reset_and_hazards.md R304. -/
def Status.reset : Status where
  done := false
  err := false
  code := .none
  stage := .none
  index := 0

/-- `ENG_STATE = IDLE`, `ENG_CMD = 0` (10_state.md R44); the position is a DESIGN CHOICE (log 12). -/
def Engine.reset : Engine where
  mode := .idle
  cmd := 0
  phase := .command
  block := { index := 0, plane := .y, x := 0, y := 0 }
  underway := none

/-- The parameters `State.reset` takes: DESIGN CHOICE, the spec leaves them OPEN (00_scope.md R5; log 2). -/
def Platform.default : Platform where
  memBytes := 2 ^ 32
  regBase := 2 ^ 32
  memBase := 0

/-- The machine after power-on and hard reset (70_reset_and_hazards.md R300, R303, R304): every register 0, the engine idle,
no cell of `MEM` written, nothing pending. -/
def State.reset : State where
  platform := Platform.default
  regs := Regs.reset
  status := Status.reset
  engine := Engine.reset
  mem := []
  rst := false
  draws := 0
  agenda := []
  reply := .none

end Sys2Proof.Machine
end

