-- ==== Sys2Proof/Machine/Flags.lean ====
section
/-! DEFINITION. The status word and its fields (10_state.md R26), the interrupt output (R42), and the numbers of the error
codes, stages and block modes. -/

namespace Sys2Proof.Machine

/-- The number of an error code (60_exceptions.md R261). -/
def ErrCode.bits : ErrCode → BitVec 4
  | .none => 0
  | .unexpectedEndOfInput => 1
  | .ioFailure => 2
  | .invalidDimensions => 3
  | .illegalCommand => 4
  | .argumentRange => 5

/-- The number of a stage (60_exceptions.md R267). -/
def ErrStage.bits : ErrStage → BitVec 3
  | .none => 0
  | .setup => 1
  | .header => 2
  | .block => 3

/-- The number of a block mode (00_scope.md R11). -/
def BlockMode.bits : BlockMode → BitVec 2
  | .solid => 0
  | .half2 => 1
  | .full2 => 2
  | .full4 => 3

/-- `STATUS.BUSY`: 1 exactly when `ENG_STATE = RUN` (10_state.md R39). -/
def State.busy (s : State) : Bool := decide (s.engine.mode = .run)

/-- `irq = CTRL.IRQ_EN & STATUS.DONE` (10_state.md R42, 60_exceptions.md R281). -/
def State.irq (s : State) : Bool := s.regs.irqEn && s.status.done

/-- The 32-bit value of `STATUS`: `ERR_STAGE` 10:8, `ERR_CODE` 7:4, bit 3 reserved, `ERR`, `DONE`, `BUSY` (10_state.md R26). -/
def State.statusWord (s : State) : Word :=
  0#21 ++ s.status.stage.bits ++ s.status.code.bits ++ 0#1 ++ BitVec.ofBool s.status.err ++ BitVec.ofBool s.status.done
    ++ BitVec.ofBool s.busy

/-- The 32-bit value of `CTRL`: `START` and `SRST` read 0 (10_state.md R24). -/
def State.ctrlWord (s : State) : Word := 0#29 ++ BitVec.ofBool s.regs.irqEn ++ 0#2

/-- The 32-bit value of `CLS_MINMAX` (10_state.md R34). -/
def Cls.minMaxWord (c : Cls) : Word := 0#14 ++ c.mode.bits ++ c.max ++ c.min

/-- The 32-bit value of `CLS_GRAD` (10_state.md R35). -/
def Cls.gradWord (c : Cls) : Word := 0#23 ++ c.grad2

/-- A write of 1 to `DONE` (bit 1) clears it; a write of 1 to `ERR` (bit 2) clears `ERR`, `ERR_CODE`, `ERR_STAGE` and
`ERR_INDEX` together (10_state.md R26, 60_exceptions.md R279). -/
def Status.acknowledge (t : Status) (value : Word) : Status where
  done := t.done && !value.getLsbD 1
  err := t.err && !value.getLsbD 2
  code := if value.getLsbD 2 then .none else t.code
  stage := if value.getLsbD 2 then .none else t.stage
  index := if value.getLsbD 2 then 0 else t.index

end Sys2Proof.Machine
end

