-- ==== Sys2Proof/Machine/Ops.lean ====
section
/-! DEFINITION. The named operations over memory and registers, the engine's programs as computations over them, taking an
error (60_exceptions.md R275) and completing (R280), starting a command (10_state.md R39), and reset (70_reset_and_hazards.md
R300). -/

namespace Sys2Proof.Machine

/-! ## Memory (20_memory.md R60; log 1) -/

/-- The byte a memory lists at an address; none for a cell nothing has written. -/
def memLookup : List Host.Cell → Nat → Option Byte
  | [], _ => none
  | (b, v) :: rest, a => if a = b then some v else memLookup rest a

/-- A write of one byte, keeping the addresses in rising order. -/
def memInsert : List Host.Cell → Nat → Byte → List Host.Cell
  | [], a, v => [(a, v)]
  | (b, w) :: rest, a, v =>
    if a < b then (a, v) :: (b, w) :: rest
    else if a = b then (a, v) :: rest
    else (b, w) :: memInsert rest a v

/-- What the cell at an address holds: the byte last written, or its power-on draw (70_reset_and_hazards.md R303). -/
def memByte (m : List Host.Cell) (a : Nat) : Byte := (memLookup m a).getD (Config.powerOnByte a)

/-- The canonical form of a memory: addresses strictly rising. An unlisted cell reads as no listed byte (log 1), so no entry
is one that could be left out. -/
def Memory.wf : List Host.Cell → Bool
  | [] => true
  | [_] => true
  | (a, _) :: (b, w) :: rest => decide (a < b) && Memory.wf ((b, w) :: rest)

/-- The byte of `MEM` at an offset, as the machine holds it now. -/
def State.byte (s : State) (a : Nat) : Byte := memByte s.mem a

/-- Every byte of a list written at rising offsets from `a`. -/
def memInsertAll (m : List Host.Cell) (a : Nat) : List Byte → List Host.Cell
  | [] => m
  | v :: rest => memInsertAll (memInsert m a v) (a + 1) rest

/-! ## Regions (20_memory.md R68) -/

/-- A region `[base, base + len)` of `MEM`. -/
structure Region where
  base : Nat
  len : Nat
deriving DecidableEq, Repr

/-- `base + len <= MEM_BYTES` on unbounded integers, for an empty region whatever its base (20_memory.md R68). -/
def inBounds (s : State) (r : Region) : Bool := decide (r.len = 0 ∨ r.base + r.len ≤ s.platform.memBytes)

/-- Every region of a list is in bounds (60_exceptions.md R270: within one check the regions are tested together). -/
def allInBounds (s : State) (rs : List Region) : Bool := rs.all (inBounds s)

/-- The offset lies in the region. -/
def Region.holds (r : Region) (a : Nat) : Bool := decide (r.base ≤ a ∧ a < r.base + r.len)

/-! ## Updates of the state -/

/-- One byte of `MEM` written. -/
def State.setByte (s : State) (a : Nat) (v : Byte) : State := { s with mem := memInsert s.mem a v }

/-- `STREAM_PTR <- p` (10_state.md R32). -/
def State.setStreamPtr (s : State) (p : Nat) : State := { s with regs := { s.regs with streamPtr := BitVec.ofNat 32 p } }

/-- `BLK_COUNT <- n` (10_state.md R36). -/
def State.setBlkCount (s : State) (n : Nat) : State := { s with regs := { s.regs with blkCount := BitVec.ofNat 32 n } }

/-- `WIDTH <- w` (44_container.md R233). -/
def State.setWidth (s : State) (w : Half) : State := { s with regs := { s.regs with width := w } }

/-- `HEIGHT <- h` (44_container.md R233). -/
def State.setHeight (s : State) (h : Half) : State := { s with regs := { s.regs with height := h } }

/-- `WIDTH <- w; HEIGHT <- h` (44_container.md R233). -/
def State.setDims (s : State) (w h : Half) : State := (s.setWidth w).setHeight h

/-- `CLS_MINMAX` and `CLS_GRAD` written with one classification (41_classifier.md R147). -/
def State.setCls (s : State) (c : Cls) : State := { s with regs := { s.regs with cls := c } }

/-- The running command stands at a record, for the block `b` (10_state.md R40). -/
def State.atRecord (s : State) (b : Block) : State := { s with engine := { s.engine with phase := .record, block := b } }

/-- The running command stands after its last record (10_state.md R40). -/
def State.atFinish (s : State) : State := { s with engine := { s.engine with phase := .finish } }

/-- TAKING AN ERROR, `raise Error(code, stage, index)`: the fields of `STATUS` and `ERR_INDEX`, and the engine idle; nothing
else is saved and nothing is rolled back (60_exceptions.md R275). -/
def State.errorEntry (s : State) (code : ErrCode) (stage : ErrStage) (index : Nat) : State :=
  { s with
    status :=
      { done := true, err := true, code := code, stage := stage,
        index := if stage = .block then BitVec.ofNat 32 index else 0 },
    engine := { s.engine with mode := .idle } }

/-- `done()`: `STATUS.DONE <- 1` and the engine idle (60_exceptions.md R280). -/
def State.complete (s : State) : State :=
  { s with status := { s.status with done := true }, engine := { s.engine with mode := .idle } }

/-- THE RETURN FROM AN ERROR OR A COMPLETION, the host's acknowledge: a write to `STATUS` (60_exceptions.md R279). -/
def State.acknowledge (s : State) (value : Word) : State := { s with status := s.status.acknowledge value }

/-- An accepted start (10_state.md R39): `ENG_CMD` copies `CMD`, the last command's report is cleared, the engine runs. -/
def State.start (s : State) : State :=
  { s with
    status := Status.reset,
    regs := { s.regs with blkCount := 0 },
    engine := { s.engine with mode := .run, cmd := s.regs.cmd, phase := .command, underway := none } }

/-- The reset state of every register and of the engine; `MEM` is not changed (10_state.md R44, 70_reset_and_hazards.md
R300, R301). -/
def State.resetRegisters (s : State) : State :=
  { s with regs := Regs.reset, status := Status.reset, engine := Engine.reset }

/-- Between two instructions: no engine step of the next one is made (10_state.md R40). -/
def State.atBoundary (s : State) : State := { s with engine := { s.engine with underway := none } }

/-- A state cut down to what the pseudocode reads but cells of `MEM`: the platform, the registers but `IRQ_EN`, and the
engine's command and position (00_scope.md R8). No move of the host changes it while the engine runs (10_state.md R37). -/
def State.view (s : State) : State :=
  { State.reset with
    platform := s.platform,
    regs := { s.regs with irqEn := false },
    engine := { s.engine with underway := none } }

/-! ## The engine's programs

A program is a tree of engine steps (60_exceptions.md R271): accesses to one cell of `MEM`, register updates, an error. The
same tree is run to its end (`Prog.run`), step by step (`Prog.once`), or up to a reset (`Prog.cut`). -/

/-- One register update of the pseudocode, one engine step. -/
inductive RegUpdate
  /-- `STREAM_PTR <- p` (10_state.md R32) -/
  | streamPtr (p : Nat)
  /-- `BLK_COUNT <- n` (10_state.md R36) -/
  | blkCount (n : Nat)
  /-- `WIDTH <- w` (44_container.md R233) -/
  | width (w : Half)
  /-- `HEIGHT <- h` (44_container.md R233) -/
  | height (h : Half)
  /-- `CLS_MINMAX` and `CLS_GRAD`, written together (10_state.md R35) -/
  | cls (c : Cls)
  /-- the loop index moves to a block's record (10_state.md R40) -/
  | atRecord (b : Block)
  /-- the loop ends (10_state.md R40) -/
  | atFinish
  /-- `done()`, one step (60_exceptions.md R280) -/
  | done
deriving DecidableEq, Repr

/-- What a register update does. -/
def RegUpdate.apply : RegUpdate → State → State
  | .streamPtr p, s => s.setStreamPtr p
  | .blkCount n, s => s.setBlkCount n
  | .width w, s => s.setWidth w
  | .height h, s => s.setHeight h
  | .cls c, s => s.setCls c
  | .atRecord b, s => s.atRecord b
  | .atFinish, s => s.atFinish
  | .done, s => s.complete

/-- A program that ends in an answer of type `ρ`. -/
inductive Prog (ρ : Type) : Type
  /-- the program's end -/
  | finish (answer : ρ)
  /-- the registers are looked at; no step -/
  | look (next : State → Prog ρ)
  /-- `MemRead(a, 1)`, one step -/
  | read (a : Nat) (next : Byte → Prog ρ)
  /-- `MemWrite(a, 1, v)`, one step -/
  | write (a : Nat) (v : Byte) (next : Prog ρ)
  /-- a register update, one step -/
  | set (u : RegUpdate) (next : Prog ρ)
  /-- `raise Error(code, stage, index)`, one step -/
  | fail (code : ErrCode) (stage : ErrStage) (index : Nat)

/-- A part of a program, which answers an `α` to what follows it. -/
abbrev Eng (ρ α : Type) : Type := ContT ρ Prog α

/-- Why a program ends before its last statement. -/
inductive Stop
  /-- an error was raised (60_exceptions.md R275); the state it leaves -/
  | halt (s : State)
  /-- the machine stops -/
  | fault (f : Fault)
deriving DecidableEq, Repr

variable {ρ : Type}

/-- The registers as they are now. -/
def state : Eng ρ State := fun next => .look next

/-- `MemRead(a, 1)` (00_scope.md R8). -/
def memRead (a : Nat) : Eng ρ Byte := fun next => .read a next

/-- `MemWrite(a, 1, v)` (00_scope.md R8). -/
def memWrite (a : Nat) (v : Byte) : Eng ρ Unit := fun next => .write a v (next ())

/-- A register update of the pseudocode. -/
def update (u : RegUpdate) : Eng ρ Unit := fun next => .set u (next ())

/-- `raise Error(code, stage, index)`: the error entry, and the command stops at that point (00_scope.md R8). -/
def raise {α : Type} (code : ErrCode) (stage : ErrStage) (index : Nat) : Eng ρ α := fun _ => .fail code stage index

/-- `if not c: raise Error(code, stage, index)`. -/
def require (c : Bool) (code : ErrCode) (stage : ErrStage) (index : Nat) : Eng ρ Unit :=
  if c then pure () else raise code stage index

/-- `done()` (60_exceptions.md R280). -/
def done : Eng ρ Unit := update .done

/-- `for i in first .. first + count - 1: body` (00_scope.md R8). -/
def forFrom (first : Nat) : Nat → (Nat → Eng ρ Unit) → Eng ρ Unit
  | 0, _ => pure ()
  | count + 1, body => do
    body first
    forFrom (first + 1) count body

/-- `for i in 0 .. count - 1: body`. -/
def forN (count : Nat) (body : Nat → Eng ρ Unit) : Eng ρ Unit := forFrom 0 count body

/-- The values of a computation for `i = first, ..., first + count - 1`, in that order. -/
def listFrom {α : Type} (first : Nat) : Nat → (Nat → Eng ρ α) → Eng ρ (List α)
  | 0, _ => pure []
  | count + 1, f => do
    let v ← f first
    let rest ← listFrom (first + 1) count f
    pure (v :: rest)

/-- The values of a computation for `i = 0, ..., count - 1`, in that order. -/
def listN {α : Type} (count : Nat) (f : Nat → Eng ρ α) : Eng ρ (List α) := listFrom 0 count f

/-- `for k in 0 .. len(bytes) - 1: MemWrite(a + k, 1, bytes[k])`. -/
def writeBytes (a : Nat) (bytes : List Byte) : Eng ρ Unit := forN bytes.length fun k => memWrite (a + k) (bytes.getD k 0)

/-! ### A program run to its end -/

/-- Every step of a program, one after the other (20_memory.md R70): its answer and the state it leaves. -/
def Prog.run : Prog ρ → State → Except Stop (ρ × State)
  | .finish answer, s => .ok (answer, s)
  | .look next, s => (next s.view).run s
  | .read a next, s =>
    if a < s.platform.memBytes then (next (s.byte a)).run s else .error (.fault (.accessOutsideMem a))
  | .write a v next, s =>
    if a < s.platform.memBytes then next.run (s.setByte a v) else .error (.fault (.accessOutsideMem a))
  | .set u next, s => next.run (u.apply s)
  | .fail code stage index, s => .error (.halt (s.errorEntry code stage index))

/-- The last state of a run: at its end or after an error entry. -/
def lastState : Except Stop (Unit × State) → Host.Outcome State Fault Refusal
  | .ok (_, t) => .next t
  | .error (.halt t) => .next t
  | .error (.fault f) => .fault f

/-- A program run to its end from a state: its last state, whether by `done()`, by an error entry or (for a command that goes
on with records) before its first record. -/
def runToEnd (p : Eng Unit Unit) (s : State) : Host.Outcome State Fault Refusal := lastState ((p .finish).run s)

/-! ### One engine step (60_exceptions.md R271) -/

/-- The next engine step of a program, after what it looks at. -/
def Prog.settle : Prog ρ → State → Prog ρ
  | .finish answer, _ => .finish answer
  | .look next, s => (next s.view).settle s
  | .read a next, _ => .read a next
  | .write a v next, _ => .write a v next
  | .set u next, _ => .set u next
  | .fail code stage index, _ => .fail code stage index

/-- What one engine step leaves. -/
inductive Stepped
  /-- other steps of the program follow; what a read returned -/
  | more (answer : Option Byte) (s : State)
  /-- it was the program's last step -/
  | ended (s : State)
  /-- the machine stops -/
  | fault (f : Fault)
deriving DecidableEq, Repr

/-- A step is made that left `s`: `next` says whether others follow. -/
def Prog.afterStep (next : Prog ρ) (answer : Option Byte) (s : State) : Stepped :=
  match next.settle s with
  | .finish _ => .ended s
  | _ => .more answer s

/-- One engine step of a program. -/
def Prog.once (p : Prog ρ) (s : State) : Stepped :=
  match p.settle s with
  | .finish _ => .ended s
  | .look _ => .ended s
  | .read a next =>
    if a < s.platform.memBytes then (next (s.byte a)).afterStep (some (s.byte a)) s else .fault (.accessOutsideMem a)
  | .write a v next =>
    if a < s.platform.memBytes then next.afterStep none (s.setByte a v) else .fault (.accessOutsideMem a)
  | .set u next => next.afterStep none (u.apply s)
  | .fail code stage index => .ended (s.errorEntry code stage index)

/-- What is left of a program after the steps whose answers are listed, from the registers `v` before the first of them. -/
def Prog.replay : Prog ρ → State → List (Option Byte) → Prog ρ
  | .finish answer, _, _ => .finish answer
  | .look next, v, answers => (next v).replay v answers
  | .read a next, v, answers =>
    match answers with
    | [] => .read a next
    | answer :: rest => (next (answer.getD 0)).replay v rest
  | .write a x next, v, answers =>
    match answers with
    | [] => .write a x next
    | _ :: rest => next.replay v rest
  | .set u next, v, answers =>
    match answers with
    | [] => .set u next
    | _ :: rest => next.replay (u.apply v).view rest
  | .fail code stage index, _, _ => .fail code stage index

/-! ### A program cut short -/

/-- The state after at most `k` engine steps of a program (70_reset_and_hazards.md R301; F6). -/
def Prog.cut : Prog ρ → Nat → State → Except Fault State
  | .finish _, _, s => .ok s
  | .look next, k, s => (next s.view).cut k s
  | .read a next, k, s =>
    match k with
    | 0 => .ok s
    | k + 1 => if a < s.platform.memBytes then (next (s.byte a)).cut k s else .error (.accessOutsideMem a)
  | .write a v next, k, s =>
    match k with
    | 0 => .ok s
    | k + 1 => if a < s.platform.memBytes then next.cut k (s.setByte a v) else .error (.accessOutsideMem a)
  | .set u next, k, s =>
    match k with
    | 0 => .ok s
    | k + 1 => next.cut k (u.apply s)
  | .fail code stage index, k, s =>
    match k with
    | 0 => .ok s
    | _ + 1 => .ok (s.errorEntry code stage index)

end Sys2Proof.Machine
end

