-- ==== Sys2Proof/Machine/Operands.lean ====
section
/-! DEFINITION. The operand forms: the fields of a command (30_encoding.md R93), plane geometry and addressing (10_state.md
R43, 20_memory.md R64 to R67), the traversal (44_container.md R230, R231), and the operands of a record (30_encoding.md R96). -/

namespace Sys2Proof.Machine

variable {ρ : Type}

/-! ## Planes -/

/-- `BASE(P)` (20_memory.md R64). -/
def planeBase (s : State) : Plane → Nat
  | .y => s.regs.yBase.toNat
  | .cbf => s.regs.cbfBase.toNat
  | .crf => s.regs.crfBase.toNat
  | .cbh => s.regs.cbhBase.toNat
  | .crh => s.regs.crhBase.toNat

/-- `W = WIDTH[15:0]`. -/
def imageWidth (s : State) : Nat := s.regs.width.toNat

/-- `H = HEIGHT[15:0]`. -/
def imageHeight (s : State) : Nat := s.regs.height.toNat

/-- The dimension of a plane where the image has `d` (10_state.md R43). -/
def planeDim (d : Nat) : Plane → Nat
  | .y => d
  | .cbf => d
  | .crf => d
  | .cbh => d / 2
  | .crh => d / 2

/-- `PW(P)` (10_state.md R43). -/
def planeWidth (s : State) (p : Plane) : Nat := planeDim (imageWidth s) p

/-- `PH(P)` (10_state.md R43). -/
def planeHeight (s : State) (p : Plane) : Nat := planeDim (imageHeight s) p

/-- `addr(P, x, y) = BASE(P) + x + y * PW(P)` (20_memory.md R64). -/
def planeAddr (s : State) (p : Plane) (x y : Nat) : Nat := planeBase s p + x + y * planeWidth s p

/-- The region of a plane (20_memory.md R65). -/
def planeRegion (s : State) (p : Plane) : Region :=
  { base := planeBase s p, len := planeWidth s p * planeHeight s p }

/-- The address of channel `c` of pixel `(x, y)` of the interleaved image (20_memory.md R67). -/
def imageAddr (s : State) (x y c : Nat) : Nat := s.regs.imgBase.toNat + 3 * (x + y * imageWidth s) + c

/-- The region of the interleaved image (20_memory.md R67). -/
def imageRegion (s : State) : Region :=
  { base := s.regs.imgBase.toNat, len := 3 * imageWidth s * imageHeight s }

/-- The stream's region (20_memory.md R66). -/
def streamRegion (s : State) : Region := { base := s.regs.streamBase.toNat, len := s.regs.streamLen.toNat }

/-- The address of stream offset `k` (20_memory.md R66). -/
def streamAddr (s : State) (k : Nat) : Nat := s.regs.streamBase.toNat + k

/-- `Px(P, x, y)` (00_scope.md R8). -/
def px (p : Plane) (x y : Nat) : Eng ρ Byte := do
  let s ← state
  memRead (planeAddr s p x y)

/-- `PxW(P, x, y, v)` (00_scope.md R8). -/
def pxW (p : Plane) (x y : Nat) (v : Byte) : Eng ρ Unit := do
  let s ← state
  memWrite (planeAddr s p x y) v

/-! ## Command fields -/

/-- `validDims(WIDTH, HEIGHT)`: each a positive multiple of 16 (60_exceptions.md R262). -/
def validDims (w h : Half) : Bool :=
  decide (0 < w.toNat ∧ 0 < h.toNat ∧ w.toNat % 16 = 0 ∧ h.toNat % 16 = 0)

/-- `PLANE` of the block commands: 0 `Y`, 1 `CBH`, 2 `CRH`, 3 reserved (30_encoding.md R93). -/
def blockPlane (f : BitVec 2) : Option Plane :=
  match f.toNat with
  | 0 => some .y
  | 1 => some .cbh
  | 2 => some .crh
  | _ => none

/-- `PLANE` of the resampling commands, as (full plane, half plane): 1 Cb, 2 Cr, 0 and 3 reserved (30_encoding.md R93). -/
def chromaPlanes (f : BitVec 2) : Option (Plane × Plane) :=
  match f.toNat with
  | 1 => some (.cbf, .cbh)
  | 2 => some (.crf, .crh)
  | _ => none

/-- `FMODE` (30_encoding.md R93): none where the value is reserved; `some none` for `AUTO`; `some (some m)` where `m` is
forced. -/
def forcedMode (f : BitVec 3) : Option (Option BlockMode) :=
  match f.toNat with
  | 0 => some none
  | 1 => some (some .solid)
  | 2 => some (some .half2)
  | 3 => some (some .full2)
  | 4 => some (some .full4)
  | _ => none

/-- The window of a block command lies inside its plane: `bx + 8 <= PW(P)` and `by + 8 <= PH(P)` (60_exceptions.md R266). -/
def windowInside (s : State) (p : Plane) : Bool :=
  decide (s.regs.blkX.toNat + 8 ≤ planeWidth s p ∧ s.regs.blkY.toNat + 8 ≤ planeHeight s p)

/-- The block a single-block command works on: index 0, at `(BLK_X, BLK_Y)` of its plane (10_state.md R29). -/
def singleBlock (s : State) (p : Plane) : Block :=
  { index := 0, plane := p, x := s.regs.blkX.toNat, y := s.regs.blkY.toNat }

/-! ## Traversal -/

/-- `NB`, how many blocks an image has (44_container.md R230). -/
def blockTotal (w h : Nat) : Nat := 6 * (w / 16) * (h / 16)

/-- The six blocks of tile `(tx, ty)` (44_container.md R231). -/
def tileBlocks (w tx ty : Nat) : List Block :=
  let n0 := 6 * (ty * (w / 16) + tx)
  [{ index := n0 + 0, plane := .y, x := 16 * tx, y := 16 * ty },
   { index := n0 + 1, plane := .y, x := 16 * tx + 8, y := 16 * ty },
   { index := n0 + 2, plane := .y, x := 16 * tx, y := 16 * ty + 8 },
   { index := n0 + 3, plane := .y, x := 16 * tx + 8, y := 16 * ty + 8 },
   { index := n0 + 4, plane := .cbh, x := 8 * tx, y := 8 * ty },
   { index := n0 + 5, plane := .crh, x := 8 * tx, y := 8 * ty }]

/-- `traversal(W, H)`, as 44_container.md R231 writes it. -/
def traversal (w h : Nat) : List Block :=
  (List.range (h / 16)).flatMap fun ty => (List.range (w / 16)).flatMap fun tx => tileBlocks w tx ty

/-- The element of the traversal with block index `n`: tile `n / 6`, position `n % 6` (44_container.md R230). The encoder and
the decoder both take their blocks from it. -/
def blockAt (w n : Nat) : Block :=
  let t := n / 6
  let tx := t % (w / 16)
  let ty := t / (w / 16)
  match n % 6 with
  | 0 => { index := n, plane := .y, x := 16 * tx, y := 16 * ty }
  | 1 => { index := n, plane := .y, x := 16 * tx + 8, y := 16 * ty }
  | 2 => { index := n, plane := .y, x := 16 * tx, y := 16 * ty + 8 }
  | 3 => { index := n, plane := .y, x := 16 * tx + 8, y := 16 * ty + 8 }
  | 4 => { index := n, plane := .cbh, x := 8 * tx, y := 8 * ty }
  | _ => { index := n, plane := .crh, x := 8 * tx, y := 8 * ty }

/-- The 64 samples of a block in raster order, each read once (41_classifier.md R140). -/
def readWindow (b : Block) : Eng ρ (List Byte) := listN 64 fun i => px b.plane (b.x + i % 8) (b.y + i / 8)

/-- The 64 samples of a block written in raster order (42_block_codec.md, part 3). -/
def writeWindow (b : Block) (f : Nat → Nat → Byte) : Eng ρ Unit :=
  forN 8 fun y => forN 8 fun x => pxW b.plane (b.x + x) (b.y + y) (f x y)

/-! ## Record operands (30_encoding.md R96) -/

/-- `baseH = (control & 0xFC) | 2`. -/
def baseH (base : BitVec 6) : Nat := ((controlByte base 0 &&& 0xFC) ||| 2).toNat

/-- `baseF = control`, the raw byte, for mode 2. -/
def baseF2 (base : BitVec 6) : Nat := (controlByte base 2).toNat

/-- `baseF = control`, the raw byte, for mode 3. -/
def baseF4 (base : BitVec 6) : Nat := (controlByte base 3).toNat

end Sys2Proof.Machine
end

