-- ==== Sys2Proof/Machine/BitPacker.lean ====
section
/-! DEFINITION. The BitPacker (40_bitpacker.md): packing and unpacking of 2-bit and 4-bit levels, and the commands PACK2,
PACK4, UNPACK2, UNPACK4. -/

namespace Sys2Proof.Machine

variable {ρ : Type}

/-- How many levels of `w` bits a byte holds. -/
def perByte (w : Nat) : Nat := 8 / w

/-- How many bytes `n` levels of `w` bits take: `(n + 3) // 4` or `(n + 1) // 2` (40_bitpacker.md R120, R121). -/
def packedLength (w n : Nat) : Nat := (n + (perByte w - 1)) / perByte w

/-- The low `w` bits of a byte, which is all the packer keeps of a level (40_bitpacker.md R124). -/
def levelMask (w : Nat) (v : Byte) : Byte := v &&& BitVec.ofNat 8 (2 ^ w - 1)

/-- The levels of one byte packed, the first in its lowest bits, bits no level fills 0 (40_bitpacker.md R120, R121). -/
def packByte (w : Nat) : List Byte → Byte
  | [] => 0
  | l :: rest => levelMask w l ||| (packByte w rest <<< w)

/-- `pack2` (`w = 2`) and `pack4` (`w = 4`) (40_bitpacker.md R120, R121). -/
def packLevels (w : Nat) (levels : List Byte) : List Byte :=
  (List.range (packedLength w levels.length)).map fun k => packByte w ((levels.drop (perByte w * k)).take (perByte w))

/-- Level `j` of a packed byte (40_bitpacker.md R122, R123). -/
def unpackLevel (w : Nat) (b : Byte) (j : Nat) : Byte := levelMask w (b >>> (w * j))

/-- `unpack2` (`w = 2`) and `unpack4` (`w = 4`) of `n` levels (40_bitpacker.md R122, R123). -/
def unpackLevels (w : Nat) (bytes : List Byte) (n : Nat) : List Byte :=
  (List.range n).map fun i => unpackLevel w (bytes.getD (i / perByte w) 0) (i % perByte w)

/-- PACK: each output byte is written after the input bytes it packs are read (40_bitpacker.md R125, R126). -/
def packProgram (w : Nat) : Eng ρ Unit := do
  let s ← state
  let n := s.regs.pkCount.toNat
  let src := s.regs.pkSrc.toNat
  let dst := s.regs.pkDst.toNat
  let nb := packedLength w n
  require (allInBounds s [{ base := src, len := n }, { base := dst, len := nb }]) .ioFailure .setup 0
  forN nb fun k => do
    let levels ← listN (min (perByte w) (n - perByte w * k)) fun j => memRead (src + perByte w * k + j)
    memWrite (dst + k) (packByte w levels)
  done

/-- UNPACK: each packed byte is read once, then its levels are written (40_bitpacker.md R127, R128). -/
def unpackProgram (w : Nat) : Eng ρ Unit := do
  let s ← state
  let n := s.regs.pkCount.toNat
  let src := s.regs.pkSrc.toNat
  let dst := s.regs.pkDst.toNat
  let nb := packedLength w n
  require (allInBounds s [{ base := src, len := nb }, { base := dst, len := n }]) .ioFailure .setup 0
  forN nb fun k => do
    let b ← memRead (src + k)
    forN (min (perByte w) (n - perByte w * k)) fun j => memWrite (dst + perByte w * k + j) (unpackLevel w b j)
  done

/-- The program of `PACK2` (40_bitpacker.md R125). -/
def pack2Program : Eng ρ Unit := packProgram 2

/-- The program of `PACK4` (40_bitpacker.md R126). -/
def pack4Program : Eng ρ Unit := packProgram 4

/-- The program of `UNPACK2` (40_bitpacker.md R127). -/
def unpack2Program : Eng ρ Unit := unpackProgram 2

/-- The program of `UNPACK4` (40_bitpacker.md R128). -/
def unpack4Program : Eng ρ Unit := unpackProgram 4

/-- `PACK2` (40_bitpacker.md R125). -/
def execPack2 (s : State) : Host.Outcome State Fault Refusal := runToEnd pack2Program s

/-- `PACK4` (40_bitpacker.md R126). -/
def execPack4 (s : State) : Host.Outcome State Fault Refusal := runToEnd pack4Program s

/-- `UNPACK2` (40_bitpacker.md R127). -/
def execUnpack2 (s : State) : Host.Outcome State Fault Refusal := runToEnd unpack2Program s

/-- `UNPACK4` (40_bitpacker.md R128). -/
def execUnpack4 (s : State) : Host.Outcome State Fault Refusal := runToEnd unpack4Program s

end Sys2Proof.Machine
end

