-- ==== Sys2Proof/Machine/Params.lean ====
section
/-! DEFINITION. The values of the parameters 00_scope.md R5 gives, each one edit to correct (D39; log 10). -/

namespace Sys2Proof.Machine

/-- `GRAD_THRESHOLD` (00_scope.md R5). -/
def gradThreshold : Nat := 15

/-- `QBIAS = 49/100`, the numerator (00_scope.md R5). -/
def qbiasNum : Nat := 49

/-- `QBIAS = 49/100`, the denominator (00_scope.md R5). -/
def qbiasDen : Nat := 100

/-- `DBIAS = 2/5`, the numerator (00_scope.md R5). -/
def dbiasNum : Nat := 2

/-- `DBIAS = 2/5`, the denominator (00_scope.md R5). -/
def dbiasDen : Nat := 5

/-- `GRAD_WINDOW = INTERIOR` (00_scope.md R5, D8). -/
def gradWindow : Config.GradWindow := .interior

/-- `AVG_ROUND = TRUNC` (00_scope.md R5, D10). -/
def avgRound : Config.AvgRound := .trunc

/-- `DEQ_EVAL = EXACT` (00_scope.md R5, D9). -/
def deqEval : Config.DeqEval := .exactly

end Sys2Proof.Machine
end

