-- ==== Sys2Proof/Machine/Classifier.lean ====
section
/-! DEFINITION. The BlockClassifier (41_classifier.md): the classification of 64 samples, and the command CLASSIFY. -/

namespace Sys2Proof.Machine

variable {ρ : Type}

/-- `p(x, y)` of 64 samples in raster order (00_scope.md R9). -/
def sampleAt (p : List Byte) (x y : Nat) : Nat := (p.getD (y * 8 + x) 0).toNat

/-- `mn`, the least of the samples (41_classifier.md R141). -/
def minSample (p : List Byte) : Nat := p.foldl (fun m v => min m v.toNat) 255

/-- `mx`, the greatest of the samples (41_classifier.md R141). -/
def maxSample (p : List Byte) : Nat := p.foldl (fun m v => max m v.toNat) 0

/-- `abs(a - b)` (00_scope.md R7). -/
def absDiff (a b : Nat) : Nat := if a ≤ b then b - a else a - b

/-- The positions of `WIN` (41_classifier.md R142). -/
def gradPositions (g : Config.GradWindow) : List (Nat × Nat) :=
  match g with
  | .interior => (List.range' 1 6).flatMap fun y => (List.range' 1 6).map fun x => (x, y)
  | .forward => (List.range' 0 7).flatMap fun y => (List.range' 0 7).map fun x => (x, y)

/-- The term of `GRAD2` at one position (41_classifier.md R142). -/
def gradAt (p : List Byte) (xy : Nat × Nat) : Nat :=
  absDiff (sampleAt p xy.1 xy.2) (sampleAt p (xy.1 + 1) xy.2) + absDiff (sampleAt p xy.1 xy.2) (sampleAt p xy.1 (xy.2 + 1))

/-- `GRAD2` under a reading of the window (41_classifier.md R142). -/
def grad2 (g : Config.GradWindow) (p : List Byte) : Nat := ((gradPositions g).map (gradAt p)).foldl max 0

/-- The decision, in order (41_classifier.md R144); `maxGrad < GRAD_THRESHOLD` as `GRAD2 < 2 * GRAD_THRESHOLD` (R143). -/
def decideMode (mn mx g : Nat) : BlockMode :=
  if mx = mn then .solid else if g < 2 * gradThreshold then .half2 else .full2

/-- `classify` under a reading of the gradient window (41_classifier.md R144). -/
def classifyWith (g : Config.GradWindow) (p : List Byte) : Cls where
  mode := decideMode (minSample p) (maxSample p) (grad2 g p)
  max := BitVec.ofNat 8 (maxSample p)
  min := BitVec.ofNat 8 (minSample p)
  grad2 := BitVec.ofNat 9 (grad2 g p)

/-- `classify` of this hardware (41_classifier.md R144). -/
def classifyBlock (p : List Byte) : Cls := classifyWith gradWindow p

/-- The checks of the single-block commands after `PLANE`, in order: dimensions, window, regions (60_exceptions.md R270). -/
def requireBlock (p : Plane) (regions : State → List Region) : Eng ρ Unit := do
  let s ← state
  require (validDims s.regs.width s.regs.height) .invalidDimensions .setup 0
  require (windowInside s p) .argumentRange .setup 0
  require (allInBounds s (regions s)) .ioFailure .setup 0

/-- The program of `CLASSIFY` (41_classifier.md R146). -/
def classifyProgram (plane : BitVec 2) : Eng ρ Unit := do
  let some p := blockPlane plane | raise .illegalCommand .setup 0
  requireBlock p fun s => [planeRegion s p]
  let s ← state
  let samples ← readWindow (singleBlock s p)
  update (.cls (classifyBlock samples))
  done

/-- `CLASSIFY` (41_classifier.md R146). -/
def execClassify (plane : BitVec 2) (s : State) : Host.Outcome State Fault Refusal := runToEnd (classifyProgram plane) s

end Sys2Proof.Machine
end

