-- ==== Sys2Proof/Machine/Codec.lean ====
section
/-! DEFINITION. The BlockCodec (42_block_codec.md): the quantizer and the four encodings, the dequantizers and the
reconstruction, the five record kinds, and the commands ENCODE_BLOCK and DECODE_BLOCK. -/

namespace Sys2Proof.Machine

variable {ρ : Type}

/-! ## Encoder -/

/-- `Qz(d, R, Q) = floor(d * Q / R + QBIAS)`, exactly, and 0 when `R = 0` (42_block_codec.md R160). -/
def quantize (d r q : Nat) : Nat := if r = 0 then 0 else (qbiasDen * d * q + qbiasNum * r) / (qbiasDen * r)

/-- The level of a sample against the block's minimum and range (42_block_codec.md R160). -/
def levelOf (mn r q sample : Nat) : Byte := BitVec.ofNat 8 (quantize (sample - mn) r q)

/-- `encSolid` (42_block_codec.md R162). -/
def encSolid (mn : Byte) : List Byte := [0x00, if mn = 0 then 1 else mn]

/-- The 16 samples at the even positions, index `gy*4 + gx` (42_block_codec.md R163). -/
def evenSamples (p : List Byte) : List Nat := (List.range 16).map fun i => sampleAt p (2 * (i % 4)) (2 * (i / 4))

/-- The 64 samples, index `y*8 + x` (42_block_codec.md R164). -/
def allSamples (p : List Byte) : List Nat := (List.range 64).map fun i => sampleAt p (i % 8) (i / 8)

/-- `encHalf2` (42_block_codec.md R163). -/
def encHalf2 (p : List Byte) (mn mx : Byte) : List Byte :=
  ((mn &&& 0xFC) ||| 1) :: (mx - mn) ::
    packLevels 2 ((evenSamples p).map (levelOf mn.toNat (mx.toNat - mn.toNat) 3))

/-- `encFull2` (42_block_codec.md R164). -/
def encFull2 (p : List Byte) (mn mx : Byte) : List Byte :=
  ((mn &&& 0xFC) ||| 2) :: (mx - mn) ::
    packLevels 2 ((allSamples p).map (levelOf mn.toNat (mx.toNat - mn.toNat) 3))

/-- `encFull4` (42_block_codec.md R165). -/
def encFull4 (p : List Byte) (mn mx : Byte) : List Byte :=
  ((mn &&& 0xFC) ||| 3) :: (mx - mn) ::
    packLevels 4 ((allSamples p).map (levelOf mn.toNat (mx.toNat - mn.toNat) 15))

/-- `encodeRecord(p, m, mn, mx)` (42_block_codec.md R166). -/
def encodeRecord (p : List Byte) (m : BlockMode) (mn mx : Byte) : List Byte :=
  match m with
  | .solid => encSolid mn
  | .half2 => encHalf2 p mn mx
  | .full2 => encFull2 p mn mx
  | .full4 => encFull4 p mn mx

/-- One block read, classified, encoded and appended to the stream, for index `n`: the body ENCODE_BLOCK and ENCODE_IMAGE
share (42_block_codec.md R167, 44_container.md R237). The mode is `FMODE`'s when it forces one, else the classifier's (R166). -/
def encodeStep (forced : Option BlockMode) (b : Block) : Eng ρ Unit := do
  let p ← readWindow b
  let c := classifyBlock p
  update (.cls c)
  let record := encodeRecord p (forced.getD c.mode) c.min c.max
  let s ← state
  let ptr := s.regs.streamPtr.toNat
  require (decide (ptr + record.length ≤ s.regs.streamLen.toNat)) .ioFailure .block b.index
  writeBytes (streamAddr s ptr) record
  update (.streamPtr (ptr + record.length))
  update (.blkCount (b.index + 1))

/-- The program of `ENCODE_BLOCK` (42_block_codec.md R167). -/
def encodeBlockProgram (plane : BitVec 2) (fmode : BitVec 3) : Eng ρ Unit := do
  let some p := blockPlane plane | raise .illegalCommand .setup 0
  let some forced := forcedMode fmode | raise .illegalCommand .setup 0
  requireBlock p fun s => [planeRegion s p, streamRegion s]
  let s ← state
  encodeStep forced (singleBlock s p)
  done

/-- `ENCODE_BLOCK` (42_block_codec.md R167). -/
def execEncodeBlock (plane : BitVec 2) (fmode : BitVec 3) (s : State) : Host.Outcome State Fault Refusal :=
  runToEnd (encodeBlockProgram plane fmode) s

/-! ## Decoder functions -/

/-- `floor(level / Q * R)` in a number format: the exact quotient, but one lower under binary64 at the three points
93_implementation_defined.md section 4 lists (42_block_codec.md R168 to R170). -/
def levelSpan (ev : Config.DeqEval) (q level r : Nat) : Nat :=
  if ev = .binary64 ∧ q = 15 ∧ level = 11 ∧ (r = 75 ∨ r = 150 ∨ r = 165) then level * r / q - 1 else level * r / q

/-- `clamp(0, 255, floor(level / Q * R) + base)` (42_block_codec.md R168 to R170). -/
def dequantWith (ev : Config.DeqEval) (q base r : Nat) (level : Byte) : Byte :=
  BitVec.ofNat 8 (min 255 (levelSpan ev q level.toNat r + base))

/-- `vH(l)` (42_block_codec.md R168): an integer quotient in every number format. -/
def dequantHalf2 (base : BitVec 6) (range level : Byte) : Byte := dequantWith deqEval 3 (baseH base) range.toNat level

/-- `vF2(l)` (42_block_codec.md R169). -/
def dequantFull2 (base : BitVec 6) (range level : Byte) : Byte := dequantWith deqEval 3 (baseF2 base) range.toNat level

/-- `vF4(l)` (42_block_codec.md R170). -/
def dequantFull4 (base : BitVec 6) (range level : Byte) : Byte := dequantWith deqEval 15 (baseF4 base) range.toNat level

/-- The grid positions `(j, i)`, row and column, that `Recon` averages at `(x, y)`, in the order it reads them: the neighbour
to the right or below is clamped to the last column or row (42_block_codec.md R171). -/
def reconPositions (gw gh x y : Nat) : List (Nat × Nat) :=
  let i0 := x / 2
  let j0 := y / 2
  let i1 := min (i0 + 1) (gw - 1)
  let j1 := min (j0 + 1) (gh - 1)
  if x % 2 = 0 then
    if y % 2 = 0 then [(j0, i0)] else [(j0, i0), (j1, i0)]
  else
    if y % 2 = 0 then [(j0, i0), (j0, i1)] else [(j0, i0), (j0, i1), (j1, i0), (j1, i1)]

/-- `avg2` and `avg4` (and a single value as it is) under a rounding (42_block_codec.md R171). -/
def averageWith (a : Config.AvgRound) (vs : List Byte) : Byte :=
  let sum := (vs.map BitVec.toNat).sum
  match a with
  | .trunc => BitVec.ofNat 8 (sum / vs.length)
  | .halfUp => BitVec.ofNat 8 ((sum + vs.length / 2) / vs.length)

/-- `avg2` and `avg4` of this hardware (42_block_codec.md R171). -/
def average (vs : List Byte) : Byte := averageWith avgRound vs

/-- `Recon(g, GW, GH, x, y)`, `g j i` being row `j`, column `i` (42_block_codec.md R171). -/
def recon (g : Nat → Nat → Byte) (gw gh x y : Nat) : Byte :=
  average ((reconPositions gw gh x y).map fun ji => g ji.1 ji.2)

/-! ## Record kinds: decode operations on the current block -/

/-- What a record of levels gives at `(x, y)` of its block, for `HALF2` (42_block_codec.md R174). -/
def half2Sample (base : BitVec 6) (range : Byte) (samples : List Byte) (x y : Nat) : Byte :=
  recon (fun gy gx => dequantHalf2 base range ((unpackLevels 2 samples 16).getD (gy * 4 + gx) 0)) 4 4 x y

/-- What a `FULL2` record gives at `(x, y)` (42_block_codec.md R175). -/
def full2Sample (base : BitVec 6) (range : Byte) (samples : List Byte) (x y : Nat) : Byte :=
  dequantFull2 base range ((unpackLevels 2 samples 64).getD (y * 8 + x) 0)

/-- What a `FULL4` record gives at `(x, y)` (42_block_codec.md R176). -/
def full4Sample (base : BitVec 6) (range : Byte) (samples : List Byte) (x y : Nat) : Byte :=
  dequantFull4 base range ((unpackLevels 4 samples 64).getD (y * 8 + x) 0)

/-- A record's samples written to the current block of the engine (42_block_codec.md, part 3). -/
def decodeInto (f : Nat → Nat → Byte) : Eng ρ Unit := do
  let s ← state
  writeWindow s.engine.block f

/-- The program of `SKIP`: no write (42_block_codec.md R172). -/
def skipProgram : Eng ρ Unit := pure ()

/-- The program of `SOLID` (42_block_codec.md R173). -/
def solidProgram (fill : Byte) : Eng ρ Unit := decodeInto fun _ _ => fill

/-- The program of `HALF2` (42_block_codec.md R174). -/
def half2Program (base : BitVec 6) (range : Byte) (samples : List Byte) : Eng ρ Unit :=
  decodeInto (half2Sample base range samples)

/-- The program of `FULL2` (42_block_codec.md R175). -/
def full2Program (base : BitVec 6) (range : Byte) (samples : List Byte) : Eng ρ Unit :=
  decodeInto (full2Sample base range samples)

/-- The program of `FULL4` (42_block_codec.md R176). -/
def full4Program (base : BitVec 6) (range : Byte) (samples : List Byte) : Eng ρ Unit :=
  decodeInto (full4Sample base range samples)

/-- `SKIP`: its `control[7:2]` is not read (42_block_codec.md R172; 30_encoding.md R98). -/
def execSkip (s : State) : Host.Outcome State Fault Refusal := runToEnd skipProgram s

/-- `SOLID`: its `control[7:2]` is not read (42_block_codec.md R173). -/
def execSolid (fill : Byte) (s : State) : Host.Outcome State Fault Refusal := runToEnd (solidProgram fill) s

/-- `HALF2` (42_block_codec.md R174). -/
def execHalf2 (base : BitVec 6) (range : Byte) (samples : List Byte) (s : State) : Host.Outcome State Fault Refusal :=
  runToEnd (half2Program base range samples) s

/-- `FULL2` (42_block_codec.md R175). -/
def execFull2 (base : BitVec 6) (range : Byte) (samples : List Byte) (s : State) : Host.Outcome State Fault Refusal :=
  runToEnd (full2Program base range samples) s

/-- `FULL4` (42_block_codec.md R176). -/
def execFull4 (base : BitVec 6) (range : Byte) (samples : List Byte) (s : State) : Host.Outcome State Fault Refusal :=
  runToEnd (full4Program base range samples) s

/-! ## DECODE_BLOCK -/

/-- `fetchRecord(n)` at stream offset `STREAM_PTR`, for the current block's index: the whole record is checked to be present
before it is decoded (42_block_codec.md R177). The answer is control, range and sample bytes. -/
def fetchRecord : Eng ρ (Byte × Byte × List Byte) := do
  let s ← state
  let off := s.regs.streamPtr.toNat
  let len := s.regs.streamLen.toNat
  let n := s.engine.block.index
  require (decide (off + 2 ≤ len)) .unexpectedEndOfInput .block n
  let c ← memRead (streamAddr s off)
  require (decide (off + recordLength c ≤ len)) .unexpectedEndOfInput .block n
  let r ← memRead (streamAddr s (off + 1))
  let samples ← listN (recordLength c - 2) fun k => memRead (streamAddr s (off + 2 + k))
  pure (c, r, samples)

/-- The program of `DECODE_BLOCK` up to its record (42_block_codec.md R178): the checks, then the engine stands at the
record of the block at `(BLK_X, BLK_Y)`. The record is the next instruction (log 3). -/
def decodeBlockProgram (plane : BitVec 2) : Eng ρ Unit := do
  let some p := blockPlane plane | raise .illegalCommand .setup 0
  requireBlock p fun s => [planeRegion s p, streamRegion s]
  let s ← state
  update (.atRecord (singleBlock s p))

/-- `DECODE_BLOCK` (42_block_codec.md R178). -/
def execDecodeBlock (plane : BitVec 2) (s : State) : Host.Outcome State Fault Refusal := runToEnd (decodeBlockProgram plane) s

end Sys2Proof.Machine
end

