-- ==== Sys2Proof/Machine/Resampler.lean ====
section
/-! DEFINITION. The ChromaResampler (43_resampler.md): the 2x2 box downsample, the upsample by the block decoder's
reconstruction, and the commands DOWNSAMPLE and UPSAMPLE. -/

namespace Sys2Proof.Machine

variable {ρ : Type}

/-- `down(S) = floor(S/4 + DBIAS)` (43_resampler.md R210). -/
def boxAverage (sum : Nat) : Nat := (dbiasDen * sum + 4 * dbiasNum) / (4 * dbiasDen)

/-- One half-resolution sample written from the four full-resolution samples it covers (43_resampler.md R211). -/
def downsampleAt (f h : Plane) (x2 y2 : Nat) : Eng ρ Unit := do
  let a ← px f (2 * x2) (2 * y2)
  let b ← px f (2 * x2 + 1) (2 * y2)
  let c ← px f (2 * x2) (2 * y2 + 1)
  let d ← px f (2 * x2 + 1) (2 * y2 + 1)
  pxW h x2 y2 (BitVec.ofNat 8 (boxAverage (a.toNat + b.toNat + c.toNat + d.toNat)))

/-- The double loop of 43_resampler.md R211. -/
def downsampleBody (f h : Plane) : Eng ρ Unit := do
  let s ← state
  forN (imageHeight s / 2) fun y2 => forN (imageWidth s / 2) fun x2 => downsampleAt f h x2 y2

/-- One full-resolution sample reconstructed from the half plane as a whole, which it reads as its case needs
(43_resampler.md R212, R213). -/
def upsampleAt (h f : Plane) (gw gh x y : Nat) : Eng ρ Unit := do
  let positions := reconPositions gw gh x y
  let vs ← listN positions.length fun k => px h (positions.getD k (0, 0)).2 (positions.getD k (0, 0)).1
  pxW f x y (average vs)

/-- The double loop of 43_resampler.md R213. -/
def upsampleBody (h f : Plane) : Eng ρ Unit := do
  let s ← state
  forN (imageHeight s) fun y => forN (imageWidth s) fun x => upsampleAt h f (imageWidth s / 2) (imageHeight s / 2) x y

/-- The checks of DOWNSAMPLE and UPSAMPLE after `PLANE` (60_exceptions.md R270). -/
def requireResample (f h : Plane) : Eng ρ Unit := do
  let s ← state
  require (validDims s.regs.width s.regs.height) .invalidDimensions .setup 0
  require (allInBounds s [planeRegion s f, planeRegion s h]) .ioFailure .setup 0

/-- The program of `DOWNSAMPLE` (43_resampler.md R211). -/
def downsampleProgram (plane : BitVec 2) : Eng ρ Unit := do
  let some (f, h) := chromaPlanes plane | raise .illegalCommand .setup 0
  requireResample f h
  downsampleBody f h
  done

/-- The program of `UPSAMPLE` (43_resampler.md R213). -/
def upsampleProgram (plane : BitVec 2) : Eng ρ Unit := do
  let some (f, h) := chromaPlanes plane | raise .illegalCommand .setup 0
  requireResample f h
  upsampleBody h f
  done

/-- `DOWNSAMPLE` (43_resampler.md R211). -/
def execDownsample (plane : BitVec 2) (s : State) : Host.Outcome State Fault Refusal := runToEnd (downsampleProgram plane) s

/-- `UPSAMPLE` (43_resampler.md R213). -/
def execUpsample (plane : BitVec 2) (s : State) : Host.Outcome State Fault Refusal := runToEnd (upsampleProgram plane) s

end Sys2Proof.Machine
end

