-- ==== Sys2Proof/Machine/Container.lean ====
section
/-! DEFINITION. The plane orchestrator and the traversal sequencer (44_container.md): NOP, SPLIT, MERGE, ENCODE_IMAGE,
DECODE_IMAGE, and the reserved opcodes' ILLEGAL_COMMAND (60_exceptions.md R265). -/

namespace Sys2Proof.Machine

variable {ρ : Type}

/-- The program of `NOP` (44_container.md R234). -/
def nopProgram : Eng ρ Unit := done

/-- `NOP` (44_container.md R234). -/
def execNop (s : State) : Host.Outcome State Fault Refusal := runToEnd nopProgram s

/-- The program of the reserved opcodes: the error `ILLEGAL_COMMAND` at `SETUP` (60_exceptions.md R265). -/
def illegalCommandProgram : Eng ρ Unit := raise .illegalCommand .setup 0

/-- The reserved opcodes 0xE and 0xF (60_exceptions.md R265). -/
def execIllegalCommand (s : State) : Host.Outcome State Fault Refusal := runToEnd illegalCommandProgram s

/-! ## Split and merge -/

/-- The regions of the interleaved image and the three full planes (44_container.md R235). -/
def imageAndPlanes (s : State) : List Region := [imageRegion s, planeRegion s .y, planeRegion s .cbf, planeRegion s .crf]

/-- One pixel split (44_container.md R235). -/
def splitAt (x y : Nat) : Eng ρ Unit := do
  let s ← state
  let v0 ← memRead (imageAddr s x y 0)
  let v1 ← memRead (imageAddr s x y 1)
  let v2 ← memRead (imageAddr s x y 2)
  pxW .y x y v0
  pxW .cbf x y v1
  pxW .crf x y v2

/-- `splitBody()` (44_container.md R235). -/
def splitBody : Eng ρ Unit := do
  let s ← state
  forN (imageHeight s) fun y => forN (imageWidth s) fun x => splitAt x y

/-- One pixel merged (44_container.md R236). -/
def mergeAt (x y : Nat) : Eng ρ Unit := do
  let s ← state
  let v0 ← px .y x y
  let v1 ← px .cbf x y
  let v2 ← px .crf x y
  memWrite (imageAddr s x y 0) v0
  memWrite (imageAddr s x y 1) v1
  memWrite (imageAddr s x y 2) v2

/-- `mergeBody()` (44_container.md R236). -/
def mergeBody : Eng ρ Unit := do
  let s ← state
  forN (imageHeight s) fun y => forN (imageWidth s) fun x => mergeAt x y

/-- The checks of SPLIT and MERGE (60_exceptions.md R270). -/
def requireImage : Eng ρ Unit := do
  let s ← state
  require (validDims s.regs.width s.regs.height) .invalidDimensions .setup 0
  require (allInBounds s (imageAndPlanes s)) .ioFailure .setup 0

/-- The program of `SPLIT` (44_container.md R235). -/
def splitProgram : Eng ρ Unit := do
  requireImage
  splitBody
  done

/-- The program of `MERGE` (44_container.md R236). -/
def mergeProgram : Eng ρ Unit := do
  requireImage
  mergeBody
  done

/-- `SPLIT` (44_container.md R235). -/
def execSplit (s : State) : Host.Outcome State Fault Refusal := runToEnd splitProgram s

/-- `MERGE` (44_container.md R236). -/
def execMerge (s : State) : Host.Outcome State Fault Refusal := runToEnd mergeProgram s

/-! ## The stream header -/

/-- `writeHeader()` (44_container.md R232). -/
def writeHeader : Eng ρ Unit := do
  let s ← state
  require (decide (4 ≤ s.regs.streamLen.toNat)) .ioFailure .header 0
  writeBytes (streamAddr s 0)
    [s.regs.width.extractLsb' 0 8, s.regs.width.extractLsb' 8 8, s.regs.height.extractLsb' 0 8, s.regs.height.extractLsb' 8 8]
  update (.streamPtr 4)

/-- `readHeader()`: `WIDTH` and `HEIGHT` are loaded whatever the header's values are (44_container.md R233). -/
def readHeader : Eng ρ Unit := do
  let s ← state
  require (decide (4 ≤ s.regs.streamLen.toNat)) .unexpectedEndOfInput .header 0
  let b0 ← memRead (streamAddr s 0)
  let b1 ← memRead (streamAddr s 1)
  let b2 ← memRead (streamAddr s 2)
  let b3 ← memRead (streamAddr s 3)
  update (.width (b1 ++ b0))
  update (.height (b3 ++ b2))
  update (.streamPtr 4)

/-! ## ENCODE_IMAGE and DECODE_IMAGE -/

/-- The regions of the five planes, and of the interleaved image when `IL = 1` (44_container.md R237, R238). -/
def codecRegions (il : Bool) (s : State) : List Region :=
  [planeRegion s .y, planeRegion s .cbf, planeRegion s .crf, planeRegion s .cbh, planeRegion s .crh]
    ++ (if il then [imageRegion s] else [])

/-- The program of `ENCODE_IMAGE` (44_container.md R237). -/
def encodeImageProgram (fmode : BitVec 3) (il : Bool) : Eng ρ Unit := do
  let some forced := forcedMode fmode | raise .illegalCommand .setup 0
  let s ← state
  require (validDims s.regs.width s.regs.height) .invalidDimensions .setup 0
  require (allInBounds s (streamRegion s :: codecRegions il s)) .ioFailure .setup 0
  update (.streamPtr 0)
  if il then splitBody else pure ()
  downsampleBody .cbf .cbh
  downsampleBody .crf .crh
  writeHeader
  forN (blockTotal (imageWidth s) (imageHeight s)) fun n => encodeStep forced (blockAt (imageWidth s) n)
  done

/-- `ENCODE_IMAGE` (44_container.md R237). -/
def execEncodeImage (fmode : BitVec 3) (il : Bool) (s : State) : Host.Outcome State Fault Refusal :=
  runToEnd (encodeImageProgram fmode il) s

/-- The program of `DECODE_IMAGE` up to its first record (44_container.md R238): the checks and the header, then the engine
stands at the record of block 0. The records are the next instructions (log 3). -/
def decodeImageProgram (il : Bool) : Eng ρ Unit := do
  let s ← state
  require (allInBounds s [streamRegion s]) .ioFailure .setup 0
  update (.streamPtr 0)
  readHeader
  let s ← state
  require (validDims s.regs.width s.regs.height) .invalidDimensions .header 0
  require (allInBounds s (codecRegions il s)) .ioFailure .header 0
  update (.atRecord (blockAt (imageWidth s) 0))

/-- `DECODE_IMAGE` (44_container.md R238). -/
def execDecodeImage (il : Bool) (s : State) : Host.Outcome State Fault Refusal := runToEnd (decodeImageProgram il) s

/-- The end of `DECODE_IMAGE`, after the last record: both upsamples, the merge when `IL = 1`, `done()` (44_container.md
R238, R239). -/
def decodeImageEnd (il : Bool) : Eng ρ Unit := do
  upsampleBody .cbh .cbf
  upsampleBody .crh .crf
  if il then mergeBody else pure ()
  done

end Sys2Proof.Machine
end

