-- ==== Sys2Proof/Machine/Dispatch.lean ====
section
/-! DEFINITION. The meaning of every instruction: one arm per constructor of Instr. -/

namespace Sys2Proof.Machine

def exec (i : Instr) (s : State) : Host.Outcome State Fault Refusal :=
  match i with
  | .nop => Sys2Proof.Machine.execNop s
  | .pack2 => Sys2Proof.Machine.execPack2 s
  | .pack4 => Sys2Proof.Machine.execPack4 s
  | .unpack2 => Sys2Proof.Machine.execUnpack2 s
  | .unpack4 => Sys2Proof.Machine.execUnpack4 s
  | .classify plane => Sys2Proof.Machine.execClassify plane s
  | .encodeBlock plane fmode => Sys2Proof.Machine.execEncodeBlock plane fmode s
  | .decodeBlock plane => Sys2Proof.Machine.execDecodeBlock plane s
  | .downsample plane => Sys2Proof.Machine.execDownsample plane s
  | .upsample plane => Sys2Proof.Machine.execUpsample plane s
  | .split => Sys2Proof.Machine.execSplit s
  | .merge => Sys2Proof.Machine.execMerge s
  | .encodeImage fmode il => Sys2Proof.Machine.execEncodeImage fmode il s
  | .decodeImage il => Sys2Proof.Machine.execDecodeImage il s
  | .illegalCommand _ => Sys2Proof.Machine.execIllegalCommand s
  | .skip _ => Sys2Proof.Machine.execSkip s
  | .solid _ fill => Sys2Proof.Machine.execSolid fill s
  | .half2 base range samples => Sys2Proof.Machine.execHalf2 base range samples s
  | .full2 base range samples => Sys2Proof.Machine.execFull2 base range samples s
  | .full4 base range samples => Sys2Proof.Machine.execFull4 base range samples s

end Sys2Proof.Machine
end

