-- ==== Sys2Proof/Machine/Engine.lean ====
section
/-! DEFINITION. The engine between two instructions: where it fetches the next one (10_state.md R39, 42_block_codec.md R177),
what follows a record and the last record (42_block_codec.md R178, 44_container.md R238), what a reset cuts short
(70_reset_and_hazards.md R301), and which regions a running command writes (20_memory.md R73). -/

namespace Sys2Proof.Machine

variable {ρ : Type}

/-- The engine's program of each instruction, the one its meaning runs to the end; a reset may cut it short. -/
def program (i : Instr) : Eng ρ Unit :=
  match i with
  | .nop => nopProgram
  | .pack2 => pack2Program
  | .pack4 => pack4Program
  | .unpack2 => unpack2Program
  | .unpack4 => unpack4Program
  | .classify plane => classifyProgram plane
  | .encodeBlock plane fmode => encodeBlockProgram plane fmode
  | .decodeBlock plane => decodeBlockProgram plane
  | .downsample plane => downsampleProgram plane
  | .upsample plane => upsampleProgram plane
  | .split => splitProgram
  | .merge => mergeProgram
  | .encodeImage fmode il => encodeImageProgram fmode il
  | .decodeImage il => decodeImageProgram il
  | .illegalCommand _ => illegalCommandProgram
  | .skip _ => skipProgram
  | .solid _ fill => solidProgram fill
  | .half2 base range samples => half2Program base range samples
  | .full2 base range samples => full2Program base range samples
  | .full4 base range samples => full4Program base range samples

/-- The command the engine runs: the one its copy of `CMD` selects (10_state.md R39). -/
def runningCommand (s : State) : Instr := decodeCmd s.engine.cmd

/-- How many records the running command has: one, or `NB` for DECODE_IMAGE (42_block_codec.md R178, 44_container.md R238). -/
def recordTotal (s : State) : Nat :=
  match runningCommand s with
  | .decodeImage _ => blockTotal (imageWidth s) (imageHeight s)
  | _ => 1

/-- The record fetched as an instruction, with its length (42_block_codec.md R177). -/
def fetchInstr : Eng ρ (Instr × Nat) := do
  let (c, r, samples) ← fetchRecord
  pure (recordInstr c r samples, recordLength c)

/-- Where the engine stands after the record of its current block: at the record of the next block of the traversal, or after
the last record (42_block_codec.md R178, 44_container.md R238). -/
def nextPosition (s : State) : RegUpdate :=
  let n := s.engine.block.index + 1
  if n < recordTotal s then .atRecord (blockAt (imageWidth s) n) else .atFinish

/-- What follows a record of length `len`: `STREAM_PTR` moves past it, `BLK_COUNT <- n + 1`, and the position moves
(42_block_codec.md R178, 44_container.md R238). -/
def afterRecord (len : Nat) (s : State) : State :=
  (nextPosition s).apply
    ((s.setStreamPtr (s.regs.streamPtr.toNat + len)).setBlkCount (s.engine.block.index + 1))

/-- The engine's program at a record, as its single steps: the record is fetched, decoded into its block, and left behind
(42_block_codec.md R177, R178, 44_container.md R238). -/
def recordProgram : Eng ρ Unit := do
  let (i, len) ← fetchInstr
  program i
  let s ← state
  update (.streamPtr (s.regs.streamPtr.toNat + len))
  update (.blkCount (s.engine.block.index + 1))
  update (nextPosition s)

/-- What a decoding command does after its last record: DECODE_IMAGE upsamples and merges; both end (42_block_codec.md R178,
44_container.md R238). -/
def finishProgram (s : State) : Eng ρ Unit :=
  match runningCommand s with
  | .decodeImage il => decodeImageEnd il
  | _ => done

/-- The program of the engine's next instruction: a command, a record, or the end of a decoding command. -/
def stretch (s : State) : Eng ρ Unit :=
  match s.engine.phase with
  | .command => program (runningCommand s)
  | .record => recordProgram
  | .finish => finishProgram s

/-- What is left of the engine's current instruction (60_exceptions.md R271; log 3, log 12). -/
def remaining (s : State) : Prog Unit :=
  match s.engine.underway with
  | none => stretch s .finish
  | some u => Prog.replay (stretch s .finish) (State.view { s with regs := u.entry }) u.answers

/-- One more engine step of an instruction is made, from `s`; other steps follow (log 12). -/
def noteStep (s : State) (answer : Option Byte) : Underway :=
  match s.engine.underway with
  | none => { entry := s.view.regs, answers := [answer] }
  | some u => { u with answers := u.answers ++ [answer] }

/-- `MEM` after `k` more engine steps of the current instruction, fewer where it has no more. -/
def cutMem (k : Nat) (s : State) : Except Fault (List Host.Cell) := ((remaining s).cut k s).map (·.mem)

/-- A reset takes the machine, `rst` or `SRST`: every register and the engine take their reset values. An instruction that
was running is abandoned after a number of engine steps that is a draw, and the writes it made stay
(70_reset_and_hazards.md R300, R301; 93_implementation_defined.md F6; log 8). -/
def takeReset (s : State) : Host.Outcome State Fault Refusal :=
  match s.engine.mode with
  | .idle => .next s.resetRegisters
  | .run =>
    match cutMem (Config.cutPoint s.draws) s with
    | .ok mem => .next { s.resetRegisters with mem := mem, draws := s.draws + 1 }
    | .error f => .fault f

/-- The image dimensions DECODE_IMAGE will load, while it stands before its header: none when it will find no header
(44_container.md R233). -/
def headerDims (s : State) : Option (Half × Half) :=
  if 4 ≤ s.regs.streamLen.toNat then
    some (s.byte (streamAddr s 1) ++ s.byte (streamAddr s 0), s.byte (streamAddr s 3) ++ s.byte (streamAddr s 2))
  else none

/-- The regions of `MEM` DECODE_IMAGE writes (44_container.md R238). -/
def decodeImageRegions (il : Bool) (s : State) : List Region :=
  match s.engine.phase with
  | .command =>
    match headerDims s with
    | some (w, h) => codecRegions il (s.setDims w h)
    | none => []
  | .record => codecRegions il s
  | .finish => codecRegions il s

/-- The regions of `MEM` the running command writes (20_memory.md R73): the ones its pseudocode writes, by its operands, also
where a check will end it before it writes (safe: more bytes are draws; log 7). -/
def writtenRegions (s : State) : List Region :=
  match runningCommand s with
  | .nop => []
  | .pack2 => [{ base := s.regs.pkDst.toNat, len := packedLength 2 s.regs.pkCount.toNat }]
  | .pack4 => [{ base := s.regs.pkDst.toNat, len := packedLength 4 s.regs.pkCount.toNat }]
  | .unpack2 => [{ base := s.regs.pkDst.toNat, len := s.regs.pkCount.toNat }]
  | .unpack4 => [{ base := s.regs.pkDst.toNat, len := s.regs.pkCount.toNat }]
  | .classify _ => []
  | .encodeBlock _ _ => [streamRegion s]
  | .decodeBlock plane => ((blockPlane plane).map (planeRegion s)).toList
  | .downsample plane => ((chromaPlanes plane).map fun fh => planeRegion s fh.2).toList
  | .upsample plane => ((chromaPlanes plane).map fun fh => planeRegion s fh.1).toList
  | .split => [planeRegion s .y, planeRegion s .cbf, planeRegion s .crf]
  | .merge => [imageRegion s]
  | .encodeImage _ il =>
    [planeRegion s .cbh, planeRegion s .crh, streamRegion s]
      ++ (if il then [planeRegion s .y, planeRegion s .cbf, planeRegion s .crf] else [])
  | .decodeImage il => decodeImageRegions il s
  | .illegalCommand _ => []
  | .skip _ => []
  | .solid _ _ => []
  | .half2 _ _ _ => []
  | .full2 _ _ _ => []
  | .full4 _ _ _ => []

end Sys2Proof.Machine
end

