-- ==== Sys2Proof/Machine/Window.lean ====
section
/-! DEFINITION. The register window (10_state.md R22 to R37): what a host read of each register returns and what a host write
of each does, idle, busy, and while `rst` is asserted. -/

namespace Sys2Proof.Machine

/-- The registers of the window (10_state.md R22). -/
inductive Reg
  | ctrl
  | cmd
  | status
  | errIndex
  | width
  | height
  | blkX
  | blkY
  | yBase
  | cbfBase
  | crfBase
  | cbhBase
  | crhBase
  | imgBase
  | streamBase
  | streamLen
  | streamPtr
  | pkSrc
  | pkDst
  | pkCount
  | clsMinMax
  | clsGrad
  | blkCount
deriving DecidableEq, Repr

/-- The register at an offset, none at a reserved one; address bits 1:0 are ignored (10_state.md R22, R23). -/
def regAt (off : Byte) : Option Reg :=
  match off.toNat / 4 with
  | 0 => some .ctrl
  | 1 => some .cmd
  | 2 => some .status
  | 3 => some .errIndex
  | 4 => some .width
  | 5 => some .height
  | 6 => some .blkX
  | 7 => some .blkY
  | 8 => some .yBase
  | 9 => some .cbfBase
  | 10 => some .crfBase
  | 11 => some .cbhBase
  | 12 => some .crhBase
  | 13 => some .imgBase
  | 14 => some .streamBase
  | 15 => some .streamLen
  | 16 => some .streamPtr
  | 17 => some .pkSrc
  | 18 => some .pkDst
  | 19 => some .pkCount
  | 20 => some .clsMinMax
  | 21 => some .clsGrad
  | 22 => some .blkCount
  | _ => none

/-- The 32-bit value of a register as the machine holds it; reserved bits read 0 (10_state.md R23 to R36). -/
def regValue (s : State) : Reg → Word
  | .ctrl => s.ctrlWord
  | .cmd => 0#22 ++ s.regs.cmd
  | .status => s.statusWord
  | .errIndex => s.status.index
  | .width => 0#16 ++ s.regs.width
  | .height => 0#16 ++ s.regs.height
  | .blkX => 0#16 ++ s.regs.blkX
  | .blkY => 0#16 ++ s.regs.blkY
  | .yBase => s.regs.yBase
  | .cbfBase => s.regs.cbfBase
  | .crfBase => s.regs.crfBase
  | .cbhBase => s.regs.cbhBase
  | .crhBase => s.regs.crhBase
  | .imgBase => s.regs.imgBase
  | .streamBase => s.regs.streamBase
  | .streamLen => s.regs.streamLen
  | .streamPtr => s.regs.streamPtr
  | .pkSrc => s.regs.pkSrc
  | .pkDst => s.regs.pkDst
  | .pkCount => s.regs.pkCount
  | .clsMinMax => s.regs.cls.minMaxWord
  | .clsGrad => s.regs.cls.gradWord
  | .blkCount => s.regs.blkCount

/-- The implemented bits of the progress registers, which read as draws while `BUSY = 1` (10_state.md R37); none for every
other register. -/
def progressMask : Reg → Option Word
  | .width => some 0x0000FFFF
  | .height => some 0x0000FFFF
  | .streamPtr => some 0xFFFFFFFF
  | .clsMinMax => some 0x0003FFFF
  | .clsGrad => some 0x000001FF
  | .blkCount => some 0xFFFFFFFF
  | _ => none

/-- A host read of a register: its value, or a draw in its implemented bits for a progress register while busy (10_state.md
R23, R37; log 6). -/
def readReg (s : State) (r : Reg) : Word × State :=
  match s.busy, progressMask r with
  | true, some mask => (Config.busyRegister s.draws &&& mask, { s with draws := s.draws + 1 })
  | _, _ => (regValue s r, s)

/-- A host read at an offset of the window; a reserved offset reads 0 (10_state.md R23). -/
def hostRegRead (off : Byte) (s : State) : State :=
  match regAt off with
  | some r => { (readReg s r).2 with reply := .word (readReg s r).1 }
  | none => { s with reply := .word 0 }

/-- A host write to an argument register while idle: the implemented bits are stored, a read-only register keeps its value
(10_state.md R23, R25, R28 to R36). `CTRL` and `STATUS` have their own rules. -/
def writeArgument (r : Reg) (v : Word) (g : Regs) : Regs :=
  match r with
  | .cmd => { g with cmd := cmdBits v }
  | .width => { g with width := v.extractLsb' 0 16 }
  | .height => { g with height := v.extractLsb' 0 16 }
  | .blkX => { g with blkX := v.extractLsb' 0 16 }
  | .blkY => { g with blkY := v.extractLsb' 0 16 }
  | .yBase => { g with yBase := v }
  | .cbfBase => { g with cbfBase := v }
  | .crfBase => { g with crfBase := v }
  | .cbhBase => { g with cbhBase := v }
  | .crhBase => { g with crhBase := v }
  | .imgBase => { g with imgBase := v }
  | .streamBase => { g with streamBase := v }
  | .streamLen => { g with streamLen := v }
  | .streamPtr => { g with streamPtr := v }
  | .pkSrc => { g with pkSrc := v }
  | .pkDst => { g with pkDst := v }
  | .pkCount => { g with pkCount := v }
  | .ctrl => g
  | .status => g
  | .errIndex => g
  | .clsMinMax => g
  | .clsGrad => g
  | .blkCount => g

/-- A host write to `CTRL` (10_state.md R24): `SRST` alone acts when it is 1, at any time; else `IRQ_EN` is stored and `START`
starts the command in `CMD` if the engine is idle. -/
def writeCtrl (v : Word) (s : State) : Host.Outcome State Fault Refusal :=
  if v.getLsbD 1 then takeReset s
  else
    let t := { s with regs := { s.regs with irqEn := v.getLsbD 2 } }
    if v.getLsbD 0 && !s.busy then .next t.start else .next t

/-- A host write at an offset of the window. While `rst` is asserted every register holds its reset value
(70_reset_and_hazards.md R300; log 9). While busy only `CTRL` acts (10_state.md R37). A reserved offset ignores writes
(R23). -/
def hostRegWrite (off : Byte) (v : Word) (s : State) : Host.Outcome State Fault Refusal :=
  if s.rst then .next s
  else
    match regAt off with
    | none => .next s
    | some .ctrl => writeCtrl v s
    | some .status => if s.busy then .next s else .next (s.acknowledge v)
    | some r => if s.busy then .next s else .next { s with regs := writeArgument r v s.regs }

end Sys2Proof.Machine
end

