-- ==== Sys2Proof/Machine/Hosting.lean ====
section
/-! DEFINITION. The moves of the host (70_reset_and_hazards.md R314): register accesses, memory-port accesses, accesses at host
addresses, and the input `rst`. -/

namespace Sys2Proof.Machine

/-- A host register read: 32 bits, else refused (10_state.md R23). -/
def regPortRead (off : Byte) (size : Nat) (s : State) : Host.Outcome State Fault Refusal :=
  if size = 4 then .next (hostRegRead off s) else .refused (.registerAccessWidth size)

/-- A host register write: 32 bits, else refused (10_state.md R23). -/
def regPortWrite (off : Byte) (size : Nat) (v : Word) (s : State) : Host.Outcome State Fault Refusal :=
  if size = 4 then hostRegWrite off v s else .refused (.registerAccessWidth size)

/-- The byte a host read of `MEM` gets: a draw where the running command writes (20_memory.md R73; log 7). -/
def hostByte (s : State) (a : Nat) : Byte :=
  if s.busy && (writtenRegions s).any (·.holds a) then Config.busyByte s.draws a else s.byte a

/-- A host read of `n` bytes of `MEM` (20_memory.md R69, R73). That no engine step falls between its bytes is a DESIGN CHOICE
(log 21): R69 makes them accesses of one byte each, which one-byte reads in the agenda are. -/
def memPortRead (off n : Nat) (s : State) : Host.Outcome State Fault Refusal :=
  if off + n ≤ s.platform.memBytes then
    .next { s with
      reply := .bytes ((List.range n).map fun k => hostByte s (off + k)),
      draws := if s.busy then s.draws + 1 else s.draws }
  else .fault (.accessOutsideMem (max off s.platform.memBytes))

/-- A host write of bytes to `MEM`, one byte after the other; while busy there is no such move (20_memory.md R69, R73). That it
is one move, and that none of its bytes is written where one lies outside `MEM`, is a DESIGN CHOICE (log 21). -/
def memPortWrite (off : Nat) (bytes : List Byte) (s : State) : Host.Outcome State Fault Refusal :=
  if s.busy then .refused .memWriteWhileBusy
  else if off + bytes.length ≤ s.platform.memBytes then .next { s with mem := memInsertAll s.mem off bytes }
  else .fault (.accessOutsideMem (max off s.platform.memBytes))

/-- What a host address names (10_state.md R22, 20_memory.md R60). -/
inductive Target
  | window (off : Byte)
  | memory (off : Nat)
  | other
deriving DecidableEq, Repr

/-- `REG_BASE + offset` is the register window, `MEM_BASE + offset` is `MEM` (20_memory.md R79; log 2). -/
def targetOf (p : Platform) (addr : Nat) : Target :=
  if p.regBase ≤ addr ∧ addr < p.regBase + 0x100 then .window (BitVec.ofNat 8 (addr - p.regBase))
  else if p.memBase ≤ addr ∧ addr < p.memBase + p.memBytes then .memory (addr - p.memBase)
  else .other

/-- The 32-bit value of bytes, the least significant first (20_memory.md R62). -/
def wordOfBytes (bytes : List Byte) : Word := BitVec.ofNat 32 (bytes.foldr (fun b acc => b.toNat + 256 * acc) 0)

/-- A host read at a host address. -/
def busPortRead (addr n : Nat) (s : State) : Host.Outcome State Fault Refusal :=
  match targetOf s.platform addr with
  | .window off => regPortRead off n s
  | .memory off => memPortRead off n s
  | .other => .refused (.addressOfAnotherDevice addr)

/-- A host write at a host address. -/
def busPortWrite (addr : Nat) (bytes : List Byte) (s : State) : Host.Outcome State Fault Refusal :=
  match targetOf s.platform addr with
  | .window off => regPortWrite off bytes.length (wordOfBytes bytes) s
  | .memory off => memPortWrite off bytes s
  | .other => .refused (.addressOfAnotherDevice addr)

/-- The input `rst` (70_reset_and_hazards.md R300): asserting it takes the reset; releasing it leaves the reset state. -/
def setRst (level : Bool) (s : State) : Host.Outcome State Fault Refusal :=
  if level then takeReset { s with rst := true } else .next { s with rst := false }

/-- One move of the host. -/
def hostMove (m : HostMove) (s : State) : Host.Outcome State Fault Refusal :=
  match m with
  | .regRead off size => regPortRead off size s
  | .regWrite off size v => regPortWrite off size v s
  | .memRead off n => memPortRead off n s
  | .memWrite off bytes => memPortWrite off bytes s
  | .busRead addr n => busPortRead addr n s
  | .busWrite addr bytes => busPortWrite addr bytes s
  | .setRst level => setRst level s

end Sys2Proof.Machine
end

