-- ==== Sys2Proof/Machine/Turns.lean ====
section
/-! DEFINITION. One turn of the machine (60_exceptions.md R271): one engine step, the engine's steps up to the end of its
instruction in one turn, or a move of the host; and where an instruction is placed for the engine to fetch it. -/

namespace Sys2Proof.Machine

/-- The engine at a record: the record at `STREAM_PTR` is fetched (or `UNEXPECTED_END_OF_INPUT` is raised), its meaning is
run, and the command goes on behind it (42_block_codec.md R177, R178; 44_container.md R238). -/
def recordTurn (s : State) : Host.Outcome State Fault Refusal :=
  match Prog.run (fetchInstr .finish) s with
  | .error (.halt t) => .next t
  | .error (.fault f) => .fault f
  | .ok ((i, len), _) =>
    match exec i s with
    | .next t => .next (afterRecord len t)
    | .fault f => .fault f
    | .refused r => .refused r

/-- What a run leaves, at an instruction's end. -/
def atBoundary : Host.Outcome State Fault Refusal → Host.Outcome State Fault Refusal
  | .next t => .next t.atBoundary
  | .fault f => .fault f
  | .refused r => .refused r

/-- The engine's move. Idle, it does nothing (70_reset_and_hazards.md R302). Running, it runs the command its copy of `CMD`
selects, or the next record, or the end of a decoding command; inside an instruction it makes the steps that are left. -/
def engineTurn (s : State) : Host.Outcome State Fault Refusal :=
  match s.engine.mode with
  | .idle => .next s
  | .run =>
    match s.engine.underway with
    | some _ => atBoundary (lastState ((remaining s).run s))
    | none =>
      match s.engine.phase with
      | .command => exec (runningCommand s) s
      | .record => recordTurn s
      | .finish => runToEnd (finishProgram s) s

/-- What one engine step from `s` leaves: the engine inside its instruction, or at the instruction's end. -/
def stepped (s : State) : Stepped → Host.Outcome State Fault Refusal
  | .more answer t => .next { t with engine := { t.engine with underway := some (noteStep s answer) } }
  | .ended t => .next t.atBoundary
  | .fault f => .fault f

/-- ONE engine step, one access to `MEM` or one register update (60_exceptions.md R271). Idle, there is none
(70_reset_and_hazards.md R302). -/
def engineStep (s : State) : Host.Outcome State Fault Refusal :=
  match s.engine.mode with
  | .idle => .next s
  | .run => stepped s ((remaining s).once s)

/-- Who moves next is the head of the agenda; with nothing pending the engine moves (log 4). A polling host waits while the
engine runs (30_encoding.md R105). -/
def turn (s : State) : Host.Outcome State Fault Refusal :=
  match s.agenda with
  | [] => engineTurn s
  | .engine :: rest => engineTurn { s with agenda := rest }
  | .engineStep :: rest => engineStep { s with agenda := rest }
  | .host m :: rest => hostMove m { s with agenda := rest }
  | .wait :: rest => if s.busy then engineTurn s else .next { s with agenda := rest }

/-- The BQC right after an accepted `START` of the command word (10_state.md R39), with nothing pending. -/
def placeCommand (s : State) (bytes : List Byte) : State :=
  let w := wordOfBytes bytes
  State.start { s with regs := { s.regs with cmd := cmdBits w }, rst := false, agenda := [] }

/-- The BQC running DECODE_BLOCK on luma, standing at the record in these bytes, which lie in the stream at `STREAM_PTR`
(10_state.md R31, R32), with nothing pending. -/
def placeRecord (s : State) (bytes : List Byte) : State :=
  { s with
    mem := memInsertAll s.mem (streamAddr s s.regs.streamPtr.toNat) bytes,
    regs := { s.regs with streamLen := BitVec.ofNat 32 (s.regs.streamPtr.toNat + bytes.length) },
    engine :=
      { mode := .run, cmd := cmdBits (encodeCommandWord (.decodeBlock 0)), phase := .record, block := singleBlock s .y,
        underway := none },
    rst := false,
    agenda := [] }

/-- An opcode-table row's bits placed where the engine fetches its next instruction (log 15). -/
def placeTableWord (s : State) (nbits w : Nat) : State :=
  match tableFormat nbits with
  | .command => placeCommand s (bytesLE (maxLength .command) w)
  | .record => placeRecord s (bytesLE (maxLength .record) w)

end Sys2Proof.Machine
end

