-- ==== Sys2Proof/Machine/Step.lean ====
section
/-! DEFINITION. One step of the machine, and the placing of an instruction where the step fetches it. -/

namespace Sys2Proof.Machine

/-- One step: one turn of the host or of the engine (60_exceptions.md R271; log 3). -/
def step (s : State) : Host.Outcome State Fault Refusal := turn s

/-- The state in which the very next step runs the instruction whose opcode-table bits are `w` (log 15). -/
def State.withFetchWord (s : State) (nbits w : Nat) : State := placeTableWord s nbits w

end Sys2Proof.Machine
end

