-- ==== Sys2Proof/Safety.lean ====
section
/-! DEFINITION. What claims about the machine are about: the invariants of its state, one for each promise of the spec, and
runs. -/

namespace Sys2Proof.Machine

/-- `STATUS` and `ERR_INDEX` agree: without an error the code, the stage and the index are 0; with one the code and the stage
are not 0; the index is 0 but for stage `BLOCK`; while busy neither `DONE` nor `ERR` is set (10_state.md R26, R27, R37). -/
def statusOk (s : State) : Prop :=
  (s.status.err = false → s.status.code = .none ∧ s.status.stage = .none) ∧
  (s.status.err = true → s.status.code ≠ .none ∧ s.status.stage ≠ .none) ∧
  (s.status.stage ≠ .block → s.status.index = 0) ∧
  (s.engine.mode = .run → s.status.done = false ∧ s.status.err = false)

/-- `MEM` is in canonical form and lists only cells that exist (20_memory.md R60, R68). -/
def memOk (s : State) : Prop :=
  Memory.wf s.mem = true ∧ ∀ c ∈ s.mem, c.1 < s.platform.memBytes

/-- `1 <= MEM_BYTES <= 2^32` (00_scope.md R5). -/
def platformOk (s : State) : Prop := 1 ≤ s.platform.memBytes ∧ s.platform.memBytes ≤ 2 ^ 32

/-- While `rst` is asserted the registers and the engine hold their reset values (70_reset_and_hazards.md R300). -/
def resetOk (s : State) : Prop :=
  s.rst = true → s.regs = Regs.reset ∧ s.status = Status.reset ∧ s.engine = Engine.reset

/-- `CLS_GRAD` is in `0..510` (10_state.md R35). -/
def clsOk (s : State) : Prop := s.regs.cls.grad2.toNat ≤ 510

/-- What a decoding command has checked when it stands at a record or at its end (42_block_codec.md R178, 44_container.md
R238): the dimensions, the regions, and that its current block is one of its own. -/
def decodingOk (s : State) : Prop :=
  match runningCommand s with
  | .decodeBlock plane =>
    ∃ p, blockPlane plane = some p ∧ s.engine.block = singleBlock s p ∧ windowInside s p = true ∧
      allInBounds s [planeRegion s p, streamRegion s] = true
  | .decodeImage il =>
    (∃ n, n < blockTotal (imageWidth s) (imageHeight s) ∧ s.engine.block = blockAt (imageWidth s) n) ∧
      allInBounds s (streamRegion s :: codecRegions il s) = true
  | _ => False

/-- The position of a running command is one its checks lead to (10_state.md R40). -/
def positionOk (s : State) : Prop :=
  s.engine.mode = .run → s.engine.phase ≠ .command → validDims s.regs.width s.regs.height = true ∧ decodingOk s

/-- The state after exactly `n` engine steps of a program that has others behind them, and what the reads among the `n`
returned; none where the program ends or stops before (60_exceptions.md R271). -/
def Prog.walk {ρ : Type} : Prog ρ → Nat → State → Option (List (Option Byte) × State)
  | .finish _, _, _ => none
  | .look next, n, s => (next s.view).walk n s
  | .read a next, n, s =>
    match n with
    | 0 => some ([], s)
    | n + 1 =>
      if a < s.platform.memBytes then
        ((next (s.byte a)).walk n s).map fun r => (some (s.byte a) :: r.1, r.2)
      else none
  | .write a v next, n, s =>
    match n with
    | 0 => some ([], s)
    | n + 1 =>
      if a < s.platform.memBytes then (next.walk n (s.setByte a v)).map fun r => (none :: r.1, r.2) else none
  | .set u next, n, s =>
    match n with
    | 0 => some ([], s)
    | n + 1 => (next.walk n (u.apply s)).map fun r => (none :: r.1, r.2)
  | .fail _ _ _, n, s =>
    match n with
    | 0 => some ([], s)
    | _ + 1 => none

/-- The state before the first engine step of the current instruction, `MEM` then holding `m`. -/
def entryState (s : State) (u : Underway) (m : List Host.Cell) : State :=
  { s with
    regs := { u.entry with irqEn := s.regs.irqEn },
    mem := m,
    engine := { s.engine with underway := none } }

/-- An engine inside an instruction runs, and came where it stands by the engine steps of that instruction (10_state.md R40;
60_exceptions.md R271; log 12). -/
def underwayOk (s : State) : Prop :=
  ∀ u, s.engine.underway = some u →
    s.engine.mode = .run ∧
    ∃ m, positionOk (entryState s u m) ∧
      (stretch s .finish).walk u.answers.length (entryState s u m) = some (u.answers, s.atBoundary)

/-- The invariant of the machine. -/
def Inv (s : State) : Prop :=
  statusOk s ∧ memOk s ∧ platformOk s ∧ resetOk s ∧ clsOk s ∧ positionOk s ∧ underwayOk s

/-- Every byte of `MEM` outside a region reads in `t` as in `s`. -/
def sameOutside (r : Region) (s t : State) : Prop := ∀ a, r.holds a = false → t.byte a = s.byte a

/-- Two regions share no offset. -/
def disjoint (r q : Region) : Prop := r.base + r.len ≤ q.base ∨ q.base + q.len ≤ r.base

/-- The address of sample `(x, y)` of the 8x8 block `b` (20_memory.md R64). -/
def blockAddr (s : State) (b : Block) (x y : Nat) : Nat := planeAddr s b.plane (b.x + x) (b.y + y)

/-- All 64 samples of a block exist, and its rows do not run into each other: the block ends inside its plane's row. -/
def blockFits (s : State) (b : Block) : Prop :=
  b.x + 8 ≤ planeWidth s b.plane ∧ ∀ x y, x < 8 → y < 8 → blockAddr s b x y < s.platform.memBytes

/-- The 64 samples of a block in raster order, as `MEM` holds them (41_classifier.md R140). -/
def blockSamples (s : State) (b : Block) : List Byte :=
  (List.range 64).map fun i => s.byte (blockAddr s b (i % 8) (i / 8))

/-- Every byte of `MEM` but the 64 samples of a block reads in `t` as in `s`. -/
def sameOutsideBlock (b : Block) (s t : State) : Prop :=
  ∀ a, (∀ x y, x < 8 → y < 8 → a ≠ blockAddr s b x y) → t.byte a = s.byte a

/-- What a record leaves at `(x, y)` of its block, where `old` stood: `SKIP` leaves it (42_block_codec.md R172 to R176). -/
def recordSample (i : Instr) (old : Byte) (x y : Nat) : Byte :=
  match i with
  | .solid _ fill => fill
  | .half2 base range samples => half2Sample base range samples x y
  | .full2 base range samples => full2Sample base range samples x y
  | .full4 base range samples => full4Sample base range samples x y
  | _ => old

/-- The 64 samples, in raster order, a record leaves of a block of zeros (42_block_codec.md R172 to R176). -/
def decodedBlock (record : List Byte) : List Byte :=
  match decode .record record with
  | .ok (i, _) => (List.range 64).map fun k => recordSample i 0 (k % 8) (k / 8)
  | .error _ => []

/-- The half plane `h` of `t` holds the 2x2 box average of the full plane `f` of `s`, `(S + 1) // 4` of the four samples it
covers (43_resampler.md R210, R211). -/
def holdsDownsample (f h : Plane) (s t : State) : Prop :=
  ∀ x y, x < planeWidth s h → y < planeHeight s h →
    (let at' (dx dy : Nat) := (s.byte (planeAddr s f (2 * x + dx) (2 * y + dy))).toNat
     (t.byte (planeAddr s h x y)).toNat = (at' 0 0 + at' 1 0 + at' 0 1 + at' 1 1 + 1) / 4)

/-- The full plane `f` of `t` holds the reconstruction from the half plane `h` of `s` as a whole, replicating only at its last
column and row (43_resampler.md R212, R213). -/
def holdsUpsample (f h : Plane) (s t : State) : Prop :=
  ∀ x y, x < planeWidth s f → y < planeHeight s f →
    (let g (j i : Nat) : Nat := (s.byte (planeAddr s h i j)).toNat
     let i0 := x / 2
     let j0 := y / 2
     let i1 := min (i0 + 1) (s.regs.width.toNat / 2 - 1)
     let j1 := min (j0 + 1) (s.regs.height.toNat / 2 - 1)
     (t.byte (planeAddr s f x y)).toNat =
       if x % 2 = 0 ∧ y % 2 = 0 then g j0 i0
       else if y % 2 = 0 then (g j0 i0 + g j0 i1) / 2
       else if x % 2 = 0 then (g j0 i0 + g j1 i0) / 2
       else (g j0 i0 + g j0 i1 + g j1 i0 + g j1 i1) / 4)

/-- Each full plane of `t` holds its channel of the interleaved image of `s` (44_container.md R235). -/
def holdsSplit (s t : State) : Prop :=
  ∀ x y, x < s.regs.width.toNat → y < s.regs.height.toNat →
    t.byte (planeAddr s .y x y) = s.byte (imageAddr s x y 0) ∧
    t.byte (planeAddr s .cbf x y) = s.byte (imageAddr s x y 1) ∧
    t.byte (planeAddr s .crf x y) = s.byte (imageAddr s x y 2)

/-- Each channel of the interleaved image of `t` holds its plane of `s` (44_container.md R236). -/
def holdsMerge (s t : State) : Prop :=
  ∀ x y, x < s.regs.width.toNat → y < s.regs.height.toNat →
    t.byte (imageAddr s x y 0) = s.byte (planeAddr s .y x y) ∧
    t.byte (imageAddr s x y 1) = s.byte (planeAddr s .cbf x y) ∧
    t.byte (imageAddr s x y 2) = s.byte (planeAddr s .crf x y)

/-- Every byte of `MEM` outside all of some regions reads in `t` as in `s`. -/
def sameOutsideAll (rs : List Region) (s t : State) : Prop := ∀ a, rs.any (·.holds a) = false → t.byte a = s.byte a

/-- The planes ENCODE_IMAGE writes before its header: the half planes, and with `IL = 1` the full planes (44_container.md
R237). -/
def encodedPlanes (il : Bool) (s : State) : List Region :=
  [planeRegion s .cbh, planeRegion s .crh] ++ if il then [planeRegion s .y, planeRegion s .cbf, planeRegion s .crf] else []

/-- The planes ENCODE_IMAGE leaves: with `IL = 1` the full planes are the split of the image, and the half planes are the
downsample of the full ones (44_container.md R237; 60_exceptions.md R276). -/
def planesPrepared (il : Bool) (s t : State) : Prop :=
  (il = true → holdsSplit s t) ∧ holdsDownsample .cbf .cbh t t ∧ holdsDownsample .crf .crh t t

/-- The command ended without an error and changed nothing but `MEM`: `DONE` is set, the engine is idle, and the registers,
the rest of `STATUS`, `ENG_CMD` and the surroundings are as before (60_exceptions.md R280). -/
def endedChangingMemoryOnly (s t : State) : Prop := t = { s.complete with mem := t.mem }

/-- What no engine move changes: the platform, the input `rst`, the model's own fields (00_scope.md R5; log 2, log 4, log 5,
log 6, log 9). -/
def sameSurroundings (s t : State) : Prop :=
  t.platform = s.platform ∧ t.rst = s.rst ∧ t.draws = s.draws ∧ t.agenda = s.agenda ∧ t.reply = s.reply

/-- The implemented bits a host write of an argument register stores (10_state.md R25, R28 to R33); 0 where the register is
read-only or has its own rule. -/
def storedMask : Reg → Word
  | .cmd => 0x3FF
  | .width => 0xFFFF
  | .height => 0xFFFF
  | .blkX => 0xFFFF
  | .blkY => 0xFFFF
  | .ctrl => 0
  | .status => 0
  | .errIndex => 0
  | .clsMinMax => 0
  | .clsGrad => 0
  | .blkCount => 0
  | _ => 0xFFFFFFFF

end Sys2Proof.Machine
end

