-- ==== Sys2Proof/Certificates/Slice0/Obligations.lean ====
section
/-! DEFINITION. The statements for the provers. -/

open Sys2Proof Sys2Proof.Machine

/-! ## Encodings -/

/-- 30_encoding.md R91 to R94: the command word of every command, with every value of every field its opcode reads, decodes
to that command, whatever bytes follow it; every 32-bit word decodes to the command its opcode names, with the fields that
opcode reads taken from their bits, whatever every other bit is, so the fields an opcode does not read and bits 31:10 are
ignored; and every word decodes to the command of the word rebuilt from what was decoded. -/
def Obligations.CommandWordsRoundTrip : Prop :=
  (∀ (i : Instr) (rest : List Byte), i.format = .command → decode .command (encode i ++ rest) = .ok (i, rest)) ∧
  (∀ w : Word,
    (let op := w.toNat % 16
     let plane : BitVec 2 := w.extractLsb' 4 2
     let fmode : BitVec 3 := w.extractLsb' 6 3
     let il := w.getLsbD 9
     (op = 0x0 → decodeCommandWord w = .nop) ∧ (op = 0x1 → decodeCommandWord w = .pack2) ∧
     (op = 0x2 → decodeCommandWord w = .pack4) ∧ (op = 0x3 → decodeCommandWord w = .unpack2) ∧
     (op = 0x4 → decodeCommandWord w = .unpack4) ∧ (op = 0x5 → decodeCommandWord w = .classify plane) ∧
     (op = 0x6 → decodeCommandWord w = .encodeBlock plane fmode) ∧
     (op = 0x7 → decodeCommandWord w = .decodeBlock plane) ∧ (op = 0x8 → decodeCommandWord w = .downsample plane) ∧
     (op = 0x9 → decodeCommandWord w = .upsample plane) ∧ (op = 0xA → decodeCommandWord w = .split) ∧
     (op = 0xB → decodeCommandWord w = .merge) ∧ (op = 0xC → decodeCommandWord w = .encodeImage fmode il) ∧
     (op = 0xD → decodeCommandWord w = .decodeImage il) ∧ (op = 0xE → decodeCommandWord w = .illegalCommand 0) ∧
     (op = 0xF → decodeCommandWord w = .illegalCommand 1))) ∧
  ∀ w : Word, decodeCommandWord (encodeCommandWord (decodeCommandWord w)) = decodeCommandWord w ∧
    decodeCommandWord (w &&& 0x3FF) = decodeCommandWord w

/-- 30_encoding.md R95 to R98: the bytes of every well-formed record decode to that record, whatever bytes follow it. -/
def Obligations.RecordsRoundTrip : Prop :=
  ∀ (i : Instr) (rest : List Byte), i.format = .record → i.wellFormed = true →
    decode .record (encode i ++ rest) = .ok (i, rest)

/-- 30_encoding.md R97, R103, R107: every byte sequence as long as its control byte says decodes, to a well-formed record
whose bytes it begins with; a shorter one is rejected, the empty sequence and a control byte alone among them. -/
def Obligations.EveryCompleteRecordDecodes : Prop :=
  decode .record [] = .error .truncatedRecord ∧ (∀ c : Byte, decode .record [c] = .error .truncatedRecord) ∧
  ∀ (c r : Byte) (rest : List Byte),
    (recordLength c ≤ rest.length + 2 →
      ∃ i, decode .record (c :: r :: rest) = .ok (i, rest.drop (recordLength c - 2)) ∧
        i.format = .record ∧ i.wellFormed = true ∧ (encode i).length = recordLength c ∧
        encode i ++ rest.drop (recordLength c - 2) = c :: r :: rest) ∧
    (rest.length + 2 < recordLength c → decode .record (c :: r :: rest) = .error .truncatedRecord)

/-- 30_encoding.md R92, R93, R97: words of the spec and the instructions they stand for. -/
def Obligations.SpecWordsDecode : Prop :=
  decodeCommandWord 0x00000106 = .encodeBlock 0 4 ∧ decodeCommandWord 0x0000020C = .encodeImage 0 true ∧
  decodeCommandWord 0x00000019 = .upsample 1 ∧ decodeCommandWord 0x0000000F = .illegalCommand 1 ∧
  decode .record [0x09, 0x1C, 0x50, 0x94, 0xA5, 0xE9] = .ok (.half2 2 0x1C [0x50, 0x94, 0xA5, 0xE9], []) ∧
  decode .record [0x00, 0x00] = .ok (.skip 0, []) ∧ decode .record [0xFC, 0x05] = .ok (.solid 63 5, [])

/-! ## The step -/

/-- 10_state.md R39, 30_encoding.md R90: with nothing pending, a running engine that stands at its command, no engine step of
it made, answers what the command's meaning answers, and the step adds nothing; with an engine turn pending the turn is taken
off first. That the engine's steps up to the end of a command, or to its first record, may be taken in one turn, and the
pending moves, are the model's (log 3, log 4). -/
def Obligations.StepRunsTheCommand : Prop :=
  ∀ (s : State), s.engine.mode = .run → s.engine.phase = .command → s.engine.underway = none →
    (s.agenda = [] → step s = exec (decodeCmd s.engine.cmd) s) ∧
    (∀ rest, s.agenda = .engine :: rest →
      step s = exec (decodeCmd s.engine.cmd) { s with agenda := rest })

/-- 42_block_codec.md R177, R178: with nothing pending, an engine that stands at a record whose bytes, in the stream at
`STREAM_PTR`, all lie before `STREAM_LEN` and exist, and decode to `i`, answers what the meaning of `i` answers; to a next
state the step adds `afterRecord`: `STREAM_PTR` past the record, `BLK_COUNT`, the next position. That the engine
steps of a record may be taken in one turn is the model's (log 3). -/
def Obligations.StepRunsTheRecord : Prop :=
  ∀ (s : State) (i : Instr), s.engine.mode = .run → s.engine.phase = .record → s.engine.underway = none →
    s.agenda = [] →
    (let off := s.regs.streamPtr.toNat
     let len := recordLength (s.byte (streamAddr s off))
     off + len ≤ s.regs.streamLen.toNat → streamAddr s (off + len) ≤ s.platform.memBytes →
     decode .record ((List.range len).map fun k => s.byte (streamAddr s (off + k))) = .ok (i, []) →
     step s = match exec i s with
       | .next t => .next (afterRecord len t)
       | .fault f => .fault f
       | .refused r => .refused r)

/-- 42_block_codec.md R177, 60_exceptions.md R263: an engine that stands at a record of which a byte it needs lies at
`STREAM_LEN` or beyond raises `UNEXPECTED_END_OF_INPUT` at `BLOCK`, for the block's index, and changes nothing else. -/
def Obligations.ShortRecordRaisesUnexpectedEnd : Prop :=
  ∀ (s : State), s.engine.mode = .run → s.engine.phase = .record → s.engine.underway = none →
    s.agenda = [] →
    allInBounds s [streamRegion s] = true →
    (let off := s.regs.streamPtr.toNat
     s.regs.streamLen.toNat < off + 2 ∨ s.regs.streamLen.toNat < off + recordLength (s.byte (streamAddr s off)) →
     step s = .next (s.errorEntry .unexpectedEndOfInput .block s.engine.block.index))

/-- 42_block_codec.md R178, 44_container.md R238: what follows a record of length `len` of a decoding command: `STREAM_PTR`
moves past it, `BLK_COUNT` is the number of records done, and the position is the next block of the traversal or the end. -/
def Obligations.AfterRecordAdvances : Prop :=
  ∀ (s : State) (len : Nat),
    (afterRecord len s).regs.streamPtr = BitVec.ofNat 32 (s.regs.streamPtr.toNat + len) ∧
    (afterRecord len s).regs.blkCount = BitVec.ofNat 32 (s.engine.block.index + 1) ∧
    (afterRecord len s).mem = s.mem ∧ (afterRecord len s).status = s.status ∧
    (afterRecord len s).engine.mode = s.engine.mode ∧ (afterRecord len s).engine.cmd = s.engine.cmd ∧
    (∀ plane, decodeCmd s.engine.cmd = .decodeBlock plane → s.engine.block.index = 0 →
      (afterRecord len s).engine.phase = .finish) ∧
    (∀ il, decodeCmd s.engine.cmd = .decodeImage il →
      if s.engine.block.index + 1 < 6 * (s.regs.width.toNat / 16) * (s.regs.height.toNat / 16) then
        (afterRecord len s).engine.phase = .record ∧
        (afterRecord len s).engine.block = blockAt s.regs.width.toNat (s.engine.block.index + 1)
      else (afterRecord len s).engine.phase = .finish)

/-! ## Invariants -/

/-- 10_state.md R26, R27, R35, R37, R40, 20_memory.md R60, R68, 70_reset_and_hazards.md R300: every step keeps the invariant
of the machine, from every state that has it. The canonical form in it is the model's own (log 1). -/
def Obligations.StepKeepsInvariant : Prop :=
  ∀ s t : State, Inv s → step s = .next t → Inv t

/-- The state after reset has the invariant. Its parameters are the model's choice (log 2). -/
def Obligations.ResetHasInvariant : Prop := Inv State.reset

/-- 20_memory.md R68: every command checks every region it will touch before its first access, so no engine access falls
outside `MEM`: from every state with the invariant the engine's move answers a next state, never a fault or a refusal, and so
does one engine step (60_exceptions.md R271), also in the middle of an instruction. The engine's move, all steps left of an
instruction at once, is the model's (log 3). -/
def Obligations.EngineNeverLeavesMem : Prop :=
  ∀ s : State, Inv s → (∃ t, engineTurn s = .next t) ∧ ∃ t, engineStep s = .next t

/-- 60_exceptions.md R260, R277, R290: from every state with the invariant, a step answers a next state unless the host's
pending move is an access to `MEM`, an access at a host address, or a register access of another width. That the register port
answers while `rst` is asserted is the model's reading (log 9). -/
def Obligations.StepStopsOnlyOnHostAccess : Prop :=
  ∀ s : State, Inv s →
    (∀ m rest, s.agenda = .host m :: rest →
      (∃ off v, m = .regWrite off 4 v) ∨ (∃ off, m = .regRead off 4) ∨ ∃ level, m = .setRst level) →
    ∃ t, step s = .next t

/-- 70_reset_and_hazards.md R307, 60_exceptions.md R271: with nothing pending, every running command ends: a run of steps from
any state with the invariant reaches an idle engine with `DONE = 1`, and so do finitely many single engine steps, one access to
`MEM` or one register update each; the engine's move, which is the model's (log 3), is what a number of such steps,
at least one, add up to. -/
def Obligations.EveryCommandEnds : Prop :=
  ∀ s : State, Inv s → s.agenda = [] → s.engine.mode = .run →
    (∃ k t, Host.Core.run Sys2Proof.core k s = .next t ∧ t.engine.mode = .idle ∧ t.status.done = true) ∧
    (∃ k t, Host.Core.run Sys2Proof.core k { s with agenda := List.replicate k .engineStep } = .next t ∧
      t.engine.mode = .idle ∧ t.status.done = true) ∧
    ∀ t, engineTurn s = .next t →
      ∃ n, 0 < n ∧ Host.Core.run Sys2Proof.core n { s with agenda := List.replicate n .engineStep } = .next t

/-- 20_memory.md R73, R80, 60_exceptions.md R271: the engine's move from a state with the invariant writes no cell outside the
regions the running command writes by its pseudocode; one engine step is one access to `MEM` (a read, or a write of one cell
of those regions), or one register update, or an error entry, and nothing else but the engine's place in its instruction. The
engine's move is the model's (log 3); the list of regions is its reading of the pseudocode (log 7). -/
def Obligations.EngineWritesOnlyItsRegions : Prop :=
  (∀ (s t : State), Inv s → s.engine.mode = .run → engineTurn s = .next t →
    ∀ a, (writtenRegions s).any (·.holds a) = false → t.byte a = s.byte a) ∧
  ∀ (s t : State) (rest : List Turn), Inv s → s.engine.mode = .run → s.agenda = .engineStep :: rest → step s = .next t →
    (let u := { s with agenda := rest }
     t.atBoundary = u.atBoundary ∨
     (∃ a v, (writtenRegions s).any (·.holds a) = true ∧ t.atBoundary = (u.setByte a v).atBoundary) ∨
     (∃ r : RegUpdate, t.atBoundary = (r.apply u).atBoundary) ∨
     ∃ code stage index, t.atBoundary = (u.errorEntry code stage index).atBoundary)

/-- 60_exceptions.md R280, R281, 70_reset_and_hazards.md R307: when the engine's move, or one engine step, ends a command, by
completion or error, `DONE` is set and `irq` is `IRQ_EN`; when it does not, the command is still `BUSY` and `irq` is 0. The
engine's move is the model's (log 3). -/
def Obligations.EndOfCommandSignalsDone : Prop :=
  ∀ s t : State, statusOk s → s.engine.mode = .run → engineTurn s = .next t ∨ engineStep s = .next t →
    (t.engine.mode = .idle → t.status.done = true ∧ t.irq = s.regs.irqEn) ∧
    (t.engine.mode = .run → t.busy = true ∧ t.irq = false)

/-- 40_bitpacker.md R125 to R128, 41_classifier.md R146, R147, 42_block_codec.md R167, R172 to R176, R178, 43_resampler.md
R211, R213, 44_container.md R234 to R238, 60_exceptions.md R265 (the registers each instruction writes), 10_state.md R22, R39: a
next state of any instruction leaves every register as it was but those the instruction's rule lists, `STATUS` and `ERR_INDEX`
aside, and `ENG_CMD`, the platform, the input `rst` and the model's own fields as they were. Of the registers R178 and R238
list, `exec` of DECODE_BLOCK writes none and `exec` of DECODE_IMAGE not `BLK_COUNT`: it ends at the first record, and what moves
`STREAM_PTR` and `BLK_COUNT` past a record is the step that runs it. Where `exec` ends is the model's choice (log 3). -/
def Obligations.ExecWritesOnlyItsRegisters : Prop :=
  ∀ (i : Instr) (s t : State), exec i s = .next t →
    sameSurroundings s t ∧ t.engine.cmd = s.engine.cmd ∧
    (match i with
      | .classify _ => t.regs = { s.regs with cls := t.regs.cls }
      | .encodeBlock _ _ =>
        t.regs = { s.regs with cls := t.regs.cls, streamPtr := t.regs.streamPtr, blkCount := t.regs.blkCount }
      | .encodeImage _ _ =>
        t.regs = { s.regs with cls := t.regs.cls, streamPtr := t.regs.streamPtr, blkCount := t.regs.blkCount }
      | .decodeImage _ =>
        t.regs = { s.regs with width := t.regs.width, height := t.regs.height, streamPtr := t.regs.streamPtr }
      | _ => t.regs = s.regs)

/-! ## Reset, start, acknowledge, the register window -/

/-- 70_reset_and_hazards.md R304, 10_state.md R44: after power-on every register reads 0, the engine is idle with
`ENG_CMD = 0`, `irq = 0`, and every cell of `MEM` holds its power-on draw; a reset of any state gives the same registers and
engine, and does not change `MEM`. -/
def Obligations.ResetValues : Prop :=
  ((∀ r : Reg, regValue State.reset r = 0) ∧ State.reset.engine.mode = .idle ∧ State.reset.engine.cmd = 0 ∧
    State.reset.irq = false ∧ ∀ a, State.reset.byte a = Config.powerOnByte a) ∧
  ∀ s : State, (∀ r : Reg, regValue s.resetRegisters r = 0) ∧ s.resetRegisters.engine.mode = .idle ∧
    s.resetRegisters.engine.cmd = 0 ∧ s.resetRegisters.irq = false ∧ s.resetRegisters.mem = s.mem

/-- 70_reset_and_hazards.md R301: a write to `CTRL`, at any offset that names it, with `SRST` set, the `START` bit whatever it
is, puts every register and the engine in the reset state, idle or busy; idle, `MEM` is not changed; busy, it holds what it
held after some number (a draw, log 8) of engine steps of the current instruction, which, from a state with the invariant, are
steps of the machine. The platform, `rst` and the pending moves stay. -/
def Obligations.SoftResetFromAnyState : Prop :=
  ∀ (s t : State) (off : Byte) (v : Word) (rest : List Turn), s.rst = false → off.toNat < 4 →
    s.agenda = .host (.regWrite off 4 v) :: rest → v.getLsbD 1 = true → step s = .next t →
    t.regs = Regs.reset ∧ t.status = Status.reset ∧ t.engine = Engine.reset ∧
    t.platform = s.platform ∧ t.rst = s.rst ∧ t.agenda = rest ∧
    (s.engine.mode = .idle → t.mem = s.mem) ∧
    (s.engine.mode = .run → ∃ k, cutMem k { s with agenda := rest } = .ok t.mem) ∧
    (Inv s → s.engine.mode = .run →
      ∃ k u, Host.Core.run Sys2Proof.core k { s with agenda := List.replicate k .engineStep } = .next u ∧ t.mem = u.mem)

/-- 70_reset_and_hazards.md R300: asserting `rst` gives the reset state of every register and of the engine; idle, `MEM` is not
changed; busy, it holds what it held after some number (a draw, log 8) of engine steps of the current instruction. While `rst`
is asserted a register write, a `START` too, changes nothing; releasing it changes nothing but `rst`. That a write is lost
while it is asserted is the model's reading (log 9). -/
def Obligations.HardResetHolds : Prop :=
  (∀ (s : State) (rest : List Turn), s.agenda = .host (.setRst false) :: rest →
    step s = .next { s with rst := false, agenda := rest }) ∧
  ∀ (s t : State) (rest : List Turn), s.agenda = .host (.setRst true) :: rest → step s = .next t →
    t.rst = true ∧ t.regs = Regs.reset ∧ t.status = Status.reset ∧ t.engine = Engine.reset ∧
    (s.engine.mode = .idle → t.mem = s.mem) ∧
    (s.engine.mode = .run → ∃ k, cutMem k { s with agenda := rest } = .ok t.mem) ∧
    (Inv s → s.engine.mode = .run →
      ∃ k u, Host.Core.run Sys2Proof.core k { s with agenda := List.replicate k .engineStep } = .next u ∧ t.mem = u.mem) ∧
    ∀ (off : Byte) (v : Word) (more : List Turn),
      rest = .host (.regWrite off 4 v) :: more → step t = .next { t with agenda := more }

/-- 10_state.md R23, R24, R39, R42, 60_exceptions.md R281, R290: a write to `CTRL`, at any offset that names it, without `SRST`,
while idle. With `START` it is an accepted start: `ENG_CMD` copies `CMD`, `STATUS`, `ERR_INDEX` and `BLK_COUNT` are cleared, the
engine runs at the command, `IRQ_EN` is bit 2 of the write; every other register, `MEM` and the platform stay. Without `START`
no command starts: `IRQ_EN` is bit 2 of the write, and nothing else changes, so clearing it masks `irq` without clearing
`DONE`. -/
def Obligations.AcceptedStart : Prop :=
  ∀ (s : State) (off : Byte) (v : Word) (rest : List Turn), s.rst = false → s.engine.mode = .idle → off.toNat < 4 →
    s.agenda = .host (.regWrite off 4 v) :: rest → v.getLsbD 1 = false →
    (v.getLsbD 0 = true →
      ∃ t, step s = .next t ∧ t.engine.mode = .run ∧ t.engine.cmd = s.regs.cmd ∧ t.engine.phase = .command ∧
        t.engine.underway = none ∧ t.busy = true ∧ t.status = Status.reset ∧
        t.regs = { s.regs with irqEn := v.getLsbD 2, blkCount := 0 } ∧ t.mem = s.mem ∧
        t.platform = s.platform ∧ t.agenda = rest) ∧
    (v.getLsbD 0 = false →
      ∃ t, step s = .next t ∧ t = { s with regs := { s.regs with irqEn := v.getLsbD 2 }, agenda := rest } ∧
        t.busy = false ∧ t.irq = (v.getLsbD 2 && s.status.done))

/-- 10_state.md R24, R37, 70_reset_and_hazards.md R311: while `BUSY = 1` a register write without `SRST` changes nothing but,
at `CTRL`, `IRQ_EN`; in particular a `START` is ignored. -/
def Obligations.WritesWhileBusyIgnored : Prop :=
  ∀ (s : State) (off : Byte) (v : Word) (rest : List Turn), s.rst = false → s.engine.mode = .run →
    s.agenda = .host (.regWrite off 4 v) :: rest → (off.toNat < 4 → v.getLsbD 1 = false) →
    step s = .next { s with
      agenda := rest, regs := if off.toNat < 4 then { s.regs with irqEn := v.getLsbD 2 } else s.regs }

/-- 60_exceptions.md R279, 10_state.md R26: a write to `STATUS` while idle clears `DONE` by bit 1, and `ERR`, `ERR_CODE`,
`ERR_STAGE` and `ERR_INDEX` together by bit 2, and changes nothing else. -/
def Obligations.AcknowledgeClears : Prop :=
  ∀ (s : State) (off : Byte) (v : Word) (rest : List Turn), s.rst = false → s.engine.mode = .idle →
    s.agenda = .host (.regWrite off 4 v) :: rest → off.toNat / 4 = 2 →
    step s = .next { s with
      agenda := rest,
      status :=
        ⟨s.status.done && !v.getLsbD 1, s.status.err && !v.getLsbD 2,
          if v.getLsbD 2 then .none else s.status.code, if v.getLsbD 2 then .none else s.status.stage,
          if v.getLsbD 2 then 0 else s.status.index⟩ }

/-- 10_state.md R22, R23, R25, R28 to R36: a write to a register other than `CTRL` and `STATUS` while idle stores its
implemented bits, which then read back; a read-only register keeps its value; every other register keeps its value. -/
def Obligations.ArgumentRegistersReadBack : Prop :=
  ∀ (s : State) (off : Byte) (v : Word) (rest : List Turn) (r q : Reg), s.rst = false → s.engine.mode = .idle →
    s.agenda = .host (.regWrite off 4 v) :: rest → regAt off = some r → r ≠ .ctrl → r ≠ .status →
    ∃ t, step s = .next t ∧ t.mem = s.mem ∧ t.engine = s.engine ∧
      regValue t r = (if storedMask r = 0 then regValue s r else v &&& storedMask r) ∧
      (q ≠ r → regValue t q = regValue s q)

/-- 10_state.md R22, R23, 20_memory.md R60, R79: a read of a reserved offset returns 0 and a write to it has no effect, address
bits 1:0 are ignored, and a register access of another width is refused. An access at host address
`REG_BASE + offset` is that access of the register, its bytes the least significant first; one at `MEM_BASE + offset` is that
access of `MEM`. That its first address routes an access, the window before `MEM`, is the model's choice (log 17), and so is
that any other address is another device's, refused (log 14), and that the ports answer while `rst` is asserted (log 9). -/
def Obligations.ReservedOffsetsAndWidths : Prop :=
  ∀ (s : State) (off : Byte) (v : Word) (size : Nat) (rest : List Turn),
    (regAt off = none ↔ 0x5C ≤ off.toNat) ∧ regAt off = regAt (off &&& 0xFC) ∧
    (0x5C ≤ off.toNat → s.agenda = .host (.regRead off 4) :: rest →
      step s = .next { s with agenda := rest, reply := .word 0 }) ∧
    (0x5C ≤ off.toNat → s.agenda = .host (.regWrite off 4 v) :: rest → step s = .next { s with agenda := rest }) ∧
    (size ≠ 4 → s.agenda = .host (.regRead off size) :: rest → step s = .refused (.registerAccessWidth size)) ∧
    (size ≠ 4 → s.agenda = .host (.regWrite off size v) :: rest → step s = .refused (.registerAccessWidth size)) ∧
    wordOfBytes (bytesLE 4 v.toNat) = v ∧
    ∀ (addr : Nat) (bytes : List Byte),
      (let inWindow := s.platform.regBase ≤ addr ∧ addr < s.platform.regBase + 0x100
       let inMem := s.platform.memBase ≤ addr ∧ addr < s.platform.memBase + s.platform.memBytes
       let reg : Byte := BitVec.ofNat 8 (addr - s.platform.regBase)
       let mem := addr - s.platform.memBase
       let same (m : HostMove) := step { s with agenda := .host m :: rest }
       (s.agenda = .host (.busRead addr size) :: rest →
         (inWindow → step s = same (.regRead reg size)) ∧
         (¬inWindow → inMem → step s = same (.memRead mem size)) ∧
         (¬inWindow → ¬inMem → step s = .refused (.addressOfAnotherDevice addr))) ∧
       (s.agenda = .host (.busWrite addr bytes) :: rest →
         (inWindow → step s = same (.regWrite reg bytes.length (wordOfBytes bytes))) ∧
         (¬inWindow → inMem → step s = same (.memWrite mem bytes)) ∧
         (¬inWindow → ¬inMem → step s = .refused (.addressOfAnotherDevice addr))))

/-- 10_state.md R22 to R37, 60_exceptions.md R261, R267: the register at each offset, and the word of each in terms of the
machine's fields: every field in its bits, the codes, stages and modes by their numbers, reserved and write-only bits 0. A
host read of `STATUS` while a command runs returns `BUSY = 1`, `DONE = 0`, `ERR = 0`; idle, a read of any register returns its
word; busy, a read of every register but the progress registers returns it as last written, and one of a progress register a
draw whose reserved bits are 0 (log 6); no read changes a register. That the port answers while `rst` is asserted is the
model's reading (log 9). -/
def Obligations.RegisterReads : Prop :=
  (∀ off : Byte, regAt off =
    [Reg.ctrl, .cmd, .status, .errIndex, .width, .height, .blkX, .blkY, .yBase, .cbfBase, .crfBase, .cbhBase, .crhBase,
      .imgBase, .streamBase, .streamLen, .streamPtr, .pkSrc, .pkDst, .pkCount, .clsMinMax, .clsGrad,
      .blkCount][off.toNat / 4]?) ∧
  (∀ (s : State) (r : Reg),
    (let bit (b : Bool) (k : Nat) : Nat := if b then 2 ^ k else 0
     let code : Nat := match s.status.code with
       | .none => 0
       | .unexpectedEndOfInput => 1
       | .ioFailure => 2
       | .invalidDimensions => 3
       | .illegalCommand => 4
       | .argumentRange => 5
     let stage : Nat := match s.status.stage with
       | .none => 0
       | .setup => 1
       | .header => 2
       | .block => 3
     let mode : Nat := match s.regs.cls.mode with
       | .solid => 0
       | .half2 => 1
       | .full2 => 2
       | .full4 => 3
     (regValue s r).toNat = match r with
       | .ctrl => bit s.regs.irqEn 2
       | .cmd => s.regs.cmd.toNat
       | .status =>
         bit (s.engine.mode = .run) 0 + bit s.status.done 1 + bit s.status.err 2 + code * 2 ^ 4 + stage * 2 ^ 8
       | .errIndex => s.status.index.toNat
       | .width => s.regs.width.toNat
       | .height => s.regs.height.toNat
       | .blkX => s.regs.blkX.toNat
       | .blkY => s.regs.blkY.toNat
       | .yBase => s.regs.yBase.toNat
       | .cbfBase => s.regs.cbfBase.toNat
       | .crfBase => s.regs.crfBase.toNat
       | .cbhBase => s.regs.cbhBase.toNat
       | .crhBase => s.regs.crhBase.toNat
       | .imgBase => s.regs.imgBase.toNat
       | .streamBase => s.regs.streamBase.toNat
       | .streamLen => s.regs.streamLen.toNat
       | .streamPtr => s.regs.streamPtr.toNat
       | .pkSrc => s.regs.pkSrc.toNat
       | .pkDst => s.regs.pkDst.toNat
       | .pkCount => s.regs.pkCount.toNat
       | .clsMinMax => s.regs.cls.min.toNat + s.regs.cls.max.toNat * 2 ^ 8 + mode * 2 ^ 16
       | .clsGrad => s.regs.cls.grad2.toNat
       | .blkCount => s.regs.blkCount.toNat)) ∧
  ∀ (s : State) (off : Byte) (rest : List Turn) (r : Reg), statusOk s → s.agenda = .host (.regRead off 4) :: rest →
    regAt off = some r →
    ∃ t, step s = .next t ∧ t.regs = s.regs ∧ t.status = s.status ∧ t.engine = s.engine ∧ t.mem = s.mem ∧
      (s.engine.mode = .idle → t.reply = .word (regValue s r)) ∧
      (s.engine.mode = .run → r ≠ .streamPtr → r ≠ .blkCount → r ≠ .clsMinMax → r ≠ .clsGrad → r ≠ .width →
        r ≠ .height → t.reply = .word (regValue s r)) ∧
      (s.engine.mode = .run → r = .status →
        ∃ w : Word, t.reply = .word w ∧ w.getLsbD 0 = true ∧ w.getLsbD 1 = false ∧ w.getLsbD 2 = false) ∧
      (s.engine.mode = .run → ∃ w : Word, t.reply = .word w ∧
        (r = .width ∨ r = .height → w.toNat < 2 ^ 16) ∧ (r = .clsMinMax → w.toNat < 2 ^ 18) ∧
        (r = .clsGrad → w.toNat < 2 ^ 9))

/-- 20_memory.md R62, R69, R72, R73, R81, 70_reset_and_hazards.md R314: through the memory port, bytes inside `MEM` written
while idle are what a read of them returns, every other cell is unchanged; while a command runs the write has no move. A read
of bytes inside `MEM` returns the bytes `MEM` holds, but for those of the regions the running command writes, while it runs:
each of those is a draw (the list of regions and the form of the draw are the model's, log 7); it changes no register, no cell
and nothing of the engine. That an access of several bytes is one step, with no engine step between its bytes, is the model's
choice (log 21), and so is that the memory port answers while `rst` is asserted (log 9). -/
def Obligations.MemoryPortReadsWhatWasWritten : Prop :=
  (∀ (s : State) (off n : Nat) (rest : List Turn),
    s.agenda = .host (.memRead off n) :: rest → off + n ≤ s.platform.memBytes →
    ∃ t bytes, step s = .next t ∧ t.reply = .bytes bytes ∧ bytes.length = n ∧
      t = { s with agenda := rest, reply := t.reply, draws := t.draws } ∧
      (s.engine.mode = .idle → t.draws = s.draws) ∧ (s.engine.mode = .run → s.draws < t.draws) ∧
      ∀ k, k < n →
        (s.engine.mode = .idle ∨ (writtenRegions s).any (·.holds (off + k)) = false →
          bytes.getD k 0 = s.byte (off + k)) ∧
        (s.engine.mode = .run → (writtenRegions s).any (·.holds (off + k)) = true →
          bytes.getD k 0 = Config.busyByte s.draws (off + k))) ∧
  ∀ (s : State) (off : Nat) (bytes : List Byte) (rest : List Turn),
    s.agenda = .host (.memWrite off bytes) :: .host (.memRead off bytes.length) :: rest →
    (s.engine.mode = .idle → off + bytes.length ≤ s.platform.memBytes →
      ∃ t u, step s = .next t ∧ step t = .next u ∧ u.reply = .bytes bytes ∧ u.regs = s.regs ∧
        sameOutside { base := off, len := bytes.length } s u) ∧
    (s.engine.mode = .run → step s = .refused .memWriteWhileBusy)

/-- 60_exceptions.md R275: what an error entry writes, and that it writes nothing else: `MEM`, every register but `STATUS` and
`ERR_INDEX`, and `ENG_CMD` stay. -/
def Obligations.ErrorEntryRecordsTheError : Prop :=
  ∀ (s : State) (code : ErrCode) (stage : ErrStage) (n : Nat),
    (s.errorEntry code stage n).status.code = code ∧ (s.errorEntry code stage n).status.stage = stage ∧
    (s.errorEntry code stage n).status.index = (if stage = .block then BitVec.ofNat 32 n else 0) ∧
    (s.errorEntry code stage n).status.err = true ∧ (s.errorEntry code stage n).status.done = true ∧
    (s.errorEntry code stage n).busy = false ∧ (s.errorEntry code stage n).irq = s.regs.irqEn ∧
    (s.errorEntry code stage n).regs = s.regs ∧ (s.errorEntry code stage n).mem = s.mem ∧
    (s.errorEntry code stage n).engine.cmd = s.engine.cmd ∧ sameSurroundings s (s.errorEntry code stage n)

/-! ## NOP and the reserved opcodes -/

/-- 44_container.md R234: `NOP` completes from every state, and changes nothing but `DONE` and `BUSY`. -/
def Obligations.NopCompletes : Prop :=
  ∀ s : State, exec .nop s = .next s.complete ∧ s.complete.regs = s.regs ∧ s.complete.mem = s.mem ∧
    s.complete.status = { s.status with done := true } ∧ s.complete.busy = false

/-- 60_exceptions.md R265: both reserved opcodes raise `ILLEGAL_COMMAND` at `SETUP` from every state, and change no register
but `STATUS` and `ERR_INDEX`, and no cell of `MEM`. -/
def Obligations.ReservedOpcodesRaiseIllegalCommand : Prop :=
  ∀ (low : BitVec 1) (s : State),
    exec (decodeCmd (0#6 ++ 7#3 ++ low)) s = .next (s.errorEntry .illegalCommand .setup 0) ∧
    exec (.illegalCommand low) s = .next (s.errorEntry .illegalCommand .setup 0)

/-! ## BitPacker -/

/-- 40_bitpacker.md R129: unpacking what was packed gives the low `N` bits of each level, and so the levels themselves when
each is below `2^N`; for `N = 2` and `N = 4`. -/
def Obligations.PackingRoundTrips : Prop :=
  ∀ (n : Nat) (levels : List Byte), n = 2 ∨ n = 4 →
    (unpackLevels n (packLevels n levels) levels.length).map BitVec.toNat = levels.map (fun l => l.toNat % 2 ^ n) ∧
    ((∀ l ∈ levels, l.toNat < 2 ^ n) → unpackLevels n (packLevels n levels) levels.length = levels)

/-- 40_bitpacker.md R120, R121: level `i` occupies its bits of its byte, and bits no level fills are 0. -/
def Obligations.PackedBitPositions : Prop :=
  ∀ (levels : List Byte),
    (packLevels 2 levels).length = (levels.length + 3) / 4 ∧ (packLevels 4 levels).length = (levels.length + 1) / 2 ∧
    (∀ k j, k < (levels.length + 3) / 4 → j < 8 →
      ((packLevels 2 levels).getD k 0).getLsbD j = (levels.getD (4 * k + j / 2) 0).getLsbD (j % 2)) ∧
    (∀ k j, k < (levels.length + 1) / 2 → j < 8 →
      ((packLevels 4 levels).getD k 0).getLsbD j = (levels.getD (2 * k + j / 4) 0).getLsbD (j % 4))

/-- 40_bitpacker.md R125, R126: `PACK2` and `PACK4` with their regions in bounds complete, write no cell outside the output
region and no register but `STATUS`; where the output does not overlap the input, output byte `k` is byte `k` of the packed
input bytes. -/
def Obligations.PackCommandsComplete : Prop :=
  ∀ (s : State) (i : Instr) (w : Nat), (i = .pack2 ∧ w = 2) ∨ (i = .pack4 ∧ w = 4) →
    (let n := s.regs.pkCount.toNat
     let src : Region := { base := s.regs.pkSrc.toNat, len := n }
     let dst : Region := { base := s.regs.pkDst.toNat, len := (n + (8 / w - 1)) / (8 / w) }
     allInBounds s [src, dst] = true →
     ∃ t, exec i s = .next t ∧ endedChangingMemoryOnly s t ∧ sameOutside dst s t ∧
       (disjoint src dst → ∀ k, k < dst.len →
         t.byte (dst.base + k) =
           (packLevels w ((List.range n).map fun j => s.byte (src.base + j))).getD k 0))

/-- 40_bitpacker.md R127, R128: `UNPACK2` and `UNPACK4` with their regions in bounds complete, write no cell outside the
output region and no register but `STATUS`; where the output does not overlap the input, output byte `k` is level `k` of the
input bytes. -/
def Obligations.UnpackCommandsComplete : Prop :=
  ∀ (s : State) (i : Instr) (w : Nat), (i = .unpack2 ∧ w = 2) ∨ (i = .unpack4 ∧ w = 4) →
    (let n := s.regs.pkCount.toNat
     let src : Region := { base := s.regs.pkSrc.toNat, len := (n + (8 / w - 1)) / (8 / w) }
     let dst : Region := { base := s.regs.pkDst.toNat, len := n }
     allInBounds s [src, dst] = true →
     ∃ t, exec i s = .next t ∧ endedChangingMemoryOnly s t ∧ sameOutside dst s t ∧
       (disjoint src dst → ∀ k, k < n →
         (t.byte (dst.base + k)).toNat =
           (s.byte (src.base + k / (8 / w))).toNat / 2 ^ (w * (k % (8 / w))) % 2 ^ w))

/-- 40_bitpacker.md R125 to R128, 60_exceptions.md R264, R270: with a region out of bounds each of the four raises
`IO_FAILURE` at `SETUP` and changes nothing else. -/
def Obligations.PackerRegionsChecked : Prop :=
  ∀ (s : State),
    (let n := s.regs.pkCount.toNat
     let src (len : Nat) : Region := { base := s.regs.pkSrc.toNat, len := len }
     let dst (len : Nat) : Region := { base := s.regs.pkDst.toNat, len := len }
     let failed := Host.Outcome.next (s.errorEntry .ioFailure .setup 0)
     (allInBounds s [src n, dst ((n + 3) / 4)] = false → exec .pack2 s = failed) ∧
     (allInBounds s [src n, dst ((n + 1) / 2)] = false → exec .pack4 s = failed) ∧
     (allInBounds s [src ((n + 3) / 4), dst n] = false → exec .unpack2 s = failed) ∧
     (allInBounds s [src ((n + 1) / 2), dst n] = false → exec .unpack4 s = failed))

/-! ## Classifier -/

/-- 41_classifier.md R141, R142: of 64 samples, `MIN` and `MAX` are attained and bound every sample, and `GRAD2` is attained
in the window and bounds every term of the window, under both readings of the window; it is at most 510. -/
def Obligations.ClassifierExtremesAndGradient : Prop :=
  ∀ (p : List Byte) (g : Config.GradWindow), p.length = 64 →
    (∃ v ∈ p, v.toNat = minSample p) ∧ (∃ v ∈ p, v.toNat = maxSample p) ∧
    (∀ v ∈ p, minSample p ≤ v.toNat ∧ v.toNat ≤ maxSample p) ∧
    (let lo := if g = .interior then 1 else 0
     let term (x y : Nat) : Int :=
       |(sampleAt p x y : Int) - sampleAt p (x + 1) y| + |(sampleAt p x y : Int) - sampleAt p x (y + 1)|
     (∀ x y, lo ≤ x → x ≤ 6 → lo ≤ y → y ≤ 6 → term x y ≤ grad2 g p) ∧
     (∃ x y, lo ≤ x ∧ x ≤ 6 ∧ lo ≤ y ∧ y ≤ 6 ∧ term x y = grad2 g p) ∧ grad2 g p ≤ 510)

/-- 41_classifier.md R142 to R145, 00_scope.md R5: the decision of a classification of 64 samples, in order, with the source's
threshold 15 on half of `GRAD2`; never `FullRes4Bit`; `MIN`, `MAX` and `GRAD2` are held exactly. On this hardware
`GRAD_WINDOW = INTERIOR`: `GRAD2` is attained in the window `1 <= x, y <= 6` and bounds every term of it, and the decision is
taken on it. -/
def Obligations.ClassifierDecision : Prop :=
  (∀ p : List Byte, p.length = 64 →
    (let c := classifyBlock p
     let term (x y : Nat) : Int :=
       |(sampleAt p x y : Int) - sampleAt p (x + 1) y| + |(sampleAt p x y : Int) - sampleAt p x (y + 1)|
     (∀ x y, 1 ≤ x → x ≤ 6 → 1 ≤ y → y ≤ 6 → term x y ≤ c.grad2.toNat) ∧
     (∃ x y, 1 ≤ x ∧ x ≤ 6 ∧ 1 ≤ y ∧ y ≤ 6 ∧ term x y = c.grad2.toNat) ∧
     c.min.toNat = minSample p ∧ c.max.toNat = maxSample p ∧
     c.mode =
       (if maxSample p = minSample p then .solid
        else if ((c.grad2.toNat : Int) : ℚ) / 2 < 15 then .half2
        else .full2))) ∧
  ∀ (p : List Byte) (g : Config.GradWindow), p.length = 64 →
    (classifyWith g p).mode =
      (if maxSample p = minSample p then .solid
       else if ((grad2 g p : Int) : ℚ) / 2 < 15 then .half2
       else .full2) ∧
    (classifyWith g p).mode ≠ .full4 ∧ (classifyWith g p).min.toNat = minSample p ∧
    (classifyWith g p).max.toNat = maxSample p ∧ (classifyWith g p).grad2.toNat = grad2 g p

/-- 41_classifier.md R146, R147: `CLASSIFY` of a window inside a plane in bounds completes, with `CLS_MINMAX` and `CLS_GRAD`
the classification of the window's samples, and nothing else changed but `DONE` and `BUSY`. -/
def Obligations.ClassifyCompletes : Prop :=
  ∀ (s : State) (plane : BitVec 2) (p : Plane), blockPlane plane = some p →
    validDims s.regs.width s.regs.height = true → windowInside s p = true → allInBounds s [planeRegion s p] = true →
    exec (.classify plane) s = .next (s.setCls (classifyBlock (blockSamples s (singleBlock s p)))).complete

/-- 60_exceptions.md R270, R265, R262, R266, R264: the checks of the single-block commands in order, each ending the command
with the first error that applies and nothing else changed. -/
def Obligations.SingleBlockCheckOrder : Prop :=
  ∀ (s : State) (plane : BitVec 2) (fmode : BitVec 3) (i : Instr),
    i = .classify plane ∨ i = .encodeBlock plane fmode ∨ i = .decodeBlock plane →
    (let fails (code : ErrCode) := exec i s = .next (s.errorEntry code .setup 0)
     let regions (p : Plane) := if i = .classify plane then [planeRegion s p] else [planeRegion s p, streamRegion s]
     (plane = 3 → fails .illegalCommand) ∧
     (i = .encodeBlock plane fmode → 4 < fmode.toNat → fails .illegalCommand) ∧
     (∀ p, blockPlane plane = some p → (i = .encodeBlock plane fmode → fmode.toNat ≤ 4) →
       (validDims s.regs.width s.regs.height = false → fails .invalidDimensions) ∧
       (validDims s.regs.width s.regs.height = true → windowInside s p = false → fails .argumentRange) ∧
       (validDims s.regs.width s.regs.height = true → windowInside s p = true →
         allInBounds s (regions p) = false → fails .ioFailure)))

/-! ## Block codec -/

/-- 42_block_codec.md R160, R161: the quantizer is exact: for `R > 0`, `Q` 3 or 15 and `d <= R`, the level is at least `k`
exactly when `100*d*Q >= (100*k - 49)*R`; it is 0 at 0, `Q` at `R`, at most `Q`, non-decreasing in `d`; and 0 for `R = 0`. -/
def Obligations.QuantizerExactAndInRange : Prop :=
  ∀ (d r q : Nat), q = 3 ∨ q = 15 →
    quantize d 0 q = 0 ∧
    (0 < r → d ≤ r →
      (∀ k : Nat, k ≤ quantize d r q ↔ ((100 * k : Int) - 49) * r ≤ 100 * d * q) ∧
      quantize 0 r q = 0 ∧ quantize r r q = q ∧ quantize d r q ≤ q ∧ ∀ e, d ≤ e → quantize d r q ≤ quantize e r q)

/-- 42_block_codec.md R162 to R166, 30_encoding.md R103: the record of any 64 samples in any mode decodes to a record of that
mode's kind, with the block's minimum in its six high bits (0 for Solid) and the range `max - min`; its unpacked samples are
the quantized levels: for `HALF2` of the samples at the even positions, `p(2*gx, 2*gy)` at `gy*4 + gx`, for `FULL2` and
`FULL4` of all samples, `p(x, y)` at `y*8 + x`; a Solid record is never a `SKIP`. -/
def Obligations.EncodedRecordsDecodeToTheirKind : Prop :=
  ∀ (p : List Byte) (m : BlockMode) (mn mx : Byte) (rest : List Byte),
    (let level (q x y : Nat) : Byte :=
       BitVec.ofNat 8 (quantize (sampleAt p x y - mn.toNat) (mx.toNat - mn.toNat) q % (q + 1))
     ∃ i, decode .record (encodeRecord p m mn mx ++ rest) = .ok (i, rest) ∧ i.wellFormed = true ∧
      (match m with
        | .solid => i = .solid 0 (if mn = 0 then 1 else mn)
        | .half2 => ∃ samples, i = .half2 (mn.extractLsb' 2 6) (mx - mn) samples ∧
          unpackLevels 2 samples 16 = (List.range 16).map fun k => level 3 (2 * (k % 4)) (2 * (k / 4))
        | .full2 => ∃ samples, i = .full2 (mn.extractLsb' 2 6) (mx - mn) samples ∧
          unpackLevels 2 samples 64 = (List.range 64).map fun k => level 3 (k % 8) (k / 8)
        | .full4 => ∃ samples, i = .full4 (mn.extractLsb' 2 6) (mx - mn) samples ∧
          unpackLevels 4 samples 64 = (List.range 64).map fun k => level 15 (k % 8) (k / 8)))

/-- 42_block_codec.md R179, FullRes2Bit accuracy: for every sample of a block with `R >= 1` encoded as `FULL2`,
`3 * abs(decoded - original) <= R + 5`. Decoded is what the record's dequantizer gives for the level the encoder gives. -/
def Obligations.Full2AccuracyBound : Prop :=
  ∀ (mn mx v : Byte), mn ≤ v → v ≤ mx → mn < mx →
    3 * |((dequantFull2 (mn.extractLsb' 2 6) (mx - mn)
        (levelOf mn.toNat (mx.toNat - mn.toNat) 3 v.toNat)).toNat : Int) - v.toNat| ≤ (mx.toNat : Int) - mn.toNat + 5

/-- 42_block_codec.md R179, fixed point: a block of 64 samples, its range 0 too, encoded as `FULL2`, decoded, encoded again as
`FULL2` and decoded again gives the first decoded block when no sample clamps, `((mn & 0xFC) | 2) + R <= 255`, and `R != 4`;
the same for `FULL4`, without a clamp, `((mn & 0xFC) | 3) + R <= 255`, unless `R` is one of 4, 7, 8, 11 to 14, 16 to 24, 26,
28; each encode takes the minimum and the range of its own block. And sample by sample, for `FULL2`: what a sample decodes to
encodes, against the minimum `(mn & 0xFC) | 2` and the same range, to what decodes to the same value. -/
def Obligations.Full2FixedPoint : Prop :=
  (∀ (p : List Byte), p.length = 64 →
    (let again (m : BlockMode) (q : List Byte) : List Byte :=
       decodedBlock (encodeRecord q m (classifyBlock q).min (classifyBlock q).max)
     let r := maxSample p - minSample p
     (minSample p / 4 * 4 + 2 + r ≤ 255 → r ≠ 4 → again .full2 (again .full2 p) = again .full2 p) ∧
     (minSample p / 4 * 4 + 3 + r ≤ 255 →
       r ∉ [4, 7, 8, 11, 12, 13, 14, 16, 17, 18, 19, 20, 21, 22, 23, 24, 26, 28] →
       again .full4 (again .full4 p) = again .full4 p))) ∧
  ∀ (mn mx v : Byte), mn ≤ v → v ≤ mx →
    (let r := mx.toNat - mn.toNat
     let base := mn.toNat / 4 * 4 + 2
     let decoded (sample low : Nat) := dequantFull2 (mn.extractLsb' 2 6) (mx - mn) (levelOf low r 3 sample)
     base + r ≤ 255 → r ≠ 4 → decoded (decoded v.toNat mn.toNat).toNat base = decoded v.toNat mn.toNat)

/-- 42_block_codec.md R172, R173: `SKIP` changes nothing; `SOLID` on a block that fits its plane completes, with all 64
samples of the current block equal to its range byte and nothing else changed. -/
def Obligations.SkipAndSolidRecordsComplete : Prop :=
  ∀ (s : State) (base : BitVec 6) (fill : Byte),
    exec (.skip base) s = .next s ∧
    (blockFits s s.engine.block →
      ∃ t, exec (.solid base fill) s = .next t ∧ t = { s with mem := t.mem } ∧ sameOutsideBlock s.engine.block s t ∧
        ∀ x y, x < 8 → y < 8 → t.byte (blockAddr s s.engine.block x y) = fill)

/-- 42_block_codec.md R168, R171, R174: `HALF2` on a block that fits its plane completes; sample `(x, y)` of the current block
is the reconstruction of the 4x4 grid of dequantized levels, its baseline `(control & 0xFC) | 2`; nothing else is changed. -/
def Obligations.Half2RecordCompletes : Prop :=
  ∀ (s : State) (base : BitVec 6) (range : Byte) (samples : List Byte), blockFits s s.engine.block →
    (let level (k : Nat) : Nat := (samples.getD (k / 4) 0).toNat / 4 ^ (k % 4) % 4
     let g (j i : Nat) : Nat := min 255 (level (j * 4 + i) * range.toNat / 3 + (base.toNat * 4 + 2))
     ∃ t, exec (.half2 base range samples) s = .next t ∧ t = { s with mem := t.mem } ∧
       sameOutsideBlock s.engine.block s t ∧
       ∀ x y, x < 8 → y < 8 →
         (let i0 := x / 2
          let j0 := y / 2
          let i1 := min (i0 + 1) 3
          let j1 := min (j0 + 1) 3
          (t.byte (blockAddr s s.engine.block x y)).toNat =
            if x % 2 = 0 ∧ y % 2 = 0 then g j0 i0
            else if y % 2 = 0 then (g j0 i0 + g j0 i1) / 2
            else if x % 2 = 0 then (g j0 i0 + g j1 i0) / 2
            else (g j0 i0 + g j0 i1 + g j1 i0 + g j1 i1) / 4))

/-- 42_block_codec.md R169, R170, R175, R176: `FULL2` and `FULL4` on a block that fits its plane complete; sample `(x, y)` of
the current block is the level dequantized on the raw control byte, clamped at 255; nothing else is changed. -/
def Obligations.Full2AndFull4RecordsComplete : Prop :=
  ∀ (s : State) (base : BitVec 6) (range : Byte) (samples : List Byte), blockFits s s.engine.block →
    (∃ t, exec (.full2 base range samples) s = .next t ∧ t = { s with mem := t.mem } ∧
      sameOutsideBlock s.engine.block s t ∧
      ∀ x y, x < 8 → y < 8 →
        (let k := y * 8 + x
         let level := (samples.getD (k / 4) 0).toNat / 4 ^ (k % 4) % 4
         (t.byte (blockAddr s s.engine.block x y)).toNat =
           min 255 (level * range.toNat / 3 + (base.toNat * 4 + 2)))) ∧
    (∃ t, exec (.full4 base range samples) s = .next t ∧ t = { s with mem := t.mem } ∧
      sameOutsideBlock s.engine.block s t ∧
      ∀ x y, x < 8 → y < 8 →
        (let k := y * 8 + x
         let level := (samples.getD (k / 2) 0).toNat / 16 ^ (k % 2) % 16
         (t.byte (blockAddr s s.engine.block x y)).toNat =
           min 255 (level * range.toNat / 15 + (base.toNat * 4 + 3))))

/-- 42_block_codec.md R166, R167: `ENCODE_BLOCK` with its checks met: the window is classified; where its record fits before
`STREAM_LEN` the record's bytes are appended at `STREAM_PTR`, `STREAM_PTR` moves past them, `BLK_COUNT` is 1 and the command
completes; where it does not fit, `IO_FAILURE` at `BLOCK` 0 with only the classification written. -/
def Obligations.EncodeBlockCompletes : Prop :=
  ∀ (s : State) (plane : BitVec 2) (fmode : BitVec 3) (p : Plane), blockPlane plane = some p → fmode.toNat ≤ 4 →
    validDims s.regs.width s.regs.height = true → windowInside s p = true →
    allInBounds s [planeRegion s p, streamRegion s] = true →
    (let samples := blockSamples s (singleBlock s p)
     let c := classifyBlock samples
     let mode := if fmode = 0 then c.mode else [BlockMode.solid, .half2, .full2, .full4].getD (fmode.toNat - 1) .solid
     let record := encodeRecord samples mode c.min c.max
     let ptr := s.regs.streamPtr.toNat
     if ptr + record.length ≤ s.regs.streamLen.toNat then
       exec (.encodeBlock plane fmode) s =
         .next { (((s.setCls c).setStreamPtr (ptr + record.length)).setBlkCount 1).complete with
           mem := memInsertAll s.mem (s.regs.streamBase.toNat + ptr) record }
     else exec (.encodeBlock plane fmode) s = .next ((s.setCls c).errorEntry .ioFailure .block 0))

/-- 42_block_codec.md R178: `DECODE_BLOCK` with its checks met answers the state that stands at the record of the block at
`(BLK_X, BLK_Y)`; no register and no cell of `MEM` is changed by it. That the record is the next instruction is the model's
(log 3). -/
def Obligations.DecodeBlockReachesItsRecord : Prop :=
  ∀ (s : State) (plane : BitVec 2) (p : Plane), blockPlane plane = some p →
    validDims s.regs.width s.regs.height = true → windowInside s p = true →
    allInBounds s [planeRegion s p, streamRegion s] = true →
    ∃ t, exec (.decodeBlock plane) s = .next t ∧ t.engine.phase = .record ∧ t.engine.block = singleBlock s p ∧
      t.engine.mode = s.engine.mode ∧ t.engine.cmd = s.engine.cmd ∧ t.regs = s.regs ∧ t.status = s.status ∧
      t.mem = s.mem ∧ sameSurroundings s t

/-- 42_block_codec.md R178: a `DECODE_BLOCK` with its checks met and its record whole before `STREAM_LEN` is complete after
three steps of whole turns: its command, its record, its end; then `DONE = 1`, `ERR = 0`, `STREAM_PTR` is past the record,
`BLK_COUNT` is 1, no other register is changed, and no cell outside the block. The three steps are the model's (log 3). -/
def Obligations.DecodeBlockRunCompletes : Prop :=
  ∀ (s : State) (plane : BitVec 2) (p : Plane), statusOk s → s.engine.mode = .run → s.engine.phase = .command →
    s.engine.underway = none → s.agenda = [] → decodeCmd s.engine.cmd = .decodeBlock plane → blockPlane plane = some p →
    validDims s.regs.width s.regs.height = true → windowInside s p = true →
    allInBounds s [planeRegion s p, streamRegion s] = true →
    (let off := s.regs.streamPtr.toNat
     let len := recordLength (s.byte (streamAddr s off))
     off + len ≤ s.regs.streamLen.toNat →
     ∃ t, Host.Core.run Sys2Proof.core 3 s = .next t ∧ t.engine.mode = .idle ∧ t.status.done = true ∧
       t.status.err = false ∧
       t.regs = { s.regs with streamPtr := BitVec.ofNat 32 (off + len), blkCount := 1 } ∧
       sameOutsideBlock (singleBlock s p) s t)

/-! ## Chroma resampler -/

/-- 43_resampler.md R210: the three forms of the biased box average are equal for every sum `0..1020`, and in `0..255`. -/
def Obligations.BoxAverageForms : Prop :=
  ∀ sum : Nat, sum ≤ 1020 →
    boxAverage sum = ⌊((sum : ℚ) / 4 + 2 / 5)⌋.toNat ∧ boxAverage sum = (10 * sum + 16) / 40 ∧
    boxAverage sum = (sum + 1) / 4 ∧ boxAverage sum ≤ 255

/-- 43_resampler.md R210, R211: `DOWNSAMPLE` with its checks met completes and writes no cell outside the half plane and no
register but `STATUS`; where the half plane does not overlap the full one, each half sample is `(S + 1) // 4` of the four
samples it covers. -/
def Obligations.DownsampleCompletes : Prop :=
  ∀ (s : State) (plane : BitVec 2) (f h : Plane), chromaPlanes plane = some (f, h) →
    validDims s.regs.width s.regs.height = true → allInBounds s [planeRegion s f, planeRegion s h] = true →
    ∃ t, exec (.downsample plane) s = .next t ∧ endedChangingMemoryOnly s t ∧ sameOutside (planeRegion s h) s t ∧
      (disjoint (planeRegion s f) (planeRegion s h) → holdsDownsample f h s t)

/-- 43_resampler.md R212, R213: `UPSAMPLE` with its checks met completes and writes no cell outside the full plane and no
register but `STATUS`; where the full plane does not overlap the half one, each full sample is the reconstruction from the
half plane as a whole, replicating only at its last column and row. -/
def Obligations.UpsampleCompletes : Prop :=
  ∀ (s : State) (plane : BitVec 2) (f h : Plane), chromaPlanes plane = some (f, h) →
    validDims s.regs.width s.regs.height = true → allInBounds s [planeRegion s f, planeRegion s h] = true →
    ∃ t, exec (.upsample plane) s = .next t ∧ endedChangingMemoryOnly s t ∧ sameOutside (planeRegion s f) s t ∧
      (disjoint (planeRegion s f) (planeRegion s h) → holdsUpsample f h s t)

/-! ## Orchestrator -/

/-- 44_container.md R230, R231: the traversal the spec writes as two loops over tiles is the sequence of the blocks of index
`0 .. NB - 1`, which is the order ENCODE_IMAGE and DECODE_IMAGE take. -/
def Obligations.TraversalIsBlockOrder : Prop :=
  ∀ w h : Nat, traversal w h = (List.range (6 * (w / 16) * (h / 16))).map (blockAt w)

/-- 44_container.md R235: `SPLIT` with its checks met completes and writes no cell outside the three full planes and no
register but `STATUS`; where the image and the planes do not overlap each other, each plane holds its channel of the image. -/
def Obligations.SplitCompletes : Prop :=
  ∀ s : State, validDims s.regs.width s.regs.height = true → allInBounds s (imageAndPlanes s) = true →
    ∃ t, exec .split s = .next t ∧ endedChangingMemoryOnly s t ∧
      sameOutsideAll [planeRegion s .y, planeRegion s .cbf, planeRegion s .crf] s t ∧
      ((imageAndPlanes s).Pairwise disjoint → holdsSplit s t)

/-- 44_container.md R236: `MERGE` with its checks met completes and writes no cell outside the interleaved image and no
register but `STATUS`; where the image overlaps no plane, each channel of the image holds its plane. -/
def Obligations.MergeCompletes : Prop :=
  ∀ s : State, validDims s.regs.width s.regs.height = true → allInBounds s (imageAndPlanes s) = true →
    ∃ t, exec .merge s = .next t ∧ endedChangingMemoryOnly s t ∧ sameOutside (imageRegion s) s t ∧
      ((∀ p : Plane, p = .y ∨ p = .cbf ∨ p = .crf → disjoint (imageRegion s) (planeRegion s p)) → holdsMerge s t)

/-- 60_exceptions.md R270, R262, R264, R265: the checks of the plane commands in order, each ending the command with the first
error that applies and nothing else changed. -/
def Obligations.PlaneCommandCheckOrder : Prop :=
  ∀ (s : State) (plane : BitVec 2) (f h : Plane) (i j : Instr),
    i = .downsample plane ∨ i = .upsample plane → j = .split ∨ j = .merge →
    (let fails (k : Instr) (code : ErrCode) := exec k s = .next (s.errorEntry code .setup 0)
     (plane = 0 ∨ plane = 3 → fails i .illegalCommand) ∧
     (validDims s.regs.width s.regs.height = false →
       (chromaPlanes plane = some (f, h) → fails i .invalidDimensions) ∧ fails j .invalidDimensions) ∧
     (validDims s.regs.width s.regs.height = true →
       (chromaPlanes plane = some (f, h) → allInBounds s [planeRegion s f, planeRegion s h] = false →
         fails i .ioFailure) ∧
       (allInBounds s (imageAndPlanes s) = false → fails j .ioFailure)))

/-- 44_container.md R237, R232, 30_encoding.md R102: `ENCODE_IMAGE` with its checks met and room for the longest stream,
`4 + 204 * T` bytes for `T` tiles (`4 + 108 * T` under `AUTO`), completes: `BLK_COUNT = NB = 6 * T`, `STREAM_PTR` is the stream
length, within its bounds, the header is at the stream's begin, and no cell is changed outside the half planes, the stream
and, with `IL = 1`, the full planes. -/
def Obligations.EncodeImageCompletes : Prop :=
  ∀ (s : State) (fmode : BitVec 3) (il : Bool), fmode.toNat ≤ 4 → validDims s.regs.width s.regs.height = true →
    allInBounds s (streamRegion s :: codecRegions il s) = true →
    (let tiles := (s.regs.width.toNat / 16) * (s.regs.height.toNat / 16)
     let most := 4 + (if fmode = 0 then 108 else 204) * tiles
     most ≤ s.regs.streamLen.toNat →
     ∃ t, exec (.encodeImage fmode il) s = .next t ∧ t.engine.mode = .idle ∧
       t.status = { s.status with done := true } ∧ t.regs.blkCount = BitVec.ofNat 32 (6 * tiles) ∧
       4 + 12 * tiles ≤ t.regs.streamPtr.toNat ∧ t.regs.streamPtr.toNat ≤ most ∧
       t.byte (streamAddr s 0) = s.regs.width.extractLsb' 0 8 ∧ t.byte (streamAddr s 1) = s.regs.width.extractLsb' 8 8 ∧
       t.byte (streamAddr s 2) = s.regs.height.extractLsb' 0 8 ∧ t.byte (streamAddr s 3) = s.regs.height.extractLsb' 8 8 ∧
       t.regs = { s.regs with cls := t.regs.cls, streamPtr := t.regs.streamPtr, blkCount := t.regs.blkCount } ∧
       ∀ a, (planeRegion s .cbh).holds a = false → (planeRegion s .crh).holds a = false →
         (streamRegion s).holds a = false →
         (il = true → (planeRegion s .y).holds a = false ∧ (planeRegion s .cbf).holds a = false ∧
           (planeRegion s .crf).holds a = false) →
         t.byte a = s.byte a)

/-- 44_container.md R230 to R232, R237, 42_block_codec.md R166, 60_exceptions.md R276: `ENCODE_IMAGE` with its checks met and
room for the header. No cell is changed outside the half planes, the stream and, with `IL = 1`, the full planes; where no
region overlaps another, the half planes hold the downsample and, with `IL = 1`, the full planes the split. Where the stream
overlaps none of the three planes it encodes, with `total n` for the length of the header and the first `n` records, each the
record of the samples its block of the traversal holds at the end, in the mode `FMODE` forces or the classifier gives: with
room for all `NB` the command completes, the header and the `NB` records stand in the stream with nothing between them,
`STREAM_PTR` is their length, `BLK_COUNT = NB` and the classifier registers hold the last block's; else, for the first `n`
whose record does not fit, `IO_FAILURE` at `BLOCK n`: the header and records `0 .. n-1` stand in the stream, nothing after
them is written, `STREAM_PTR` is their length, `BLK_COUNT = n` (for `n = 0` as it was, 0 after a start), and the classifier
registers hold block `n`'s. There is room for all where there is room for `NB` longest records. -/
def Obligations.EncodeImageWritesTheRecords : Prop :=
  ∀ (s : State) (fmode : BitVec 3) (il : Bool), fmode.toNat ≤ 4 → validDims s.regs.width s.regs.height = true →
    allInBounds s (streamRegion s :: codecRegions il s) = true → 4 ≤ s.regs.streamLen.toNat →
    ∃ t, exec (.encodeImage fmode il) s = .next t ∧ t.engine.mode = .idle ∧
      sameOutsideAll (streamRegion s :: encodedPlanes il s) s t ∧
      ((streamRegion s :: codecRegions il s).Pairwise disjoint → planesPrepared il s t) ∧
      ((∀ p : Plane, p = .y ∨ p = .cbh ∨ p = .crh → disjoint (streamRegion s) (planeRegion s p)) →
        (let tiles := (s.regs.width.toNat / 16) * (s.regs.height.toNat / 16)
         let cls (b : Block) : Cls := classifyBlock (blockSamples t b)
         let record (b : Block) : List Byte :=
           let mode :=
             if fmode = 0 then (cls b).mode
             else [BlockMode.solid, .half2, .full2, .full4].getD (fmode.toNat - 1) .solid
           encodeRecord (blockSamples t b) mode (cls b).min (cls b).max
         let blocks := traversal s.regs.width.toNat s.regs.height.toNat
         let header : List Byte :=
           [s.regs.width.extractLsb' 0 8, s.regs.width.extractLsb' 8 8, s.regs.height.extractLsb' 0 8,
             s.regs.height.extractLsb' 8 8]
         let stream (n : Nat) : List Byte := header ++ (blocks.take n).flatMap record
         let written (n : Nat) : Prop :=
           t.regs.streamPtr.toNat = (stream n).length ∧
           ∀ k, k < (stream n).length → t.byte (streamAddr s k) = (stream n).getD k 0
         (4 + (if fmode = 0 then 108 else 204) * tiles ≤ s.regs.streamLen.toNat →
           (stream (6 * tiles)).length ≤ s.regs.streamLen.toNat) ∧
         ((stream (6 * tiles)).length ≤ s.regs.streamLen.toNat →
           written (6 * tiles) ∧ t.status = { s.status with done := true } ∧
           t.regs.blkCount = BitVec.ofNat 32 (6 * tiles) ∧
           t.regs.cls = cls (blockAt s.regs.width.toNat (6 * tiles - 1))) ∧
         ∀ n, n < 6 * tiles → (stream n).length ≤ s.regs.streamLen.toNat →
           s.regs.streamLen.toNat < (stream (n + 1)).length →
           written n ∧ t.status = (s.errorEntry .ioFailure .block n).status ∧
           t.regs.blkCount = (if n = 0 then s.regs.blkCount else BitVec.ofNat 32 n) ∧
           t.regs.cls = cls (blockAt s.regs.width.toNat n) ∧
           ∀ k, (stream n).length ≤ k → k < s.regs.streamLen.toNat → disjoint (streamRegion s) (planeRegion s .cbf) →
             disjoint (streamRegion s) (planeRegion s .crf) → t.byte (streamAddr s k) = s.byte (streamAddr s k)))

/-- 60_exceptions.md R270, R276, 44_container.md R237: the errors of `ENCODE_IMAGE` before its first record: `SETUP` errors in
order, with nothing else changed, and `IO_FAILURE` at `HEADER` when `STREAM_LEN < 4`, with `STREAM_PTR = 0`: then no cell is
changed outside the half planes and, with `IL = 1`, the full planes, so no stream byte is written where the stream overlaps
none of them; where no region overlaps another, the half planes hold the downsample and, with `IL = 1`, the full planes the
split. -/
def Obligations.EncodeImageErrors : Prop :=
  ∀ (s : State) (fmode : BitVec 3) (il : Bool),
    (let fails (code : ErrCode) := exec (.encodeImage fmode il) s = .next (s.errorEntry code .setup 0)
     (4 < fmode.toNat → fails .illegalCommand) ∧
     (fmode.toNat ≤ 4 →
       (validDims s.regs.width s.regs.height = false → fails .invalidDimensions) ∧
       (validDims s.regs.width s.regs.height = true →
         (allInBounds s (streamRegion s :: codecRegions il s) = false → fails .ioFailure) ∧
         (allInBounds s (streamRegion s :: codecRegions il s) = true → s.regs.streamLen.toNat < 4 →
           ∃ t, exec (.encodeImage fmode il) s = .next t ∧
             t.status = (s.errorEntry .ioFailure .header 0).status ∧ t.engine.mode = .idle ∧
             t.regs = { s.regs with streamPtr := 0 } ∧ sameOutsideAll (encodedPlanes il s) s t ∧
             ((streamRegion s :: codecRegions il s).Pairwise disjoint →
               planesPrepared il s t ∧ ∀ a, (streamRegion s).holds a = true → t.byte a = s.byte a)))))

/-- 44_container.md R238, R233: `DECODE_IMAGE` with its stream in bounds reads the header into `WIDTH` and `HEIGHT`, whatever
its values, and `STREAM_PTR` is 4; where the header's dimensions are valid and the plane regions they give are in bounds, the
engine stands at the record of block 0 (that the meaning ends there, and the records are the next instructions, is the model's
choice, log 3); else it raises `INVALID_DIMENSIONS`, or `IO_FAILURE`, at `HEADER`. A stream shorter
than 4 raises `UNEXPECTED_END_OF_INPUT` at `HEADER` with `STREAM_PTR = 0`; a stream out of bounds `IO_FAILURE` at `SETUP`. No
cell of `MEM` is changed. -/
def Obligations.DecodeImageReadsTheHeader : Prop :=
  ∀ (s : State) (il : Bool),
    (allInBounds s [streamRegion s] = false →
      exec (.decodeImage il) s = .next (s.errorEntry .ioFailure .setup 0)) ∧
    (allInBounds s [streamRegion s] = true → s.regs.streamLen.toNat < 4 →
      exec (.decodeImage il) s = .next ((s.setStreamPtr 0).errorEntry .unexpectedEndOfInput .header 0)) ∧
    (allInBounds s [streamRegion s] = true → 4 ≤ s.regs.streamLen.toNat →
      (let w : Half := s.byte (streamAddr s 1) ++ s.byte (streamAddr s 0)
       let h : Half := s.byte (streamAddr s 3) ++ s.byte (streamAddr s 2)
       let u := (s.setDims w h).setStreamPtr 4
       exec (.decodeImage il) s =
         if validDims w h = false then .next (u.errorEntry .invalidDimensions .header 0)
         else if allInBounds u (codecRegions il u) = false then .next (u.errorEntry .ioFailure .header 0)
         else .next (u.atRecord (blockAt w.toNat 0))))

/-- 44_container.md R238, R239, R241: a `DECODE_IMAGE` that stands at its first record, with room in the stream for `NB`
longest records, is complete after `NB + 1` steps of whole turns, whatever the records are: `DONE = 1`, `ERR = 0`,
`BLK_COUNT = NB`, and `STREAM_PTR` is between the shortest and the longest stream. Where no region overlaps another and the
`NB` records, each behind the last, all lie before `STREAM_LEN`, however short, it is complete after the same steps, with
`STREAM_PTR` at the end of the last record, each block holds what its record gives (what it held, for `SKIP`), the full chroma
planes hold the upsample of the half planes, and with `IL = 1` the image is the merge of the full planes. From its finish
alone the same holds of the planes and the image, and no cell outside the full chroma planes and, with `IL = 1`, the image is
changed. The number of steps is the model's (log 3). -/
def Obligations.DecodeImageRunCompletes : Prop :=
  ∀ (s : State) (il : Bool), Inv s → s.engine.mode = .run → s.engine.underway = none → s.agenda = [] →
    decodeCmd s.engine.cmd = .decodeImage il →
    (let total := 6 * (s.regs.width.toNat / 16) * (s.regs.height.toNat / 16)
     let complete (t : State) : Prop := t.engine.mode = .idle ∧ t.status.done = true ∧ t.status.err = false
     let resampled (t : State) : Prop :=
       holdsUpsample .cbf .cbh t t ∧ holdsUpsample .crf .crh t t ∧ (il = true → holdsMerge t t)
     (s.engine.phase = .record → s.engine.block = blockAt s.regs.width.toNat 0 → s.regs.streamPtr = 4 →
       (4 + 34 * total ≤ s.regs.streamLen.toNat →
         ∃ t, Host.Core.run Sys2Proof.core (total + 1) s = .next t ∧ complete t ∧
           t.regs.blkCount = BitVec.ofNat 32 total ∧
           4 + 2 * total ≤ t.regs.streamPtr.toNat ∧ t.regs.streamPtr.toNat ≤ 4 + 34 * total) ∧
       (∀ off : Nat → Nat, off 0 = 4 →
         (∀ k, k < total → off (k + 1) = off k + recordLength (s.byte (streamAddr s (off k)))) →
         off total ≤ s.regs.streamLen.toNat → (streamRegion s :: codecRegions il s).Pairwise disjoint →
         ∃ t, Host.Core.run Sys2Proof.core (total + 1) s = .next t ∧ complete t ∧
           t.regs = { s.regs with streamPtr := BitVec.ofNat 32 (off total), blkCount := BitVec.ofNat 32 total } ∧
           resampled t ∧
           ∀ k i, k < total →
             decode .record
               ((List.range (off (k + 1) - off k)).map fun j => s.byte (streamAddr s (off k + j))) = .ok (i, []) →
             ∀ x y, x < 8 → y < 8 →
               (let a := blockAddr s (blockAt s.regs.width.toNat k) x y
                t.byte a = recordSample i (s.byte a) x y))) ∧
     (s.engine.phase = .finish →
       ∃ t, step s = .next t ∧ endedChangingMemoryOnly s t ∧
         sameOutsideAll
           ([planeRegion s .cbf, planeRegion s .crf] ++ if il then [imageRegion s] else []) s t ∧
         ((codecRegions il s).Pairwise disjoint → resampled t)))
end

