-- ==== Sys2Proof/Laws/State.lean ====
section
/-! SUPPORT. One lemma per field per update of the state, true by unfolding, so that no later proof unfolds a record
update. -/

namespace Sys2Proof.Machine

section setByte

@[simp] theorem setByte_platform (s : State) (a : Nat) (v : Byte) : (s.setByte a v).platform = s.platform := rfl
@[simp] theorem setByte_regs (s : State) (a : Nat) (v : Byte) : (s.setByte a v).regs = s.regs := rfl
@[simp] theorem setByte_status (s : State) (a : Nat) (v : Byte) : (s.setByte a v).status = s.status := rfl
@[simp] theorem setByte_engine (s : State) (a : Nat) (v : Byte) : (s.setByte a v).engine = s.engine := rfl
@[simp] theorem setByte_mem (s : State) (a : Nat) (v : Byte) : (s.setByte a v).mem = memInsert s.mem a v := rfl
@[simp] theorem setByte_rst (s : State) (a : Nat) (v : Byte) : (s.setByte a v).rst = s.rst := rfl
@[simp] theorem setByte_draws (s : State) (a : Nat) (v : Byte) : (s.setByte a v).draws = s.draws := rfl
@[simp] theorem setByte_agenda (s : State) (a : Nat) (v : Byte) : (s.setByte a v).agenda = s.agenda := rfl
@[simp] theorem setByte_reply (s : State) (a : Nat) (v : Byte) : (s.setByte a v).reply = s.reply := rfl

end setByte

section setStreamPtr

@[simp] theorem setStreamPtr_platform (s : State) (p : Nat) : (s.setStreamPtr p).platform = s.platform := rfl
@[simp] theorem setStreamPtr_regs (s : State) (p : Nat) : (s.setStreamPtr p).regs = { s.regs with streamPtr := BitVec.ofNat 32 p } := rfl
@[simp] theorem setStreamPtr_status (s : State) (p : Nat) : (s.setStreamPtr p).status = s.status := rfl
@[simp] theorem setStreamPtr_engine (s : State) (p : Nat) : (s.setStreamPtr p).engine = s.engine := rfl
@[simp] theorem setStreamPtr_mem (s : State) (p : Nat) : (s.setStreamPtr p).mem = s.mem := rfl
@[simp] theorem setStreamPtr_rst (s : State) (p : Nat) : (s.setStreamPtr p).rst = s.rst := rfl
@[simp] theorem setStreamPtr_draws (s : State) (p : Nat) : (s.setStreamPtr p).draws = s.draws := rfl
@[simp] theorem setStreamPtr_agenda (s : State) (p : Nat) : (s.setStreamPtr p).agenda = s.agenda := rfl
@[simp] theorem setStreamPtr_reply (s : State) (p : Nat) : (s.setStreamPtr p).reply = s.reply := rfl

end setStreamPtr

section setBlkCount

@[simp] theorem setBlkCount_platform (s : State) (n : Nat) : (s.setBlkCount n).platform = s.platform := rfl
@[simp] theorem setBlkCount_regs (s : State) (n : Nat) : (s.setBlkCount n).regs = { s.regs with blkCount := BitVec.ofNat 32 n } := rfl
@[simp] theorem setBlkCount_status (s : State) (n : Nat) : (s.setBlkCount n).status = s.status := rfl
@[simp] theorem setBlkCount_engine (s : State) (n : Nat) : (s.setBlkCount n).engine = s.engine := rfl
@[simp] theorem setBlkCount_mem (s : State) (n : Nat) : (s.setBlkCount n).mem = s.mem := rfl
@[simp] theorem setBlkCount_rst (s : State) (n : Nat) : (s.setBlkCount n).rst = s.rst := rfl
@[simp] theorem setBlkCount_draws (s : State) (n : Nat) : (s.setBlkCount n).draws = s.draws := rfl
@[simp] theorem setBlkCount_agenda (s : State) (n : Nat) : (s.setBlkCount n).agenda = s.agenda := rfl
@[simp] theorem setBlkCount_reply (s : State) (n : Nat) : (s.setBlkCount n).reply = s.reply := rfl

end setBlkCount

section setWidth

@[simp] theorem setWidth_platform (s : State) (w : Half) : (s.setWidth w).platform = s.platform := rfl
@[simp] theorem setWidth_regs (s : State) (w : Half) : (s.setWidth w).regs = { s.regs with width := w } := rfl
@[simp] theorem setWidth_status (s : State) (w : Half) : (s.setWidth w).status = s.status := rfl
@[simp] theorem setWidth_engine (s : State) (w : Half) : (s.setWidth w).engine = s.engine := rfl
@[simp] theorem setWidth_mem (s : State) (w : Half) : (s.setWidth w).mem = s.mem := rfl
@[simp] theorem setWidth_rst (s : State) (w : Half) : (s.setWidth w).rst = s.rst := rfl
@[simp] theorem setWidth_draws (s : State) (w : Half) : (s.setWidth w).draws = s.draws := rfl
@[simp] theorem setWidth_agenda (s : State) (w : Half) : (s.setWidth w).agenda = s.agenda := rfl
@[simp] theorem setWidth_reply (s : State) (w : Half) : (s.setWidth w).reply = s.reply := rfl

end setWidth

section setHeight

@[simp] theorem setHeight_platform (s : State) (h : Half) : (s.setHeight h).platform = s.platform := rfl
@[simp] theorem setHeight_regs (s : State) (h : Half) : (s.setHeight h).regs = { s.regs with height := h } := rfl
@[simp] theorem setHeight_status (s : State) (h : Half) : (s.setHeight h).status = s.status := rfl
@[simp] theorem setHeight_engine (s : State) (h : Half) : (s.setHeight h).engine = s.engine := rfl
@[simp] theorem setHeight_mem (s : State) (h : Half) : (s.setHeight h).mem = s.mem := rfl
@[simp] theorem setHeight_rst (s : State) (h : Half) : (s.setHeight h).rst = s.rst := rfl
@[simp] theorem setHeight_draws (s : State) (h : Half) : (s.setHeight h).draws = s.draws := rfl
@[simp] theorem setHeight_agenda (s : State) (h : Half) : (s.setHeight h).agenda = s.agenda := rfl
@[simp] theorem setHeight_reply (s : State) (h : Half) : (s.setHeight h).reply = s.reply := rfl

end setHeight

section setDims

@[simp] theorem setDims_platform (s : State) (w h : Half) : (s.setDims w h).platform = s.platform := rfl
@[simp] theorem setDims_regs (s : State) (w h : Half) : (s.setDims w h).regs = { s.regs with width := w, height := h } := rfl
@[simp] theorem setDims_status (s : State) (w h : Half) : (s.setDims w h).status = s.status := rfl
@[simp] theorem setDims_engine (s : State) (w h : Half) : (s.setDims w h).engine = s.engine := rfl
@[simp] theorem setDims_mem (s : State) (w h : Half) : (s.setDims w h).mem = s.mem := rfl
@[simp] theorem setDims_rst (s : State) (w h : Half) : (s.setDims w h).rst = s.rst := rfl
@[simp] theorem setDims_draws (s : State) (w h : Half) : (s.setDims w h).draws = s.draws := rfl
@[simp] theorem setDims_agenda (s : State) (w h : Half) : (s.setDims w h).agenda = s.agenda := rfl
@[simp] theorem setDims_reply (s : State) (w h : Half) : (s.setDims w h).reply = s.reply := rfl

end setDims

section setCls

@[simp] theorem setCls_platform (s : State) (c : Cls) : (s.setCls c).platform = s.platform := rfl
@[simp] theorem setCls_regs (s : State) (c : Cls) : (s.setCls c).regs = { s.regs with cls := c } := rfl
@[simp] theorem setCls_status (s : State) (c : Cls) : (s.setCls c).status = s.status := rfl
@[simp] theorem setCls_engine (s : State) (c : Cls) : (s.setCls c).engine = s.engine := rfl
@[simp] theorem setCls_mem (s : State) (c : Cls) : (s.setCls c).mem = s.mem := rfl
@[simp] theorem setCls_rst (s : State) (c : Cls) : (s.setCls c).rst = s.rst := rfl
@[simp] theorem setCls_draws (s : State) (c : Cls) : (s.setCls c).draws = s.draws := rfl
@[simp] theorem setCls_agenda (s : State) (c : Cls) : (s.setCls c).agenda = s.agenda := rfl
@[simp] theorem setCls_reply (s : State) (c : Cls) : (s.setCls c).reply = s.reply := rfl

end setCls

section atRecord

@[simp] theorem atRecord_platform (s : State) (b : Block) : (s.atRecord b).platform = s.platform := rfl
@[simp] theorem atRecord_regs (s : State) (b : Block) : (s.atRecord b).regs = s.regs := rfl
@[simp] theorem atRecord_status (s : State) (b : Block) : (s.atRecord b).status = s.status := rfl
@[simp] theorem atRecord_engine (s : State) (b : Block) : (s.atRecord b).engine = { s.engine with phase := .record, block := b } := rfl
@[simp] theorem atRecord_mem (s : State) (b : Block) : (s.atRecord b).mem = s.mem := rfl
@[simp] theorem atRecord_rst (s : State) (b : Block) : (s.atRecord b).rst = s.rst := rfl
@[simp] theorem atRecord_draws (s : State) (b : Block) : (s.atRecord b).draws = s.draws := rfl
@[simp] theorem atRecord_agenda (s : State) (b : Block) : (s.atRecord b).agenda = s.agenda := rfl
@[simp] theorem atRecord_reply (s : State) (b : Block) : (s.atRecord b).reply = s.reply := rfl

end atRecord

section atFinish

@[simp] theorem atFinish_platform (s : State) : (s.atFinish).platform = s.platform := rfl
@[simp] theorem atFinish_regs (s : State) : (s.atFinish).regs = s.regs := rfl
@[simp] theorem atFinish_status (s : State) : (s.atFinish).status = s.status := rfl
@[simp] theorem atFinish_engine (s : State) : (s.atFinish).engine = { s.engine with phase := .finish } := rfl
@[simp] theorem atFinish_mem (s : State) : (s.atFinish).mem = s.mem := rfl
@[simp] theorem atFinish_rst (s : State) : (s.atFinish).rst = s.rst := rfl
@[simp] theorem atFinish_draws (s : State) : (s.atFinish).draws = s.draws := rfl
@[simp] theorem atFinish_agenda (s : State) : (s.atFinish).agenda = s.agenda := rfl
@[simp] theorem atFinish_reply (s : State) : (s.atFinish).reply = s.reply := rfl

end atFinish

section errorEntry

@[simp] theorem errorEntry_platform (s : State) (code : ErrCode) (stage : ErrStage) (index : Nat) : (s.errorEntry code stage index).platform = s.platform := rfl
@[simp] theorem errorEntry_regs (s : State) (code : ErrCode) (stage : ErrStage) (index : Nat) : (s.errorEntry code stage index).regs = s.regs := rfl
@[simp] theorem errorEntry_status (s : State) (code : ErrCode) (stage : ErrStage) (index : Nat) : (s.errorEntry code stage index).status = ⟨true, true, code, stage, if stage = .block then BitVec.ofNat 32 index else 0⟩ := rfl
@[simp] theorem errorEntry_engine (s : State) (code : ErrCode) (stage : ErrStage) (index : Nat) : (s.errorEntry code stage index).engine = { s.engine with mode := .idle } := rfl
@[simp] theorem errorEntry_mem (s : State) (code : ErrCode) (stage : ErrStage) (index : Nat) : (s.errorEntry code stage index).mem = s.mem := rfl
@[simp] theorem errorEntry_rst (s : State) (code : ErrCode) (stage : ErrStage) (index : Nat) : (s.errorEntry code stage index).rst = s.rst := rfl
@[simp] theorem errorEntry_draws (s : State) (code : ErrCode) (stage : ErrStage) (index : Nat) : (s.errorEntry code stage index).draws = s.draws := rfl
@[simp] theorem errorEntry_agenda (s : State) (code : ErrCode) (stage : ErrStage) (index : Nat) : (s.errorEntry code stage index).agenda = s.agenda := rfl
@[simp] theorem errorEntry_reply (s : State) (code : ErrCode) (stage : ErrStage) (index : Nat) : (s.errorEntry code stage index).reply = s.reply := rfl

end errorEntry

section complete

@[simp] theorem complete_platform (s : State) : (s.complete).platform = s.platform := rfl
@[simp] theorem complete_regs (s : State) : (s.complete).regs = s.regs := rfl
@[simp] theorem complete_status (s : State) : (s.complete).status = { s.status with done := true } := rfl
@[simp] theorem complete_engine (s : State) : (s.complete).engine = { s.engine with mode := .idle } := rfl
@[simp] theorem complete_mem (s : State) : (s.complete).mem = s.mem := rfl
@[simp] theorem complete_rst (s : State) : (s.complete).rst = s.rst := rfl
@[simp] theorem complete_draws (s : State) : (s.complete).draws = s.draws := rfl
@[simp] theorem complete_agenda (s : State) : (s.complete).agenda = s.agenda := rfl
@[simp] theorem complete_reply (s : State) : (s.complete).reply = s.reply := rfl

end complete

section acknowledge

@[simp] theorem acknowledge_platform (s : State) (value : Word) : (s.acknowledge value).platform = s.platform := rfl
@[simp] theorem acknowledge_regs (s : State) (value : Word) : (s.acknowledge value).regs = s.regs := rfl
@[simp] theorem acknowledge_status (s : State) (value : Word) : (s.acknowledge value).status = s.status.acknowledge value := rfl
@[simp] theorem acknowledge_engine (s : State) (value : Word) : (s.acknowledge value).engine = s.engine := rfl
@[simp] theorem acknowledge_mem (s : State) (value : Word) : (s.acknowledge value).mem = s.mem := rfl
@[simp] theorem acknowledge_rst (s : State) (value : Word) : (s.acknowledge value).rst = s.rst := rfl
@[simp] theorem acknowledge_draws (s : State) (value : Word) : (s.acknowledge value).draws = s.draws := rfl
@[simp] theorem acknowledge_agenda (s : State) (value : Word) : (s.acknowledge value).agenda = s.agenda := rfl
@[simp] theorem acknowledge_reply (s : State) (value : Word) : (s.acknowledge value).reply = s.reply := rfl

end acknowledge

section start

@[simp] theorem start_platform (s : State) : (s.start).platform = s.platform := rfl
@[simp] theorem start_regs (s : State) : (s.start).regs = { s.regs with blkCount := 0 } := rfl
@[simp] theorem start_status (s : State) : (s.start).status = Status.reset := rfl
@[simp] theorem start_engine (s : State) : (s.start).engine = { s.engine with mode := .run, cmd := s.regs.cmd, phase := .command, underway := none } := rfl
@[simp] theorem start_mem (s : State) : (s.start).mem = s.mem := rfl
@[simp] theorem start_rst (s : State) : (s.start).rst = s.rst := rfl
@[simp] theorem start_draws (s : State) : (s.start).draws = s.draws := rfl
@[simp] theorem start_agenda (s : State) : (s.start).agenda = s.agenda := rfl
@[simp] theorem start_reply (s : State) : (s.start).reply = s.reply := rfl

end start

section atBoundary

@[simp] theorem atBoundary_platform (s : State) : (s.atBoundary).platform = s.platform := rfl
@[simp] theorem atBoundary_regs (s : State) : (s.atBoundary).regs = s.regs := rfl
@[simp] theorem atBoundary_status (s : State) : (s.atBoundary).status = s.status := rfl
@[simp] theorem atBoundary_engine (s : State) : (s.atBoundary).engine = { s.engine with underway := none } := rfl
@[simp] theorem atBoundary_mem (s : State) : (s.atBoundary).mem = s.mem := rfl
@[simp] theorem atBoundary_rst (s : State) : (s.atBoundary).rst = s.rst := rfl
@[simp] theorem atBoundary_draws (s : State) : (s.atBoundary).draws = s.draws := rfl
@[simp] theorem atBoundary_agenda (s : State) : (s.atBoundary).agenda = s.agenda := rfl
@[simp] theorem atBoundary_reply (s : State) : (s.atBoundary).reply = s.reply := rfl

end atBoundary

section view

@[simp] theorem view_platform (s : State) : (s.view).platform = s.platform := rfl
@[simp] theorem view_regs (s : State) : (s.view).regs = { s.regs with irqEn := false } := rfl
@[simp] theorem view_status (s : State) : (s.view).status = Status.reset := rfl
@[simp] theorem view_engine (s : State) : (s.view).engine = { s.engine with underway := none } := rfl
@[simp] theorem view_mem (s : State) : (s.view).mem = [] := rfl
@[simp] theorem view_rst (s : State) : (s.view).rst = false := rfl
@[simp] theorem view_draws (s : State) : (s.view).draws = 0 := rfl
@[simp] theorem view_agenda (s : State) : (s.view).agenda = [] := rfl
@[simp] theorem view_reply (s : State) : (s.view).reply = .none := rfl

end view

section resetRegisters

@[simp] theorem resetRegisters_platform (s : State) : (s.resetRegisters).platform = s.platform := rfl
@[simp] theorem resetRegisters_regs (s : State) : (s.resetRegisters).regs = Regs.reset := rfl
@[simp] theorem resetRegisters_status (s : State) : (s.resetRegisters).status = Status.reset := rfl
@[simp] theorem resetRegisters_engine (s : State) : (s.resetRegisters).engine = Engine.reset := rfl
@[simp] theorem resetRegisters_mem (s : State) : (s.resetRegisters).mem = s.mem := rfl
@[simp] theorem resetRegisters_rst (s : State) : (s.resetRegisters).rst = s.rst := rfl
@[simp] theorem resetRegisters_draws (s : State) : (s.resetRegisters).draws = s.draws := rfl
@[simp] theorem resetRegisters_agenda (s : State) : (s.resetRegisters).agenda = s.agenda := rfl
@[simp] theorem resetRegisters_reply (s : State) : (s.resetRegisters).reply = s.reply := rfl

end resetRegisters

end Sys2Proof.Machine
end

