-- ==== Sys2Proof/Laws/Memory.lean ====
section
/-! SUPPORT. The laws of memory: a read after a write of the same cell, a write leaves every other cell, every memory
operation keeps the canonical form (20_memory.md R60; log 1). -/

namespace Sys2Proof.Machine

@[simp] theorem memLookup_memInsert_same (m : List Host.Cell) (a : Nat) (v : Byte) :
    memLookup (memInsert m a v) a = some v := by
  induction m with
  | nil => simp [memInsert, memLookup]
  | cons c rest ih =>
    obtain ⟨b, w⟩ := c
    unfold memInsert
    split
    · simp [memLookup]
    · split
      · simp [memLookup]
      · rename_i h; simp [memLookup, h, ih]

theorem memLookup_memInsert_of_ne (m : List Host.Cell) {a c : Nat} (v : Byte) (h : c ≠ a) :
    memLookup (memInsert m a v) c = memLookup m c := by
  induction m with
  | nil => simp [memInsert, memLookup, h]
  | cons cell rest ih =>
    obtain ⟨b, w⟩ := cell
    unfold memInsert
    split
    · simp [memLookup, h]
    · split
      · rename_i hab; subst hab; simp [memLookup, h]
      · simp [memLookup, ih]

@[simp] theorem memByte_memInsert_same (m : List Host.Cell) (a : Nat) (v : Byte) :
    memByte (memInsert m a v) a = v := by
  simp [memByte]

theorem memByte_memInsert_of_ne (m : List Host.Cell) {a c : Nat} (v : Byte) (h : c ≠ a) :
    memByte (memInsert m a v) c = memByte m c := by
  simp [memByte, memLookup_memInsert_of_ne m v h]

theorem memByte_memInsert (m : List Host.Cell) (a c : Nat) (v : Byte) :
    memByte (memInsert m a v) c = if c = a then v else memByte m c := by
  split
  · rename_i h; subst h; simp
  · rename_i h; exact memByte_memInsert_of_ne m v h

/-- A byte of the state after one write. -/
theorem byte_setByte (s : State) (a c : Nat) (v : Byte) :
    (s.setByte a v).byte c = if c = a then v else s.byte c :=
  memByte_memInsert s.mem a c v

@[simp] theorem byte_setByte_same (s : State) (a : Nat) (v : Byte) : (s.setByte a v).byte a = v := by
  simp [byte_setByte]

theorem byte_setByte_of_ne (s : State) {a c : Nat} (v : Byte) (h : c ≠ a) : (s.setByte a v).byte c = s.byte c := by
  simp [byte_setByte, h]

/-- Two states with the same memory list read alike. -/
theorem byte_congr {s t : State} (h : s.mem = t.mem) (a : Nat) : s.byte a = t.byte a := by
  simp [State.byte, h]

theorem memory_wf_tail {c : Host.Cell} {m : List Host.Cell} (h : Memory.wf (c :: m) = true) : Memory.wf m = true := by
  cases m with
  | nil => rfl
  | cons d rest => simp only [Memory.wf, Bool.and_eq_true] at h; exact h.2

theorem memory_wf_cons {b : Nat} {w : Byte} {m : List Host.Cell} (h : Memory.wf m = true)
    (hb : ∀ c ∈ m.head?, b < c.1) : Memory.wf ((b, w) :: m) = true := by
  cases m with
  | nil => rfl
  | cons d rest => simp [Memory.wf, h, hb d (by simp)]

theorem memory_wf_head_lt {b : Nat} {w : Byte} {m : List Host.Cell} (h : Memory.wf ((b, w) :: m) = true) :
    ∀ c ∈ m.head?, b < c.1 := by
  cases m with
  | nil => simp
  | cons d rest => simp only [Memory.wf, Bool.and_eq_true, decide_eq_true_eq] at h; simp [h.1]

theorem memInsert_head (m : List Host.Cell) (a : Nat) (v : Byte) :
    ∀ c ∈ (memInsert m a v).head?, c.1 = a ∨ c ∈ m.head? := by
  cases m with
  | nil => simp [memInsert]
  | cons d rest =>
    obtain ⟨b, w⟩ := d
    unfold memInsert
    split
    · simp
    · split
      · simp
      · simp

/-- A write keeps the canonical form. -/
theorem memInsert_wf (m : List Host.Cell) (a : Nat) (v : Byte) (h : Memory.wf m = true) :
    Memory.wf (memInsert m a v) = true := by
  induction m with
  | nil => rfl
  | cons d rest ih =>
    obtain ⟨b, w⟩ := d
    unfold memInsert
    split
    · rename_i hab; simp [Memory.wf, hab, h]
    · split
      · rename_i hab; subst hab
        exact memory_wf_cons (memory_wf_tail h) (memory_wf_head_lt h)
      · rename_i h1 h2
        refine memory_wf_cons (ih (memory_wf_tail h)) fun c hc => ?_
        rcases memInsert_head rest a v c hc with hc | hc
        · omega
        · exact memory_wf_head_lt h c hc

/-- The cells a write lists are the ones listed before and its own. -/
theorem mem_memInsert (m : List Host.Cell) (a : Nat) (v : Byte) {c : Host.Cell} (h : c ∈ memInsert m a v) :
    c = (a, v) ∨ c ∈ m := by
  induction m with
  | nil => simpa [memInsert] using h
  | cons d rest ih =>
    obtain ⟨b, w⟩ := d
    unfold memInsert at h
    split at h
    · simpa using h
    · split at h
      · simp only [List.mem_cons] at h ⊢; tauto
      · simp only [List.mem_cons] at h ⊢
        rcases h with h | h
        · exact .inr (.inl h)
        · rcases ih h with h | h
          · exact .inl h
          · exact .inr (.inr h)

theorem memInsertAll_wf (bytes : List Byte) (m : List Host.Cell) (a : Nat) (h : Memory.wf m = true) :
    Memory.wf (memInsertAll m a bytes) = true := by
  induction bytes generalizing m a with
  | nil => exact h
  | cons v rest ih => exact ih _ _ (memInsert_wf m a v h)

theorem mem_memInsertAll (bytes : List Byte) (m : List Host.Cell) (a : Nat) {c : Host.Cell}
    (h : c ∈ memInsertAll m a bytes) : (a ≤ c.1 ∧ c.1 < a + bytes.length) ∨ c ∈ m := by
  induction bytes generalizing m a with
  | nil => exact .inr h
  | cons v rest ih =>
    rcases ih _ _ h with h | h
    · left; simp only [List.length_cons]; omega
    · rcases mem_memInsert m a v h with h | h
      · left; subst h; simp
      · exact .inr h

theorem memByte_memInsertAll (bytes : List Byte) (m : List Host.Cell) (a c : Nat) :
    memByte (memInsertAll m a bytes) c =
      if a ≤ c ∧ c < a + bytes.length then bytes.getD (c - a) 0 else memByte m c := by
  induction bytes generalizing m a with
  | nil => simp only [memInsertAll, List.length_nil, Nat.add_zero]; rw [if_neg (by omega)]
  | cons v rest ih =>
    simp only [memInsertAll, ih, memByte_memInsert, List.length_cons]
    by_cases h1 : a + 1 ≤ c ∧ c < a + 1 + rest.length
    · rw [if_pos h1, if_pos (by omega), show c - a = (c - (a + 1)) + 1 by omega]; simp
    · rw [if_neg h1]
      by_cases h2 : c = a
      · subst h2; rw [if_pos rfl, if_pos (by omega)]; simp
      · rw [if_neg h2, if_neg (by omega)]

end Sys2Proof.Machine
end

