-- ==== Sys2Proof/Laws/Logic.lean ====
section
/-! SUPPORT. A program logic for the engine's programs run to their end, for each statement form of Machine/Ops.lean.
`Answers p s o` says what one run of `p` from `s` gives, whatever follows `p`. `Hoare P p Q H F` says: from a state with `P`,
the program `p` either answers a value and a state with `Q`, or halts (an error entry) in a state with `H`, or stops the
machine, and then `F`. With `F := False` the program never stops the machine. -/

namespace Sys2Proof.Machine

variable {ρ α β : Type}

/-! ## What the pseudocode sees of a state (00_scope.md R8) -/

@[simp] theorem planeWidth_view (s : State) (p : Plane) : planeWidth s.view p = planeWidth s p := by cases p <;> rfl

@[simp] theorem planeHeight_view (s : State) (p : Plane) : planeHeight s.view p = planeHeight s p := by cases p <;> rfl

@[simp] theorem planeRegion_view (s : State) (p : Plane) : planeRegion s.view p = planeRegion s p := by cases p <;> rfl

@[simp] theorem planeAddr_view (s : State) (p : Plane) (x y : Nat) : planeAddr s.view p x y = planeAddr s p x y := by
  cases p <;> rfl

@[simp] theorem imageWidth_view (s : State) : imageWidth s.view = imageWidth s := rfl

@[simp] theorem imageHeight_view (s : State) : imageHeight s.view = imageHeight s := rfl

@[simp] theorem imageAddr_view (s : State) (x y c : Nat) : imageAddr s.view x y c = imageAddr s x y c := rfl

@[simp] theorem imageRegion_view (s : State) : imageRegion s.view = imageRegion s := rfl

@[simp] theorem streamAddr_view (s : State) (k : Nat) : streamAddr s.view k = streamAddr s k := rfl

@[simp] theorem streamRegion_view (s : State) : streamRegion s.view = streamRegion s := rfl

@[simp] theorem windowInside_view (s : State) (p : Plane) : windowInside s.view p = windowInside s p := by cases p <;> rfl

@[simp] theorem singleBlock_view (s : State) (p : Plane) : singleBlock s.view p = singleBlock s p := rfl

@[simp] theorem inBounds_view (s : State) (r : Region) : inBounds s.view r = inBounds s r := rfl

@[simp] theorem allInBounds_view (s : State) (rs : List Region) : allInBounds s.view rs = allInBounds s rs := rfl

@[simp] theorem imageAndPlanes_view (s : State) : imageAndPlanes s.view = imageAndPlanes s := rfl

@[simp] theorem codecRegions_view (il : Bool) (s : State) : codecRegions il s.view = codecRegions il s := by cases il <;> rfl

@[simp] theorem runningCommand_view (s : State) : runningCommand s.view = runningCommand s := rfl

@[simp] theorem recordTotal_view (s : State) : recordTotal s.view = recordTotal s := rfl

@[simp] theorem nextPosition_view (s : State) : nextPosition s.view = nextPosition s := rfl

/-! ## One run -/

/-- A run of a part of a program, and then of what follows it. -/
def andThen (o : Except Stop (α × State)) (next : α → Prog ρ) : Except Stop (ρ × State) :=
  match o with
  | .ok (a, t) => (next a).run t
  | .error e => .error e

/-- What the part `p` of a program gives from `s`, whatever follows it. -/
def Answers (p : Eng ρ α) (s : State) (o : Except Stop (α × State)) : Prop :=
  ∀ next, (p next).run s = andThen o next

theorem Answers.pure (a : α) (s : State) : Answers (Pure.pure a : Eng ρ α) s (.ok (a, s)) := fun _ => rfl

theorem Answers.bind {p : Eng ρ α} {f : α → Eng ρ β} {s t : State} {a : α} {o : Except Stop (β × State)}
    (hp : Answers p s (.ok (a, t))) (hf : Answers (f a) t o) : Answers (p >>= f) s o :=
  fun next => (hp fun a => f a next).trans (hf next)

theorem Answers.bind_error {p : Eng ρ α} {f : α → Eng ρ β} {s : State} {e : Stop} (hp : Answers p s (.error e)) :
    Answers (p >>= f) s (.error e) :=
  fun next => hp fun a => f a next

theorem Answers.state (s : State) : Answers (Machine.state : Eng ρ State) s (.ok (s.view, s)) := fun _ => rfl

theorem Answers.update (u : RegUpdate) (s : State) : Answers (Machine.update u : Eng ρ Unit) s (.ok ((), u.apply s)) :=
  fun _ => rfl

theorem Answers.done (s : State) : Answers (Machine.done : Eng ρ Unit) s (.ok ((), s.complete)) := fun _ => rfl

theorem Answers.raise (code : ErrCode) (stage : ErrStage) (index : Nat) (s : State) :
    Answers (Machine.raise code stage index : Eng ρ α) s (.error (.halt (s.errorEntry code stage index))) :=
  fun _ => rfl

theorem Answers.require (c : Bool) (code : ErrCode) (stage : ErrStage) (index : Nat) (s : State) :
    Answers (Machine.require c code stage index : Eng ρ Unit) s
      (if c = true then .ok ((), s) else .error (.halt (s.errorEntry code stage index))) := by
  cases c <;> exact fun _ => rfl

theorem Answers.memRead {a : Nat} {s : State} (h : a < s.platform.memBytes) :
    Answers (Machine.memRead a : Eng ρ Byte) s (.ok (s.byte a, s)) := by
  intro next
  simp [Machine.memRead, Prog.run, h, andThen]

theorem Answers.memRead_outside {a : Nat} {s : State} (h : ¬a < s.platform.memBytes) :
    Answers (Machine.memRead a : Eng ρ Byte) s (.error (.fault (.accessOutsideMem a))) := by
  intro next
  simp [Machine.memRead, Prog.run, h, andThen]

theorem Answers.memWrite {a : Nat} {s : State} (v : Byte) (h : a < s.platform.memBytes) :
    Answers (Machine.memWrite a v : Eng ρ Unit) s (.ok ((), s.setByte a v)) := by
  intro next
  simp [Machine.memWrite, Prog.run, h, andThen]

theorem Answers.memWrite_outside {a : Nat} {s : State} (v : Byte) (h : ¬a < s.platform.memBytes) :
    Answers (Machine.memWrite a v : Eng ρ Unit) s (.error (.fault (.accessOutsideMem a))) := by
  intro next
  simp [Machine.memWrite, Prog.run, h, andThen]

/-- What a program's meaning answers, from what its run gives. -/
theorem Answers.runToEnd {p : Eng Unit Unit} {s : State} {o : Except Stop (Unit × State)} (h : Answers p s o) :
    runToEnd p s = lastState o := by
  unfold Machine.runToEnd
  rw [h]
  rcases o with e | ⟨_, t⟩ <;> rfl

/-! ## The rules -/

/-- What a program run to its end can do. -/
def Hoare (P : State → Prop) (p : Eng ρ α) (Q : α → State → Prop) (H : State → Prop) (F : Prop) : Prop :=
  ∀ s, P s → ∃ o, Answers p s o ∧
    match o with
    | .ok (a, t) => Q a t
    | .error (.halt t) => H t
    | .error (.fault _) => F

variable {P P' : State → Prop} {H H' : State → Prop} {F F' : Prop}

theorem Hoare.consequence {p : Eng ρ α} {Q Q' : α → State → Prop} (h : Hoare P p Q H F) (hp : ∀ s, P' s → P s)
    (hq : ∀ a s, Q a s → Q' a s) (hh : ∀ s, H s → H' s) (hf : F → F') : Hoare P' p Q' H' F' := by
  intro s hs
  obtain ⟨o, ho, hres⟩ := h s (hp s hs)
  refine ⟨o, ho, ?_⟩
  rcases o with (t | f) | ⟨a, t⟩
  · exact hh _ hres
  · exact hf hres
  · exact hq _ _ hres

theorem Hoare.pure {Q : α → State → Prop} {a : α} (h : ∀ s, P s → Q a s) : Hoare P (pure a : Eng ρ α) Q H F :=
  fun s hs => ⟨_, Answers.pure a s, h s hs⟩

theorem Hoare.bind {p : Eng ρ α} {f : α → Eng ρ β} {Q : α → State → Prop} {R : β → State → Prop}
    (hp : Hoare P p Q H F) (hf : ∀ a, Hoare (Q a) (f a) R H F) : Hoare P (p >>= f) R H F := by
  intro s hs
  obtain ⟨o, ho, hres⟩ := hp s hs
  rcases o with (t | e) | ⟨a, t⟩
  · exact ⟨_, ho.bind_error, hres⟩
  · exact ⟨_, ho.bind_error, hres⟩
  · obtain ⟨o', ho', hres'⟩ := hf a t hres
    exact ⟨o', ho.bind ho', hres'⟩

theorem Hoare.state {Q : State → State → Prop} (h : ∀ s, P s → Q s.view s) : Hoare P (Machine.state : Eng ρ State) Q H F :=
  fun s hs => ⟨_, Answers.state s, h s hs⟩

theorem Hoare.update {u : RegUpdate} {Q : Unit → State → Prop} (h : ∀ s, P s → Q () (u.apply s)) :
    Hoare P (Machine.update u : Eng ρ Unit) Q H F :=
  fun s hs => ⟨_, Answers.update u s, h s hs⟩

theorem Hoare.done {Q : Unit → State → Prop} (h : ∀ s, P s → Q () s.complete) : Hoare P (Machine.done : Eng ρ Unit) Q H F :=
  fun s hs => ⟨_, Answers.done s, h s hs⟩

theorem Hoare.raise {Q : α → State → Prop} {code : ErrCode} {stage : ErrStage} {index : Nat}
    (h : ∀ s, P s → H (s.errorEntry code stage index)) : Hoare P (Machine.raise code stage index : Eng ρ α) Q H F :=
  fun s hs => ⟨_, Answers.raise code stage index s, h s hs⟩

theorem Hoare.require {c : Bool} {code : ErrCode} {stage : ErrStage} {index : Nat} {Q : Unit → State → Prop}
    (hok : ∀ s, P s → c = true → Q () s) (hno : ∀ s, P s → c = false → H (s.errorEntry code stage index)) :
    Hoare P (Machine.require c code stage index : Eng ρ Unit) Q H F := by
  intro s hs
  refine ⟨_, Answers.require c code stage index s, ?_⟩
  cases c
  · exact hno s hs rfl
  · exact hok s hs rfl

theorem Hoare.memRead {a : Nat} {Q : Byte → State → Prop} (h : ∀ s, P s → a < s.platform.memBytes → Q (s.byte a) s)
    (hf : ∀ s, P s → ¬a < s.platform.memBytes → F) : Hoare P (Machine.memRead a : Eng ρ Byte) Q H F := by
  intro s hs
  by_cases ha : a < s.platform.memBytes
  · exact ⟨_, Answers.memRead ha, h s hs ha⟩
  · exact ⟨_, Answers.memRead_outside ha, hf s hs ha⟩

theorem Hoare.memWrite {a : Nat} {v : Byte} {Q : Unit → State → Prop}
    (h : ∀ s, P s → a < s.platform.memBytes → Q () (s.setByte a v))
    (hf : ∀ s, P s → ¬a < s.platform.memBytes → F) : Hoare P (Machine.memWrite a v : Eng ρ Unit) Q H F := by
  intro s hs
  by_cases ha : a < s.platform.memBytes
  · exact ⟨_, Answers.memWrite v ha, h s hs ha⟩
  · exact ⟨_, Answers.memWrite_outside v ha, hf s hs ha⟩

/-- The rule of a counting loop: `I i` holds before iteration `i`. -/
theorem Hoare.forFrom {body : Nat → Eng ρ Unit} (I : Nat → State → Prop) (first count : Nat)
    (h : ∀ i, first ≤ i → i < first + count → Hoare (I i) (body i) (fun _ => I (i + 1)) H F) :
    Hoare (I first) (forFrom first count body) (fun _ => I (first + count)) H F := by
  induction count generalizing first with
  | zero => exact Hoare.pure fun _ hs => hs
  | succ n ih =>
    refine Hoare.bind (h first (Nat.le_refl _) (by omega)) fun _ => ?_
    have := ih (first + 1) fun i hi hi' => h i (by omega) (by omega)
    rwa [show first + 1 + n = first + (n + 1) by omega] at this

theorem Hoare.forN {body : Nat → Eng ρ Unit} (I : Nat → State → Prop) (count : Nat)
    (h : ∀ i, i < count → Hoare (I i) (body i) (fun _ => I (i + 1)) H F) :
    Hoare (I 0) (forN count body) (fun _ => I count) H F := by
  have := Hoare.forFrom (H := H) (F := F) I 0 count fun i _ hi => h i (by omega)
  rwa [Nat.zero_add] at this

/-- The rule of a loop that keeps one property. -/
theorem Hoare.forN_keeps {body : Nat → Eng ρ Unit} (count : Nat)
    (h : ∀ i, i < count → Hoare P (body i) (fun _ => P) H F) : Hoare P (Machine.forN count body) (fun _ => P) H F :=
  Hoare.forN (fun _ => P) count h

/-- The rule of a loop that collects values: it changes nothing it must not, and each value has its property. -/
theorem Hoare.listFrom {f : Nat → Eng ρ α} (V : Nat → α → Prop) (first count : Nat)
    (h : ∀ i, first ≤ i → i < first + count → Hoare P (f i) (fun a s => P s ∧ V i a) H F) :
    Hoare P (listFrom first count f)
      (fun l s => P s ∧ l.length = count ∧ ∀ k (hk : k < l.length), V (first + k) l[k]) H F := by
  induction count generalizing first with
  | zero => exact Hoare.pure fun _ hs => ⟨hs, rfl, by simp⟩
  | succ n ih =>
    refine Hoare.bind (h first (Nat.le_refl _) (by omega)) fun a => ?_
    by_cases hV : V first a
    · refine Hoare.bind (Q := fun l s => P s ∧ l.length = n ∧ ∀ k (hk : k < l.length), V (first + 1 + k) l[k])
        ((ih (first + 1) fun i hi hi' => h i (by omega) (by omega)).consequence (fun _ hs => hs.1)
        (fun _ _ hq => hq) (fun _ hh => hh) id) fun l => ?_
      refine Hoare.pure fun s hs => ⟨hs.1, by simp [hs.2.1], fun k hk => ?_⟩
      cases k with
      | zero => simpa using hV
      | succ k =>
        have := hs.2.2 k (by simpa using hk)
        simpa [Nat.add_assoc, Nat.add_comm 1 k] using this
    · intro s hs; exact absurd hs.2 hV

theorem Hoare.listN {f : Nat → Eng ρ α} (V : Nat → α → Prop) (count : Nat)
    (h : ∀ i, i < count → Hoare P (f i) (fun a s => P s ∧ V i a) H F) :
    Hoare P (listN count f) (fun l s => P s ∧ l.length = count ∧ ∀ k (hk : k < l.length), V k l[k]) H F := by
  have := Hoare.listFrom (P := P) (H := H) (F := F) V 0 count fun i _ hi => h i (by omega)
  simp only [Nat.zero_add] at this
  exact this

/-! ## From a rule to a meaning -/

/-- What a program run to its end answers: a next state that has what the program promises, and no stop when it promises
none. -/
theorem runToEnd_of_hoare {p : Eng Unit Unit} {Q : State → Prop} {s : State}
    (h : Hoare (fun t => t = s) p (fun _ => Q) H False) :
    ∃ t, runToEnd p s = .next t ∧ (Q t ∨ H t) := by
  obtain ⟨o, ho, hres⟩ := h s rfl
  rw [ho.runToEnd]
  rcases o with (t | f) | ⟨_, t⟩
  · exact ⟨t, rfl, .inr hres⟩
  · exact hres.elim
  · exact ⟨t, rfl, .inl hres⟩

/-- A property of every next state a program run to its end answers. -/
theorem next_of_hoare {p : Eng Unit Unit} {Q : State → Prop} {s t : State}
    (h : Hoare (fun u => u = s) p (fun _ => Q) Q True) (ht : runToEnd p s = .next t) : Q t := by
  obtain ⟨o, ho, hres⟩ := h s rfl
  rw [ho.runToEnd] at ht
  rcases o with (u | f) | ⟨_, u⟩
  · cases ht; exact hres
  · cases ht
  · cases ht; exact hres

end Sys2Proof.Machine
end

