-- ==== Sys2Proof/Laws/Cut.lean ====
section
/-! SUPPORT. The program logic for a program a reset may cut short (70_reset_and_hazards.md R301). `Cut P p Q H F` says: from a
state with `P`, with whatever number of engine steps left, the program `p` either is passed, with a value and a state with
`Q`, or ends in a state with `H`, by an error entry or because no step is left, or stops the machine, and then `F`. -/

namespace Sys2Proof.Machine

variable {ρ α β : Type}

/-- What a program can do with every number of steps left. -/
def Cut (P : State → Prop) (p : Eng ρ α) (Q : α → State → Prop) (H : State → Prop) (F : Prop) : Prop :=
  ∀ s n, P s →
    (∃ a t m, Q a t ∧ ∀ next, (p next).cut n s = (next a).cut m t) ∨
    (∃ t, H t ∧ ∀ next, (p next).cut n s = .ok t) ∨
    (F ∧ ∃ f, ∀ next, (p next).cut n s = .error f)

variable {P P' : State → Prop} {H H' : State → Prop} {F F' : Prop}

theorem Cut.consequence {p : Eng ρ α} {Q Q' : α → State → Prop} (h : Cut P p Q H F) (hp : ∀ s, P' s → P s)
    (hq : ∀ a s, Q a s → Q' a s) (hh : ∀ s, H s → H' s) (hf : F → F') : Cut P' p Q' H' F' := by
  intro s n hs
  rcases h s n (hp s hs) with ⟨a, t, m, hQ, he⟩ | ⟨t, hH, he⟩ | ⟨hF, f, he⟩
  · exact .inl ⟨a, t, m, hq _ _ hQ, he⟩
  · exact .inr (.inl ⟨t, hh _ hH, he⟩)
  · exact .inr (.inr ⟨hf hF, f, he⟩)

theorem Cut.pure {Q : α → State → Prop} {a : α} (h : ∀ s, P s → Q a s) : Cut P (pure a : Eng ρ α) Q H F :=
  fun s n hs => .inl ⟨a, s, n, h s hs, fun _ => rfl⟩

theorem Cut.bind {p : Eng ρ α} {f : α → Eng ρ β} {Q : α → State → Prop} {R : β → State → Prop}
    (hp : Cut P p Q H F) (hf : ∀ a, Cut (Q a) (f a) R H F) : Cut P (p >>= f) R H F := by
  intro s n hs
  rcases hp s n hs with ⟨a, t, m, hQ, he⟩ | ⟨t, hH, he⟩ | ⟨hF, e, he⟩
  · rcases hf a t m hQ with ⟨b, u, j, hR, he'⟩ | ⟨u, hH, he'⟩ | ⟨hF, e, he'⟩
    · exact .inl ⟨b, u, j, hR, fun next => (he _).trans (he' next)⟩
    · exact .inr (.inl ⟨u, hH, fun next => (he _).trans (he' next)⟩)
    · exact .inr (.inr ⟨hF, e, fun next => (he _).trans (he' next)⟩)
  · exact .inr (.inl ⟨t, hH, fun next => he _⟩)
  · exact .inr (.inr ⟨hF, e, fun next => he _⟩)

theorem Cut.state {Q : State → State → Prop} (h : ∀ s, P s → Q s.view s) : Cut P (Machine.state : Eng ρ State) Q H F :=
  fun s n hs => .inl ⟨s.view, s, n, h s hs, fun _ => rfl⟩

/-- A register update is made, or no step is left before it. -/
theorem Cut.update {u : RegUpdate} {Q : Unit → State → Prop} (h : ∀ s, P s → Q () (u.apply s)) (hcut : ∀ s, P s → H s) :
    Cut P (Machine.update u : Eng ρ Unit) Q H F
  | s, 0, hs => .inr (.inl ⟨s, hcut s hs, fun _ => rfl⟩)
  | s, n + 1, hs => .inl ⟨(), u.apply s, n, h s hs, fun _ => rfl⟩

theorem Cut.raise {Q : α → State → Prop} {code : ErrCode} {stage : ErrStage} {index : Nat}
    (h : ∀ s, P s → H (s.errorEntry code stage index)) (hcut : ∀ s, P s → H s) :
    Cut P (Machine.raise code stage index : Eng ρ α) Q H F
  | s, 0, hs => .inr (.inl ⟨s, hcut s hs, fun _ => rfl⟩)
  | s, _ + 1, hs => .inr (.inl ⟨_, h s hs, fun _ => rfl⟩)

theorem Cut.require {c : Bool} {code : ErrCode} {stage : ErrStage} {index : Nat} {Q : Unit → State → Prop}
    (hok : ∀ s, P s → c = true → Q () s) (hno : ∀ s, P s → c = false → H (s.errorEntry code stage index))
    (hcut : ∀ s, P s → H s) : Cut P (Machine.require c code stage index : Eng ρ Unit) Q H F := by
  cases c
  · exact Cut.raise (fun s hs => hno s hs rfl) hcut
  · exact Cut.pure fun s hs => hok s hs rfl

theorem Cut.memRead {a : Nat} {Q : Byte → State → Prop} (h : ∀ s, P s → a < s.platform.memBytes → Q (s.byte a) s)
    (hcut : ∀ s, P s → H s) (hf : ∀ s, P s → ¬a < s.platform.memBytes → F) : Cut P (Machine.memRead a : Eng ρ Byte) Q H F := by
  intro s n hs
  cases n with
  | zero => exact .inr (.inl ⟨s, hcut s hs, fun _ => rfl⟩)
  | succ n =>
    by_cases ha : a < s.platform.memBytes
    · exact .inl ⟨s.byte a, s, n, h s hs ha, fun next => by simp [Machine.memRead, Prog.cut, ha]⟩
    · exact .inr (.inr ⟨hf s hs ha, .accessOutsideMem a, fun next => by simp [Machine.memRead, Prog.cut, ha]⟩)

/-- A write is made, or no step is left before it. -/
theorem Cut.memWrite {a : Nat} {v : Byte} {Q : Unit → State → Prop}
    (h : ∀ s, P s → a < s.platform.memBytes → Q () (s.setByte a v)) (hcut : ∀ s, P s → H s)
    (hf : ∀ s, P s → ¬a < s.platform.memBytes → F) : Cut P (Machine.memWrite a v : Eng ρ Unit) Q H F := by
  intro s n hs
  cases n with
  | zero => exact .inr (.inl ⟨s, hcut s hs, fun _ => rfl⟩)
  | succ n =>
    by_cases ha : a < s.platform.memBytes
    · exact .inl ⟨(), s.setByte a v, n, h s hs ha, fun next => by simp [Machine.memWrite, Prog.cut, ha]⟩
    · exact .inr (.inr ⟨hf s hs ha, .accessOutsideMem a, fun next => by simp [Machine.memWrite, Prog.cut, ha]⟩)

/-- The rule of a counting loop: `I i` holds before iteration `i`. -/
theorem Cut.forFrom {body : Nat → Eng ρ Unit} (I : Nat → State → Prop) (first count : Nat)
    (h : ∀ i, first ≤ i → i < first + count → Cut (I i) (body i) (fun _ => I (i + 1)) H F) :
    Cut (I first) (forFrom first count body) (fun _ => I (first + count)) H F := by
  induction count generalizing first with
  | zero => exact Cut.pure fun _ hs => hs
  | succ n ih =>
    refine Cut.bind (h first (Nat.le_refl _) (by omega)) fun _ => ?_
    have := ih (first + 1) fun i hi hi' => h i (by omega) (by omega)
    rwa [show first + 1 + n = first + (n + 1) by omega] at this

/-- The rule of a loop that keeps one property. -/
theorem Cut.forN_keeps {body : Nat → Eng ρ Unit} (count : Nat) (h : ∀ i, i < count → Cut P (body i) (fun _ => P) H F) :
    Cut P (forN count body) (fun _ => P) H F :=
  Cut.forFrom (fun _ => P) 0 count fun i _ hi => h i (by omega)

/-- The rule of a loop that collects values and keeps one property. -/
theorem Cut.listFrom {f : Nat → Eng ρ α} (first count : Nat)
    (h : ∀ i, first ≤ i → i < first + count → Cut P (f i) (fun _ => P) H F) :
    Cut P (listFrom first count f) (fun l s => P s ∧ l.length = count) H F := by
  induction count generalizing first with
  | zero => exact Cut.pure fun _ hs => ⟨hs, rfl⟩
  | succ n ih =>
    refine Cut.bind (h first (Nat.le_refl _) (by omega)) fun a => ?_
    refine Cut.bind (ih (first + 1) fun i hi hi' => h i (by omega) (by omega)) fun l => ?_
    exact Cut.pure fun s hs => ⟨hs.1, by simp [hs.2]⟩

theorem Cut.listN {f : Nat → Eng ρ α} (count : Nat) (h : ∀ i, i < count → Cut P (f i) (fun _ => P) H F) :
    Cut P (listN count f) (fun l s => P s ∧ l.length = count) H F :=
  Cut.listFrom 0 count fun i _ hi => h i (by omega)

/-- What a program that has a rule leaves when a reset cuts it short. -/
theorem Cut.cut {p : Eng Unit Unit} {Q : State → Prop} {s : State} (n : Nat)
    (h : Cut (fun t => t = s) p (fun _ => Q) H False) : ∃ t, (p .finish).cut n s = .ok t ∧ (Q t ∨ H t) := by
  rcases h s n rfl with ⟨_, t, m, hQ, he⟩ | ⟨t, hH, he⟩ | ⟨hF, _⟩
  · exact ⟨t, he .finish, .inl hQ⟩
  · exact ⟨t, he .finish, .inr hH⟩
  · exact hF.elim

end Sys2Proof.Machine
end

