-- ==== Sys2Proof/Laws/Operands.lean ====
section
/-! SUPPORT. The laws of the operand forms: what each address depends on, that an address inside a region in bounds exists
(20_memory.md R68), and that the traversal's blocks lie inside their planes (44_container.md R231). -/

namespace Sys2Proof.Machine

/-- An address depends on the registers only. -/
theorem planeAddr_congr {s t : State} (h : t.regs = s.regs) (p : Plane) (x y : Nat) :
    planeAddr t p x y = planeAddr s p x y := by
  cases p <;> simp [planeAddr, planeBase, planeWidth, imageWidth, h]

theorem planeRegion_congr {s t : State} (h : t.regs = s.regs) (p : Plane) : planeRegion t p = planeRegion s p := by
  cases p <;> simp [planeRegion, planeBase, planeWidth, planeHeight, imageWidth, imageHeight, h]

theorem imageAddr_congr {s t : State} (h : t.regs = s.regs) (x y c : Nat) : imageAddr t x y c = imageAddr s x y c := by
  simp [imageAddr, imageWidth, h]

theorem streamAddr_congr {s t : State} (h : t.regs = s.regs) (k : Nat) : streamAddr t k = streamAddr s k := by
  simp [streamAddr, h]

theorem inBounds_iff (s : State) (r : Region) :
    inBounds s r = true ↔ r.len = 0 ∨ r.base + r.len ≤ s.platform.memBytes := by
  simp [inBounds]

theorem allInBounds_iff (s : State) (rs : List Region) :
    allInBounds s rs = true ↔ ∀ r ∈ rs, inBounds s r = true := by
  simp [allInBounds]

/-- An offset of a region in bounds exists (20_memory.md R68). -/
theorem lt_memBytes_of_inBounds {s : State} {r : Region} (h : inBounds s r = true) {k : Nat} (hk : k < r.len) :
    r.base + k < s.platform.memBytes := by
  rcases (inBounds_iff s r).1 h with h | h <;> omega

theorem holds_iff (r : Region) (a : Nat) : r.holds a = true ↔ r.base ≤ a ∧ a < r.base + r.len := by
  simp [Region.holds]

theorem offset_lt_area {x y w h : Nat} (hx : x < w) (hy : y < h) : x + y * w < w * h := by
  have : (y + 1) * w ≤ h * w := Nat.mul_le_mul_right _ hy
  rw [Nat.add_mul, Nat.one_mul, Nat.mul_comm h w] at this
  omega

/-- A sample inside a plane lies in the plane's region (20_memory.md R64, R65). -/
theorem planeAddr_mem {s : State} {p : Plane} {x y : Nat} (hx : x < planeWidth s p) (hy : y < planeHeight s p) :
    (planeRegion s p).holds (planeAddr s p x y) = true := by
  have := offset_lt_area hx hy
  rw [holds_iff]
  simp only [planeRegion, planeAddr]
  omega

/-- A sample inside a plane whose region is in bounds exists. -/
theorem planeAddr_lt {s : State} {p : Plane} (h : inBounds s (planeRegion s p) = true) {x y : Nat}
    (hx : x < planeWidth s p) (hy : y < planeHeight s p) : planeAddr s p x y < s.platform.memBytes := by
  have := lt_memBytes_of_inBounds h (k := x + y * planeWidth s p) (by simpa [planeRegion] using offset_lt_area hx hy)
  simp only [planeRegion, planeAddr] at *
  omega

/-- A channel of a pixel of an interleaved image whose region is in bounds exists (20_memory.md R67). -/
theorem imageAddr_lt {s : State} (h : inBounds s (imageRegion s) = true) {x y c : Nat}
    (hx : x < imageWidth s) (hy : y < imageHeight s) (hc : c < 3) : imageAddr s x y c < s.platform.memBytes := by
  have ha := offset_lt_area hx hy
  have := lt_memBytes_of_inBounds h (k := 3 * (x + y * imageWidth s) + c) (by
    simp only [imageRegion, Nat.mul_assoc]; omega)
  simp only [imageRegion, imageAddr] at *
  omega

/-- What valid dimensions are (60_exceptions.md R262). -/
theorem validDims_iff (w h : Half) :
    validDims w h = true ↔ 0 < w.toNat ∧ 0 < h.toNat ∧ w.toNat % 16 = 0 ∧ h.toNat % 16 = 0 := by
  simp [validDims]

theorem blockTotal_eq (w h : Nat) : blockTotal w h = 6 * ((w / 16) * (h / 16)) := by
  simp [blockTotal, Nat.mul_assoc]

/-- Every block of the traversal lies inside its plane (44_container.md R231; 60_exceptions.md R266). -/
theorem blockAt_inside {w h n : Nat} (hw : w % 16 = 0) (hh : h % 16 = 0) (hn : n < blockTotal w h) :
    (blockAt w n).x + 8 ≤ planeDim w (blockAt w n).plane ∧ (blockAt w n).y + 8 ≤ planeDim h (blockAt w n).plane := by
  rw [blockTotal_eq] at hn
  have ht : n / 6 < (w / 16) * (h / 16) := by omega
  have hpos : 0 < w / 16 := Nat.pos_of_ne_zero fun h0 => by simp [h0] at ht
  have hx : n / 6 % (w / 16) < w / 16 := Nat.mod_lt _ hpos
  have hy : n / 6 / (w / 16) < h / 16 := Nat.div_lt_of_lt_mul ht
  unfold blockAt
  dsimp only
  split <;> simp only [planeDim] <;> omega

/-- The block index of an element of the traversal (44_container.md R230). -/
@[simp] theorem blockAt_index (w n : Nat) : (blockAt w n).index = n := by
  unfold blockAt
  dsimp only
  split <;> rfl

end Sys2Proof.Machine
end

