-- ==== Sys2Proof/Laws/Exec.lean ====
section
/-! SUPPORT. The meanings and the step, each said once: every meaning runs its instruction's program to the end, and what one
step does for each head of the agenda. -/

namespace Sys2Proof.Machine

/-- Every meaning is its program, run to its end. -/
theorem exec_eq_runToEnd (i : Instr) (s : State) : exec i s = runToEnd (program i) s := by
  cases i <;> rfl

/-- No run refuses. -/
theorem lastState_not_refused (o : Except Stop (Unit × State)) (r : Refusal) : lastState o ≠ .refused r := by
  unfold lastState
  split <;> simp

/-- No meaning refuses. -/
theorem runToEnd_not_refused (p : Eng Unit Unit) (s : State) (r : Refusal) : runToEnd p s ≠ .refused r :=
  lastState_not_refused _ r

theorem step_nil {s : State} (h : s.agenda = []) : step s = engineTurn s := by
  simp [step, turn, h]

theorem step_engine {s : State} {rest : List Turn} (h : s.agenda = .engine :: rest) :
    step s = engineTurn { s with agenda := rest } := by
  simp [step, turn, h]

theorem step_engineStep {s : State} {rest : List Turn} (h : s.agenda = .engineStep :: rest) :
    step s = engineStep { s with agenda := rest } := by
  simp [step, turn, h]

theorem step_host {s : State} {m : HostMove} {rest : List Turn} (h : s.agenda = .host m :: rest) :
    step s = hostMove m { s with agenda := rest } := by
  simp [step, turn, h]

theorem step_wait {s : State} {rest : List Turn} (h : s.agenda = .wait :: rest) :
    step s = if s.busy then engineTurn s else .next { s with agenda := rest } := by
  simp [step, turn, h]

theorem engineTurn_idle {s : State} (h : s.engine.mode = .idle) : engineTurn s = .next s := by
  simp [engineTurn, h]

theorem engineTurn_underway {s : State} {u : Underway} (h : s.engine.mode = .run) (hu : s.engine.underway = some u) :
    engineTurn s = atBoundary (lastState ((remaining s).run s)) := by
  simp [engineTurn, h, hu]

theorem engineTurn_command {s : State} (h : s.engine.mode = .run) (hu : s.engine.underway = none)
    (hp : s.engine.phase = .command) : engineTurn s = exec (runningCommand s) s := by
  simp [engineTurn, h, hu, hp]

theorem engineTurn_record {s : State} (h : s.engine.mode = .run) (hu : s.engine.underway = none)
    (hp : s.engine.phase = .record) : engineTurn s = recordTurn s := by
  simp [engineTurn, h, hu, hp]

theorem engineTurn_finish {s : State} (h : s.engine.mode = .run) (hu : s.engine.underway = none)
    (hp : s.engine.phase = .finish) : engineTurn s = runToEnd (finishProgram s) s := by
  simp [engineTurn, h, hu, hp]

theorem engineStep_idle {s : State} (h : s.engine.mode = .idle) : engineStep s = .next s := by
  simp [engineStep, h]

/-- One engine step of a running engine (60_exceptions.md R271). -/
theorem engineStep_run {s : State} (h : s.engine.mode = .run) : engineStep s = stepped s ((remaining s).once s) := by
  simp [engineStep, h]

theorem busy_iff (s : State) : s.busy = true ↔ s.engine.mode = .run := by
  simp [State.busy]

end Sys2Proof.Machine
end

