-- ==== Sys2Proof/Laws/PerInstr.lean ====
section
/-! SUPPORT. Facts about every instruction as syntax, one lemma for each constructor: a well-formed instruction's encoding
has the length of its format and kind (30_encoding.md R90, R97). -/

namespace Sys2Proof.Laws.EncodedLength

/-- The encoding of a well-formed instruction is as long as its kind says. -/
def Statement (i : Instr) : Prop := i.wellFormed = true → (encode i).length = i.encodedLength

theorem nop : Statement .nop :=
  fun _ => rfl

theorem pack2 : Statement .pack2 :=
  fun _ => rfl

theorem pack4 : Statement .pack4 :=
  fun _ => rfl

theorem unpack2 : Statement .unpack2 :=
  fun _ => rfl

theorem unpack4 : Statement .unpack4 :=
  fun _ => rfl

theorem classify (plane : BitVec 2) : Statement (.classify plane) :=
  fun _ => rfl

theorem encodeBlock (plane : BitVec 2) (fmode : BitVec 3) : Statement (.encodeBlock plane fmode) :=
  fun _ => rfl

theorem decodeBlock (plane : BitVec 2) : Statement (.decodeBlock plane) :=
  fun _ => rfl

theorem downsample (plane : BitVec 2) : Statement (.downsample plane) :=
  fun _ => rfl

theorem upsample (plane : BitVec 2) : Statement (.upsample plane) :=
  fun _ => rfl

theorem split : Statement .split :=
  fun _ => rfl

theorem merge : Statement .merge :=
  fun _ => rfl

theorem encodeImage (fmode : BitVec 3) (il : Bool) : Statement (.encodeImage fmode il) :=
  fun _ => rfl

theorem decodeImage (il : Bool) : Statement (.decodeImage il) :=
  fun _ => rfl

theorem illegalCommand (low : BitVec 1) : Statement (.illegalCommand low) :=
  fun _ => rfl

theorem skip (base : BitVec 6) : Statement (.skip base) :=
  fun _ => rfl

theorem solid (base : BitVec 6) (fill : Byte) : Statement (.solid base fill) :=
  fun _ => rfl

theorem half2 (base : BitVec 6) (range : Byte) (samples : List Byte) : Statement (.half2 base range samples) :=
  fun h => by simpa [Instr.wellFormed, encode, Instr.encodedLength] using h

theorem full2 (base : BitVec 6) (range : Byte) (samples : List Byte) : Statement (.full2 base range samples) :=
  fun h => by simpa [Instr.wellFormed, encode, Instr.encodedLength] using h

theorem full4 (base : BitVec 6) (range : Byte) (samples : List Byte) : Statement (.full4 base range samples) :=
  fun h => by simpa [Instr.wellFormed, encode, Instr.encodedLength] using h

end Sys2Proof.Laws.EncodedLength
end

