-- ==== Sys2Proof/Laws/Steps.lean ====
section
/-! SUPPORT. A program's single steps against its run to the end (60_exceptions.md R271): after the steps of `Prog.walk`, what
`Prog.replay` says is left of the program makes the rest of its run, of its cuts and of its steps. -/

namespace Sys2Proof.Machine

variable {ρ : Type}

/-! ## What the pseudocode sees after a step -/

@[simp] theorem view_view (s : State) : s.view.view = s.view := rfl

@[simp] theorem setByte_view (s : State) (a : Nat) (v : Byte) : (s.setByte a v).view = s.view := rfl

theorem apply_view (u : RegUpdate) (s : State) : (u.apply s.view).view = (u.apply s).view := by
  cases u <;> rfl

/-! ## The next step -/

/-- A program has come to its end, or has a step before it. -/
theorem settle_finish_or_walk (p : Prog ρ) (s : State) :
    (∃ a, p.settle s = .finish a ∧ p.run s = .ok (a, s)) ∨
      (p.walk 0 s = some ([], s) ∧ ∀ a, p.settle s ≠ .finish a) := by
  induction p with
  | finish a => exact .inl ⟨a, rfl, rfl⟩
  | look next ih => exact ih s.view
  | read a next => exact .inr ⟨rfl, fun _ h => by cases h⟩
  | write a v next => exact .inr ⟨rfl, fun _ h => by cases h⟩
  | set u next => exact .inr ⟨rfl, fun _ h => by cases h⟩
  | fail code stage index => exact .inr ⟨rfl, fun _ h => by cases h⟩

theorem afterStep_more {p : Prog ρ} {a b : Option Byte} {s t : State} (h : p.afterStep a s = .more b t) :
    b = a ∧ t = s ∧ p.walk 0 s = some ([], s) := by
  rcases settle_finish_or_walk p s with ⟨c, hc, _⟩ | ⟨hw, hn⟩
  · simp [Prog.afterStep, hc] at h
  · unfold Prog.afterStep at h
    split at h
    · cases h
    · cases h; exact ⟨rfl, rfl, hw⟩

theorem afterStep_ended {p : Prog ρ} {a : Option Byte} {s t : State} (h : p.afterStep a s = .ended t) :
    t = s ∧ ∃ c, p.run s = .ok (c, s) := by
  rcases settle_finish_or_walk p s with ⟨c, hc, hr⟩ | ⟨hw, hn⟩
  · simp only [Prog.afterStep, hc, Stepped.ended.injEq] at h
    exact ⟨h.symm, c, hr⟩
  · unfold Prog.afterStep at h
    split at h
    · rename_i c hc; exact absurd hc (hn c)
    · cases h

theorem afterStep_not_fault (p : Prog ρ) (a : Option Byte) (s : State) (f : Fault) : p.afterStep a s ≠ .fault f := by
  unfold Prog.afterStep
  split <;> simp

/-! ## After some steps -/

/-- The rest of a run is the run of what is left. -/
theorem walk_run {p : Prog ρ} {n : Nat} {s t : State} {l : List (Option Byte)} (h : p.walk n s = some (l, t)) :
    p.run s = (p.replay s.view l).run t := by
  induction p generalizing n s l with
  | finish a => cases h
  | look next ih => exact ih s.view h
  | read a next ih =>
    cases n with
    | zero => cases h; rfl
    | succ n =>
      by_cases ha : a < s.platform.memBytes
      · simp only [Prog.walk, ha, if_true, Option.map_eq_some_iff, Prod.exists, Prod.mk.injEq] at h
        obtain ⟨l', t', hw, rfl, rfl⟩ := h
        simp only [Prog.run, ha, if_true, Prog.replay, Option.getD_some]
        exact ih _ hw
      · simp [Prog.walk, ha] at h
  | write a v next ih =>
    cases n with
    | zero => cases h; rfl
    | succ n =>
      by_cases ha : a < s.platform.memBytes
      · simp only [Prog.walk, ha, if_true, Option.map_eq_some_iff, Prod.exists, Prod.mk.injEq] at h
        obtain ⟨l', t', hw, rfl, rfl⟩ := h
        simp only [Prog.run, ha, if_true, Prog.replay]
        exact ih hw
      · simp [Prog.walk, ha] at h
  | set u next ih =>
    cases n with
    | zero => cases h; rfl
    | succ n =>
      simp only [Prog.walk, Option.map_eq_some_iff, Prod.exists, Prod.mk.injEq] at h
      obtain ⟨l', t', hw, rfl, rfl⟩ := h
      simp only [Prog.run, Prog.replay, apply_view]
      exact ih hw
  | fail code stage index =>
    cases n with
    | zero => cases h; rfl
    | succ n => cases h

/-- A reset after `n` steps and `k` more cuts what is left after `k`. -/
theorem walk_cut {p : Prog ρ} {n : Nat} {s t : State} {l : List (Option Byte)} (k : Nat)
    (h : p.walk n s = some (l, t)) : p.cut (n + k) s = (p.replay s.view l).cut k t := by
  induction p generalizing n s l with
  | finish a => cases h
  | look next ih => exact ih s.view h
  | read a next ih =>
    cases n with
    | zero => cases h; rw [Nat.zero_add]; rfl
    | succ n =>
      by_cases ha : a < s.platform.memBytes
      · simp only [Prog.walk, ha, if_true, Option.map_eq_some_iff, Prod.exists, Prod.mk.injEq] at h
        obtain ⟨l', t', hw, rfl, rfl⟩ := h
        simp only [Nat.succ_add, Prog.cut, ha, if_true, Prog.replay, Option.getD_some]
        exact ih _ hw
      · simp [Prog.walk, ha] at h
  | write a v next ih =>
    cases n with
    | zero => cases h; rw [Nat.zero_add]; rfl
    | succ n =>
      by_cases ha : a < s.platform.memBytes
      · simp only [Prog.walk, ha, if_true, Option.map_eq_some_iff, Prod.exists, Prod.mk.injEq] at h
        obtain ⟨l', t', hw, rfl, rfl⟩ := h
        simp only [Nat.succ_add, Prog.cut, ha, if_true, Prog.replay]
        exact ih hw
      · simp [Prog.walk, ha] at h
  | set u next ih =>
    cases n with
    | zero => cases h; rw [Nat.zero_add]; rfl
    | succ n =>
      simp only [Prog.walk, Option.map_eq_some_iff, Prod.exists, Prod.mk.injEq] at h
      obtain ⟨l', t', hw, rfl, rfl⟩ := h
      simp only [Nat.succ_add, Prog.cut, Prog.replay, apply_view]
      exact ih hw
  | fail code stage index =>
    cases n with
    | zero => cases h; rw [Nat.zero_add]; rfl
    | succ n => cases h

/-- The first step: where others follow, the program has walked one step, and where none does, its run ends there. -/
theorem walk_first {p : Prog Unit} {s : State} (h : p.walk 0 s = some ([], s)) :
    match p.once s with
    | .more a u => p.walk 1 s = some ([a], u)
    | .ended u => lastState (p.run s) = .next u
    | .fault f => p.run s = .error (.fault f) := by
  have after (q : Prog Unit) (a : Option Byte) (t : State) :
      match q.afterStep a t with
      | .more b u => (q.walk 0 t).map (fun r => (a :: r.1, r.2)) = some ([b], u)
      | .ended u => lastState (q.run t) = .next u
      | .fault f => q.run t = .error (.fault f) := by
    split
    · rename_i heq
      obtain ⟨rfl, rfl, hw⟩ := afterStep_more heq
      simp [hw]
    · rename_i heq
      obtain ⟨rfl, c, hr⟩ := afterStep_ended heq
      rw [hr]; rfl
    · rename_i heq; exact absurd heq (afterStep_not_fault _ _ _ _)
  induction p with
  | finish a => cases h
  | look next ih => exact ih s.view h
  | read a next =>
    by_cases ha : a < s.platform.memBytes
    · simpa only [Prog.once, Prog.settle, Prog.walk, Prog.run, ha, if_true] using after (next (s.byte a)) _ s
    · simp only [Prog.once, Prog.settle, Prog.run, ha, if_false]
  | write a v next =>
    by_cases ha : a < s.platform.memBytes
    · simpa only [Prog.once, Prog.settle, Prog.walk, Prog.run, ha, if_true] using after next none (s.setByte a v)
    · simp only [Prog.once, Prog.settle, Prog.run, ha, if_false]
  | set u next => exact after next none (u.apply s)
  | fail code stage index => rfl

/-- One step more: where others follow, the program has walked one step further, and where none does, its run ends there. -/
theorem walk_once {p : Prog Unit} {n : Nat} {s t : State} {l : List (Option Byte)} (h : p.walk n s = some (l, t)) :
    match (p.replay s.view l).once t with
    | .more a u => p.walk (n + 1) s = some (l ++ [a], u)
    | .ended u => lastState (p.run s) = .next u
    | .fault f => p.run s = .error (.fault f) := by
  induction p generalizing n s l with
  | finish a => cases h
  | look next ih => exact ih s.view h
  | read a next ih =>
    cases n with
    | zero => cases h; exact walk_first (p := .read a next) rfl
    | succ n =>
      by_cases ha : a < s.platform.memBytes
      · simp only [Prog.walk, ha, if_true, Option.map_eq_some_iff, Prod.exists, Prod.mk.injEq] at h
        obtain ⟨l', t', hw, rfl, rfl⟩ := h
        have := ih _ hw
        simp only [Prog.run, ha, if_true, Prog.replay, Option.getD_some]
        revert this
        split
        · intro hm; rw [Prog.walk]; simp [ha, hm]
        · exact id
        · exact id
      · simp [Prog.walk, ha] at h
  | write a v next ih =>
    cases n with
    | zero => cases h; exact walk_first (p := .write a v next) rfl
    | succ n =>
      by_cases ha : a < s.platform.memBytes
      · simp only [Prog.walk, ha, if_true, Option.map_eq_some_iff, Prod.exists, Prod.mk.injEq] at h
        obtain ⟨l', t', hw, rfl, rfl⟩ := h
        have := ih hw
        simp only [Prog.run, ha, if_true, Prog.replay]
        revert this
        rw [setByte_view]
        split
        · intro hm; rw [Prog.walk]; simp [ha, hm]
        · exact id
        · exact id
      · simp [Prog.walk, ha] at h
  | set u next ih =>
    cases n with
    | zero => cases h; exact walk_first (p := .set u next) rfl
    | succ n =>
      simp only [Prog.walk, Option.map_eq_some_iff, Prod.exists, Prod.mk.injEq] at h
      obtain ⟨l', t', hw, rfl, rfl⟩ := h
      have := ih hw
      simp only [Prog.run, Prog.replay, apply_view]
      revert this
      split
      · intro hm; rw [Prog.walk]; simp [hm]
      · exact id
      · exact id
  | fail code stage index =>
    cases n with
    | zero => cases h; rfl
    | succ n => cases h

/-! ## What a host move between two steps changes -/

/-- A change of what the pseudocode neither reads nor writes: it goes past every engine step (10_state.md R37). -/
structure Unread (f : State → State) : Prop where
  view : ∀ s, (f s).view = s.view
  byte : ∀ s a, (f s).byte a = s.byte a
  setByte : ∀ s a v, (f s).setByte a v = f (s.setByte a v)
  apply : ∀ u s, RegUpdate.apply u (f s) = f (u.apply s)
  errorEntry : ∀ s code stage index, (f s).errorEntry code stage index = f (s.errorEntry code stage index)

theorem Unread.platform {f : State → State} (hf : Unread f) (s : State) : (f s).platform = s.platform := by
  rw [← view_platform (f s), hf.view, view_platform]

theorem unread_agenda (l : List Turn) : Unread fun s => { s with agenda := l } :=
  ⟨fun _ => rfl, fun _ _ => rfl, fun _ _ _ => rfl, fun u _ => by cases u <;> rfl, fun _ _ _ _ => rfl⟩

theorem unread_irqEn (b : Bool) : Unread fun s => { s with regs := { s.regs with irqEn := b } } :=
  ⟨fun _ => rfl, fun _ _ => rfl, fun _ _ _ => rfl, fun u _ => by cases u <;> rfl, fun _ _ _ _ => rfl⟩

theorem unread_underway (u : Option Underway) : Unread fun s => { s with engine := { s.engine with underway := u } } :=
  ⟨fun _ => rfl, fun _ _ => rfl, fun _ _ _ => rfl, fun u _ => by cases u <;> rfl, fun _ _ _ _ => rfl⟩

theorem unread_draws (n : Nat) : Unread fun s => { s with draws := n } :=
  ⟨fun _ => rfl, fun _ _ => rfl, fun _ _ _ => rfl, fun u _ => by cases u <;> rfl, fun _ _ _ _ => rfl⟩

theorem unread_reply (r : Reply) : Unread fun s => { s with reply := r } :=
  ⟨fun _ => rfl, fun _ _ => rfl, fun _ _ _ => rfl, fun u _ => by cases u <;> rfl, fun _ _ _ _ => rfl⟩

theorem unread_rst (b : Bool) : Unread fun s => { s with rst := b } :=
  ⟨fun _ => rfl, fun _ _ => rfl, fun _ _ _ => rfl, fun u _ => by cases u <;> rfl, fun _ _ _ _ => rfl⟩

/-- The same change of what a run leaves. -/
def mapState {α : Type} (f : State → State) : Except Stop (α × State) → Except Stop (α × State)
  | .ok (a, t) => .ok (a, f t)
  | .error (.halt t) => .error (.halt (f t))
  | .error (.fault e) => .error (.fault e)

/-- The same change of what one step leaves. -/
def Stepped.map (f : State → State) : Stepped → Stepped
  | .more a t => .more a (f t)
  | .ended t => .ended (f t)
  | .fault e => .fault e

theorem run_map {f : State → State} (hf : Unread f) (p : Prog ρ) (s : State) : p.run (f s) = mapState f (p.run s) := by
  induction p generalizing s with
  | finish a => rfl
  | look next ih => simp only [Prog.run, hf.view]; exact ih _ s
  | read a next ih =>
    simp only [Prog.run, hf.platform, hf.byte]
    split
    · exact ih _ s
    · rfl
  | write a v next ih =>
    simp only [Prog.run, hf.platform, hf.setByte]
    split
    · exact ih _
    · rfl
  | set u next ih => simp only [Prog.run, hf.apply]; exact ih _
  | fail code stage index => simp only [Prog.run, hf.errorEntry]; rfl

theorem walk_map {f : State → State} (hf : Unread f) (p : Prog ρ) (n : Nat) (s : State) :
    p.walk n (f s) = (p.walk n s).map fun r => (r.1, f r.2) := by
  induction p generalizing n s with
  | finish a => rfl
  | look next ih => simp only [Prog.walk, hf.view]; exact ih _ n s
  | read a next ih =>
    cases n with
    | zero => rfl
    | succ n =>
      simp only [Prog.walk, hf.platform, hf.byte]
      split
      · rw [ih]; simp [Option.map_map, Function.comp_def]
      · rfl
  | write a v next ih =>
    cases n with
    | zero => rfl
    | succ n =>
      simp only [Prog.walk, hf.platform, hf.setByte]
      split
      · rw [ih]; simp [Option.map_map, Function.comp_def]
      · rfl
  | set u next ih =>
    cases n with
    | zero => rfl
    | succ n => simp only [Prog.walk, hf.apply]; rw [ih]; simp [Option.map_map, Function.comp_def]
  | fail code stage index => cases n <;> rfl

theorem cut_map {f : State → State} (hf : Unread f) (p : Prog ρ) (n : Nat) (s : State) :
    p.cut n (f s) = (p.cut n s).map f := by
  induction p generalizing n s with
  | finish a => rfl
  | look next ih => simp only [Prog.cut, hf.view]; exact ih _ n s
  | read a next ih =>
    cases n with
    | zero => rfl
    | succ n =>
      simp only [Prog.cut, hf.platform, hf.byte]
      split
      · exact ih _ n s
      · rfl
  | write a v next ih =>
    cases n with
    | zero => rfl
    | succ n =>
      simp only [Prog.cut, hf.platform, hf.setByte]
      split
      · exact ih n _
      · rfl
  | set u next ih =>
    cases n with
    | zero => rfl
    | succ n => simp only [Prog.cut, hf.apply]; exact ih n _
  | fail code stage index =>
    cases n with
    | zero => rfl
    | succ n => simp only [Prog.cut, hf.errorEntry]; rfl

theorem settle_map {f : State → State} (hf : Unread f) (p : Prog ρ) (s : State) : p.settle (f s) = p.settle s := by
  induction p with
  | look next ih => simp only [Prog.settle, hf.view]; exact ih _
  | finish a => rfl
  | read a next => rfl
  | write a v next => rfl
  | set u next => rfl
  | fail code stage index => rfl

theorem once_map {f : State → State} (hf : Unread f) (p : Prog ρ) (s : State) : p.once (f s) = (p.once s).map f := by
  have after (q : Prog ρ) (a : Option Byte) (t : State) : q.afterStep a (f t) = (q.afterStep a t).map f := by
    unfold Prog.afterStep
    rw [settle_map hf]
    split <;> rfl
  unfold Prog.once
  rw [settle_map hf]
  cases p.settle s with
  | finish a => rfl
  | look next => rfl
  | read a next =>
    simp only [hf.platform, hf.byte, after]
    split <;> rfl
  | write a v next =>
    simp only [hf.platform, hf.setByte, after]
    split <;> rfl
  | set u next => simp only [hf.apply, after]
  | fail code stage index => simp only [hf.errorEntry]; rfl

end Sys2Proof.Machine
end

