-- ==== Sys2Proof/Laws/Programs.lean ====
section
/-! SUPPORT. What each shared operation of the engine's programs answers, said once: collecting reads, writing bytes, the 8x8
window, the checks, fetching a record, and a record's single steps against its turn. -/

namespace Sys2Proof.Machine

variable {ρ : Type}

/-! ## Reads -/

theorem px_answers {p : Plane} {x y : Nat} {s : State} (h : planeAddr s p x y < s.platform.memBytes) :
    Answers (px p x y : Eng ρ Byte) s (.ok (s.byte (planeAddr s p x y), s)) := by
  refine (Answers.state s).bind ?_
  rw [planeAddr_view]
  exact Answers.memRead h

theorem pxW_answers {p : Plane} {x y : Nat} {s : State} (v : Byte) (h : planeAddr s p x y < s.platform.memBytes) :
    Answers (pxW p x y v : Eng ρ Unit) s (.ok ((), s.setByte (planeAddr s p x y) v)) := by
  refine (Answers.state s).bind ?_
  rw [planeAddr_view]
  exact Answers.memWrite v h

theorem listFrom_answers {α : Type} {f : Nat → Eng ρ α} {s : State} (v : Nat → α) (first count : Nat)
    (h : ∀ i, first ≤ i → i < first + count → Answers (f i) s (.ok (v i, s))) :
    Answers (listFrom first count f) s (.ok ((List.range' first count).map v, s)) := by
  induction count generalizing first with
  | zero => exact Answers.pure [] s
  | succ n ih =>
    exact (h first (Nat.le_refl _) (by omega)).bind
      ((ih (first + 1) fun i hi hi' => h i (by omega) (by omega)).bind (Answers.pure _ s))

/-- Values collected by reads that change nothing. -/
theorem listN_answers {α : Type} {f : Nat → Eng ρ α} {s : State} (v : Nat → α) (count : Nat)
    (h : ∀ i, i < count → Answers (f i) s (.ok (v i, s))) :
    Answers (listN count f) s (.ok ((List.range count).map v, s)) := by
  rw [List.range_eq_range']
  exact listFrom_answers v 0 count fun i _ hi => h i (by omega)

/-- The 64 samples of a block (41_classifier.md R140). -/
theorem readWindow_answers {b : Block} {s : State}
    (h : ∀ x y, x < 8 → y < 8 → blockAddr s b x y < s.platform.memBytes) :
    Answers (readWindow b : Eng ρ (List Byte)) s (.ok (blockSamples s b, s)) :=
  listN_answers _ 64 fun i hi => px_answers (h (i % 8) (i / 8) (Nat.mod_lt _ (by decide)) (by omega))

/-- A record that lies before `STREAM_LEN` and exists is fetched (42_block_codec.md R177). -/
theorem fetchRecord_answers {s : State}
    (hlen : s.regs.streamPtr.toNat + recordLength (s.byte (streamAddr s s.regs.streamPtr.toNat)) ≤
      s.regs.streamLen.toNat)
    (hmem : streamAddr s (s.regs.streamPtr.toNat + recordLength (s.byte (streamAddr s s.regs.streamPtr.toNat))) ≤
      s.platform.memBytes) :
    Answers (fetchRecord : Eng ρ (Byte × Byte × List Byte)) s
      (let at' (k : Nat) := s.byte (streamAddr s (s.regs.streamPtr.toNat + k))
       .ok ((at' 0, at' 1, (List.range (recordLength (at' 0) - 2)).map fun k => at' (2 + k)), s)) := by
  have h2 (c : Byte) : 2 ≤ recordLength c := by unfold recordLength; split <;> decide
  have hc := h2 (s.byte (streamAddr s s.regs.streamPtr.toNat))
  unfold streamAddr at hlen hmem hc
  refine (Answers.state s).bind (?_ : Answers (require _ _ _ _ >>= _) s _)
  dsimp only [view_regs, view_engine, streamAddr_view]
  refine Answers.bind (a := ()) (t := s) (by
    have := Answers.require (ρ := ρ) (decide (s.regs.streamPtr.toNat + 2 ≤ s.regs.streamLen.toNat))
      .unexpectedEndOfInput .block s.engine.block.index s
    rwa [if_pos (decide_eq_true (by omega))] at this) ?_
  refine Answers.bind (Answers.memRead (by unfold streamAddr; omega)) ?_
  refine Answers.bind (a := ()) (t := s) (by
    have := Answers.require (ρ := ρ)
      (decide (s.regs.streamPtr.toNat + recordLength (s.byte (streamAddr s s.regs.streamPtr.toNat)) ≤
        s.regs.streamLen.toNat)) .unexpectedEndOfInput .block s.engine.block.index s
    rwa [if_pos (decide_eq_true (by unfold streamAddr; omega))] at this) ?_
  refine Answers.bind (Answers.memRead (by unfold streamAddr; omega)) ?_
  refine Answers.bind (listN_answers (fun k => s.byte (streamAddr s (s.regs.streamPtr.toNat + 2 + k))) _
    fun k hk => Answers.memRead (by unfold streamAddr at hk ⊢; omega)) ?_
  have := Answers.pure (ρ := ρ)
    (s.byte (streamAddr s s.regs.streamPtr.toNat), s.byte (streamAddr s (s.regs.streamPtr.toNat + 1)),
      (List.range (recordLength (s.byte (streamAddr s s.regs.streamPtr.toNat)) - 2)).map fun k =>
        s.byte (streamAddr s (s.regs.streamPtr.toNat + 2 + k))) s
  simpa only [Nat.add_zero, Nat.add_assoc] using this

/-! ## Loops -/

theorem forFrom_shift (c a n : Nat) (f : Nat → Eng ρ Unit) :
    forFrom (c + a) n f = forFrom a n fun i => f (c + i) := by
  induction n generalizing a with
  | zero => rfl
  | succ n ih => simp only [forFrom, Nat.add_assoc, ih]

theorem forFrom_congr (a n : Nat) {f g : Nat → Eng ρ Unit} (h : ∀ i, a ≤ i → i < a + n → f i = g i) :
    forFrom a n f = forFrom a n g := by
  induction n generalizing a with
  | zero => rfl
  | succ n ih =>
    simp only [forFrom, h a (Nat.le_refl _) (by omega), ih (a + 1) fun i hi hi' => h i (by omega) (by omega)]

theorem forFrom_append (a m n : Nat) (f : Nat → Eng ρ Unit) :
    forFrom a (m + n) f = forFrom a m f >>= fun _ => forFrom (a + m) n f := by
  induction m generalizing a with
  | zero => simp only [Nat.zero_add, Nat.add_zero]; rfl
  | succ m ih =>
    rw [show m + 1 + n = m + n + 1 by omega, forFrom, forFrom, ih, show a + 1 + m = a + (m + 1) by omega]
    rfl

theorem forFrom_forN (y0 h w : Nat) (body : Nat → Nat → Eng ρ Unit) :
    forFrom y0 h (fun y => forN w (body y)) = forFrom (y0 * w) (h * w) fun i => body (i / w) (i % w) := by
  induction h generalizing y0 with
  | zero => simp only [Nat.zero_mul]; rfl
  | succ h ih =>
    have hrow : forFrom (y0 * w) w (fun i => body (i / w) (i % w)) = forN w (body y0) := by
      rw [show y0 * w = y0 * w + 0 from rfl, forFrom_shift]
      refine forFrom_congr 0 w fun i _ hi => ?_
      have hw : 0 < w := by omega
      have hi : i < w := by omega
      rw [Nat.mul_comm, Nat.mul_add_div hw, Nat.div_eq_of_lt hi, Nat.add_zero, Nat.mul_add_mod, Nat.mod_eq_of_lt hi]
    rw [show (h + 1) * w = w + h * w by rw [Nat.add_mul, Nat.one_mul, Nat.add_comm],
      forFrom_append (y0 * w) w (h * w), hrow, forFrom, ih, Nat.add_mul, Nat.one_mul]

/-- A double loop is one loop over rows and columns in raster order. -/
theorem forN_forN (h w : Nat) (body : Nat → Nat → Eng ρ Unit) :
    forN h (fun y => forN w (body y)) = forN (h * w) fun i => body (i / w) (i % w) := by
  have := forFrom_forN 0 h w body
  rwa [Nat.zero_mul] at this

/-! ## Writes -/

/-- Bytes written one after the other are the bytes of the memory port's write (00_scope.md R8). -/
theorem writeBytes_answers {a : Nat} {bytes : List Byte} {s : State} (h : a + bytes.length ≤ s.platform.memBytes) :
    Answers (writeBytes a bytes : Eng ρ Unit) s (.ok ((), { s with mem := memInsertAll s.mem a bytes })) := by
  suffices aux : ∀ (n i : Nat) (s : State), i + n = bytes.length → a + bytes.length ≤ s.platform.memBytes →
      Answers (forFrom i n (fun k => memWrite (a + k) (bytes.getD k 0)) : Eng ρ Unit) s
        (.ok ((), { s with mem := memInsertAll s.mem (a + i) (bytes.drop i) })) from by
    have := aux bytes.length 0 s (by omega) h
    simpa [writeBytes, forN] using this
  intro n
  induction n with
  | zero =>
    intro i s hi _
    rw [show bytes.drop i = [] from List.drop_eq_nil_of_le (by omega)]
    exact Answers.pure () s
  | succ n ih =>
    intro i s hi hs
    have hlt : i < bytes.length := by omega
    rw [List.drop_eq_getElem_cons hlt]
    refine (Answers.memWrite _ (by omega)).bind ?_
    have := ih (i + 1) (s.setByte (a + i) (bytes.getD i 0)) (by omega) hs
    simpa [State.setByte, memInsertAll, hlt, Nat.add_assoc] using this

/-- A loop whose every iteration writes one cell with a value that does not depend on memory, from a state that differs from
`s` only in memory. -/
theorem forN_writes {body : Nat → Eng ρ Unit} {s : State} (addr : Nat → Nat) (v : Nat → Byte) (count : Nat)
    (h : ∀ i m, i < count → Answers (body i) { s with mem := m } (.ok ((), { s with mem := memInsert m (addr i) (v i) }))) :
    ∃ m, Answers (forN count body) s (.ok ((), { s with mem := m })) ∧
      (∀ a, (∀ i, i < count → a ≠ addr i) → memByte m a = memByte s.mem a) ∧
      ((∀ i j, i < count → j < count → addr i = addr j → i = j) → ∀ i, i < count → memByte m (addr i) = v i) := by
  suffices aux : ∀ (n first : Nat) (m0 : List Host.Cell), first + n ≤ count →
      ∃ m, Answers (forFrom first n body) { s with mem := m0 } (.ok ((), { s with mem := m })) ∧
        (∀ a, (∀ i, first ≤ i → i < first + n → a ≠ addr i) → memByte m a = memByte m0 a) ∧
        ((∀ i j, i < count → j < count → addr i = addr j → i = j) →
          ∀ i, first ≤ i → i < first + n → memByte m (addr i) = v i) from by
    obtain ⟨m, h1, h2, h3⟩ := aux count 0 s.mem (by omega)
    exact ⟨m, h1, fun a ha => h2 a fun i _ hi => ha i (by omega), fun hinj i hi => h3 hinj i (by omega) (by omega)⟩
  intro n
  induction n with
  | zero =>
    intro first m0 _
    exact ⟨m0, Answers.pure () _, fun _ _ => rfl, fun _ i h1 h2 => absurd h2 (by omega)⟩
  | succ n ih =>
    intro first m0 hle
    obtain ⟨m, h1, h2, h3⟩ := ih (first + 1) (memInsert m0 (addr first) (v first)) (by omega)
    refine ⟨m, (h first m0 (by omega)).bind h1, fun a ha => ?_, fun hinj i hi hi' => ?_⟩
    · rw [h2 a fun i hi hi' => ha i (by omega) (by omega)]
      exact memByte_memInsert_of_ne _ _ (ha first (by omega) (by omega))
    · by_cases hf : i = first
      · subst hf
        rw [h2 (addr i) fun j hj hj' he => by have := hinj i j (by omega) (by omega) he; omega]
        exact memByte_memInsert_same _ _ _
      · exact h3 hinj i (by omega) (by omega)

/-- Two addresses of a block that ends inside its plane's row are the same only for the same sample (20_memory.md R64). -/
theorem blockAddr_inj {s : State} {b : Block} (hb : b.x + 8 ≤ planeWidth s b.plane) {x y x' y' : Nat} (hx : x < 8)
    (hx' : x' < 8) (h : blockAddr s b x y = blockAddr s b x' y') : x = x' ∧ y = y' := by
  unfold blockAddr planeAddr at h
  rcases Nat.lt_trichotomy y y' with hy | hy | hy
  · have := Nat.mul_le_mul_right (planeWidth s b.plane) (show b.y + y + 1 ≤ b.y + y' by omega)
    rw [Nat.add_mul, Nat.one_mul] at this
    omega
  · subst hy; omega
  · have := Nat.mul_le_mul_right (planeWidth s b.plane) (show b.y + y' + 1 ≤ b.y + y by omega)
    rw [Nat.add_mul, Nat.one_mul] at this
    omega

/-- What a record writes: the 64 samples of a block that fits, and nothing else (42_block_codec.md, part 3). -/
theorem writeWindow_answers {b : Block} {s : State} (f : Nat → Nat → Byte) (h : blockFits s b) :
    ∃ m, Answers (writeWindow b f : Eng ρ Unit) s (.ok ((), { s with mem := m })) ∧
      sameOutsideBlock b s { s with mem := m } ∧
      ∀ x y, x < 8 → y < 8 → memByte m (blockAddr s b x y) = f x y := by
  obtain ⟨m, h1, h2, h3⟩ := forN_writes (ρ := ρ) (s := s)
    (body := fun i => pxW b.plane (b.x + i % 8) (b.y + i / 8) (f (i % 8) (i / 8)))
    (fun i => blockAddr s b (i % 8) (i / 8)) (fun i => f (i % 8) (i / 8)) 64
    fun i m hi => pxW_answers (s := { s with mem := m }) _ (h.2 (i % 8) (i / 8) (Nat.mod_lt _ (by decide)) (by omega))
  refine ⟨m, ?_, fun a ha => h2 a fun i hi => ha _ _ (Nat.mod_lt _ (by decide)) (by omega), fun x y hx hy => ?_⟩
  · unfold writeWindow
    rw [forN_forN 8 8 fun y x => pxW b.plane (b.x + x) (b.y + y) (f x y)]
    exact h1
  · have := h3 (fun i j hi hj he => by
      have := blockAddr_inj h.1 (Nat.mod_lt i (by decide)) (Nat.mod_lt j (by decide)) he
      omega) (y * 8 + x) (by omega)
    simpa [show (y * 8 + x) % 8 = x by omega, show (y * 8 + x) / 8 = y by omega] using this

/-! ## Checks -/

/-- A check, met or not, and what follows it. -/
theorem require_bind {α : Type} {c : Bool} {code : ErrCode} {stage : ErrStage} {index : Nat} {f : Unit → Eng ρ α}
    {s : State} {o : Except Stop (α × State)} (h : c = true → Answers (f ()) s o) :
    Answers (require c code stage index >>= f) s
      (if c = true then o else .error (.halt (s.errorEntry code stage index))) := by
  cases c
  · exact (Answers.raise code stage index s).bind_error
  · exact (Answers.pure () s).bind (h rfl)

/-- The checks of the single-block commands, met or not (60_exceptions.md R270). -/
theorem requireBlock_answers (p : Plane) (regions : State → List Region) (s : State) :
    Answers (requireBlock p regions : Eng ρ Unit) s
      (if validDims s.regs.width s.regs.height = true then
        if windowInside s p = true then
          if allInBounds s (regions s.view) = true then .ok ((), s)
          else .error (.halt (s.errorEntry .ioFailure .setup 0))
        else .error (.halt (s.errorEntry .argumentRange .setup 0))
      else .error (.halt (s.errorEntry .invalidDimensions .setup 0))) := by
  refine (Answers.state s).bind ?_
  rw [windowInside_view, allInBounds_view]
  exact require_bind fun _ => require_bind fun _ => Answers.require _ _ _ _ s

/-- The checks of the resampling commands, met or not (60_exceptions.md R270). -/
theorem requireResample_answers (f h : Plane) (s : State) :
    Answers (requireResample f h : Eng ρ Unit) s
      (if validDims s.regs.width s.regs.height = true then
        if allInBounds s [planeRegion s f, planeRegion s h] = true then .ok ((), s)
        else .error (.halt (s.errorEntry .ioFailure .setup 0))
      else .error (.halt (s.errorEntry .invalidDimensions .setup 0))) := by
  refine (Answers.state s).bind ?_
  rw [allInBounds_view, planeRegion_view, planeRegion_view]
  exact require_bind fun _ => Answers.require _ _ _ _ s

/-- The checks of SPLIT and MERGE, met or not (60_exceptions.md R270). -/
theorem requireImage_answers (s : State) :
    Answers (requireImage : Eng ρ Unit) s
      (if validDims s.regs.width s.regs.height = true then
        if allInBounds s (imageAndPlanes s) = true then .ok ((), s)
        else .error (.halt (s.errorEntry .ioFailure .setup 0))
      else .error (.halt (s.errorEntry .invalidDimensions .setup 0))) := by
  refine (Answers.state s).bind ?_
  rw [allInBounds_view, imageAndPlanes_view]
  exact require_bind fun _ => Answers.require _ _ _ _ s

/-! ## Records -/

/-- A record raises no error of its own (60_exceptions.md R278). -/
theorem record_hoare (control range : Byte) (samples : List Byte) :
    Hoare (fun _ => True) (program (recordInstr control range samples) : Eng ρ Unit) (fun _ _ => True) (fun _ => False)
      True := by
  have hpx (p : Plane) (x y : Nat) (v : Byte) :
      Hoare (fun _ => True) (pxW p x y v : Eng ρ Unit) (fun _ _ => True) (fun _ => False) True :=
    Hoare.bind (Q := fun _ _ => True) (Hoare.state fun _ _ => trivial) fun _ =>
      Hoare.memWrite (fun _ _ _ => trivial) fun _ _ _ => trivial
  have hinto (f : Nat → Nat → Byte) :
      Hoare (fun _ => True) (decodeInto f : Eng ρ Unit) (fun _ _ => True) (fun _ => False) True :=
    Hoare.bind (Q := fun _ _ => True) (Hoare.state fun _ _ => trivial) fun _ =>
      Hoare.forN_keeps 8 fun _ _ => Hoare.forN_keeps 8 fun _ _ => hpx _ _ _ _
  unfold recordInstr
  split
  · split
    · exact Hoare.pure fun _ _ => trivial
    · exact hinto _
  · exact hinto _
  · exact hinto _
  · exact hinto _

/-- A part of a program gives the same whatever the whole program answers. -/
def Determined {α : Type} (p : (ρ : Type) → Eng ρ α) : Prop := ∀ s, ∃ o, ∀ ρ, Answers (p ρ) s o

theorem Determined.bind {α β : Type} {p : (ρ : Type) → Eng ρ α} {f : (ρ : Type) → α → Eng ρ β} (hp : Determined p)
    (hf : ∀ a, Determined fun ρ => f ρ a) : Determined fun ρ => p ρ >>= f ρ := by
  intro s
  obtain ⟨o, ho⟩ := hp s
  rcases o with e | ⟨a, t⟩
  · exact ⟨_, fun ρ => (ho ρ).bind_error⟩
  · obtain ⟨o', ho'⟩ := hf a t
    exact ⟨o', fun ρ => (ho ρ).bind (ho' ρ)⟩

theorem Determined.memRead (a : Nat) : Determined fun _ => memRead a := by
  intro s
  by_cases h : a < s.platform.memBytes
  · exact ⟨_, fun _ => Answers.memRead h⟩
  · exact ⟨_, fun _ => Answers.memRead_outside h⟩

theorem Determined.listFrom {α : Type} {f : (ρ : Type) → Nat → Eng ρ α} (first count : Nat)
    (h : ∀ i, Determined fun ρ => f ρ i) : Determined fun ρ => Machine.listFrom first count (f ρ) := by
  induction count generalizing first with
  | zero => exact fun s => ⟨_, fun _ => Answers.pure [] s⟩
  | succ n ih =>
    exact (h first).bind fun v => (ih (first + 1)).bind fun rest => fun s => ⟨_, fun _ => Answers.pure (v :: rest) s⟩

theorem Determined.fetchInstr : Determined fun _ => Machine.fetchInstr := by
  refine Determined.bind (?_ : Determined fun _ => fetchRecord) fun _ => fun s => ⟨_, fun _ => Answers.pure _ s⟩
  refine Determined.bind (p := fun _ => state) (fun s => ⟨_, fun _ => Answers.state s⟩) fun v => ?_
  refine Determined.bind (fun s => ⟨_, fun _ => Answers.require _ _ _ _ s⟩) fun _ => ?_
  refine Determined.bind (Determined.memRead _) fun c => ?_
  refine Determined.bind (fun s => ⟨_, fun _ => Answers.require _ _ _ _ s⟩) fun _ => ?_
  refine Determined.bind (Determined.memRead _) fun r => ?_
  exact Determined.bind (Determined.listFrom 0 _ fun i => Determined.memRead _) fun l => fun s => ⟨_, fun _ => Answers.pure _ s⟩

/-- A fetched instruction is a record, and the fetch changes nothing (42_block_codec.md R177). -/
theorem fetchInstr_hoare (s : State) :
    Hoare (fun t => t = s) (fetchInstr : Eng ρ (Instr × Nat))
      (fun r t => t = s ∧ ∃ control range samples, r.1 = recordInstr control range samples) (fun _ => True) True := by
  have hread (a : Nat) : Hoare (fun t => t = s) (memRead a : Eng ρ Byte) (fun _ t => t = s) (fun _ => True) True :=
    Hoare.memRead (fun _ h _ => h) fun _ _ _ => trivial
  refine Hoare.bind (Q := fun _ t => t = s) ?_ fun (c, r, samples) => Hoare.pure fun t ht => ⟨ht, c, r, samples, rfl⟩
  refine Hoare.bind (p := state) (Q := fun _ t => t = s) (Hoare.state fun _ h => h) fun v => ?_
  refine Hoare.bind (Q := fun _ t => t = s) (Hoare.require (fun _ h _ => h) fun _ _ _ => trivial) fun _ => ?_
  refine Hoare.bind (hread _) fun c => ?_
  refine Hoare.bind (Q := fun _ t => t = s) (Hoare.require (fun _ h _ => h) fun _ _ _ => trivial) fun _ => ?_
  refine Hoare.bind (hread _) fun r => ?_
  refine Hoare.bind (Hoare.listN (fun _ _ => True) _ fun i _ =>
    (hread _).consequence (fun _ h => h) (fun _ _ h => ⟨h, trivial⟩) (fun _ h => h) id) fun l => ?_
  exact Hoare.pure fun t ht => ht.1

/-- The turn of a record is the run of its single steps (60_exceptions.md R271; log 3). -/
theorem recordTurn_eq (s : State) : recordTurn s = lastState (Prog.run (recordProgram .finish) s) := by
  obtain ⟨o, ho⟩ := Determined.fetchInstr s
  obtain ⟨o', ho', hres⟩ := fetchInstr_hoare (ρ := Instr × Nat) s s rfl
  have hfetch (o : Except Stop ((Instr × Nat) × State)) : andThen o Prog.finish = o := by rcases o with e | ⟨a, t⟩ <;> rfl
  have hrun : Prog.run (fetchInstr .finish) s = o := (ho _ .finish).trans (hfetch o)
  obtain rfl : o' = o := by rw [← hrun, ho' .finish, hfetch]
  unfold recordTurn
  rw [hrun, show Prog.run ((recordProgram : Eng Unit Unit) .finish) s = _ from ho Unit _]
  rcases o' with (t | f) | ⟨⟨i, len⟩, t⟩
  · rfl
  · rfl
  · obtain ⟨rfl, c, r, samples, hi⟩ := hres
    obtain rfl : i = recordInstr c r samples := hi
    obtain ⟨o2, ho2, hres2⟩ := record_hoare (ρ := Unit) c r samples t trivial
    dsimp only [andThen]
    rw [exec_eq_runToEnd, ho2.runToEnd]
    rcases o2 with (u | f) | ⟨_, u⟩
    · exact hres2.elim
    · exact (congrArg lastState (ho2.bind_error .finish)).symm
    · exact (congrArg lastState (ho2.bind (o := .ok ((), afterRecord len u)) (fun _ => rfl) .finish)).symm

/-- The engine's move from an instruction's begin is the run of the instruction's single steps (60_exceptions.md R271; log 3). -/
theorem engineTurn_eq_run {s : State} (h : s.engine.mode = .run) (hu : s.engine.underway = none) :
    engineTurn s = lastState ((remaining s).run s) := by
  unfold remaining stretch
  rw [hu]
  dsimp only
  cases hp : s.engine.phase with
  | command => rw [engineTurn_command h hu hp, exec_eq_runToEnd]; rfl
  | record => rw [engineTurn_record h hu hp, recordTurn_eq]
  | finish => rw [engineTurn_finish h hu hp]; rfl

end Sys2Proof.Machine
end

