-- ==== Sys2Proof/Tests/Slice0.lean ====
section
/-! SUPPORT. The model's own tests: ill-formed terms are refused, words written out from the spec's encodings decode, one or
two checks of one step for each instruction (expected values from 95_test_vectors.md or worked by hand from the rule named),
and for each statement with hypotheses a state that meets them. -/

namespace Sys2Proof.Tests

open Sys2Proof.Machine

/-! ## Well-formedness (30_encoding.md R97, R98) -/

theorem test_solid_with_zero_fill_refused : (Instr.solid 0 0).wellFormed = false := by decide

theorem test_half2_of_three_sample_bytes_refused : (Instr.half2 0 0 [1, 2, 3]).wellFormed = false := by decide

theorem test_full2_of_four_sample_bytes_refused : (Instr.full2 0 0 [1, 2, 3, 4]).wellFormed = false := by decide

theorem test_full4_without_sample_bytes_refused : (Instr.full4 0 0 []).wellFormed = false := by decide

/-! ## Decoding: words written bit by bit from 30_encoding.md R91 (`IL` 9, `FMODE` 8:6, `PLANE` 5:4, `OP` 3:0) and R92, R96 -/

theorem test_decode_nop : decodeCmd 0b0000000000 = .nop := by decide

theorem test_decode_pack2 : decodeCmd 0b0000000001 = .pack2 := by decide

theorem test_decode_pack4 : decodeCmd 0b0000000010 = .pack4 := by decide

theorem test_decode_unpack2 : decodeCmd 0b0000000011 = .unpack2 := by decide

theorem test_decode_unpack4 : decodeCmd 0b0000000100 = .unpack4 := by decide

theorem test_decode_classify : decodeCmd 0b0000100101 = .classify 2 := by decide

theorem test_decode_encode_block : decodeCmd 0b0100000110 = .encodeBlock 0 4 := by decide

theorem test_decode_decode_block : decodeCmd 0b0000010111 = .decodeBlock 1 := by decide

theorem test_decode_downsample : decodeCmd 0b0000101000 = .downsample 2 := by decide

theorem test_decode_upsample : decodeCmd 0b0000011001 = .upsample 1 := by decide

/-- A field the opcode does not read is ignored (30_encoding.md R93). -/
theorem test_decode_split : decodeCmd 0b0000111010 = .split := by decide

theorem test_decode_merge : decodeCmd 0b0000001011 = .merge := by decide

theorem test_decode_encode_image : decodeCmd 0b1001001100 = .encodeImage 1 true := by decide

theorem test_decode_decode_image : decodeCmd 0b1000001101 = .decodeImage true := by decide

theorem test_decode_illegal_command :
    decodeCmd 0b0000001110 = .illegalCommand 0 ∧ decodeCmd 0b0000001111 = .illegalCommand 1 := by decide

/-- The reserved bits 31:10 of the word are ignored (30_encoding.md R91). -/
theorem test_decode_ignores_reserved_bits : decodeCommandWord 0xFFFFFC05 = .classify 0 := by decide

theorem test_decode_skip : decode .record [0b10101100, 0] = .ok (.skip 43, []) := by decide

/-- 95_test_vectors.md C-12. -/
theorem test_decode_solid : decode .record [0xFC, 0x05] = .ok (.solid 63 5, []) := by decide

/-- 95_test_vectors.md C-1. -/
theorem test_decode_half2 :
    decode .record [0x09, 0x1C, 0x50, 0x94, 0xA5, 0xE9, 0x00] = .ok (.half2 2 28 [0x50, 0x94, 0xA5, 0xE9], [0x00]) := by
  decide

/-- 95_test_vectors.md C-9. -/
theorem test_decode_full2 :
    decode .record [0x66, 99, 0xE4, 0xE4, 0x39, 0x39, 0x4E, 0x4E, 0x93, 0x93, 0xE4, 0xE4, 0x39, 0x39, 0x4E, 0x4E, 0x93, 0x93]
      = .ok (.full2 25 99
          [0xE4, 0xE4, 0x39, 0x39, 0x4E, 0x4E, 0x93, 0x93, 0xE4, 0xE4, 0x39, 0x39, 0x4E, 0x4E, 0x93, 0x93], []) := by
  decide

/-- 95_test_vectors.md C-13. -/
theorem test_decode_full4 :
    decode .record (0x03 :: 0x4B :: List.replicate 32 0xBB) = .ok (.full4 0 75 (List.replicate 32 0xBB), []) := by decide

theorem test_decode_truncated :
    decode .record [0x03, 0x4B, 0xBB] = .error .truncatedRecord ∧ decode .command [1, 2, 3] = .error .truncatedCommand := by
  decide

theorem test_decode_table_word :
    decodeTableWord 32 0x106 = some (.encodeBlock 0 4) ∧ decodeTableWord 16 0x0500 = some (.solid 0 5) := by decide

/-! ## States -/

/-- The layout L16 of 95_test_vectors.md, with `PK_DST = 0x10`, `PK_COUNT = 5`. -/
def small : State :=
  { State.reset with
    platform := { memBytes := 0x1000, regBase := 0x10000, memBase := 0 },
    regs :=
      { Regs.reset with
        width := 16, height := 16, cbfBase := 0x100, crfBase := 0x200, cbhBase := 0x300, crhBase := 0x340,
        streamBase := 0x400, streamLen := 0x100, imgBase := 0x600, pkDst := 0x10, pkCount := 5 } }

/-- The same, running a command. -/
def running (i : Instr) : State :=
  { small with engine := { small.engine with mode := .run, cmd := cmdBits (encodeCommandWord i) } }

/-- A state with bytes stored at an offset. -/
def withBytes (s : State) (a : Nat) (bytes : List Byte) : State := { s with mem := memInsertAll s.mem a bytes }

/-- DECODE_BLOCK on luma at a record in the stream. -/
def atBytes (bytes : List Byte) : State :=
  withBytes ((running (.decodeBlock 0)).atRecord (singleBlock small .y)) 0x400 bytes

/-- DECODE_IMAGE at the record of a block. -/
def atImageBlock (n : Nat) : State := ((running (.decodeImage true)).setStreamPtr 4).atRecord (blockAt 16 n)

/-- A state whose next move is the host's. -/
def pending (s : State) (m : HostMove) : State := { s with agenda := [.host m] }

/-- The answer is a next state that passes a check. -/
def passes (o : Host.Outcome State Fault Refusal) (check : State → Bool) : Bool :=
  match o with
  | .next t => check t
  | .fault _ => false
  | .refused _ => false

/-- The bytes of `MEM` from an offset. -/
def bytesAt (s : State) (a n : Nat) : List Byte := (List.range n).map fun k => s.byte (a + k)

/-- The ramp `10 + 2x + 2y` in the 8-wide half plane of Cb (95_test_vectors.md K-2). -/
def rampPlane : State := withBytes small 0x300 ((List.range 64).map fun i => BitVec.ofNat 8 (10 + 2 * (i % 8) + 2 * (i / 8)))

/-! ## One step of each instruction -/

theorem test_nop : passes (step (running .nop)) (fun t => t.statusWord == 2) = true := by decide

/-- 95_test_vectors.md P-1. -/
theorem test_pack2 :
    passes (step (withBytes (running .pack2) 0 [1, 2, 3, 0, 2])) (fun t => bytesAt t 0x10 2 == [0x39, 0x02]) = true := by
  decide

/-- 95_test_vectors.md E-13. -/
theorem test_pack2_out_of_bounds :
    passes (exec .pack2 { small with regs := { small.regs with pkSrc := 0xFFE } }) (fun t => t.statusWord == 0x126) = true := by
  decide

/-- 95_test_vectors.md P-3, with two levels more. -/
theorem test_pack4 :
    passes (step (withBytes (running .pack4) 0 [0x0A, 0x03, 0x0F, 0x12, 0x05]))
      (fun t => bytesAt t 0x10 3 == [0x3A, 0x2F, 0x05]) = true := by
  decide

/-- 95_test_vectors.md P-4, and one level of the next byte. -/
theorem test_unpack2 :
    passes (step (withBytes (running .unpack2) 0 [0xE4, 0x39])) (fun t => bytesAt t 0x10 5 == [0, 1, 2, 3, 1]) = true := by
  decide

/-- 95_test_vectors.md P-5, with two levels more. -/
theorem test_unpack4 :
    passes (step (withBytes (running .unpack4) 0 [0x3A, 0x0F, 0x77])) (fun t => bytesAt t 0x10 5 == [0xA, 3, 0xF, 0, 7])
      = true := by
  decide

/-- 95_test_vectors.md K-2. -/
theorem test_classify :
    passes (exec (.classify 1) rampPlane)
      (fun t => t.regs.cls.minMaxWord == 0x0001260A && t.regs.cls.gradWord == 4 && t.statusWord == 2) = true := by
  decide +kernel

/-- 95_test_vectors.md K-6, K-8 (this hardware), K-7 (the other reading of the window): a step after column 0, and one before
column 7. -/
theorem test_gradient_window :
    (let left := (List.range 64).map fun i => if i % 8 = 0 then (0 : Byte) else 100
     let right := (List.range 64).map fun i => if i % 8 = 7 then (100 : Byte) else 0
     classifyBlock left = { mode := .half2, max := 100, min := 0, grad2 := 0 } ∧
     classifyBlock right = { mode := .full2, max := 100, min := 0, grad2 := 100 } ∧
     classifyWith .forward left = { mode := .full2, max := 100, min := 0, grad2 := 100 }) := by
  decide +kernel

/-- 95_test_vectors.md E-9. -/
theorem test_classify_window_outside :
    passes (exec (.classify 0) { small with regs := { small.regs with blkX := 12 } }) (fun t => t.statusWord == 0x156)
      = true := by
  decide

/-- 95_test_vectors.md C-1. -/
theorem test_encode_block :
    passes (exec (.encodeBlock 1 0) rampPlane)
      (fun t => bytesAt t 0x400 6 == [0x09, 0x1C, 0x50, 0x94, 0xA5, 0xE9] && t.regs.streamPtr == 6) = true := by
  decide +kernel

/-- 95_test_vectors.md E-8. -/
theorem test_encode_block_without_room :
    passes (exec (.encodeBlock 1 0) { rampPlane with regs := { rampPlane.regs with streamLen := 5 } })
      (fun t => t.statusWord == 0x326 && t.regs.cls.minMaxWord == 0x0001260A && t.mem == rampPlane.mem) = true := by
  decide +kernel

theorem test_decode_block_stands_at_its_record :
    passes (step (running (.decodeBlock 2)))
      (fun t => t.engine.phase == .record && t.engine.block == { index := 0, plane := .crh, x := 0, y := 0 }) = true := by
  decide

/-- 95_test_vectors.md E-7. -/
theorem test_decode_block_short_record :
    passes (step { atBytes [0x0A, 0x1C] with regs := { small.regs with streamLen := 10 } })
      (fun t => t.statusWord == 0x316 && t.regs.streamPtr == 0) = true := by
  decide

/-- 95_test_vectors.md Z-2. -/
theorem test_downsample_square :
    passes (runToEnd (downsampleAt .cbf .cbh 0 0) (withBytes (withBytes small 0x100 [10, 20]) 0x110 [30, 40]))
      (fun t => t.byte 0x300 == 25) = true := by
  decide

/-- 95_test_vectors.md E-10. -/
theorem test_downsample_reserved_plane :
    passes (exec (.downsample 0) small) (fun t => t.statusWord == 0x146) = true := by
  decide

/-- 95_test_vectors.md Z-5, row 1, column 1: the average of 0, 8, 16 and 24. -/
theorem test_upsample_sample :
    passes (runToEnd (upsampleAt .crh .crf 8 8 1 1) (withBytes (withBytes small 0x340 [0, 8]) 0x348 [16, 24]))
      (fun t => t.byte 0x211 == 12) = true := by
  decide

theorem test_upsample_reserved_plane :
    passes (exec (.upsample 3) small) (fun t => t.statusWord == 0x146) = true := by
  decide

/-- 95_test_vectors.md X-6. -/
theorem test_split_pixel :
    passes (runToEnd (splitAt 0 0) (withBytes small 0x600 [0x10, 0x80, 0x90]))
      (fun t => [t.byte 0x000, t.byte 0x100, t.byte 0x200] == [0x10, 0x80, 0x90]) = true := by
  decide

theorem test_split_without_dimensions :
    passes (exec .split { small with regs := { small.regs with height := 0 } }) (fun t => t.statusWord == 0x136) = true := by
  decide

/-- 95_test_vectors.md X-6, at pixel (1, 2), which lies at `0x600 + 3 * (1 + 2 * 16)`. -/
theorem test_merge_pixel :
    passes (runToEnd (mergeAt 1 2) (withBytes (withBytes (withBytes small 0x21 [7]) 0x121 [8]) 0x221 [9]))
      (fun t => bytesAt t (0x600 + 99) 3 == [7, 8, 9]) = true := by
  decide

theorem test_merge_out_of_bounds :
    passes (exec .merge { small with regs := { small.regs with imgBase := 0xD01 } }) (fun t => t.statusWord == 0x126)
      = true := by
  decide

/-- 95_test_vectors.md E-15: the command check comes first. -/
theorem test_encode_image_check_order :
    passes (exec (.encodeImage 5 false) { small with regs := { small.regs with width := 24 } })
      (fun t => t.statusWord == 0x146) = true := by
  decide

/-- The body of ENCODE_IMAGE for one block: block 4, Cb, of the ramp, its index and its record (95_test_vectors.md C-1). -/
theorem test_encode_image_block :
    passes (runToEnd (encodeStep none (blockAt 16 4)) (rampPlane.setStreamPtr 10))
      (fun t => bytesAt t 0x40A 6 == [0x09, 0x1C, 0x50, 0x94, 0xA5, 0xE9] && t.regs.blkCount == 5 && t.regs.streamPtr == 16)
      = true := by
  decide +kernel

/-- 95_test_vectors.md E-2. -/
theorem test_decode_image_bad_header :
    passes (step (withBytes (running (.decodeImage false)) 0x400 [0x18, 0x00, 0x10, 0x00]))
      (fun t => t.statusWord == 0x236 && t.regs.width == 24 && t.regs.streamPtr == 4) = true := by
  decide

theorem test_decode_image_stands_at_block_zero :
    passes (step (withBytes (running (.decodeImage false)) 0x400 [0x20, 0x00, 0x10, 0x00]))
      (fun t => t.regs.width == 32 && t.engine.phase == .record && t.engine.block == blockAt 32 0) = true := by
  decide

/-- 95_test_vectors.md P6: the interrupt follows `IRQ_EN`. -/
theorem test_illegal_command :
    passes (exec (.illegalCommand 0) { small with regs := { small.regs with irqEn := true } })
      (fun t => t.statusWord == 0x146 && t.irq) = true := by
  decide

/-- 95_test_vectors.md C-12: a region of 7s stays; the step goes on to the end of the command. -/
theorem test_skip :
    passes (step (withBytes (atBytes [0x00, 0x00]) 0 [7])) (fun t => t.byte 0 == 7 && t.regs.streamPtr == 2) = true := by
  decide

/-- 95_test_vectors.md C-12; the last sample of the block is at `7 + 7 * 16`. -/
theorem test_solid :
    passes (step (atBytes [0xFC, 0x05])) (fun t => t.byte 119 == 5 && t.regs.blkCount == 1 && t.engine.phase == .finish)
      = true := by
  decide

/-- 95_test_vectors.md C-1, row 5. -/
theorem test_half2 :
    passes (step (atBytes [0x09, 0x1C, 0x50, 0x94, 0xA5, 0xE9]))
      (fun t => bytesAt t 80 8 == [19, 21, 23, 25, 28, 30, 33, 33]) = true := by
  decide

/-- 95_test_vectors.md C-3, row 7. -/
theorem test_full2 :
    passes (step (atBytes [0x0A, 0x1C, 0x40, 0x55, 0x50, 0x95, 0x54, 0xA5, 0x55, 0xA9, 0x55, 0xAA, 0x95, 0xEA, 0xA5, 0xFA,
        0xA9, 0xFE]))
      (fun t => bytesAt t 112 8 == [19, 28, 28, 28, 28, 38, 38, 38]) = true := by
  decide

/-- 95_test_vectors.md C-13. -/
theorem test_full4 :
    passes (step (atBytes (0x03 :: 0x4B :: List.replicate 32 0xBB))) (fun t => t.byte 0 == 58 && t.byte 119 == 58) = true := by
  decide

/-- The placed word of an opcode-table row is what the next step runs. -/
theorem test_placed_word_runs :
    passes (step (State.reset.withFetchWord 32 0x0E)) (fun t => t.statusWord == 0x146) = true ∧
    passes (step (State.reset.withFetchWord 16 0x0500)) (fun t => t.byte 7 == 5 && t.regs.streamPtr == 2) = true := by
  decide

/-- One engine step of PACK2 (60_exceptions.md R271): a read, the first step; after the four reads of its first output byte,
the write of that byte, and nothing else (95_test_vectors.md P-1). -/
theorem test_engine_step :
    (let s := { withBytes (running .pack2) 0 [1, 2, 3, 0, 2] with agenda := [.engineStep] }
     let reads : List (Option Byte) := [some 1, some 2, some 3, some 0]
     let t := { s with engine := { s.engine with underway := some { entry := s.regs, answers := reads } } }
     passes (step s) (fun u => u.mem == s.mem && u.engine.underway == some { entry := s.regs, answers := [some 1] }) &&
     passes (step t) (fun u => u.mem == memInsert s.mem 0x10 0x39 && u.regs == s.regs &&
       u.engine.underway == some { entry := s.regs, answers := reads ++ [none] })) = true := by
  decide

/-- 95_test_vectors.md G-2, G-3. -/
theorem test_register_read_back :
    passes (step (pending small (.regWrite 4 4 0xFFFFFFFF))) (fun t => regValue t .cmd == 0x3FF) = true ∧
    passes (step (pending small (.regWrite 0 4 4))) (fun t => regValue t .ctrl == 4) = true := by
  decide

/-! ## Witnesses: for each statement with hypotheses, states and operands that meet all of them -/

theorem small_memOk (s : State) (hm : s.mem = []) : memOk s := by
  refine ⟨by rw [hm]; rfl, fun c hc => ?_⟩
  rw [hm] at hc
  cases hc

theorem small_statusOk (s : State) (h : s.status = Status.reset) : statusOk s := by
  simp [statusOk, h, Status.reset]

theorem small_inv (s : State) (hs : s.status = Status.reset) (hm : s.mem = []) (hp : s.platform = small.platform)
    (hr : s.rst = false) (hc : s.regs.cls = Regs.reset.cls) (hpos : positionOk s) (hu : underwayOk s) : Inv s :=
  ⟨small_statusOk s hs, small_memOk s hm, by simp [platformOk, hp, small], by simp [resetOk, hr],
    by simp [clsOk, hc, Regs.reset], hpos, hu⟩

theorem underwayOk_of_none {s : State} (h : s.engine.underway = none) : underwayOk s := by
  simp [underwayOk, h]

/-- A running command at its first statement has the invariant. -/
theorem running_inv (i : Instr) (agenda : List Turn) : Inv { running i with agenda := agenda } :=
  small_inv _ rfl rfl rfl rfl rfl (fun _ h => absurd rfl h) (underwayOk_of_none rfl)

/-- CLASSIFY after its first engine step, a read, of a byte that nothing has written. -/
def midClassify : State :=
  let s := { running (.classify 0) with regs := { small.regs with yBase := 0x500 } }
  { s with engine := { s.engine with underway := some { entry := s.regs, answers := [some (Config.powerOnByte 0x500)] } } }

/-- An engine inside an instruction has the invariant. -/
theorem midClassify_inv : Inv midClassify := by
  refine small_inv _ rfl rfl rfl rfl rfl (fun _ h => absurd rfl h) fun u hu => ?_
  cases hu
  exact ⟨rfl, [], fun _ h => absurd rfl h, rfl⟩

/-- DECODE_IMAGE at a block of a 16x16 image has the invariant. -/
theorem atImageBlock_inv (n : Nat) (hn : n < 6) : Inv (atImageBlock n) := by
  refine small_inv _ rfl rfl rfl rfl rfl (fun _ _ => ⟨(by decide : validDims 16 16 = true), ?_⟩) (underwayOk_of_none rfl)
  have hcmd : runningCommand (atImageBlock n) = .decodeImage true :=
    (by decide : decodeCmd (cmdBits (encodeCommandWord (.decodeImage true))) = .decodeImage true)
  unfold decodingOk
  rw [hcmd]
  have htotal : blockTotal 16 16 = 6 := by decide
  exact ⟨⟨n, Nat.lt_of_lt_of_eq hn htotal.symm, rfl⟩, (by decide : allInBounds small (streamRegion small :: codecRegions true small) = true)⟩

/-- A command that reads two fields; for each opcode a word with every other bit set. -/
theorem witness_CommandWordsRoundTrip :
    (Instr.encodeImage 4 true).format = .command ∧ ∀ k, k < 16 → (0xFFFFFFF0#32 + BitVec.ofNat 32 k).toNat % 16 = k := by
  decide

theorem witness_RecordsRoundTrip :
    (Instr.solid 63 255).format = .record ∧ (Instr.solid 63 255).wellFormed = true ∧
    (Instr.half2 2 28 [0x50, 0x94, 0xA5, 0xE9]).format = .record ∧
    (Instr.half2 2 28 [0x50, 0x94, 0xA5, 0xE9]).wellFormed = true := by decide

/-- A half record of exactly its length, and one byte short. -/
theorem witness_EveryCompleteRecordDecodes :
    recordLength 0x09 ≤ [0x50, 0x94, 0xA5, (0xE9 : Byte)].length + 2 ∧
    [0x50, 0x94, (0xA5 : Byte)].length + 2 < recordLength 0x09 := by decide

theorem witness_StepRunsTheCommand :
    (running .nop).engine.mode = .run ∧ (running .nop).engine.phase = .command ∧ (running .nop).engine.underway = none ∧
    (running .nop).agenda = [] ∧ { running .nop with agenda := [.engine] }.agenda = [.engine] := by decide

/-- A record that ends exactly at `STREAM_LEN`. -/
theorem witness_StepRunsTheRecord :
    let s := { atBytes [0x00, 0x05] with regs := { small.regs with streamLen := 2 } }
    s.engine.mode = .run ∧ s.engine.phase = .record ∧ s.engine.underway = none ∧ s.agenda = [] ∧
    s.regs.streamPtr.toNat + recordLength (s.byte (streamAddr s 0)) ≤ s.regs.streamLen.toNat ∧
    streamAddr s (0 + recordLength (s.byte (streamAddr s 0))) ≤ s.platform.memBytes ∧
    decode .record ((List.range (recordLength (s.byte (streamAddr s 0)))).map fun k => s.byte (streamAddr s (0 + k))) =
      .ok (.solid 0 5, []) := by
  decide

/-- One byte short of the first two bytes, and one byte short of the record. -/
theorem witness_ShortRecordRaisesUnexpectedEnd :
    let s := { atBytes [0x09, 0x1C] with regs := { small.regs with streamLen := 1 } }
    let t := { atBytes [0x09, 0x1C] with regs := { small.regs with streamLen := 5 } }
    (s.engine.mode = .run ∧ s.engine.phase = .record ∧ s.engine.underway = none ∧ s.agenda = [] ∧ allInBounds s [streamRegion s] = true ∧
      s.regs.streamLen.toNat < s.regs.streamPtr.toNat + 2) ∧
    (t.engine.mode = .run ∧ t.engine.phase = .record ∧ t.engine.underway = none ∧ t.agenda = [] ∧ allInBounds t [streamRegion t] = true ∧
      t.regs.streamLen.toNat < t.regs.streamPtr.toNat + recordLength (t.byte (streamAddr t t.regs.streamPtr.toNat))) := by
  decide

/-- The one record of DECODE_BLOCK; the last but one and the last block of an image. -/
theorem witness_AfterRecordAdvances :
    decodeCmd (atBytes []).engine.cmd = .decodeBlock 0 ∧ (atBytes []).engine.block.index = 0 ∧
    decodeCmd (atImageBlock 4).engine.cmd = .decodeImage true ∧
    (atImageBlock 4).engine.block.index + 1 < 6 * ((atImageBlock 4).regs.width.toNat / 16) *
      ((atImageBlock 4).regs.height.toNat / 16) ∧
    ¬(atImageBlock 5).engine.block.index + 1 < 6 * ((atImageBlock 5).regs.width.toNat / 16) *
      ((atImageBlock 5).regs.height.toNat / 16) := by decide

theorem witness_StepKeepsInvariant : Inv (running .nop) ∧ step (running .nop) = .next (running .nop).complete :=
  ⟨running_inv .nop [], rfl⟩

/-- At a command, at a record, and inside an instruction. -/
theorem witness_EngineNeverLeavesMem : Inv (running (.classify 0)) ∧ Inv (atImageBlock 5) ∧ Inv midClassify :=
  ⟨running_inv _ [], atImageBlock_inv 5 (by decide), midClassify_inv⟩

/-- Nothing pending, and each host move the statement allows. -/
theorem witness_StepStopsOnlyOnHostAccess :
    Inv (running .split) ∧ (running .split).agenda = [] ∧
    ({ running .split with agenda := [.host (.setRst true)] } : State).agenda = [.host (.setRst true)] ∧
    Inv { running .split with agenda := [.host (.setRst true)] } ∧
    Inv { running .split with agenda := [.host (.regWrite 0 4 2)] } ∧
    Inv { running .split with agenda := [.host (.regRead 8 4)] } :=
  ⟨running_inv _ [], rfl, rfl, running_inv _ _, running_inv _ _, running_inv _ _⟩

/-- At a command and inside an instruction; the engine's move of a NOP, which is one engine step. -/
theorem witness_EveryCommandEnds :
    (Inv (running (.decodeImage true)) ∧ (running (.decodeImage true)).agenda = [] ∧
      (running (.decodeImage true)).engine.mode = .run) ∧
    (Inv midClassify ∧ midClassify.agenda = [] ∧ midClassify.engine.mode = .run) ∧
    Inv (running .nop) ∧ engineTurn (running .nop) = .next (running .nop).complete :=
  ⟨⟨running_inv _ [], rfl, rfl⟩, ⟨midClassify_inv, rfl, rfl⟩, running_inv _ [], rfl⟩

/-- A cell just outside the region an UNPACK2 writes; one engine step, a register update. -/
theorem witness_EngineWritesOnlyItsRegions :
    Inv (running .nop) ∧ (running .nop).engine.mode = .run ∧
    engineTurn (running .nop) = .next (running .nop).complete ∧
    (writtenRegions (running .unpack2)).any (·.holds 0x15) = false ∧
    (writtenRegions (running .unpack2)).any (·.holds 0x14) = true ∧
    Inv { running .nop with agenda := [.engineStep] } ∧
    step { running .nop with agenda := [.engineStep] } = .next (running .nop).complete :=
  ⟨running_inv _ [], rfl, rfl, by decide, by decide, running_inv _ _, rfl⟩

/-- A move that ends its command, and one that does not. -/
theorem witness_EndOfCommandSignalsDone :
    statusOk (running .nop) ∧ (running .nop).engine.mode = .run ∧
    engineTurn (running .nop) = .next (running .nop).complete ∧ (running .nop).complete.engine.mode = .idle ∧
    engineTurn (running (.decodeBlock 0)) = .next ((running (.decodeBlock 0)).atRecord (singleBlock small .y)) ∧
    ((running (.decodeBlock 0)).atRecord (singleBlock small .y)).engine.mode = .run ∧
    engineStep (running .nop) = .next (running .nop).complete :=
  ⟨small_statusOk _ rfl, rfl, rfl, rfl, rfl, rfl, rfl⟩

theorem witness_ExecWritesOnlyItsRegisters : exec .nop small = .next small.complete := rfl

/-- A soft reset of an idle machine at the last offset of `CTRL`, with `START` set beside `SRST`. -/
theorem witness_SoftResetFromAnyState :
    small.rst = false ∧ (3 : Byte).toNat < 4 ∧ (pending small (.regWrite 3 4 3)).agenda = [.host (.regWrite 3 4 3)] ∧
    (3 : Word).getLsbD 1 = true ∧ step (pending small (.regWrite 3 4 3)) = .next small.resetRegisters ∧
    small.engine.mode = .idle :=
  ⟨rfl, by decide, rfl, rfl, rfl, rfl⟩

/-- A NOP cut after any number of its engine steps: it writes no cell. -/
theorem cut_nop (s : State) (h : remaining s = .set .done (.finish ())) (k : Nat) : cutMem k s = .ok s.mem := by
  unfold cutMem
  rw [h]
  cases k <;> rfl

/-- The same of a busy machine: a NOP makes no write, so whatever the draw, `MEM` is what it was. -/
theorem witness_SoftResetFromAnyState_busy :
    step (pending (running .nop) (.regWrite 0 4 2)) = .next { (running .nop).resetRegisters with draws := 1 } ∧
    (running .nop).engine.mode = .run ∧ Inv (pending (running .nop) (.regWrite 0 4 2)) := by
  refine ⟨?_, rfl, running_inv _ _⟩
  show (match cutMem (Config.cutPoint 0) (running .nop) with | .ok mem => _ | .error f => _) = _
  rw [cut_nop _ rfl]
  rfl

theorem witness_HardResetHolds :
    (pending small (.setRst true)).agenda = [.host (.setRst true)] ∧
    step (pending small (.setRst true)) = .next { small.resetRegisters with rst := true } ∧ small.engine.mode = .idle ∧
    ({ small with agenda := [.host (.setRst true), .host (.regWrite 0 4 1)] } : State).agenda =
      .host (.setRst true) :: [.host (.regWrite 0 4 1)] ∧
    (pending { small with rst := true } (.setRst false)).agenda = [.host (.setRst false)] :=
  ⟨rfl, rfl, rfl, rfl, rfl⟩

/-- The same of a busy machine. -/
theorem witness_HardResetHolds_busy :
    step (pending (running .nop) (.setRst true)) =
      .next { (running .nop).resetRegisters with rst := true, draws := 1 } ∧
    (running .nop).engine.mode = .run ∧ Inv (pending (running .nop) (.setRst true)) := by
  refine ⟨?_, rfl, running_inv _ _⟩
  show (match cutMem (Config.cutPoint 0) { running .nop with rst := true } with | .ok mem => _ | .error f => _) = _
  rw [cut_nop _ rfl]
  rfl

/-- At the first and the last offset of `CTRL`: a start; `IRQ_EN` set alone, and cleared alone. -/
theorem witness_AcceptedStart :
    small.rst = false ∧ small.engine.mode = .idle ∧ (0 : Byte).toNat < 4 ∧ (3 : Byte).toNat < 4 ∧
    (pending small (.regWrite 0 4 5)).agenda = [.host (.regWrite 0 4 5)] ∧
    (pending small (.regWrite 3 4 5)).agenda = [.host (.regWrite 3 4 5)] ∧
    (5 : Word).getLsbD 0 = true ∧ (5 : Word).getLsbD 1 = false ∧
    (pending small (.regWrite 3 4 4)).agenda = [.host (.regWrite 3 4 4)] ∧ (4 : Word).getLsbD 0 = false ∧
    (4 : Word).getLsbD 1 = false ∧ (pending small (.regWrite 0 4 0)).agenda = [.host (.regWrite 0 4 0)] ∧
    (0 : Word).getLsbD 0 = false ∧ (0 : Word).getLsbD 1 = false := by decide

/-- A START at the last offset of `CTRL`, and a write to the first offset after it. -/
theorem witness_WritesWhileBusyIgnored :
    (running .nop).rst = false ∧ (running .nop).engine.mode = .run ∧
    (pending (running .nop) (.regWrite 3 4 1)).agenda = [.host (.regWrite 3 4 1)] ∧
    ((3 : Byte).toNat < 4 → (1 : Word).getLsbD 1 = false) ∧
    (pending (running .nop) (.regWrite 4 4 2)).agenda = [.host (.regWrite 4 4 2)] ∧
    ((4 : Byte).toNat < 4 → (2 : Word).getLsbD 1 = false) := by decide

theorem witness_AcknowledgeClears :
    small.rst = false ∧ small.engine.mode = .idle ∧
    (pending small (.regWrite 11 4 6)).agenda = [.host (.regWrite 11 4 6)] ∧ (11 : Byte).toNat / 4 = 2 := by decide

/-- A register that stores, and a read-only one, the last of the window. -/
theorem witness_ArgumentRegistersReadBack :
    small.rst = false ∧ small.engine.mode = .idle ∧
    (pending small (.regWrite 4 4 0xFFFFFFFF)).agenda = [.host (.regWrite 4 4 0xFFFFFFFF)] ∧
    regAt 4 = some .cmd ∧ storedMask .cmd ≠ 0 ∧ regAt 0x58 = some .blkCount ∧ storedMask .blkCount = 0 ∧
    Reg.cmd ≠ .ctrl ∧ Reg.cmd ≠ .status ∧ Reg.blkCount ≠ .ctrl ∧ Reg.blkCount ≠ .status ∧ Reg.width ≠ .cmd := by decide

/-- The first reserved offset and the last; a one-byte access. -/
theorem witness_ReservedOffsetsAndWidths :
    0x5C ≤ (0x5C : Byte).toNat ∧ 0x5C ≤ (0xFF : Byte).toNat ∧ ¬0x5C ≤ (0x5B : Byte).toNat ∧
    (pending small (.regRead 0x5C 4)).agenda = [.host (.regRead 0x5C 4)] ∧
    (pending small (.regWrite 0x5C 4 1)).agenda = [.host (.regWrite 0x5C 4 1)] ∧ 1 ≠ 4 ∧
    (pending small (.regRead 0 1)).agenda = [.host (.regRead 0 1)] ∧
    (pending small (.regWrite 0 1 1)).agenda = [.host (.regWrite 0 1 1)] := by decide

/-- The first and the last address of the window and of `MEM`, and the first behind each. -/
theorem witness_ReservedOffsetsAndWidths_bus :
    (∀ addr, (pending small (.busRead addr 4)).agenda = [.host (.busRead addr 4)] ∧
      (pending small (.busWrite addr [1, 2])).agenda = [.host (.busWrite addr [1, 2])]) ∧
    targetOf small.platform 0x10000 = .window 0 ∧ targetOf small.platform 0x100FF = .window 0xFF ∧
    targetOf small.platform 0 = .memory 0 ∧ targetOf small.platform 0xFFF = .memory 0xFFF ∧
    targetOf small.platform 0x1000 = .other ∧ targetOf small.platform 0x10100 = .other :=
  ⟨fun _ => ⟨rfl, rfl⟩, by decide⟩

/-- Idle; busy, `STATUS`, the first and the last argument register, and the progress registers with reserved bits. -/
theorem witness_RegisterReads :
    (∀ off : Byte, statusOk (pending (running .nop) (.regRead off 4)) ∧
      (pending (running .nop) (.regRead off 4)).agenda = [.host (.regRead off 4)] ∧
      (pending (running .nop) (.regRead off 4)).engine.mode = .run ∧ statusOk (pending small (.regRead off 4)) ∧
      (pending small (.regRead off 4)).engine.mode = .idle) ∧
    regAt 8 = some .status ∧ regAt 4 = some .cmd ∧ regAt 0x4C = some .pkCount ∧ regAt 0x10 = some .width ∧
    regAt 0x50 = some .clsMinMax ∧ regAt 0x54 = some .clsGrad :=
  ⟨fun _ => ⟨small_statusOk _ rfl, rfl, rfl, small_statusOk _ rfl, rfl⟩, by decide⟩

/-- Two bytes at the end of `MEM`. -/
theorem witness_MemoryPortReadsWhatWasWritten :
    ({ small with agenda := [.host (.memWrite 0xFFE [1, 2]), .host (.memRead 0xFFE 2)] } : State).agenda =
      .host (.memWrite 0xFFE [1, 2]) :: .host (.memRead 0xFFE [(1 : Byte), 2].length) :: [] ∧
    small.engine.mode = .idle ∧ 0xFFE + [(1 : Byte), 2].length ≤ small.platform.memBytes ∧
    (running .nop).engine.mode = .run := by decide

/-- Reads of the last byte of what PACK2 writes and of the one behind it, and of the end of `MEM`, idle and busy. -/
theorem witness_MemoryPortReadsWhatWasWritten_busy :
    (∀ s off n, (pending s (.memRead off n)).agenda = [.host (.memRead off n)]) ∧
    0x11 + 2 ≤ (running .pack2).platform.memBytes ∧ 0xFFE + 2 ≤ small.platform.memBytes ∧
    (running .pack2).engine.mode = .run ∧ small.engine.mode = .idle ∧
    (writtenRegions (running .pack2)).any (·.holds 0x11) = true ∧
    (writtenRegions (running .pack2)).any (·.holds 0x12) = false :=
  ⟨fun _ _ _ => rfl, by decide⟩

theorem witness_PackingRoundTrips :
    (2 = 2 ∨ 2 = 4) ∧ (4 = 2 ∨ 4 = 4) ∧ (∀ l ∈ [(0 : Byte), 3], l.toNat < 2 ^ 2) ∧ (∀ l ∈ [(0 : Byte), 15], l.toNat < 2 ^ 4) := by
  decide

theorem witness_PackedBitPositions :
    0 < ([1, 2, 3, 0, (2 : Byte)].length + 3) / 4 ∧ 1 < ([1, 2, 3, 0, (2 : Byte)].length + 3) / 4 ∧ 7 < 8 ∧
    2 < ([1, 2, 3, 0, (2 : Byte)].length + 1) / 2 := by decide

/-- Both widths; the regions do not overlap, and the last output byte. -/
theorem witness_PackCommandsComplete :
    (Instr.pack2 = .pack2 ∧ 2 = 2) ∧ (Instr.pack4 = .pack4 ∧ 4 = 4) ∧
    allInBounds small [{ base := 0, len := 5 }, { base := 0x10, len := (5 + (8 / 2 - 1)) / (8 / 2) }] = true ∧
    allInBounds small [{ base := 0, len := 5 }, { base := 0x10, len := (5 + (8 / 4 - 1)) / (8 / 4) }] = true ∧
    ((0 : Nat) + 5 ≤ 0x10 ∨ 0x10 + (5 + (8 / 2 - 1)) / (8 / 2) ≤ 0) ∧
    1 < (5 + (8 / 2 - 1)) / (8 / 2) ∧ 2 < (5 + (8 / 4 - 1)) / (8 / 4) := by decide

theorem witness_UnpackCommandsComplete :
    (Instr.unpack2 = .unpack2 ∧ 2 = 2) ∧ (Instr.unpack4 = .unpack4 ∧ 4 = 4) ∧
    allInBounds small [{ base := 0, len := (5 + (8 / 2 - 1)) / (8 / 2) }, { base := 0x10, len := 5 }] = true ∧
    allInBounds small [{ base := 0, len := (5 + (8 / 4 - 1)) / (8 / 4) }, { base := 0x10, len := 5 }] = true ∧
    ((0 : Nat) + 2 ≤ 0x10 ∨ 0x10 + 5 ≤ 0) ∧ ((0 : Nat) + 3 ≤ 0x10 ∨ 0x10 + 5 ≤ 0) ∧ 4 < 5 := by decide

/-- An output region one byte too high, for each command. -/
theorem witness_PackerRegionsChecked :
    allInBounds small [{ base := 0, len := 5 }, { base := 0xFFF, len := (5 + 3) / 4 }] = false ∧
    allInBounds small [{ base := 0, len := 5 }, { base := 0xFFE, len := (5 + 1) / 2 }] = false ∧
    allInBounds small [{ base := 0, len := (5 + 3) / 4 }, { base := 0xFFC, len := 5 }] = false ∧
    allInBounds small [{ base := 0, len := (5 + 1) / 2 }, { base := 0xFFC, len := 5 }] = false := by decide

theorem witness_ClassifierExtremesAndGradient : (List.replicate 64 (5 : Byte)).length = 64 := by decide

theorem witness_ClassifierDecision : (List.replicate 64 (5 : Byte)).length = 64 := by decide

/-- The last window of a 16x16 plane. -/
theorem witness_ClassifyCompletes :
    let s := { small with regs := { small.regs with blkX := 8, blkY := 8 } }
    blockPlane 0 = some .y ∧ validDims s.regs.width s.regs.height = true ∧ windowInside s .y = true ∧
    allInBounds s [planeRegion s .y] = true := by decide

/-- Each error of the single-block commands. -/
theorem witness_SingleBlockCheckOrder :
    let s := { small with regs := { small.regs with blkX := 9 } }
    let u := { small with regs := { small.regs with yBase := 0xF01 } }
    (Instr.classify 0 = .classify 0 ∨ Instr.classify 0 = .encodeBlock 0 0 ∨ Instr.classify 0 = .decodeBlock 0) ∧
    (3 : BitVec 2) = 3 ∧ 4 < (5 : BitVec 3).toNat ∧ blockPlane 0 = some .y ∧ (4 : BitVec 3).toNat ≤ 4 ∧
    validDims 24 16 = false ∧
    (validDims s.regs.width s.regs.height = true ∧ windowInside s .y = false) ∧
    (validDims u.regs.width u.regs.height = true ∧ windowInside u .y = true ∧
      allInBounds u [planeRegion u .y] = false ∧ allInBounds u [planeRegion u .y, planeRegion u .y] = false) := by
  decide

theorem witness_QuantizerExactAndInRange : (3 = 3 ∨ 3 = 15) ∧ (15 = 3 ∨ 15 = 15) ∧ 0 < 1 ∧ 1 ≤ 1 := by decide

/-- The bound is attained at this block (95_test_vectors.md C-14). -/
theorem witness_Full2AccuracyBound : (0 : Byte) ≤ 0 ∧ (0 : Byte) ≤ 1 ∧ (0 : Byte) < 1 := by decide

/-- The largest range without a clamp over the minimum 100; blocks of the largest range without a clamp, for `FULL2` and for
`FULL4`, and a flat block. -/
theorem witness_Full2FixedPoint :
    ((100 : Byte) ≤ 200 ∧ (200 : Byte) ≤ 253 ∧
      (100 : Byte).toNat / 4 * 4 + 2 + ((253 : Byte).toNat - (100 : Byte).toNat) ≤ 255 ∧
      (253 : Byte).toNat - (100 : Byte).toNat ≠ 4) ∧
    (let p : List Byte := 100 :: List.replicate 63 253
     let q : List Byte := 100 :: List.replicate 63 252
     let r : List Byte := List.replicate 64 7
     p.length = 64 ∧ q.length = 64 ∧ r.length = 64 ∧
     minSample p / 4 * 4 + 2 + (maxSample p - minSample p) ≤ 255 ∧ maxSample p - minSample p = 153 ∧
     minSample q / 4 * 4 + 3 + (maxSample q - minSample q) ≤ 255 ∧ maxSample q - minSample q = 152 ∧
     minSample r / 4 * 4 + 3 + (maxSample r - minSample r) ≤ 255 ∧ maxSample r - minSample r = 0) := by
  decide +kernel

/-- The last block of a plane whose last byte is the last of `MEM`. -/
theorem block_fits :
    blockFits { small with regs := { small.regs with yBase := 0xF00 } } { index := 0, plane := .y, x := 8, y := 8 } :=
  ⟨by decide, fun x y hx hy => by
    show 0xF00 + (8 + x) + (8 + y) * 16 < 0x1000
    omega⟩

theorem witness_SkipAndSolidRecordsComplete :
    ∃ s : State, blockFits s s.engine.block :=
  ⟨{ small with
      regs := { small.regs with yBase := 0xF00 },
      engine := { small.engine with block := { index := 0, plane := .y, x := 8, y := 8 } } }, block_fits⟩

theorem witness_Half2RecordCompletes : ∃ s : State, blockFits s s.engine.block := witness_SkipAndSolidRecordsComplete

theorem witness_Full2AndFull4RecordsComplete : ∃ s : State, blockFits s s.engine.block :=
  witness_SkipAndSolidRecordsComplete

/-- The ramp's record of six bytes with room for exactly six, and for five. -/
theorem witness_EncodeBlockCompletes :
    let record := encodeRecord (blockSamples rampPlane (singleBlock rampPlane .cbh)) .half2 10 38
    blockPlane 1 = some .cbh ∧ (0 : BitVec 3).toNat ≤ 4 ∧
    validDims rampPlane.regs.width rampPlane.regs.height = true ∧ windowInside rampPlane .cbh = true ∧
    allInBounds rampPlane [planeRegion rampPlane .cbh, streamRegion rampPlane] = true ∧
    0 + record.length ≤ 6 ∧ ¬0 + record.length ≤ 5 := by
  decide +kernel

theorem witness_DecodeBlockReachesItsRecord :
    blockPlane 1 = some .cbh ∧ validDims small.regs.width small.regs.height = true ∧ windowInside small .cbh = true ∧
    allInBounds small [planeRegion small .cbh, streamRegion small] = true := by decide

theorem witness_DecodeBlockRunCompletes :
    let s := withBytes (running (.decodeBlock 0)) 0x400 [0x00, 0x05]
    s.engine.mode = .run ∧ s.engine.phase = .command ∧ s.engine.underway = none ∧ s.agenda = [] ∧
    decodeCmd s.engine.cmd = .decodeBlock 0 ∧
    blockPlane 0 = some .y ∧ validDims s.regs.width s.regs.height = true ∧ windowInside s .y = true ∧
    allInBounds s [planeRegion s .y, streamRegion s] = true ∧
    s.regs.streamPtr.toNat + recordLength (s.byte (streamAddr s s.regs.streamPtr.toNat)) ≤ s.regs.streamLen.toNat := by
  decide

/-- The status of the same state. -/
theorem witness_DecodeBlockRunCompletes_status : statusOk (withBytes (running (.decodeBlock 0)) 0x400 [0x00, 0x05]) :=
  small_statusOk _ rfl

theorem witness_BoxAverageForms : 0 ≤ 1020 ∧ 1020 ≤ 1020 := by decide

theorem witness_DownsampleCompletes :
    chromaPlanes 2 = some (.crf, .crh) ∧ validDims small.regs.width small.regs.height = true ∧
    allInBounds small [planeRegion small .crf, planeRegion small .crh] = true ∧
    (0x200 + 256 ≤ 0x340 ∨ 0x340 + 64 ≤ 0x200) ∧ 7 < planeWidth small .crh ∧ 7 < planeHeight small .crh := by decide

theorem witness_UpsampleCompletes :
    chromaPlanes 1 = some (.cbf, .cbh) ∧ validDims small.regs.width small.regs.height = true ∧
    allInBounds small [planeRegion small .cbf, planeRegion small .cbh] = true ∧
    (0x100 + 256 ≤ 0x300 ∨ 0x300 + 64 ≤ 0x100) ∧ 15 < planeWidth small .cbf ∧ 15 < planeHeight small .cbf := by decide

theorem small_regions_disjoint : (imageAndPlanes small).Pairwise disjoint := by
  simp only [imageAndPlanes, List.pairwise_cons, List.mem_cons, List.not_mem_nil, or_false, forall_eq_or_imp, forall_eq,
    List.Pairwise.nil, and_true, false_implies, implies_true]
  unfold disjoint
  decide

/-- No region of an image command overlaps another, whatever the stream's length up to its 256 bytes. -/
theorem codec_regions_disjoint (n : Nat) (hn : n ≤ 0x100) :
    (({ base := 0x400, len := n } : Region) :: codecRegions true small).Pairwise disjoint := by
  simp only [codecRegions, if_true, List.cons_append, List.nil_append, List.pairwise_cons, List.mem_cons,
    List.not_mem_nil, or_false, forall_eq_or_imp, forall_eq, List.Pairwise.nil, and_true, false_implies, implies_true]
  refine ⟨⟨.inr ?_, .inr ?_, .inr ?_, .inr ?_, .inr ?_, .inl ?_⟩, by unfold disjoint; decide⟩
  · exact (by decide : 0x100 ≤ 0x400)
  · exact (by decide : 0x200 ≤ 0x400)
  · exact (by decide : 0x300 ≤ 0x400)
  · exact (by decide : 0x340 ≤ 0x400)
  · exact (by decide : 0x380 ≤ 0x400)
  · exact (by omega : 0x400 + n ≤ 0x600)

theorem witness_SplitCompletes :
    validDims small.regs.width small.regs.height = true ∧ allInBounds small (imageAndPlanes small) = true ∧
    (imageAndPlanes small).Pairwise disjoint ∧ 15 < small.regs.width.toNat ∧ 15 < small.regs.height.toNat :=
  ⟨by decide, by decide, small_regions_disjoint, by decide, by decide⟩

theorem witness_MergeCompletes :
    validDims small.regs.width small.regs.height = true ∧ allInBounds small (imageAndPlanes small) = true ∧
    (∀ p : Plane, p = .y ∨ p = .cbf ∨ p = .crf → disjoint (imageRegion small) (planeRegion small p)) ∧
    15 < small.regs.width.toNat ∧ 15 < small.regs.height.toNat :=
  ⟨by decide, by decide, fun p hp => by rcases hp with rfl | rfl | rfl <;> unfold disjoint <;> decide, by decide, by decide⟩

/-- Each error of the plane commands. -/
theorem witness_PlaneCommandCheckOrder :
    let s := { small with regs := { small.regs with cbhBase := 0xFC1, imgBase := 0xD01 } }
    (Instr.upsample 1 = .downsample 1 ∨ Instr.upsample 1 = .upsample 1) ∧ (Instr.merge = .split ∨ Instr.merge = .merge) ∧
    ((0 : BitVec 2) = 0 ∨ (0 : BitVec 2) = 3) ∧ ((3 : BitVec 2) = 0 ∨ (3 : BitVec 2) = 3) ∧
    chromaPlanes 1 = some (.cbf, .cbh) ∧ validDims 16 0 = false ∧ validDims s.regs.width s.regs.height = true ∧
    allInBounds s [planeRegion s .cbf, planeRegion s .cbh] = false ∧ allInBounds s (imageAndPlanes s) = false := by
  decide

/-- Room for exactly the longest stream under `AUTO` (112 bytes) and under a forced mode (208 bytes). -/
theorem witness_EncodeImageCompletes :
    let s := { small with regs := { small.regs with streamLen := 112 } }
    let t := { small with regs := { small.regs with streamLen := 208 } }
    (0 : BitVec 3).toNat ≤ 4 ∧ (4 : BitVec 3).toNat ≤ 4 ∧ validDims small.regs.width small.regs.height = true ∧
    allInBounds s (streamRegion s :: codecRegions true s) = true ∧
    4 + (if (0 : BitVec 3) = 0 then 108 else 204) * ((16 / 16) * (16 / 16)) ≤ s.regs.streamLen.toNat ∧
    allInBounds t (streamRegion t :: codecRegions true t) = true ∧
    4 + (if (4 : BitVec 3) = 0 then 108 else 204) * ((16 / 16) * (16 / 16)) ≤ t.regs.streamLen.toNat := by decide

/-- A stream with room for exactly six forced Solid records (16 bytes), one byte too short for the last (block 5 fails), and
one with room for the header alone (block 0 fails), whatever the planes hold. -/
theorem witness_EncodeImageWritesTheRecords :
    ((1 : BitVec 3).toNat ≤ 4 ∧ validDims small.regs.width small.regs.height = true) ∧
    (∀ n : Word, 4 ≤ n.toNat → n.toNat ≤ 16 →
      (let s := { small with regs := { small.regs with streamLen := n } }
       allInBounds s (streamRegion s :: codecRegions true s) = true ∧ 4 ≤ s.regs.streamLen.toNat ∧
       (streamRegion s :: codecRegions true s).Pairwise disjoint)) ∧
    (∀ (t : State) (k : Nat), k ≤ 6 →
      (([0, 0, 0, 0] : List Byte) ++ ((traversal 16 16).take k).flatMap fun b =>
        encodeRecord (blockSamples t b) ([BlockMode.solid, .half2, .full2, .full4].getD ((1 : BitVec 3).toNat - 1) .solid)
          (classifyBlock (blockSamples t b)).min (classifyBlock (blockSamples t b)).max).length = 4 + 2 * k) := by
  refine ⟨by decide, fun n h4 hn => ⟨?_, h4, codec_regions_disjoint _ (by show n.toNat ≤ 0x100; omega)⟩, fun t k hk => ?_⟩
  · rw [allInBounds, List.all_cons, Bool.and_eq_true]
    exact ⟨decide_eq_true (.inr (by show 0x400 + n.toNat ≤ 0x1000; omega)),
      (by decide : (codecRegions true small).all (inBounds small) = true)⟩
  · match k, hk with
    | 0, _ => rfl
    | 1, _ => rfl
    | 2, _ => rfl
    | 3, _ => rfl
    | 4, _ => rfl
    | 5, _ => rfl
    | 6, _ => rfl

/-- Each error of `ENCODE_IMAGE` before its first record; a stream of three bytes is one too short. -/
theorem witness_EncodeImageErrors :
    let s := { small with regs := { small.regs with imgBase := 0xD01 } }
    let t := { small with regs := { small.regs with streamLen := 3 } }
    (4 < (5 : BitVec 3).toNat ∧ (4 : BitVec 3).toNat ≤ 4 ∧ validDims 0 16 = false ∧
      validDims s.regs.width s.regs.height = true ∧ allInBounds s (streamRegion s :: codecRegions true s) = false ∧
      allInBounds t (streamRegion t :: codecRegions true t) = true ∧ t.regs.streamLen.toNat < 4) ∧
    (streamRegion t :: codecRegions true t).Pairwise disjoint :=
  ⟨by decide, codec_regions_disjoint 3 (by decide)⟩

/-- A stream out of bounds, a stream of three bytes, and one of exactly four. -/
theorem witness_DecodeImageReadsTheHeader :
    let s := { small with regs := { small.regs with streamBase := 0xF01 } }
    let t := { small with regs := { small.regs with streamLen := 3 } }
    let u := { small with regs := { small.regs with streamLen := 4 } }
    allInBounds s [streamRegion s] = false ∧ (allInBounds t [streamRegion t] = true ∧ t.regs.streamLen.toNat < 4) ∧
    (allInBounds u [streamRegion u] = true ∧ 4 ≤ u.regs.streamLen.toNat) := by decide

/-- Room for exactly six longest records after the header. -/
theorem witness_DecodeImageRunCompletes :
    let s := atImageBlock 0
    Inv s ∧ s.engine.mode = .run ∧ s.engine.phase = .record ∧ s.engine.underway = none ∧ s.agenda = [] ∧
    decodeCmd s.engine.cmd = .decodeImage true ∧ s.engine.block = blockAt s.regs.width.toNat 0 ∧ s.regs.streamPtr = 4 ∧
    4 + 34 * (6 * (s.regs.width.toNat / 16) * (s.regs.height.toNat / 16)) ≤ s.regs.streamLen.toNat :=
  ⟨atImageBlock_inv 0 (by decide), by decide⟩

/-- Six Solid records that end exactly at `STREAM_LEN`. -/
def exactStream : State :=
  let s := withBytes (atImageBlock 0) 0x404 [0, 5, 0, 5, 0, 5, 0, 5, 0, 5, 0, 5]
  { s with regs := { s.regs with streamLen := 16 } }

theorem exactStream_inv : Inv exactStream := by
  refine ⟨small_statusOk _ rfl, ⟨by decide +kernel, by decide +kernel⟩, by simp [platformOk]; decide, by simp [resetOk]; decide,
    by unfold clsOk; decide, fun _ _ => ⟨by decide, ?_⟩, underwayOk_of_none rfl⟩
  have hcmd : runningCommand exactStream = .decodeImage true := by decide
  unfold decodingOk
  rw [hcmd]
  exact ⟨⟨0, by decide, rfl⟩, by decide +kernel⟩

theorem witness_DecodeImageRunCompletes_exact :
    let s := exactStream
    Inv s ∧ s.engine.underway = none ∧ s.regs.streamPtr = 4 ∧ s.engine.block = blockAt s.regs.width.toNat 0 ∧
    (∀ k, k < 6 * (s.regs.width.toNat / 16) * (s.regs.height.toNat / 16) →
      4 + 2 * (k + 1) = 4 + 2 * k + recordLength (s.byte (streamAddr s (4 + 2 * k))) ∧
      decode .record ((List.range (4 + 2 * (k + 1) - (4 + 2 * k))).map fun j => s.byte (streamAddr s (4 + 2 * k + j))) =
        .ok (.solid 0 5, [])) ∧
    4 + 2 * (6 * (s.regs.width.toNat / 16) * (s.regs.height.toNat / 16)) ≤ s.regs.streamLen.toNat ∧
    (streamRegion s :: codecRegions true s).Pairwise disjoint :=
  ⟨exactStream_inv, rfl, rfl, rfl, by decide +kernel, by decide, codec_regions_disjoint 16 (by decide)⟩

/-- The finish, after the last record. -/
theorem witness_DecodeImageRunCompletes_finish :
    let s := (atImageBlock 5).atFinish
    Inv s ∧ s.engine.mode = .run ∧ s.engine.phase = .finish ∧ s.engine.underway = none ∧ s.agenda = [] ∧
    decodeCmd s.engine.cmd = .decodeImage true ∧ (codecRegions true s).Pairwise disjoint := by
  obtain ⟨h1, h2, h3, h4, h5, h6, -⟩ := atImageBlock_inv 5 (by decide)
  refine ⟨⟨h1, h2, h3, by simp [resetOk]; decide, h5, fun _ _ => h6 rfl (by decide), underwayOk_of_none rfl⟩, rfl, rfl, rfl, rfl,
    by decide, (List.pairwise_cons.1 (codec_regions_disjoint 0 (by decide))).2⟩

end Sys2Proof.Tests
end

section
/-! SUPPORT. What the engine's steps keep. `Prog.Safe p v` says of a program what no run can spoil: from what the pseudocode
sees, `v`, every value it gives `CLS_GRAD` is in range, every error it raises has a code and a stage, every position it moves to
is one its checks lead to, and only its last step moves the position. `SafePart` is the rule for a part of a program. -/

namespace Sys2Proof.Machine

variable {ρ α β : Type}

/-! ## The parts of the invariant a step of the engine can touch -/

theorem positionOk_view (s : State) : positionOk s.view ↔ positionOk s := by
  have hdecoding : decodingOk s.view ↔ decodingOk s := by
    unfold decodingOk
    simp only [runningCommand_view, singleBlock_view, windowInside_view, allInBounds_view, planeRegion_view,
      streamRegion_view, codecRegions_view, imageWidth_view, imageHeight_view, view_engine]
  unfold positionOk
  rw [hdecoding]
  simp only [view_engine, view_regs]

/-- The position is judged by what the pseudocode sees. -/
theorem positionOk_congr {s t : State} (h : t.view = s.view) : positionOk t ↔ positionOk s := by
  rw [← positionOk_view t, h, positionOk_view]

theorem positionOk_of_command {s : State} (h : s.engine.phase = .command) : positionOk s :=
  fun _ hp => absurd h hp

theorem positionOk_of_idle {s : State} (h : s.engine.mode = .idle) : positionOk s :=
  fun hr => absurd (h.symm.trans hr) (by decide)

theorem memOk_setByte {s : State} {a : Nat} (v : Byte) (h : memOk s) (ha : a < s.platform.memBytes) :
    memOk (s.setByte a v) := by
  refine ⟨memInsert_wf _ _ _ h.1, fun c hc => ?_⟩
  rcases mem_memInsert _ _ _ hc with rfl | hc
  · exact ha
  · exact h.2 c hc

/-- The invariant as an engine's step meets it: the engine between two steps, its place in the instruction left out. -/
structure EngineInv (s : State) : Prop where
  status : statusOk s
  mem : memOk s
  platform : platformOk s
  cls : clsOk s
  position : positionOk s
  rst : s.rst = false
  underway : s.engine.underway = none

/-! The parts of the invariant by name. -/

theorem Inv.status {s : State} (h : Inv s) : statusOk s := h.1
theorem Inv.mem {s : State} (h : Inv s) : memOk s := h.2.1
theorem Inv.platform {s : State} (h : Inv s) : platformOk s := h.2.2.1
theorem Inv.reset {s : State} (h : Inv s) : resetOk s := h.2.2.2.1
theorem Inv.cls {s : State} (h : Inv s) : clsOk s := h.2.2.2.2.1
theorem Inv.position {s : State} (h : Inv s) : positionOk s := h.2.2.2.2.2.1
theorem Inv.underway {s : State} (h : Inv s) : underwayOk s := h.2.2.2.2.2.2

theorem resetOk_of_rst_false {s : State} (h : s.rst = false) : resetOk s :=
  fun hr => absurd (h.symm.trans hr) (by decide)

theorem underwayOk_of_underway_none {s : State} (h : s.engine.underway = none) : underwayOk s :=
  fun _ hu => absurd (h.symm.trans hu) nofun

theorem EngineInv.inv {s : State} (h : EngineInv s) : Inv s :=
  ⟨h.status, h.mem, h.platform, resetOk_of_rst_false h.rst, h.cls, h.position, underwayOk_of_underway_none h.underway⟩

theorem EngineInv.setByte {s : State} {a : Nat} (v : Byte) (h : EngineInv s) (ha : a < s.platform.memBytes) :
    EngineInv (s.setByte a v) :=
  ⟨h.status, memOk_setByte v h.mem ha, h.platform, h.cls, (positionOk_congr (setByte_view s a v)).2 h.position, h.rst,
    h.underway⟩

theorem EngineInv.errorEntry {s : State} {code : ErrCode} {stage : ErrStage} (index : Nat) (h : EngineInv s)
    (hcode : code ≠ .none) (hstage : stage ≠ .none) : EngineInv (s.errorEntry code stage index) :=
  ⟨⟨nofun, fun _ => ⟨hcode, hstage⟩, fun hs => if_neg hs, nofun⟩, h.mem, h.platform, h.cls, positionOk_of_idle rfl, h.rst,
    h.underway⟩

/-- A register update that moves the engine's position or ends the command. -/
def RegUpdate.isLast : RegUpdate → Bool
  | .atRecord _ => true
  | .atFinish => true
  | .done => true
  | .streamPtr _ => false
  | .blkCount _ => false
  | .width _ => false
  | .height _ => false
  | .cls _ => false

/-- What an update gives `CLS_GRAD` is in `0..510` (10_state.md R35). -/
def RegUpdate.clsInRange : RegUpdate → Prop
  | .cls c => c.grad2.toNat ≤ 510
  | _ => True

theorem EngineInv.apply {s : State} {u : RegUpdate} (h : EngineInv s) (hcls : u.clsInRange)
    (hpos : positionOk (u.apply s)) : EngineInv (u.apply s) := by
  obtain ⟨hnone, hsome, hindex, hrun⟩ := h.status
  cases u with
  | cls c => exact ⟨h.status, h.mem, h.platform, hcls, hpos, h.rst, h.underway⟩
  | done => exact ⟨⟨hnone, hsome, hindex, nofun⟩, h.mem, h.platform, h.cls, hpos, h.rst, h.underway⟩
  | streamPtr p => exact ⟨h.status, h.mem, h.platform, h.cls, hpos, h.rst, h.underway⟩
  | blkCount n => exact ⟨h.status, h.mem, h.platform, h.cls, hpos, h.rst, h.underway⟩
  | width w => exact ⟨h.status, h.mem, h.platform, h.cls, hpos, h.rst, h.underway⟩
  | height w => exact ⟨h.status, h.mem, h.platform, h.cls, hpos, h.rst, h.underway⟩
  | atRecord b => exact ⟨h.status, h.mem, h.platform, h.cls, hpos, h.rst, h.underway⟩
  | atFinish => exact ⟨h.status, h.mem, h.platform, h.cls, hpos, h.rst, h.underway⟩

/-! ## Safe programs -/

/-- A program that keeps the invariant, from what the pseudocode sees before it. -/
def Prog.Safe : Prog ρ → State → Prop
  | .finish _, _ => True
  | .look next, v => (next v).Safe v
  | .read _ next, v => ∀ b, (next b).Safe v
  | .write _ _ next, v => next.Safe v
  | .set u next, v =>
    u.clsInRange ∧ positionOk (u.apply v) ∧ (u.isLast = true → ∃ a, next = .finish a) ∧ next.Safe (u.apply v).view
  | .fail code stage _, _ => code ≠ .none ∧ stage ≠ .none

theorem positionOk_apply_view {u : RegUpdate} {s : State} (h : positionOk (u.apply s.view)) : positionOk (u.apply s) :=
  (positionOk_congr (apply_view u s)).1 h

/-- What is left of a safe program after some of its steps is safe. -/
theorem Prog.Safe.replay {p : Prog ρ} {n : Nat} {s t : State} {l : List (Option Byte)} (h : p.Safe s.view)
    (hw : p.walk n s = some (l, t)) : (p.replay s.view l).Safe t.view := by
  induction p generalizing n s l with
  | finish a => cases hw
  | look next ih => exact ih s.view h hw
  | read a next ih =>
    cases n with
    | zero => cases hw; exact h
    | succ n =>
      by_cases ha : a < s.platform.memBytes
      · simp only [Prog.walk, ha, if_true, Option.map_eq_some_iff, Prod.exists, Prod.mk.injEq] at hw
        obtain ⟨l', t', hw, rfl, rfl⟩ := hw
        exact ih _ (h _) hw
      · simp [Prog.walk, ha] at hw
  | write a v next ih =>
    cases n with
    | zero => cases hw; exact h
    | succ n =>
      by_cases ha : a < s.platform.memBytes
      · simp only [Prog.walk, ha, if_true, Option.map_eq_some_iff, Prod.exists, Prod.mk.injEq] at hw
        obtain ⟨l', t', hw, rfl, rfl⟩ := hw
        exact ih (s := s.setByte a v) h hw
      · simp [Prog.walk, ha] at hw
  | set u next ih =>
    cases n with
    | zero => cases hw; exact h
    | succ n =>
      simp only [Prog.walk, Option.map_eq_some_iff, Prod.exists, Prod.mk.injEq] at hw
      obtain ⟨l', t', hw, rfl, rfl⟩ := hw
      obtain ⟨_, _, _, hnext⟩ := h
      simp only [Prog.replay, apply_view] at hnext ⊢
      exact ih hnext hw
  | fail code stage index =>
    cases n with
    | zero => cases hw; exact h
    | succ n => cases hw

/-- A safe program run to its end keeps the invariant. -/
theorem Prog.Safe.run {p : Prog Unit} {s t : State} (h : p.Safe s.view) (hs : EngineInv s)
    (ht : lastState (p.run s) = .next t) : EngineInv t := by
  induction p generalizing s with
  | finish a => cases ht; exact hs
  | look next ih => exact ih s.view h hs ht
  | read a next ih =>
    simp only [Prog.run] at ht
    split at ht
    · exact ih _ (h _) hs ht
    · cases ht
  | write a v next ih =>
    simp only [Prog.run] at ht
    split at ht
    · exact ih (s := s.setByte a v) h (hs.setByte v ‹_›) ht
    · cases ht
  | set u next ih =>
    obtain ⟨hcls, hpos, _, hnext⟩ := h
    rw [apply_view] at hnext
    exact ih hnext (hs.apply hcls (positionOk_apply_view hpos)) ht
  | fail code stage index => cases ht; exact hs.errorEntry index h.1 h.2

/-- `t` differs from `s` in `MEM` and in registers other than `IRQ_EN` only. -/
def memAndRegsOnly (s t : State) : Prop :=
  ∃ (m : List Host.Cell) (g : Regs), t = { s with mem := m, regs := { g with irqEn := s.regs.irqEn } }

/-- What one engine step of a safe program leaves. -/
def StepKept (s : State) : Stepped → Prop
  | .more _ t => EngineInv t ∧ memAndRegsOnly s t
  | .ended t => EngineInv t
  | .fault _ => True

theorem stepKept_afterStep (next : Prog ρ) (answer : Option Byte) {s t : State} (ht : EngineInv t)
    (hsame : memAndRegsOnly s t) : StepKept s (next.afterStep answer t) := by
  unfold Prog.afterStep
  split
  · exact ht
  · exact ⟨ht, hsame⟩

theorem Prog.Safe.settle {p : Prog ρ} {s : State} (h : p.Safe s.view) : (p.settle s).Safe s.view := by
  induction p with
  | look next ih => exact ih s.view h
  | finish a => exact h
  | read a next => exact h
  | write a v next => exact h
  | set u next => exact h
  | fail code stage index => exact h

theorem memAndRegsOnly_apply {u : RegUpdate} (hu : u.isLast = false) (s : State) : memAndRegsOnly s (u.apply s) := by
  refine ⟨s.mem, (u.apply s).regs, ?_⟩
  cases u with
  | atRecord b => cases hu
  | atFinish => cases hu
  | done => cases hu
  | streamPtr p => rfl
  | blkCount n => rfl
  | width w => rfl
  | height w => rfl
  | cls c => rfl

/-- One engine step of a safe program keeps the invariant, and moves the position only when no other step follows. -/
theorem Prog.Safe.once {p : Prog ρ} {s : State} (h : p.Safe s.view) (hs : EngineInv s) : StepKept s (p.once s) := by
  have hsettle := h.settle
  unfold Prog.once
  generalize p.settle s = q at hsettle
  cases q with
  | finish a => exact hs
  | look next => exact hs
  | read a next =>
    dsimp only
    split
    · exact stepKept_afterStep _ _ hs ⟨_, s.regs, rfl⟩
    · trivial
  | write a v next =>
    dsimp only
    split
    · exact stepKept_afterStep _ _ (hs.setByte v ‹_›) ⟨_, s.regs, rfl⟩
    · trivial
  | set u next =>
    obtain ⟨hcls, hpos, hlast, _⟩ := hsettle
    have ht := hs.apply hcls (positionOk_apply_view hpos)
    cases hu : u.isLast with
    | false => exact stepKept_afterStep _ _ ht (memAndRegsOnly_apply hu s)
    | true => obtain ⟨a, rfl⟩ := hlast hu; exact ht
  | fail code stage index => exact hs.errorEntry index hsettle.1 hsettle.2

/-! ## The rules for a part of a program -/

/-- From what the pseudocode sees with `P`, the part `p` is safe when what follows it is safe after `Q`. -/
def SafePart (P : State → Prop) (p : Eng ρ α) (Q : α → State → Prop) : Prop :=
  ∀ v next, P v → (∀ a w, Q a w → (next a).Safe w) → (p next).Safe v

variable {P : State → Prop}

theorem SafePart.pure {Q : α → State → Prop} {a : α} (h : ∀ v, P v → Q a v) : SafePart P (pure a : Eng ρ α) Q :=
  fun v _ hv hnext => hnext a v (h v hv)

theorem SafePart.bind {p : Eng ρ α} {f : α → Eng ρ β} {Q : α → State → Prop} {R : β → State → Prop}
    (hp : SafePart P p Q) (hf : ∀ a, SafePart (Q a) (f a) R) : SafePart P (p >>= f) R :=
  fun v _ hv hnext => hp v _ hv fun a w hw => hf a w _ hw hnext

/-- A part and the rest of its program, up to the end. -/
theorem SafePart.ends {p : Eng β α} {f : α → Eng β β} {Q : α → State → Prop} (hp : SafePart P p Q)
    (hf : ∀ a w, Q a w → (f a .finish).Safe w) {v : State} (hv : P v) : ((p >>= f) .finish).Safe v :=
  hp v _ hv hf

theorem SafePart.state : SafePart P (Machine.state : Eng ρ State) fun a v => a = v ∧ P v :=
  fun v _ hv hnext => hnext v v ⟨rfl, hv⟩

theorem SafePart.memRead (a : Nat) : SafePart P (Machine.memRead a : Eng ρ Byte) fun _ => P :=
  fun v _ hv hnext b => hnext b v hv

theorem SafePart.memWrite (a : Nat) (x : Byte) : SafePart P (Machine.memWrite a x : Eng ρ Unit) fun _ => P :=
  fun v _ hv hnext => hnext () v hv

theorem SafePart.update {u : RegUpdate} {Q : Unit → State → Prop} (hlast : u.isLast = false) (hcls : u.clsInRange)
    (hpos : ∀ v, P v → positionOk (u.apply v)) (h : ∀ v, P v → Q () (u.apply v).view) :
    SafePart P (Machine.update u : Eng ρ Unit) Q :=
  fun v _ hv hnext => ⟨hcls, hpos v hv, fun hu => absurd (hlast.symm.trans hu) (by decide), hnext () _ (h v hv)⟩

theorem SafePart.raise {Q : α → State → Prop} {code : ErrCode} {stage : ErrStage} {index : Nat}
    (h : code ≠ .none ∧ stage ≠ .none := by decide) : SafePart P (Machine.raise code stage index : Eng ρ α) Q :=
  fun _ _ _ _ => h

theorem SafePart.require {c : Bool} {code : ErrCode} {stage : ErrStage} {index : Nat}
    (h : code ≠ .none ∧ stage ≠ .none := by decide) :
    SafePart P (Machine.require c code stage index : Eng ρ Unit) fun _ v => P v ∧ c = true := by
  cases c
  · exact SafePart.raise h
  · exact SafePart.pure fun _ hv => ⟨hv, rfl⟩

theorem SafePart.weaken {p : Eng ρ α} {Q Q' : α → State → Prop} (h : SafePart P p Q) (hq : ∀ a v, Q a v → Q' a v) :
    SafePart P p Q' :=
  fun v _ hv hnext => h v _ hv fun a w hw => hnext a w (hq a w hw)

theorem SafePart.forFrom {body : Nat → Eng ρ Unit} (first count : Nat) (h : ∀ i, SafePart P (body i) fun _ => P) :
    SafePart P (Machine.forFrom first count body) fun _ => P := by
  induction count generalizing first with
  | zero => exact SafePart.pure fun _ hv => hv
  | succ n ih => exact (h first).bind fun _ => ih (first + 1)

theorem SafePart.forN {body : Nat → Eng ρ Unit} (count : Nat) (h : ∀ i, SafePart P (body i) fun _ => P) :
    SafePart P (Machine.forN count body) fun _ => P :=
  SafePart.forFrom 0 count h

theorem SafePart.listFrom {f : Nat → Eng ρ α} (first count : Nat) (h : ∀ i, SafePart P (f i) fun _ => P) :
    SafePart P (Machine.listFrom first count f) fun _ => P := by
  induction count generalizing first with
  | zero => exact SafePart.pure fun _ hv => hv
  | succ n ih => exact (h first).bind fun _ => (ih (first + 1)).bind fun _ => SafePart.pure fun _ hv => hv

theorem SafePart.listN {f : Nat → Eng ρ α} (count : Nat) (h : ∀ i, SafePart P (f i) fun _ => P) :
    SafePart P (Machine.listN count f) fun _ => P :=
  SafePart.listFrom 0 count h

/-- `done()` is a program's last step, and leaves the engine idle. -/
theorem done_safe (v : State) : ((done : Eng Unit Unit) .finish).Safe v :=
  ⟨trivial, positionOk_of_idle rfl, fun _ => ⟨(), rfl⟩, trivial⟩

end Sys2Proof.Machine
end

section
/-! SUPPORT. Every program of the engine is safe: the parts that touch no register, the parts of the commands, and the programs
of the three phases. -/

namespace Sys2Proof.Machine

variable {ρ α β : Type} {P : State → Prop}

/-! ## Parts that write no register -/

/-- A part of a program that keeps whatever the pseudocode sees. -/
def Plain (p : Eng ρ α) : Prop := ∀ P : State → Prop, SafePart P p fun _ => P

theorem Plain.part {p : Eng ρ α} (h : Plain p) (P : State → Prop) : SafePart P p fun _ => P := h P

theorem Plain.bind {p : Eng ρ α} {f : α → Eng ρ β} (hp : Plain p) (hf : ∀ a, Plain (f a)) : Plain (p >>= f) :=
  fun P => (hp P).bind fun a => hf a P

theorem Plain.state : Plain (Machine.state : Eng ρ State) := fun _ => SafePart.state.weaken fun _ _ h => h.2

theorem Plain.memRead (a : Nat) : Plain (Machine.memRead a : Eng ρ Byte) := fun _ => SafePart.memRead a

theorem Plain.memWrite (a : Nat) (x : Byte) : Plain (Machine.memWrite a x : Eng ρ Unit) := fun _ => SafePart.memWrite a x

theorem Plain.pure (a : α) : Plain (Pure.pure a : Eng ρ α) := fun _ => SafePart.pure fun _ h => h

theorem Plain.require {c : Bool} {code : ErrCode} {stage : ErrStage} {index : Nat}
    (h : code ≠ .none ∧ stage ≠ .none := by decide) : Plain (Machine.require c code stage index : Eng ρ Unit) :=
  fun _ => (SafePart.require h).weaken fun _ _ h => h.1

theorem Plain.forN {body : Nat → Eng ρ Unit} (count : Nat) (h : ∀ i, Plain (body i)) : Plain (Machine.forN count body) :=
  fun P => SafePart.forN count fun i => h i P

theorem Plain.listN {f : Nat → Eng ρ α} (count : Nat) (h : ∀ i, Plain (f i)) : Plain (Machine.listN count f) :=
  fun P => SafePart.listN count fun i => h i P

theorem px_plain (p : Plane) (x y : Nat) : Plain (px p x y : Eng ρ Byte) := Plain.state.bind fun _ => Plain.memRead _

theorem pxW_plain (p : Plane) (x y : Nat) (v : Byte) : Plain (pxW p x y v : Eng ρ Unit) :=
  Plain.state.bind fun _ => Plain.memWrite _ _

theorem readWindow_plain (b : Block) : Plain (readWindow b : Eng ρ (List Byte)) := Plain.listN 64 fun _ => px_plain _ _ _

theorem decodeInto_plain (f : Nat → Nat → Byte) : Plain (decodeInto f : Eng ρ Unit) :=
  Plain.state.bind fun _ => Plain.forN 8 fun _ => Plain.forN 8 fun _ => pxW_plain _ _ _ _

theorem writeBytes_plain (a : Nat) (bytes : List Byte) : Plain (writeBytes a bytes : Eng ρ Unit) :=
  Plain.forN _ fun _ => Plain.memWrite _ _

theorem downsampleBody_plain (f h : Plane) : Plain (downsampleBody f h : Eng ρ Unit) :=
  Plain.state.bind fun _ => Plain.forN _ fun _ => Plain.forN _ fun _ =>
    (px_plain _ _ _).bind fun _ => (px_plain _ _ _).bind fun _ => (px_plain _ _ _).bind fun _ =>
      (px_plain _ _ _).bind fun _ => pxW_plain _ _ _ _

theorem upsampleBody_plain (h f : Plane) : Plain (upsampleBody h f : Eng ρ Unit) :=
  Plain.state.bind fun _ => Plain.forN _ fun _ => Plain.forN _ fun _ =>
    (Plain.listN _ fun _ => px_plain _ _ _).bind fun _ => pxW_plain _ _ _ _

theorem splitBody_plain : Plain (splitBody : Eng ρ Unit) :=
  Plain.state.bind fun _ => Plain.forN _ fun _ => Plain.forN _ fun _ => Plain.state.bind fun _ =>
    (Plain.memRead _).bind fun _ => (Plain.memRead _).bind fun _ => (Plain.memRead _).bind fun _ =>
      (pxW_plain _ _ _ _).bind fun _ => (pxW_plain _ _ _ _).bind fun _ => pxW_plain _ _ _ _

theorem mergeBody_plain : Plain (mergeBody : Eng ρ Unit) :=
  Plain.state.bind fun _ => Plain.forN _ fun _ => Plain.forN _ fun _ => Plain.state.bind fun _ =>
    (px_plain _ _ _).bind fun _ => (px_plain _ _ _).bind fun _ => (px_plain _ _ _).bind fun _ =>
      (Plain.memWrite _ _).bind fun _ => (Plain.memWrite _ _).bind fun _ => Plain.memWrite _ _

theorem requireBlock_plain (p : Plane) (regions : State → List Region) : Plain (requireBlock p regions : Eng ρ Unit) :=
  Plain.state.bind fun _ => (Plain.require).bind fun _ => (Plain.require).bind fun _ =>
    Plain.require

theorem requireResample_plain (f h : Plane) : Plain (requireResample f h : Eng ρ Unit) :=
  Plain.state.bind fun _ => (Plain.require).bind fun _ => Plain.require

theorem requireImage_plain : Plain (requireImage : Eng ρ Unit) :=
  Plain.state.bind fun _ => (Plain.require).bind fun _ => Plain.require

theorem fetchRecord_plain : Plain (fetchRecord : Eng ρ (Byte × Byte × List Byte)) :=
  Plain.state.bind fun _ => (Plain.require).bind fun _ => (Plain.memRead _).bind fun _ =>
    (Plain.require).bind fun _ => (Plain.memRead _).bind fun _ =>
      (Plain.listN _ fun _ => Plain.memRead _).bind fun _ => Plain.pure _

theorem state_ends {f : State → Eng β β} {v : State} (h : (f v .finish).Safe v) : ((Machine.state >>= f) .finish).Safe v := h

theorem require_ends {f : Unit → Eng β β} {v : State} {c : Bool} {code : ErrCode} {stage : ErrStage} {index : Nat}
    (hf : c = true → (f () .finish).Safe v) (h : code ≠ .none ∧ stage ≠ .none := by decide) :
    ((Machine.require c code stage index >>= f) .finish).Safe v := by
  cases c
  · exact h
  · exact hf rfl

/-- A plain part before `done()`. -/
theorem Plain.done_safe {p : Eng Unit α} (hp : Plain p) (v : State) : ((p >>= fun _ => done) .finish).Safe v :=
  (hp fun _ => True).ends (fun _ w _ => Machine.done_safe w) trivial

/-! ## Parts of a command before its first record -/

/-- The engine stands at its command, where every register may be written. -/
def AtCommand (v : State) : Prop := v.engine.phase = .command

theorem atCommand_update {u : RegUpdate} (hlast : u.isLast = false := by rfl) (hcls : u.clsInRange := by trivial) :
    SafePart AtCommand (update u : Eng ρ Unit) fun _ => AtCommand := by
  have hphase (v : State) : (u.apply v).engine.phase = v.engine.phase := by
    obtain ⟨m, g, h⟩ := memAndRegsOnly_apply hlast v
    rw [h]
  exact SafePart.update hlast hcls (fun v hv => positionOk_of_command ((hphase v).trans hv)) fun v hv => (hphase v).trans hv

theorem sampleAt_le (p : List Byte) (x y : Nat) : sampleAt p x y ≤ 255 :=
  Nat.le_of_lt_succ (p.getD (y * 8 + x) 0).isLt

theorem gradAt_le (p : List Byte) (xy : Nat × Nat) : gradAt p xy ≤ 510 := by
  have hdiff {a b : Nat} (ha : a ≤ 255) (hb : b ≤ 255) : absDiff a b ≤ 255 := by
    unfold absDiff
    split <;> omega
  have h1 := hdiff (sampleAt_le p xy.1 xy.2) (sampleAt_le p (xy.1 + 1) xy.2)
  have h2 := hdiff (sampleAt_le p xy.1 xy.2) (sampleAt_le p xy.1 (xy.2 + 1))
  unfold gradAt
  omega

/-- `GRAD2` is in `0..510` (41_classifier.md R142, 10_state.md R35). -/
theorem grad2_le (g : Config.GradWindow) (p : List Byte) : grad2 g p ≤ 510 := by
  have hfold (l : List Nat) (m : Nat) (hm : m ≤ 510) (hl : ∀ x ∈ l, x ≤ 510) : l.foldl max m ≤ 510 := by
    induction l generalizing m with
    | nil => exact hm
    | cons x rest ih =>
      exact ih _ (Nat.max_le.2 ⟨hm, hl x List.mem_cons_self⟩) fun y hy => hl y (List.mem_cons_of_mem _ hy)
  refine hfold _ 0 (by decide) fun x hx => ?_
  obtain ⟨xy, _, rfl⟩ := List.mem_map.1 hx
  exact gradAt_le p xy

theorem classifyBlock_clsInRange (p : List Byte) : RegUpdate.clsInRange (.cls (classifyBlock p)) :=
  (Nat.mod_le _ _).trans (grad2_le gradWindow p)

theorem encodeStep_safe (forced : Option BlockMode) (b : Block) :
    SafePart AtCommand (encodeStep forced b : Eng ρ Unit) fun _ => AtCommand :=
  (readWindow_plain b _).bind fun p => (atCommand_update (hcls := classifyBlock_clsInRange p)).bind fun _ =>
    (Plain.state _).bind fun _ => ((Plain.require).part _).bind fun _ => (writeBytes_plain _ _ _).bind fun _ =>
      (atCommand_update).bind fun _ => atCommand_update

theorem writeHeader_safe : SafePart AtCommand (writeHeader : Eng ρ Unit) fun _ => AtCommand :=
  (Plain.state _).bind fun _ => ((Plain.require).part _).bind fun _ => (writeBytes_plain _ _ _).bind fun _ =>
    atCommand_update

/-! ## The programs of the commands -/

theorem packProgram_safe (w : Nat) (v : State) : ((packProgram w : Eng Unit Unit) .finish).Safe v :=
  (Plain.state fun _ => True).ends (fun _ _ _ => ((Plain.require).part fun _ => True).ends
    (fun _ w _ => (Plain.forN _ fun _ => (Plain.listN _ fun _ => Plain.memRead _).bind fun _ => Plain.memWrite _ _).done_safe w)
    trivial) trivial

theorem unpackProgram_safe (w : Nat) (v : State) : ((unpackProgram w : Eng Unit Unit) .finish).Safe v :=
  (Plain.state fun _ => True).ends (fun _ _ _ => ((Plain.require).part fun _ => True).ends
    (fun _ w _ => (Plain.forN _ fun _ => (Plain.memRead _).bind fun _ => Plain.forN _ fun _ => Plain.memWrite _ _).done_safe w)
    trivial) trivial

theorem classifyProgram_safe (plane : BitVec 2) {v : State} (hv : AtCommand v) :
    ((classifyProgram plane : Eng Unit Unit) .finish).Safe v := by
  unfold classifyProgram
  cases blockPlane plane with
  | none => exact ⟨nofun, nofun⟩
  | some p =>
    exact (requireBlock_plain _ _ AtCommand).ends (fun _ _ hv => (Plain.state AtCommand).ends (fun _ _ hv =>
      (readWindow_plain _ AtCommand).ends (fun p _ hv => (atCommand_update (hcls := classifyBlock_clsInRange p)).ends
        (fun _ w _ => done_safe w) hv) hv) hv) hv

theorem encodeBlockProgram_safe (plane : BitVec 2) (fmode : BitVec 3) {v : State} (hv : AtCommand v) :
    ((encodeBlockProgram plane fmode : Eng Unit Unit) .finish).Safe v := by
  unfold encodeBlockProgram
  cases blockPlane plane with
  | none => exact ⟨nofun, nofun⟩
  | some p =>
    cases forcedMode fmode with
    | none => exact ⟨nofun, nofun⟩
    | some forced =>
      exact (requireBlock_plain _ _ AtCommand).ends (fun _ _ hv => (Plain.state AtCommand).ends (fun _ _ hv =>
        (encodeStep_safe _ _).ends (fun _ w _ => done_safe w) hv) hv) hv

theorem downsampleProgram_safe (plane : BitVec 2) (v : State) : ((downsampleProgram plane : Eng Unit Unit) .finish).Safe v := by
  unfold downsampleProgram
  cases chromaPlanes plane with
  | none => exact ⟨nofun, nofun⟩
  | some planes =>
    exact (requireResample_plain _ _ fun _ => True).ends (fun _ w _ => (downsampleBody_plain _ _).done_safe w) trivial

theorem upsampleProgram_safe (plane : BitVec 2) (v : State) : ((upsampleProgram plane : Eng Unit Unit) .finish).Safe v := by
  unfold upsampleProgram
  cases chromaPlanes plane with
  | none => exact ⟨nofun, nofun⟩
  | some planes =>
    exact (requireResample_plain _ _ fun _ => True).ends (fun _ w _ => (upsampleBody_plain _ _).done_safe w) trivial

theorem splitProgram_safe (v : State) : ((splitProgram : Eng Unit Unit) .finish).Safe v :=
  (requireImage_plain fun _ => True).ends (fun _ w _ => splitBody_plain.done_safe w) trivial

theorem mergeProgram_safe (v : State) : ((mergeProgram : Eng Unit Unit) .finish).Safe v :=
  (requireImage_plain fun _ => True).ends (fun _ w _ => mergeBody_plain.done_safe w) trivial

theorem encodeImageProgram_safe (fmode : BitVec 3) (il : Bool) {v : State} (hv : AtCommand v) :
    ((encodeImageProgram fmode il : Eng Unit Unit) .finish).Safe v := by
  unfold encodeImageProgram
  cases forcedMode fmode with
  | none => exact ⟨nofun, nofun⟩
  | some forced =>
    have hencode (w h : Nat) {v : State} (hv : AtCommand v) : ((do
        downsampleBody .cbf .cbh
        downsampleBody .crf .crh
        writeHeader
        forN (blockTotal w h) fun n => encodeStep forced (blockAt w n)
        done : Eng Unit Unit) .finish).Safe v :=
      (downsampleBody_plain _ _ AtCommand).ends (fun _ _ hv => (downsampleBody_plain _ _ AtCommand).ends (fun _ _ hv =>
        writeHeader_safe.ends (fun _ _ hv => (SafePart.forN _ fun _ => encodeStep_safe _ _).ends
          (fun _ w _ => done_safe w) hv) hv) hv) hv
    refine (Plain.state AtCommand).ends (fun s _ hv => ?_) hv
    refine ((Plain.require).part AtCommand).ends (fun _ _ hv => ?_) hv
    refine ((Plain.require).part AtCommand).ends (fun _ _ hv => ?_) hv
    refine (atCommand_update).ends (fun _ _ hv => ?_) hv
    cases il with
    | false => exact hencode _ _ hv
    | true => exact (splitBody_plain AtCommand).ends (fun _ _ hv => hencode _ _ hv) hv

/-- From valid dimensions on, an image has a first block (44_container.md R230). -/
theorem blockTotal_pos {w h : Half} (hd : validDims w h = true) : 0 < blockTotal w.toNat h.toNat := by
  obtain ⟨hw, hh, hw16, hh16⟩ := (validDims_iff w h).1 hd
  have hpos : 0 < w.toNat / 16 * (h.toNat / 16) := Nat.mul_pos (by omega) (by omega)
  rw [blockTotal_eq]
  omega

/-- DECODE_BLOCK comes to its record with everything checked (42_block_codec.md R178). -/
theorem decodeBlockProgram_safe (plane : BitVec 2) {v : State} (hv : runningCommand v = .decodeBlock plane) :
    ((decodeBlockProgram plane : Eng Unit Unit) .finish).Safe v := by
  unfold decodeBlockProgram
  cases hp : blockPlane plane with
  | none => exact ⟨nofun, nofun⟩
  | some p =>
    refine SafePart.ends (P := fun v => runningCommand v = .decodeBlock plane)
      (Q := fun _ v => runningCommand v = .decodeBlock plane ∧ validDims v.regs.width v.regs.height = true ∧
        windowInside v p = true ∧ allInBounds v [planeRegion v p, streamRegion v] = true) ?checks ?move hv
    case checks =>
      refine SafePart.state.bind fun s => ?_
      refine (SafePart.require).bind fun _ => (SafePart.require).bind fun _ => (SafePart.require).weaken ?_
      rintro _ w ⟨⟨⟨⟨rfl, hcmd⟩, hdims⟩, hwindow⟩, hregions⟩
      exact ⟨hcmd, hdims, hwindow, hregions⟩
    case move =>
      rintro _ s ⟨hcmd, hdims, hwindow, hregions⟩
      refine state_ends ?_
      refine ⟨trivial, fun _ _ => ⟨hdims, ?_⟩, fun _ => ⟨(), rfl⟩, trivial⟩
      have hcmd' : runningCommand (s.atRecord (singleBlock s p)) = .decodeBlock plane := hcmd
      show decodingOk (s.atRecord (singleBlock s p))
      unfold decodingOk
      rw [hcmd']
      refine ⟨p, hp, rfl, ?_⟩
      cases p <;> exact ⟨hwindow, hregions⟩

/-- DECODE_IMAGE with its stream in bounds, before its first record. -/
def StreamChecked (il : Bool) (v : State) : Prop :=
  AtCommand v ∧ runningCommand v = .decodeImage il ∧ allInBounds v [streamRegion v] = true

/-- DECODE_IMAGE writes no register before its first record that its stream's region depends on. -/
theorem streamChecked_update {il : Bool} {u : RegUpdate}
    (hkeep : ∀ v, StreamChecked il v → StreamChecked il (u.apply v).view) (hlast : u.isLast = false := by rfl)
    (hcls : u.clsInRange := by trivial) :
    SafePart (StreamChecked il) (update u : Eng ρ Unit) fun _ => StreamChecked il :=
  SafePart.update hlast hcls (fun v hv => positionOk_of_command (s := u.apply v) (hkeep v hv).1) hkeep

theorem readHeader_safe (il : Bool) : SafePart (StreamChecked il) (readHeader : Eng ρ Unit) fun _ => StreamChecked il := by
  refine (Plain.state _).bind fun _ => ((Plain.require).part _).bind fun _ => ?_
  refine (SafePart.memRead _).bind fun _ => (SafePart.memRead _).bind fun _ => ?_
  refine (SafePart.memRead _).bind fun _ => (SafePart.memRead _).bind fun _ => ?_
  refine (streamChecked_update (u := .width _) fun _ hv => hv).bind fun _ => ?_
  refine (streamChecked_update (u := .height _) fun _ hv => hv).bind fun _ => ?_
  exact streamChecked_update (u := .streamPtr 4) fun _ hv => hv

/-- DECODE_IMAGE comes to its first record with everything checked (44_container.md R238). -/
theorem decodeImageProgram_safe (il : Bool) {v : State} (hphase : AtCommand v) (hv : runningCommand v = .decodeImage il) :
    ((decodeImageProgram il : Eng Unit Unit) .finish).Safe v := by
  refine state_ends (require_ends fun hstream => ?_)
  refine (streamChecked_update (u := .streamPtr 0) fun _ hv => hv).ends (fun _ w hw => ?_) ⟨hphase, hv, hstream⟩
  refine (readHeader_safe il).ends (fun _ s hs => ?_) hw
  obtain ⟨hphase, hcmd, hstream⟩ := hs
  refine state_ends (require_ends fun hdims => require_ends fun hregions => ?_)
  refine ⟨trivial, fun _ _ => ⟨hdims, ?_⟩, fun _ => ⟨(), rfl⟩, trivial⟩
  have hcmd' : runningCommand (s.atRecord (blockAt (imageWidth s) 0)) = .decodeImage il := hcmd
  show decodingOk (s.atRecord (blockAt (imageWidth s) 0))
  unfold decodingOk
  rw [hcmd']
  refine ⟨⟨0, blockTotal_pos hdims, rfl⟩, ?_⟩
  rw [allInBounds_iff] at hstream hregions ⊢
  intro r hr
  rcases List.mem_cons.1 hr with rfl | hr
  · exact hstream _ (List.mem_singleton.2 rfl)
  · exact hregions r hr

/-! ## Every program -/

/-- A command's program, while the engine stands at it. -/
theorem command_safe {v : State} (hv : AtCommand v) : ((program (runningCommand v) : Eng Unit Unit) .finish).Safe v := by
  cases hi : runningCommand v with
  | nop => exact done_safe v
  | pack2 => exact packProgram_safe 2 v
  | pack4 => exact packProgram_safe 4 v
  | unpack2 => exact unpackProgram_safe 2 v
  | unpack4 => exact unpackProgram_safe 4 v
  | classify plane => exact classifyProgram_safe plane hv
  | encodeBlock plane fmode => exact encodeBlockProgram_safe plane fmode hv
  | decodeBlock plane => exact decodeBlockProgram_safe plane hi
  | downsample plane => exact downsampleProgram_safe plane v
  | upsample plane => exact upsampleProgram_safe plane v
  | split => exact splitProgram_safe v
  | merge => exact mergeProgram_safe v
  | encodeImage fmode il => exact encodeImageProgram_safe fmode il hv
  | decodeImage il => exact decodeImageProgram_safe il hv hi
  | illegalCommand low => exact ⟨nofun, nofun⟩
  | skip base => exact trivial
  | solid base fill => exact (decodeInto_plain _ fun _ => True) v _ trivial fun _ _ _ => trivial
  | half2 base range samples => exact (decodeInto_plain _ fun _ => True) v _ trivial fun _ _ _ => trivial
  | full2 base range samples => exact (decodeInto_plain _ fun _ => True) v _ trivial fun _ _ _ => trivial
  | full4 base range samples => exact (decodeInto_plain _ fun _ => True) v _ trivial fun _ _ _ => trivial

theorem recordInstr_plain (control range : Byte) (samples : List Byte) :
    Plain (program (recordInstr control range samples) : Eng ρ Unit) := by
  unfold recordInstr
  split
  · split
    · exact Plain.pure ()
    · exact decodeInto_plain _
  · exact decodeInto_plain _
  · exact decodeInto_plain _
  · exact decodeInto_plain _

theorem nextPosition_clsInRange (s : State) : (nextPosition s).clsInRange := by
  unfold nextPosition
  dsimp only
  split <;> trivial

theorem afterRecord_regs (len : Nat) (s : State) : (afterRecord len s).regs =
    { s.regs with
      streamPtr := BitVec.ofNat 32 (s.regs.streamPtr.toNat + len),
      blkCount := BitVec.ofNat 32 (s.engine.block.index + 1) } := by
  unfold afterRecord nextPosition
  dsimp only
  split <;> rfl

theorem afterRecord_runningCommand (len : Nat) (s : State) : runningCommand (afterRecord len s) = runningCommand s := by
  unfold afterRecord nextPosition
  dsimp only
  split <;> rfl

/-- The position behind a record is one of the command's own (42_block_codec.md R178, 44_container.md R238). -/
theorem decodingOk_afterRecord {v : State} (len : Nat) (h : decodingOk v) : decodingOk (afterRecord len v) := by
  unfold decodingOk at h ⊢
  rw [afterRecord_runningCommand]
  cases hi : runningCommand v with
  | decodeBlock plane =>
    rw [hi] at h
    obtain ⟨p, hp, hb, hwindow, hregions⟩ := h
    have hlast : ¬v.engine.block.index + 1 < recordTotal v := by
      simp only [hb, recordTotal, hi, singleBlock]
      decide
    refine ⟨p, hp, ?_⟩
    simp only [afterRecord, nextPosition, hlast, if_false, RegUpdate.apply]
    cases p <;> exact ⟨hb, hwindow, hregions⟩
  | decodeImage il =>
    rw [hi] at h
    obtain ⟨⟨n, hn, hb⟩, hregions⟩ := h
    have htotal : recordTotal v = blockTotal (imageWidth v) (imageHeight v) := by rw [recordTotal, hi]
    unfold afterRecord nextPosition
    dsimp only
    split
    · rename_i hlt
      exact ⟨⟨_, htotal ▸ hlt, rfl⟩, hregions⟩
    · exact ⟨⟨n, hn, hb⟩, hregions⟩
  | _ => rw [hi] at h; exact h

/-- A record's program, while the engine stands at it. -/
theorem recordProgram_safe {v : State} (hmode : v.engine.mode = .run) (hphase : v.engine.phase = .record)
    (hpos : positionOk v) : ((recordProgram : Eng Unit Unit) .finish).Safe v := by
  have hfetch : SafePart (fun w => w = v) (fetchInstr : Eng Unit (Instr × Nat))
      fun r w => w = v ∧ ∃ control range samples, r.1 = recordInstr control range samples :=
    (fetchRecord_plain _).bind fun (c, r, samples) => SafePart.pure fun _ hw => ⟨hw, c, r, samples, rfl⟩
  refine hfetch.ends (fun (i, len) w hw => ?_) rfl
  obtain ⟨hw, c, r, samples, rfl : i = _⟩ := hw
  refine (recordInstr_plain c r samples fun w => w = v).ends (fun _ w hw => ?_) hw
  subst hw
  obtain ⟨hdims, hdecoding⟩ := hpos hmode (by rw [hphase]; decide)
  refine state_ends ⟨trivial, hpos, nofun, trivial, hpos, nofun, nextPosition_clsInRange w, ?_, fun _ => ⟨(), rfl⟩, trivial⟩
  have hafter : positionOk (afterRecord len w) :=
    fun _ _ => ⟨by rw [afterRecord_regs]; exact hdims, decodingOk_afterRecord len hdecoding⟩
  refine (positionOk_congr ?_).1 hafter
  unfold afterRecord nextPosition
  dsimp only
  split <;> rfl

/-- The end of a decoding command. -/
theorem finishProgram_safe (s v : State) : ((finishProgram s : Eng Unit Unit) .finish).Safe v := by
  unfold finishProgram
  cases runningCommand s with
  | decodeImage il =>
    refine (upsampleBody_plain _ _ fun _ => True).ends (fun _ _ _ => (upsampleBody_plain _ _ fun _ => True).ends
      (fun _ w _ => ?_) trivial) trivial
    cases il with
    | false => exact done_safe w
    | true => exact mergeBody_plain.done_safe w
  | _ => exact done_safe v

end Sys2Proof.Machine
end

section
/-! SUPPORT. The invariant under every turn: the engine's, and each move of the host. -/

namespace Sys2Proof.Machine

/-! ## The engine's turns -/

/-- The program of the engine's next instruction is safe. -/
theorem stretch_safe {s : State} (hmode : s.engine.mode = .run) (hpos : positionOk s) :
    (stretch s .finish).Safe s.view := by
  have hview := (positionOk_view s).2 hpos
  unfold stretch
  cases hp : s.engine.phase with
  | command => exact command_safe (v := s.view) hp
  | record => exact recordProgram_safe hmode hp hview
  | finish => exact finishProgram_safe s s.view

/-- What is left of the engine's current instruction is safe. -/
theorem remaining_safe {s : State} (h : Inv s) (hmode : s.engine.mode = .run) : (remaining s).Safe s.view := by
  unfold remaining
  split
  · exact stretch_safe hmode h.position
  · rename_i u hu
    obtain ⟨_, m, hentry, hwalk⟩ := h.underway u hu
    exact Prog.Safe.replay (s := entryState s u m) (t := s.atBoundary) (stretch_safe (s := entryState s u m) hmode hentry) hwalk

/-- The reset state of the engine is idle, so a running machine is not held in reset (70_reset_and_hazards.md R300). -/
theorem Inv.engineInv {s : State} (h : Inv s) (hmode : s.engine.mode = .run) : EngineInv s.atBoundary := by
  refine ⟨h.status, h.mem, h.platform, h.cls, (positionOk_congr (s := s) rfl).2 h.position, ?_, rfl⟩
  cases hr : s.rst with
  | false => exact hr
  | true =>
    obtain ⟨_, _, hengine⟩ := h.reset hr
    rw [hengine] at hmode
    cases hmode

theorem lastState_mapState_atBoundary (o : Except Stop (Unit × State)) :
    lastState (mapState State.atBoundary o) = atBoundary (lastState o) := by
  rcases o with (t | f) | ⟨_, t⟩ <;> rfl

/-- The engine's move is the run of what is left of its instruction, from its place in the instruction on. -/
theorem engineTurn_run {s : State} (hmode : s.engine.mode = .run) :
    engineTurn s = lastState ((remaining s).run s.atBoundary) := by
  cases hu : s.engine.underway with
  | none =>
    have hs : s.atBoundary = s := by
      unfold State.atBoundary
      rw [← hu]
    rw [hs, engineTurn_eq_run hmode hu]
  | some u =>
    rw [engineTurn_underway hmode hu, ← lastState_mapState_atBoundary]
    exact congrArg lastState (run_map (unread_underway none) _ s).symm

theorem engineTurn_keeps_inv {s t : State} (h : Inv s) (ht : engineTurn s = .next t) : Inv t := by
  cases hmode : s.engine.mode with
  | idle => rw [engineTurn_idle hmode] at ht; cases ht; exact h
  | run =>
    rw [engineTurn_run hmode] at ht
    exact ((remaining_safe h hmode).run (s := s.atBoundary) (h.engineInv hmode) ht).inv

/-- Inside an instruction, one engine step that others follow is one step further on the way from the instruction's begin. -/
theorem underwayOk_of_more {s t : State} {answer : Option Byte} (h : Inv s) (hmode : s.engine.mode = .run)
    (hsame : memAndRegsOnly s.atBoundary t) (hmore : (remaining s).once s.atBoundary = .more answer t) :
    underwayOk { t with engine := { t.engine with underway := some (noteStep s answer) } } := by
  obtain ⟨m, g, rfl⟩ := hsame
  intro u' hu'
  obtain rfl : noteStep s answer = u' := Option.some.inj hu'
  refine ⟨hmode, ?_⟩
  unfold remaining at hmore
  unfold noteStep
  cases hu : s.engine.underway with
  | none =>
    rw [hu] at hmore
    refine ⟨s.mem, (positionOk_congr (s := s) rfl).2 h.position, ?_⟩
    rcases settle_finish_or_walk (stretch s .finish) s.atBoundary with ⟨_, hfinish, _⟩ | ⟨hwalk, _⟩
    · simp [Prog.once, hfinish] at hmore
    · have hfirst := walk_first hwalk
      rw [hmore] at hfirst
      exact hfirst
  | some u =>
    rw [hu] at hmore
    obtain ⟨_, m, hentry, hwalk⟩ := h.underway u hu
    refine ⟨m, hentry, ?_⟩
    have hnext := walk_once hwalk
    rw [show (entryState s u m).view = State.view { s with regs := u.entry } from rfl, hmore] at hnext
    rw [List.length_append]
    exact hnext

theorem engineStep_keeps_inv {s t : State} (h : Inv s) (ht : engineStep s = .next t) : Inv t := by
  cases hmode : s.engine.mode with
  | idle => rw [engineStep_idle hmode] at ht; cases ht; exact h
  | run =>
    have hkept := (remaining_safe h hmode).once (s := s.atBoundary) (h.engineInv hmode)
    have honce : (remaining s).once s.atBoundary = ((remaining s).once s).map State.atBoundary :=
      once_map (unread_underway none) _ s
    rw [engineStep_run hmode] at ht
    cases hstep : (remaining s).once s with
    | fault f => rw [hstep] at ht; cases ht
    | ended u =>
      rw [honce, hstep] at hkept
      rw [hstep] at ht
      cases ht
      exact hkept.inv
    | more answer u =>
      rw [hstep] at ht honce
      rw [honce] at hkept
      cases ht
      obtain ⟨hu, hsame⟩ := hkept
      exact ⟨hu.status, hu.mem, hu.platform, resetOk_of_rst_false hu.rst, hu.cls,
        (positionOk_congr (s := u.atBoundary) rfl).2 hu.position, underwayOk_of_more (t := u.atBoundary) h hmode hsame honce⟩

/-! ## Moves of the host that the engine does not see -/

/-- A change that goes past every engine step and past the invariant, but for `resetOk`. -/
structure Surrounding (f : State → State) : Prop extends Unread f where
  engine : ∀ s, (f s).engine = s.engine
  status : ∀ s, (f s).status = s.status
  mem : ∀ s, (f s).mem = s.mem
  entry : ∀ s u m, entryState (f s) u m = f (entryState s u m)
  boundary : ∀ s, (f s).atBoundary = f s.atBoundary

theorem surrounding_agenda (l : List Turn) : Surrounding fun s => { s with agenda := l } :=
  ⟨unread_agenda l, fun _ => rfl, fun _ => rfl, fun _ => rfl, fun _ _ _ => rfl, fun _ => rfl⟩

theorem surrounding_draws (n : Nat) : Surrounding fun s => { s with draws := n } :=
  ⟨unread_draws n, fun _ => rfl, fun _ => rfl, fun _ => rfl, fun _ _ _ => rfl, fun _ => rfl⟩

theorem surrounding_reply (r : Reply) : Surrounding fun s => { s with reply := r } :=
  ⟨unread_reply r, fun _ => rfl, fun _ => rfl, fun _ => rfl, fun _ _ _ => rfl, fun _ => rfl⟩

theorem surrounding_irqEn (b : Bool) : Surrounding fun s => { s with regs := { s.regs with irqEn := b } } :=
  ⟨unread_irqEn b, fun _ => rfl, fun _ => rfl, fun _ => rfl, fun _ _ _ => rfl, fun _ => rfl⟩

theorem surrounding_rst (b : Bool) : Surrounding fun s => { s with rst := b } :=
  ⟨unread_rst b, fun _ => rfl, fun _ => rfl, fun _ => rfl, fun _ _ _ => rfl, fun _ => rfl⟩

theorem Surrounding.underwayOk {f : State → State} (hf : Surrounding f) {s : State} (h : underwayOk s) :
    underwayOk (f s) := by
  intro u hu
  rw [hf.engine] at hu
  obtain ⟨hmode, m, hpos, hwalk⟩ := h u hu
  have hstretch : stretch (f s) = (stretch s : Eng Unit Unit) := by
    unfold stretch finishProgram runningCommand
    rw [hf.engine]
  refine ⟨by rw [hf.engine]; exact hmode, m, ?_, ?_⟩
  · rw [hf.entry]
    exact (positionOk_congr (hf.view _)).2 hpos
  · rw [hf.entry, hstretch, walk_map hf.toUnread, hwalk, hf.boundary]
    rfl

theorem Surrounding.inv {f : State → State} (hf : Surrounding f) {s : State} (h : Inv s) (hreset : resetOk (f s)) :
    Inv (f s) := by
  have hcls : (f s).regs.cls = s.regs.cls := congrArg (·.regs.cls) (hf.view s)
  refine ⟨?_, ?_, ?_, hreset, ?_, (positionOk_congr (hf.view s)).2 h.position, hf.underwayOk h.underway⟩
  · unfold statusOk
    rw [hf.status, hf.engine]
    exact h.status
  · unfold memOk
    rw [hf.mem, hf.platform]
    exact h.mem
  · unfold platformOk
    rw [hf.platform]
    exact h.platform
  · unfold clsOk
    rw [hcls]
    exact h.cls

theorem Inv.set_agenda {s : State} (l : List Turn) (h : Inv s) : Inv { s with agenda := l } :=
  (surrounding_agenda l).inv h h.reset

theorem Inv.set_draws {s : State} (n : Nat) (h : Inv s) : Inv { s with draws := n } :=
  (surrounding_draws n).inv h h.reset

theorem Inv.set_reply {s : State} (r : Reply) (h : Inv s) : Inv { s with reply := r } :=
  (surrounding_reply r).inv h h.reset

theorem Inv.set_irqEn {s : State} (b : Bool) (hrst : s.rst = false) (h : Inv s) :
    Inv { s with regs := { s.regs with irqEn := b } } :=
  (surrounding_irqEn b).inv h (resetOk_of_rst_false hrst)

/-- Releasing `rst` (70_reset_and_hazards.md R300). -/
theorem Inv.release_rst {s : State} (h : Inv s) : Inv { s with rst := false } :=
  (surrounding_rst false).inv h (resetOk_of_rst_false rfl)

/-! ## Resets -/

/-- The reset values of the registers and the engine have the invariant, whatever `MEM` holds. -/
theorem inv_of_reset {s : State} (hregs : s.regs = Regs.reset) (hstatus : s.status = Status.reset)
    (hengine : s.engine = Engine.reset) (hmem : memOk s) (hplatform : platformOk s) : Inv s := by
  refine ⟨?_, hmem, hplatform, fun _ => ⟨hregs, hstatus, hengine⟩, ?_, positionOk_of_idle (by rw [hengine]; rfl), ?_⟩
  · unfold statusOk
    rw [hstatus, hengine]
    decide
  · unfold clsOk
    rw [hregs]
    decide
  · exact underwayOk_of_underway_none (by rw [hengine]; rfl)

/-- A program cut short leaves `MEM` as the machine may hold it (70_reset_and_hazards.md R301). -/
theorem memOk_cut {ρ : Type} {p : Prog ρ} {k : Nat} {s t : State} (h : memOk s) (ht : p.cut k s = .ok t) :
    memOk t ∧ t.platform = s.platform := by
  induction p generalizing k s with
  | finish a => cases ht; exact ⟨h, rfl⟩
  | look next ih => exact ih _ h ht
  | read a next ih =>
    cases k with
    | zero => cases ht; exact ⟨h, rfl⟩
    | succ k =>
      simp only [Prog.cut] at ht
      split at ht
      · exact ih _ h ht
      · cases ht
  | write a v next ih =>
    cases k with
    | zero => cases ht; exact ⟨h, rfl⟩
    | succ k =>
      simp only [Prog.cut] at ht
      split at ht
      · exact ih (s := s.setByte a v) (memOk_setByte v h ‹_›) ht
      · cases ht
  | set u next ih =>
    have hmem : memOk (u.apply s) ∧ (u.apply s).platform = s.platform := by cases u <;> exact ⟨h, rfl⟩
    cases k with
    | zero => cases ht; exact ⟨h, rfl⟩
    | succ k =>
      obtain ⟨hok, hplatform⟩ := ih hmem.1 ht
      exact ⟨hok, hplatform.trans hmem.2⟩
  | fail code stage index => cases k <;> cases ht <;> exact ⟨h, rfl⟩

theorem takeReset_keeps_inv {s t : State} (hmem : memOk s) (hplatform : platformOk s) (ht : takeReset s = .next t) :
    Inv t := by
  unfold takeReset at ht
  split at ht
  · cases ht
    exact inv_of_reset rfl rfl rfl hmem hplatform
  · split at ht
    · rename_i m hcut
      cases ht
      unfold cutMem at hcut
      cases hprog : (remaining s).cut (Config.cutPoint s.draws) s with
      | error f => rw [hprog] at hcut; cases hcut
      | ok u =>
        rw [hprog] at hcut
        cases hcut
        obtain ⟨⟨hwf, hlt⟩, hsame⟩ := memOk_cut hmem hprog
        rw [hsame] at hlt
        exact inv_of_reset rfl rfl rfl ⟨hwf, hlt⟩ hplatform
    · cases ht

/-! ## Register and memory accesses of the host -/

theorem Inv.underway_of_idle {s : State} (h : Inv s) (hidle : s.engine.mode = .idle) : s.engine.underway = none := by
  cases hu : s.engine.underway with
  | none => rfl
  | some u =>
    obtain ⟨hrun, _⟩ := h.underway u hu
    rw [hidle] at hrun
    cases hrun

theorem idle_of_not_busy {s : State} (h : ¬s.busy = true) : s.engine.mode = .idle := by
  cases hm : s.engine.mode with
  | idle => rfl
  | run => exact absurd ((busy_iff s).2 hm) h

theorem hostRegRead_keeps_inv {s : State} (off : Byte) (h : Inv s) : Inv (hostRegRead off s) := by
  unfold hostRegRead
  split
  · refine Inv.set_reply _ ?_
    unfold readReg
    split
    · exact h.set_draws _
    · exact h
  · exact h.set_reply _

/-- An accepted start clears the last command's report, so that the engine runs with neither `DONE` nor `ERR` set
(10_state.md R37, R39). -/
theorem start_keeps_inv {s : State} (h : Inv s) (hrst : s.rst = false) : Inv s.start := by
  have hstatus : statusOk s.start := ⟨fun _ => ⟨rfl, rfl⟩, nofun, fun _ => rfl, fun _ => ⟨rfl, rfl⟩⟩
  exact ⟨hstatus, h.mem, h.platform, resetOk_of_rst_false hrst, h.cls, positionOk_of_command rfl,
    underwayOk_of_underway_none rfl⟩

theorem acknowledge_statusOk {s : State} (v : Word) (h : statusOk s) : statusOk (s.acknowledge v) := by
  obtain ⟨hnone, hsome, hindex, hrun⟩ := h
  unfold statusOk
  rw [acknowledge_status, acknowledge_engine]
  unfold Status.acknowledge
  cases v.getLsbD 2 with
  | true => exact ⟨fun _ => ⟨rfl, rfl⟩, fun he => absurd he (by simp), fun _ => rfl, fun hr => by simp [hrun hr]⟩
  | false => exact ⟨by simpa using hnone, by simpa using hsome, hindex, fun hr => by simp [hrun hr]⟩

theorem writeArgument_cls (r : Reg) (v : Word) (g : Regs) : (writeArgument r v g).cls = g.cls := by
  cases r <;> rfl

/-- While idle and not held in reset, `STATUS` and the registers but `CLS_GRAD` can change freely. -/
theorem Inv.idle_update {s : State} {g : Regs} {st : Status} (h : Inv s) (hidle : s.engine.mode = .idle)
    (hrst : s.rst = false) (hcls : g.cls = s.regs.cls) (hstatus : statusOk { s with status := st }) :
    Inv { s with regs := g, status := st } := by
  refine ⟨hstatus, h.mem, h.platform, resetOk_of_rst_false hrst, ?_, positionOk_of_idle hidle,
    underwayOk_of_underway_none (h.underway_of_idle hidle)⟩
  unfold clsOk
  rw [hcls]
  exact h.cls

theorem writeCtrl_keeps_inv {s t : State} (v : Word) (h : Inv s) (hrst : s.rst = false)
    (ht : writeCtrl v s = .next t) : Inv t := by
  unfold writeCtrl at ht
  split at ht
  · exact takeReset_keeps_inv h.mem h.platform ht
  · dsimp only at ht
    split at ht
    · cases ht; exact start_keeps_inv (h.set_irqEn _ hrst) hrst
    · cases ht; exact h.set_irqEn _ hrst

theorem hostRegWrite_keeps_inv {s t : State} (off : Byte) (v : Word) (h : Inv s)
    (ht : hostRegWrite off v s = .next t) : Inv t := by
  unfold hostRegWrite at ht
  split at ht
  · cases ht; exact h
  · have hrst : s.rst = false := by simpa using ‹¬s.rst = true›
    split at ht
    · cases ht; exact h
    · exact writeCtrl_keeps_inv v h hrst ht
    · split at ht
      · cases ht; exact h
      · cases ht; exact h.idle_update (idle_of_not_busy ‹_›) hrst rfl (acknowledge_statusOk v h.status)
    · split at ht
      · cases ht; exact h
      · cases ht; exact h.idle_update (idle_of_not_busy ‹_›) hrst (writeArgument_cls _ _ _) h.status

theorem memPortRead_keeps_inv {s t : State} (off n : Nat) (h : Inv s) (ht : memPortRead off n s = .next t) : Inv t := by
  unfold memPortRead at ht
  split at ht
  · cases ht; exact (h.set_draws (if s.busy then s.draws + 1 else s.draws)).set_reply _
  · cases ht

theorem memPortWrite_keeps_inv {s t : State} (off : Nat) (bytes : List Byte) (h : Inv s)
    (ht : memPortWrite off bytes s = .next t) : Inv t := by
  unfold memPortWrite at ht
  split at ht
  · cases ht
  · have hidle := idle_of_not_busy ‹_›
    obtain ⟨hwf, hlt⟩ := h.mem
    split at ht
    · cases ht
      refine ⟨h.status, ⟨memInsertAll_wf _ _ _ hwf, fun c hc => ?_⟩, h.platform, h.reset, h.cls, positionOk_of_idle hidle,
        underwayOk_of_underway_none (h.underway_of_idle hidle)⟩
      rcases mem_memInsertAll _ _ _ hc with ⟨_, hc⟩ | hc
      · exact Nat.lt_of_lt_of_le hc ‹_›
      · exact hlt c hc
    · cases ht

/-! ## Every move of the host -/

theorem regPortRead_keeps_inv {s t : State} (off : Byte) (size : Nat) (h : Inv s) (ht : regPortRead off size s = .next t) :
    Inv t := by
  unfold regPortRead at ht
  split at ht
  · cases ht; exact hostRegRead_keeps_inv off h
  · cases ht

theorem regPortWrite_keeps_inv {s t : State} (off : Byte) (size : Nat) (v : Word) (h : Inv s)
    (ht : regPortWrite off size v s = .next t) : Inv t := by
  unfold regPortWrite at ht
  split at ht
  · exact hostRegWrite_keeps_inv off v h ht
  · cases ht

theorem setRst_keeps_inv {s t : State} (level : Bool) (h : Inv s) (ht : setRst level s = .next t) : Inv t := by
  cases level with
  | false => cases ht; exact h.release_rst
  | true => exact takeReset_keeps_inv (s := { s with rst := true }) h.mem h.platform ht

theorem hostMove_keeps_inv {s t : State} (m : HostMove) (h : Inv s) (ht : hostMove m s = .next t) : Inv t := by
  cases m with
  | regRead off size => exact regPortRead_keeps_inv off size h ht
  | regWrite off size v => exact regPortWrite_keeps_inv off size v h ht
  | memRead off n => exact memPortRead_keeps_inv off n h ht
  | memWrite off bytes => exact memPortWrite_keeps_inv off bytes h ht
  | busRead addr n =>
    simp only [hostMove, busPortRead] at ht
    split at ht
    · exact regPortRead_keeps_inv _ _ h ht
    · exact memPortRead_keeps_inv _ _ h ht
    · cases ht
  | busWrite addr bytes =>
    simp only [hostMove, busPortWrite] at ht
    split at ht
    · exact regPortWrite_keeps_inv _ _ _ h ht
    · exact memPortWrite_keeps_inv _ _ h ht
    · cases ht
  | setRst level => exact setRst_keeps_inv level h ht

/-- Settles O9, by what each turn keeps. -/
theorem stepKeepsInvariant : Obligations.StepKeepsInvariant := by
  intro s t h ht
  cases ha : s.agenda with
  | nil => rw [step_nil ha] at ht; exact engineTurn_keeps_inv h ht
  | cons head rest =>
    cases head with
    | host m => rw [step_host ha] at ht; exact hostMove_keeps_inv m (h.set_agenda rest) ht
    | engine => rw [step_engine ha] at ht; exact engineTurn_keeps_inv (h.set_agenda rest) ht
    | engineStep => rw [step_engineStep ha] at ht; exact engineStep_keeps_inv (h.set_agenda rest) ht
    | wait =>
      rw [step_wait ha] at ht
      split at ht
      · exact engineTurn_keeps_inv h ht
      · cases ht; exact h.set_agenda rest

end Sys2Proof.Machine
end

section
/-! SUPPORT. The register window (10_state.md R22 to R37): which register an offset names, what a register access of the step
answers, the word of each register in its fields, and what a write of one register leaves of the others. -/

namespace Sys2Proof.Machine

/-! ## The register an offset names -/

/-- The register map of 10_state.md R22, one register for each word of the window. -/
theorem regAt_eq_getElem? (off : Byte) : regAt off =
    [Reg.ctrl, .cmd, .status, .errIndex, .width, .height, .blkX, .blkY, .yBase, .cbfBase, .crfBase, .cbhBase, .crhBase,
      .imgBase, .streamBase, .streamLen, .streamPtr, .pkSrc, .pkDst, .pkCount, .clsMinMax, .clsGrad,
      .blkCount][off.toNat / 4]? := by
  unfold regAt
  generalize off.toNat / 4 = n
  by_cases hn : n < 23
  · interval_cases n <;> rfl
  · obtain ⟨k, rfl⟩ := Nat.exists_eq_add_of_le' (not_lt.1 hn)
    rfl

theorem regAt_eq_none_iff (off : Byte) : regAt off = none ↔ 0x5C ≤ off.toNat := by
  rw [regAt_eq_getElem?, List.getElem?_eq_none_iff]
  simp only [List.length_cons, List.length_nil]
  omega

/-- Address bits 1:0 are ignored (10_state.md R23). -/
theorem regAt_and_FC (off : Byte) : regAt off = regAt (off &&& 0xFC) := by
  have hword : (off &&& 0xFC).toNat / 4 = off.toNat / 4 := by
    rw [BitVec.toNat_and, show (4 : Nat) = 2 ^ 2 from rfl, Nat.and_div_two_pow]
    rw [show (0xFC : Byte).toNat / 2 ^ 2 = 2 ^ 6 - 1 from rfl, Nat.and_two_pow_sub_one_eq_mod]
    omega
  rw [regAt_eq_getElem?, regAt_eq_getElem?, hword]

theorem regAt_ctrl {off : Byte} (h : off.toNat < 4) : regAt off = some .ctrl := by
  rw [regAt_eq_getElem?, show off.toNat / 4 = 0 by omega]
  rfl

/-! ## Register accesses of the step -/

theorem step_regRead {s : State} {off : Byte} {rest : List Turn} (h : s.agenda = .host (.regRead off 4) :: rest) :
    step s = .next (hostRegRead off { s with agenda := rest }) := by
  rw [step_host h]
  rfl

theorem step_regWrite {s : State} {off : Byte} {v : Word} {rest : List Turn}
    (h : s.agenda = .host (.regWrite off 4 v) :: rest) : step s = hostRegWrite off v { s with agenda := rest } := by
  rw [step_host h]
  rfl

theorem not_busy_of_idle {s : State} (h : s.engine.mode = .idle) : s.busy = false := by
  simp [State.busy, h]

/-- Idle and not held in reset, a write to a register other than `CTRL` and `STATUS` stores it (10_state.md R23). -/
theorem hostRegWrite_argument {s : State} {off : Byte} (v : Word) {r : Reg} (hrst : s.rst = false)
    (hidle : s.engine.mode = .idle) (hr : regAt off = some r) (hctrl : r ≠ .ctrl) (hstatus : r ≠ .status) :
    hostRegWrite off v s = .next { s with regs := writeArgument r v s.regs } := by
  unfold hostRegWrite
  rw [hr, hrst, not_busy_of_idle hidle]
  cases r <;> simp at hctrl hstatus ⊢

/-- A write to `CTRL` with `START` and without `SRST`, while idle (10_state.md R24, R39). -/
theorem writeCtrl_start {s : State} {v : Word} (hsrst : v.getLsbD 1 = false) (hstart : v.getLsbD 0 = true)
    (hbusy : s.busy = false) :
    writeCtrl v s = .next (State.start { s with regs := { s.regs with irqEn := v.getLsbD 2 } }) := by
  unfold writeCtrl
  rw [hsrst, hstart, hbusy]
  rfl

/-- A write to `CTRL` with neither `START` nor `SRST` (10_state.md R24). -/
theorem writeCtrl_irqEn {s : State} {v : Word} (hsrst : v.getLsbD 1 = false) (hstart : v.getLsbD 0 = false) :
    writeCtrl v s = .next { s with regs := { s.regs with irqEn := v.getLsbD 2 } } := by
  unfold writeCtrl
  rw [hsrst, hstart]
  rfl

/-- Idle, or of a register that is no progress register, a read returns the register's word (10_state.md R37). -/
theorem readReg_word {s : State} {r : Reg} (h : s.engine.mode = .idle ∨ progressMask r = none) :
    (readReg s r).1 = regValue s r := by
  unfold readReg
  rcases h with h | h
  · rw [not_busy_of_idle h]
  · rw [h]
    cases s.busy <;> rfl

/-- Busy, a read of a progress register returns a draw in its implemented bits (10_state.md R37). -/
theorem readReg_lt {s : State} {r : Reg} {n : Nat} (mask : Word) (h : s.engine.mode = .run)
    (hm : progressMask r = some mask) (hn : mask.toNat < n) : (readReg s r).1.toNat < n := by
  unfold readReg
  rw [hm, (busy_iff s).2 h, BitVec.toNat_and]
  exact Nat.lt_of_le_of_lt Nat.and_le_right hn

/-- The progress registers (10_state.md R37). -/
theorem progressMask_eq_none {r : Reg} (hptr : r ≠ .streamPtr) (hcount : r ≠ .blkCount) (hminmax : r ≠ .clsMinMax)
    (hgrad : r ≠ .clsGrad) (hwidth : r ≠ .width) (hheight : r ≠ .height) : progressMask r = none := by
  cases r with
  | streamPtr => exact absurd rfl hptr
  | blkCount => exact absurd rfl hcount
  | clsMinMax => exact absurd rfl hminmax
  | clsGrad => exact absurd rfl hgrad
  | width => exact absurd rfl hwidth
  | height => exact absurd rfl hheight
  | _ => rfl

@[simp] theorem regValue_agenda (s : State) (l : List Turn) (r : Reg) :
    regValue { s with agenda := l } r = regValue s r := by
  cases r <;> rfl

theorem readReg_agenda (s : State) (l : List Turn) (r : Reg) :
    readReg { s with agenda := l } r = ((readReg s r).1, { (readReg s r).2 with agenda := l }) := by
  unfold readReg
  rw [show State.busy { s with agenda := l } = s.busy from rfl, regValue_agenda]
  split <;> rfl

theorem readReg_state (s : State) (r : Reg) : (readReg s r).2 = { s with draws := (readReg s r).2.draws } := by
  unfold readReg
  split <;> rfl

/-- A host read of a register changes nothing but the reply and the number of draws (10_state.md R23; log 5, log 6). -/
theorem step_regRead_register {s : State} {off : Byte} {rest : List Turn} {r : Reg}
    (ha : s.agenda = .host (.regRead off 4) :: rest) (hr : regAt off = some r) :
    step s = .next { s with
      agenda := rest, reply := .word (readReg s r).1, draws := (readReg s r).2.draws } := by
  rw [step_regRead ha, hostRegRead, hr]
  dsimp only
  rw [readReg_agenda, readReg_state]

/-! ## The words of the registers -/

theorem ErrCode.bits_toNat (c : ErrCode) : c.bits.toNat = match c with
    | .none => 0
    | .unexpectedEndOfInput => 1
    | .ioFailure => 2
    | .invalidDimensions => 3
    | .illegalCommand => 4
    | .argumentRange => 5 := by
  cases c <;> rfl

theorem ErrStage.bits_toNat (t : ErrStage) : t.bits.toNat = match t with
    | .none => 0
    | .setup => 1
    | .header => 2
    | .block => 3 := by
  cases t <;> rfl

theorem BlockMode.bits_toNat (m : BlockMode) : m.bits.toNat = match m with
    | .solid => 0
    | .half2 => 1
    | .full2 => 2
    | .full4 => 3 := by
  cases m <;> rfl

/-- A word of a high part and a low part. -/
theorem toNat_append_eq {m n : Nat} (x : BitVec m) (y : BitVec n) : (x ++ y).toNat = x.toNat * 2 ^ n + y.toNat := by
  rw [BitVec.toNat_append, ← Nat.shiftLeft_add_eq_or_of_lt y.isLt, Nat.shiftLeft_eq]

theorem statusWord_toNat (s : State) : s.statusWord.toNat =
    (s.engine.mode = .run : Bool).toNat + s.status.done.toNat * 2 + s.status.err.toNat * 4 + s.status.code.bits.toNat * 2 ^ 4 +
      s.status.stage.bits.toNat * 2 ^ 8 := by
  simp only [State.statusWord, State.busy, toNat_append_eq, BitVec.toNat_ofBool, BitVec.toNat_ofNat, Nat.zero_mod]
  omega

/-- `BUSY`, `DONE` and `ERR` (10_state.md R26). -/
theorem statusWord_getLsbD (s : State) : s.statusWord.getLsbD 0 = s.busy ∧ s.statusWord.getLsbD 1 = s.status.done ∧
    s.statusWord.getLsbD 2 = s.status.err := by
  simp only [State.statusWord, BitVec.getLsbD_append]
  simp

theorem ctrlWord_toNat (s : State) : s.ctrlWord.toNat = s.regs.irqEn.toNat * 4 := by
  simp only [State.ctrlWord, toNat_append_eq, BitVec.toNat_ofBool, BitVec.toNat_ofNat, Nat.zero_mod]
  omega

theorem minMaxWord_toNat (c : Cls) : c.minMaxWord.toNat = c.min.toNat + c.max.toNat * 2 ^ 8 + c.mode.bits.toNat * 2 ^ 16 := by
  simp only [Cls.minMaxWord, toNat_append_eq, BitVec.toNat_ofNat, Nat.zero_mod]
  omega

theorem zero_append_toNat {n : Nat} (m : Nat) (x : BitVec n) : (0#m ++ x).toNat = x.toNat := by
  simp

/-- Every register reads 0 with the reset values (70_reset_and_hazards.md R304). -/
theorem regValue_of_reset {s : State} (hregs : s.regs = Regs.reset) (hstatus : s.status = Status.reset)
    (hengine : s.engine = Engine.reset) (r : Reg) : regValue s r = 0 := by
  cases r <;> simp only [regValue, State.ctrlWord, State.statusWord, State.busy, hregs, hstatus, hengine] <;> rfl

/-! ## What a write of a register leaves -/

/-- The low bits of a word, the reserved bits above them 0, are the word masked. -/
theorem zero_append_extractLsb' (m k : Nat) (v : BitVec (m + k)) :
    0#m ++ v.extractLsb' 0 k = v &&& BitVec.ofNat (m + k) (2 ^ k - 1) := by
  apply BitVec.eq_of_toNat_eq
  rw [zero_append_toNat, BitVec.extractLsb'_toNat, BitVec.toNat_and, BitVec.toNat_ofNat, Nat.shiftRight_zero]
  have hmask : 2 ^ k - 1 < 2 ^ (m + k) :=
    Nat.lt_of_lt_of_le (Nat.sub_lt (Nat.two_pow_pos k) Nat.one_pos) (Nat.pow_le_pow_right (by decide) (Nat.le_add_left k m))
  rw [Nat.mod_eq_of_lt hmask, Nat.and_two_pow_sub_one_eq_mod]

/-- The implemented bits read back, and a read-only register keeps its value (10_state.md R23). -/
theorem regValue_writeArgument_same (s : State) (r : Reg) (v : Word) (hctrl : r ≠ .ctrl) (hstatus : r ≠ .status) :
    regValue { s with regs := writeArgument r v s.regs } r =
      if storedMask r = 0 then regValue s r else v &&& storedMask r := by
  have hword : v = v &&& 0xFFFFFFFF := BitVec.and_allOnes.symm
  cases r with
  | ctrl => exact absurd rfl hctrl
  | status => exact absurd rfl hstatus
  | cmd => exact zero_append_extractLsb' 22 10 v
  | width => exact zero_append_extractLsb' 16 16 v
  | height => exact zero_append_extractLsb' 16 16 v
  | blkX => exact zero_append_extractLsb' 16 16 v
  | blkY => exact zero_append_extractLsb' 16 16 v
  | errIndex => rfl
  | clsMinMax => rfl
  | clsGrad => rfl
  | blkCount => rfl
  | _ => exact hword

/-- No two registers share a field, so each of the other registers reads as before. -/
theorem regValue_writeArgument_of_ne (s : State) {r q : Reg} (v : Word) (h : q ≠ r) :
    regValue { s with regs := writeArgument r v s.regs } q = regValue s q := by
  cases r <;> cases q
  any_goals exact absurd rfl h
  all_goals rfl

/-! ## Accesses at a host address (20_memory.md R79) -/

theorem targetOf_window {p : Platform} {addr : Nat} (h : p.regBase ≤ addr ∧ addr < p.regBase + 0x100) :
    targetOf p addr = .window (BitVec.ofNat 8 (addr - p.regBase)) := by
  rw [targetOf, if_pos h]

theorem targetOf_memory {p : Platform} {addr : Nat} (hw : ¬(p.regBase ≤ addr ∧ addr < p.regBase + 0x100))
    (hm : p.memBase ≤ addr ∧ addr < p.memBase + p.memBytes) : targetOf p addr = .memory (addr - p.memBase) := by
  rw [targetOf, if_neg hw, if_pos hm]

theorem targetOf_other {p : Platform} {addr : Nat} (hw : ¬(p.regBase ≤ addr ∧ addr < p.regBase + 0x100))
    (hm : ¬(p.memBase ≤ addr ∧ addr < p.memBase + p.memBytes)) : targetOf p addr = .other := by
  rw [targetOf, if_neg hw, if_neg hm]

theorem step_busRead {s : State} {addr n : Nat} {rest : List Turn} (h : s.agenda = .host (.busRead addr n) :: rest) :
    step s = match targetOf s.platform addr with
      | .window off => step { s with agenda := .host (.regRead off n) :: rest }
      | .memory off => step { s with agenda := .host (.memRead off n) :: rest }
      | .other => .refused (.addressOfAnotherDevice addr) := by
  rw [step_host h, hostMove, busPortRead]
  cases targetOf s.platform addr <;> rfl

theorem step_busWrite {s : State} {addr : Nat} {bytes : List Byte} {rest : List Turn}
    (h : s.agenda = .host (.busWrite addr bytes) :: rest) :
    step s = match targetOf s.platform addr with
      | .window off => step { s with agenda := .host (.regWrite off bytes.length (wordOfBytes bytes)) :: rest }
      | .memory off => step { s with agenda := .host (.memWrite off bytes) :: rest }
      | .other => .refused (.addressOfAnotherDevice addr) := by
  rw [step_host h, hostMove, busPortWrite]
  cases targetOf s.platform addr <;> rfl

/-! ## Words as bytes -/

/-- The value of bytes laid out least significant first (20_memory.md R62). -/
theorem foldr_bytesLE (n v : Nat) : (bytesLE n v).foldr (fun b acc => b.toNat + 256 * acc) 0 = v % 256 ^ n := by
  induction n generalizing v with
  | zero => simp [bytesLE, Nat.mod_one]
  | succ n ih =>
    rw [bytesLE, List.foldr_cons, ih, BitVec.toNat_ofNat]
    show v % 256 + 256 * (v / 256 % 256 ^ n) = v % 256 ^ (n + 1)
    rw [Nat.pow_succ', Nat.mod_mul]

theorem wordOfBytes_bytesLE (v : Word) : wordOfBytes (bytesLE 4 v.toNat) = v := by
  apply BitVec.eq_of_toNat_eq
  rw [wordOfBytes, foldr_bytesLE, BitVec.toNat_ofNat]
  have := v.isLt
  omega

end Sys2Proof.Machine
end

section
/-! The statements of 10_state.md about the register window and the step, from the facts above. -/

namespace Sys2Proof.Machine

/-- Settles O5: the engine's turn at a command. -/
theorem stepRunsTheCommand : Obligations.StepRunsTheCommand := by
  intro s hmode hphase hunderway
  refine ⟨fun h => ?_, fun rest h => ?_⟩
  · rw [step_nil h, engineTurn_command hmode hunderway hphase]
    rfl
  · rw [step_engine h]
    exact engineTurn_command (s := { s with agenda := rest }) hmode hunderway hphase

/-- Settles O17: the reset values of every register, after power-on and after a reset. -/
theorem resetValues : Obligations.ResetValues :=
  ⟨⟨regValue_of_reset rfl rfl rfl, rfl, rfl, rfl, fun _ => rfl⟩,
    fun s => ⟨regValue_of_reset (resetRegisters_regs s) (resetRegisters_status s) (resetRegisters_engine s), rfl, rfl, rfl,
      rfl⟩⟩

/-- Settles O20: what `writeCtrl` answers to a write without `SRST`. -/
theorem acceptedStart : Obligations.AcceptedStart := by
  intro s off v rest hrst hidle hoff ha hsrst
  have hctrl : step s = writeCtrl v { s with agenda := rest } := by
    rw [step_regWrite ha, hostRegWrite]
    simp only [hrst, regAt_ctrl hoff]
    rfl
  have hbusy : State.busy { s with agenda := rest } = false := not_busy_of_idle hidle
  refine ⟨fun hstart => ?_, fun hstart => ?_⟩
  · refine ⟨State.start { s with regs := { s.regs with irqEn := v.getLsbD 2 }, agenda := rest }, ?_, rfl, rfl, rfl, rfl, rfl,
      rfl, rfl, rfl, rfl, rfl⟩
    rw [hctrl, writeCtrl_start hsrst hstart hbusy]
  · refine ⟨_, ?_, rfl, hbusy, rfl⟩
    rw [hctrl, writeCtrl_irqEn hsrst hstart]

/-- Settles O23: what the write stores, read back at the written register and at every other. -/
theorem argumentRegistersReadBack : Obligations.ArgumentRegistersReadBack := by
  intro s off v rest r q hrst hidle ha hr hctrl hstatus
  have hstep := (step_regWrite ha).trans (hostRegWrite_argument (s := { s with agenda := rest }) v hrst hidle hr hctrl hstatus)
  refine ⟨_, hstep, rfl, rfl, ?_, fun hq => ?_⟩
  · rw [← regValue_agenda s rest]
    exact regValue_writeArgument_same { s with agenda := rest } r v hctrl hstatus
  · rw [← regValue_agenda s rest]
    exact regValue_writeArgument_of_ne { s with agenda := rest } v hq

/-- Settles O24: the offsets that name no register, and each bus access as the access it is routed to. -/
theorem reservedOffsetsAndWidths : Obligations.ReservedOffsetsAndWidths := by
  intro s off v size rest
  refine ⟨regAt_eq_none_iff off, regAt_and_FC off, fun hoff ha => ?_, fun hoff ha => ?_, fun hsize ha => ?_,
    fun hsize ha => ?_, wordOfBytes_bytesLE v, fun addr bytes => ?_⟩
  · rw [step_regRead ha, hostRegRead, (regAt_eq_none_iff off).2 hoff]
  · rw [step_regWrite ha, hostRegWrite, (regAt_eq_none_iff off).2 hoff]
    split <;> rfl
  · rw [step_host ha]
    exact if_neg hsize
  · rw [step_host ha]
    exact if_neg hsize
  · refine ⟨fun ha => ?_, fun ha => ?_⟩
    · rw [step_busRead ha]
      exact ⟨fun hw => by rw [targetOf_window hw], fun hw hm => by rw [targetOf_memory hw hm],
        fun hw hm => by rw [targetOf_other hw hm]⟩
    · rw [step_busWrite ha]
      exact ⟨fun hw => by rw [targetOf_window hw], fun hw hm => by rw [targetOf_memory hw hm],
        fun hw hm => by rw [targetOf_other hw hm]⟩

/-- Settles O25: the word of each register in its fields, and what the port's read returns of it. -/
theorem registerReads : Obligations.RegisterReads := by
  refine ⟨regAt_eq_getElem?, fun s r => ?_, fun s off rest r hstatus ha hr => ?_⟩
  · cases r with
    | ctrl =>
      show s.ctrlWord.toNat = _
      rw [ctrlWord_toNat]
      cases s.regs.irqEn <;> rfl
    | status =>
      show s.statusWord.toNat = _
      rw [statusWord_toNat, ErrCode.bits_toNat, ErrStage.bits_toNat]
      cases s.engine.mode <;> cases s.status.done <;> cases s.status.err <;> rfl
    | clsMinMax =>
      exact (minMaxWord_toNat s.regs.cls).trans
        (congrArg (s.regs.cls.min.toNat + s.regs.cls.max.toNat * 2 ^ 8 + · * 2 ^ 16) (BlockMode.bits_toNat _))
    | cmd => exact zero_append_toNat 22 s.regs.cmd
    | width => exact zero_append_toNat 16 s.regs.width
    | height => exact zero_append_toNat 16 s.regs.height
    | blkX => exact zero_append_toNat 16 s.regs.blkX
    | blkY => exact zero_append_toNat 16 s.regs.blkY
    | clsGrad => exact zero_append_toNat 23 s.regs.cls.grad2
    | _ => rfl
  · have hword (h : s.engine.mode = .idle ∨ progressMask r = none) : (Reply.word (readReg s r).1) = .word (regValue s r) :=
      congrArg Reply.word (readReg_word h)
    refine ⟨_, step_regRead_register ha hr, rfl, rfl, rfl, rfl, fun hidle => hword (.inl hidle), ?_, ?_, ?_⟩
    · intro _ hptr hcount hminmax hgrad hwidth hheight
      exact hword (.inr (progressMask_eq_none hptr hcount hminmax hgrad hwidth hheight))
    · rintro hrun rfl
      obtain ⟨_, _, _, hclear⟩ := hstatus
      obtain ⟨hdone, herr⟩ := hclear hrun
      obtain ⟨h0, h1, h2⟩ := statusWord_getLsbD s
      exact ⟨_, hword (.inr rfl), h0.trans ((busy_iff s).2 hrun), h1.trans hdone, h2.trans herr⟩
    · intro hrun
      refine ⟨_, rfl, ?_, ?_, ?_⟩
      · rintro (rfl | rfl) <;> exact readReg_lt 0x0000FFFF hrun rfl (by decide)
      · rintro rfl
        exact readReg_lt 0x0003FFFF hrun rfl (by decide)
      · rintro rfl
        exact readReg_lt 0x000001FF hrun rfl (by decide)

end Sys2Proof.Machine
end

section
/-! SUPPORT. What the engine's steps may touch (20_memory.md R68, R73). `Prog.Confined p v` says of a program: from what the
pseudocode sees, `v`, every cell it reads or writes exists, and every cell it writes lies in a region of the engine's current
instruction. `Keeps P p` is the rule for a part of a program that keeps the property `P` of what the pseudocode sees. -/

namespace Sys2Proof.Machine

variable {ρ α β : Type}

/-! ## The regions of an instruction -/

/-- The regions of `MEM` the engine's current instruction may write: those of its command, but none for DECODE_IMAGE before its
first record, which only reads its header (44_container.md R233, R238). No register update inside an instruction changes them. -/
def instructionRegions (s : State) : List Region :=
  match s.engine.phase, runningCommand s with
  | .command, .decodeImage _ => []
  | _, _ => writtenRegions s

theorem mem_writtenRegions {s : State} {r : Region} (h : r ∈ instructionRegions s) : r ∈ writtenRegions s := by
  unfold instructionRegions at h
  split at h
  · cases h
  · exact h

theorem instructionRegions_view (s : State) : instructionRegions s.view = instructionRegions s := by
  have hplane : planeRegion s.view = planeRegion s := funext (planeRegion_view s)
  unfold instructionRegions writtenRegions decodeImageRegions
  rw [runningCommand_view]
  simp only [hplane, view_engine, codecRegions_view]
  cases runningCommand s with
  | decodeImage il => cases s.engine.phase <;> rfl
  | _ => rfl

theorem instructionRegions_congr {s t : State} (h : t.view = s.view) : instructionRegions t = instructionRegions s := by
  rw [← instructionRegions_view t, h, instructionRegions_view]

theorem apply_byte (u : RegUpdate) (s : State) (a : Nat) : (u.apply s).byte a = s.byte a := by
  cases u <;> rfl

/-! ## Confined programs -/

/-- A program that stays inside `MEM` and writes the regions of its instruction only, from what the pseudocode sees before
it. -/
def Prog.Confined : Prog ρ → State → Prop
  | .finish _, _ => True
  | .look next, v => (next v).Confined v
  | .read a next, v => a < v.platform.memBytes ∧ ∀ b, (next b).Confined v
  | .write a _ next, v =>
    (a < v.platform.memBytes ∧ ∃ r ∈ instructionRegions v, r.holds a = true) ∧ next.Confined v
  | .set u next, v =>
    (instructionRegions (u.apply v) = instructionRegions v ∨ ∃ answer, next = .finish answer) ∧
      next.Confined (u.apply v).view
  | .fail _ _ _, _ => True

theorem Prog.Confined.settle {p : Prog ρ} {s : State} (h : p.Confined s.view) : (p.settle s).Confined s.view := by
  induction p with
  | look next ih => exact ih s.view h
  | finish a => exact h
  | read a next => exact h
  | write a v next => exact h
  | set u next => exact h
  | fail code stage index => exact h

/-- What is left of a confined program after some of its steps is confined. -/
theorem Prog.Confined.replay {p : Prog ρ} {n : Nat} {s t : State} {l : List (Option Byte)} (h : p.Confined s.view)
    (hw : p.walk n s = some (l, t)) : (p.replay s.view l).Confined t.view := by
  induction p generalizing n s l with
  | finish a => cases hw
  | look next ih => exact ih s.view h hw
  | read a next ih =>
    cases n with
    | zero => cases hw; exact h
    | succ n =>
      simp only [Prog.walk, Option.ite_none_right_eq_some, Option.map_eq_some_iff, Prod.exists, Prod.mk.injEq] at hw
      obtain ⟨_, l', t', hw, rfl, rfl⟩ := hw
      obtain ⟨_, hnext⟩ := h
      exact ih _ (hnext _) hw
  | write a v next ih =>
    cases n with
    | zero => cases hw; exact h
    | succ n =>
      simp only [Prog.walk, Option.ite_none_right_eq_some, Option.map_eq_some_iff, Prod.exists, Prod.mk.injEq] at hw
      obtain ⟨_, l', t', hw, rfl, rfl⟩ := hw
      obtain ⟨_, hnext⟩ := h
      exact ih (s := s.setByte a v) hnext hw
  | set u next ih =>
    cases n with
    | zero => cases hw; exact h
    | succ n =>
      simp only [Prog.walk, Option.map_eq_some_iff, Prod.exists, Prod.mk.injEq] at hw
      obtain ⟨l', t', hw, rfl, rfl⟩ := hw
      obtain ⟨_, hnext⟩ := h
      rw [apply_view] at hnext
      simp only [Prog.replay, apply_view]
      exact ih hnext hw
  | fail code stage index =>
    cases n with
    | zero => cases hw; exact h
    | succ n => cases hw

/-- A confined program run to its end never stops the machine, and changes no cell outside the regions of its instruction. -/
theorem Prog.Confined.run {p : Prog Unit} {s : State} (h : p.Confined s.view) :
    ∃ t, lastState (p.run s) = .next t ∧ ∀ a, (∀ r ∈ instructionRegions s, r.holds a = false) → t.byte a = s.byte a := by
  induction p generalizing s with
  | finish answer => exact ⟨s, rfl, fun _ _ => rfl⟩
  | look next ih => exact ih s.view h
  | read a next ih =>
    obtain ⟨ha, hnext⟩ := h
    rw [view_platform] at ha
    rw [Prog.run, if_pos ha]
    exact ih _ (hnext _)
  | write a v next ih =>
    obtain ⟨⟨ha, r, hr, hin⟩, hnext⟩ := h
    rw [view_platform] at ha
    rw [Prog.run, if_pos ha]
    obtain ⟨t, ht, hsame⟩ := ih (s := s.setByte a v) hnext
    refine ⟨t, ht, fun c hc => ?_⟩
    have hne : c ≠ a := by
      rintro rfl
      rw [instructionRegions_view] at hr
      exact absurd hin (by simp [hc r hr])
    rw [hsame c (instructionRegions_congr (setByte_view s a v) ▸ hc), byte_setByte_of_ne s v hne]
  | set u next ih =>
    obtain ⟨hregions, hnext⟩ := h
    rw [apply_view] at hnext
    obtain ⟨t, ht, hsame⟩ := ih hnext
    refine ⟨t, ht, fun c hc => ?_⟩
    rcases hregions with hregions | ⟨answer, rfl⟩
    · rw [instructionRegions_congr (apply_view u s), instructionRegions_view] at hregions
      rw [hsame c (hregions ▸ hc), apply_byte]
    · cases ht
      exact apply_byte u s c
  | fail code stage index => exact ⟨_, rfl, fun _ _ => rfl⟩

/-- What one engine step may do: a read, a write of one cell of the instruction's regions, a register update, or an error entry
(60_exceptions.md R271). -/
def OneStep (s t : State) : Prop :=
  t = s ∨ (∃ a v, (∃ r ∈ instructionRegions s, r.holds a = true) ∧ t = s.setByte a v) ∨
    (∃ u : RegUpdate, t = u.apply s) ∨ ∃ code stage index, t = s.errorEntry code stage index

/-- What one engine step of a confined program leaves. -/
def StepConfined (s : State) : Stepped → Prop
  | .more _ t => OneStep s t
  | .ended t => OneStep s t
  | .fault _ => False

theorem stepConfined_afterStep (next : Prog ρ) (answer : Option Byte) {s t : State} (h : OneStep s t) :
    StepConfined s (next.afterStep answer t) := by
  unfold Prog.afterStep
  split <;> exact h

/-- One engine step of a confined program is one access it may make, one register update or one error entry. -/
theorem Prog.Confined.once {p : Prog ρ} {s : State} (h : p.Confined s.view) : StepConfined s (p.once s) := by
  have hsettle := h.settle
  unfold Prog.once
  generalize p.settle s = q at hsettle
  cases q with
  | finish answer => exact .inl rfl
  | look next => exact .inl rfl
  | read a next =>
    obtain ⟨ha, _⟩ := hsettle
    rw [view_platform] at ha
    dsimp only
    rw [if_pos ha]
    exact stepConfined_afterStep _ _ (.inl rfl)
  | write a v next =>
    obtain ⟨⟨ha, hr⟩, _⟩ := hsettle
    rw [instructionRegions_view] at hr
    rw [view_platform] at ha
    dsimp only
    rw [if_pos ha]
    exact stepConfined_afterStep _ _ (.inr (.inl ⟨a, v, hr, rfl⟩))
  | set u next => exact stepConfined_afterStep _ _ (.inr (.inr (.inl ⟨u, rfl⟩)))
  | fail code stage index => exact .inr (.inr (.inr ⟨code, stage, index, rfl⟩))

/-! ## The rules for a part of a program -/

/-- From everything the pseudocode can see with `P`, the part `p` is confined, and what follows it sees `P`. -/
def Keeps (P : State → Prop) (p : Eng ρ α) : Prop :=
  ∀ v next, P v → (∀ a w, P w → (next a).Confined w) → (p next).Confined v

variable {P : State → Prop}

/-- A part and the rest of its program, up to the end. -/
theorem Keeps.ends {p : Eng β α} {f : α → Eng β β} (hp : Keeps P p) (hf : ∀ a w, P w → (f a .finish).Confined w)
    {v : State} (hv : P v) : ((p >>= f) .finish).Confined v :=
  hp v _ hv hf

theorem Keeps.finish {p : Eng α α} (hp : Keeps P p) {v : State} (hv : P v) : (p .finish).Confined v :=
  hp v .finish hv fun _ _ _ => trivial

theorem Keeps.pure (a : α) : Keeps P (Pure.pure a : Eng ρ α) := fun v _ hv hnext => hnext a v hv

theorem Keeps.bind {p : Eng ρ α} {f : α → Eng ρ β} (hp : Keeps P p) (hf : ∀ a, Keeps P (f a)) : Keeps P (p >>= f) :=
  fun v _ hv hnext => hp v _ hv fun a w hw => hf a w _ hw hnext

theorem Keeps.state_bind {f : State → Eng ρ α} (h : ∀ v, P v → Keeps P (f v)) : Keeps P (Machine.state >>= f) :=
  fun v next hv hnext => h v hv v next hv hnext

theorem Keeps.memRead {a : Nat} (h : ∀ v, P v → a < v.platform.memBytes) : Keeps P (Machine.memRead a : Eng ρ Byte) :=
  fun v _ hv hnext => ⟨h v hv, fun b => hnext b v hv⟩

theorem Keeps.memWrite {a : Nat} {x : Byte}
    (h : ∀ v, P v → a < v.platform.memBytes ∧ ∃ r ∈ instructionRegions v, r.holds a = true) :
    Keeps P (Machine.memWrite a x : Eng ρ Unit) :=
  fun v _ hv hnext => ⟨h v hv, hnext () v hv⟩

theorem Keeps.update {u : RegUpdate}
    (h : ∀ v, P v → P (u.apply v).view ∧ instructionRegions (u.apply v) = instructionRegions v) :
    Keeps P (Machine.update u : Eng ρ Unit) :=
  fun v _ hv hnext => ⟨.inl (h v hv).2, hnext () _ (h v hv).1⟩

theorem Keeps.raise (code : ErrCode) (stage : ErrStage) (index : Nat) :
    Keeps P (Machine.raise code stage index : Eng ρ α) :=
  fun _ _ _ _ => trivial

theorem Keeps.require_bind {c : Bool} {code : ErrCode} {stage : ErrStage} {index : Nat} {f : Unit → Eng ρ α}
    (h : c = true → Keeps P (f ())) : Keeps P (Machine.require c code stage index >>= f) := by
  cases c with
  | false => exact fun _ _ _ _ => trivial
  | true => exact h rfl

theorem Keeps.forFrom {body : Nat → Eng ρ Unit} (first count : Nat)
    (h : ∀ i, first ≤ i → i < first + count → Keeps P (body i)) : Keeps P (Machine.forFrom first count body) := by
  induction count generalizing first with
  | zero => exact Keeps.pure ()
  | succ n ih =>
    exact (h first (Nat.le_refl _) (by omega)).bind fun _ => ih (first + 1) fun i hi hi' => h i (by omega) (by omega)

theorem Keeps.forN {body : Nat → Eng ρ Unit} (count : Nat) (h : ∀ i, i < count → Keeps P (body i)) :
    Keeps P (Machine.forN count body) :=
  Keeps.forFrom 0 count fun i _ hi => h i (by omega)

theorem Keeps.listFrom {f : Nat → Eng ρ α} (first count : Nat)
    (h : ∀ i, first ≤ i → i < first + count → Keeps P (f i)) : Keeps P (Machine.listFrom first count f) := by
  induction count generalizing first with
  | zero => exact Keeps.pure []
  | succ n ih =>
    exact (h first (Nat.le_refl _) (by omega)).bind fun _ =>
      (ih (first + 1) fun i hi hi' => h i (by omega) (by omega)).bind fun _ => Keeps.pure _

theorem Keeps.listN {f : Nat → Eng ρ α} (count : Nat) (h : ∀ i, i < count → Keeps P (f i)) :
    Keeps P (Machine.listN count f) :=
  Keeps.listFrom 0 count fun i _ hi => h i (by omega)

end Sys2Proof.Machine
end

section
/-! SUPPORT. Every program of the engine is confined: what the pseudocode sees inside an instruction, the shared parts, and the
programs of the three phases. -/

namespace Sys2Proof.Machine

variable {ρ α β : Type} {s w : State}

/-! ## What the pseudocode sees inside an instruction -/

/-- The pseudocode sees `w` at some point of an instruction that began in `s`: the instruction may have written `STREAM_PTR`,
`BLK_COUNT` and the classification, and may have ended. -/
def SeenFrom (s w : State) : Prop :=
  ∃ ptr count cls mode, w = State.view { s with
    regs := { s.regs with streamPtr := ptr, blkCount := count, cls := cls }, engine := { s.engine with mode := mode } }

theorem seenFrom_view (s : State) : SeenFrom s s.view := ⟨_, _, _, _, rfl⟩

theorem SeenFrom.platform (h : SeenFrom s w) : w.platform = s.platform := by
  obtain ⟨_, _, _, _, rfl⟩ := h
  rfl

theorem SeenFrom.imageWidth (h : SeenFrom s w) : imageWidth w = imageWidth s := by
  obtain ⟨_, _, _, _, rfl⟩ := h
  rfl

theorem SeenFrom.imageHeight (h : SeenFrom s w) : imageHeight w = imageHeight s := by
  obtain ⟨_, _, _, _, rfl⟩ := h
  rfl

theorem SeenFrom.validDims (h : SeenFrom s w) :
    validDims w.regs.width w.regs.height = validDims s.regs.width s.regs.height := by
  obtain ⟨_, _, _, _, rfl⟩ := h
  rfl

theorem SeenFrom.planeAddr (h : SeenFrom s w) (p : Plane) (x y : Nat) : planeAddr w p x y = planeAddr s p x y := by
  obtain ⟨_, _, _, _, rfl⟩ := h
  cases p <;> rfl

theorem SeenFrom.planeRegion (h : SeenFrom s w) (p : Plane) : planeRegion w p = planeRegion s p := by
  obtain ⟨_, _, _, _, rfl⟩ := h
  cases p <;> rfl

theorem SeenFrom.imageAddr (h : SeenFrom s w) (x y c : Nat) : imageAddr w x y c = imageAddr s x y c := by
  obtain ⟨_, _, _, _, rfl⟩ := h
  rfl

theorem SeenFrom.imageAndPlanes (h : SeenFrom s w) : imageAndPlanes w = imageAndPlanes s := by
  obtain ⟨_, _, _, _, rfl⟩ := h
  rfl

theorem SeenFrom.streamLen (h : SeenFrom s w) : w.regs.streamLen = s.regs.streamLen := by
  obtain ⟨_, _, _, _, rfl⟩ := h
  rfl

theorem SeenFrom.streamAddr (h : SeenFrom s w) (k : Nat) : streamAddr w k = streamAddr s k := by
  obtain ⟨_, _, _, _, rfl⟩ := h
  rfl

theorem SeenFrom.streamRegion (h : SeenFrom s w) : streamRegion w = streamRegion s := by
  obtain ⟨_, _, _, _, rfl⟩ := h
  rfl

theorem SeenFrom.codecRegions (h : SeenFrom s w) (il : Bool) : codecRegions il w = codecRegions il s := by
  obtain ⟨_, _, _, _, rfl⟩ := h
  cases il <;> rfl

theorem SeenFrom.packer (h : SeenFrom s w) :
    w.regs.pkCount = s.regs.pkCount ∧ w.regs.pkSrc = s.regs.pkSrc ∧ w.regs.pkDst = s.regs.pkDst := by
  obtain ⟨_, _, _, _, rfl⟩ := h
  exact ⟨rfl, rfl, rfl⟩

theorem SeenFrom.windowInside (h : SeenFrom s w) (p : Plane) : windowInside w p = windowInside s p := by
  obtain ⟨_, _, _, _, rfl⟩ := h
  cases p <;> rfl

theorem SeenFrom.singleBlock (h : SeenFrom s w) (p : Plane) : singleBlock w p = singleBlock s p := by
  obtain ⟨_, _, _, _, rfl⟩ := h
  rfl

theorem SeenFrom.block (h : SeenFrom s w) : w.engine.block = s.engine.block := by
  obtain ⟨_, _, _, _, rfl⟩ := h
  rfl

theorem SeenFrom.allInBounds (h : SeenFrom s w) (rs : List Region) : allInBounds w rs = allInBounds s rs := by
  obtain ⟨_, _, _, _, rfl⟩ := h
  rfl

theorem SeenFrom.instructionRegions (h : SeenFrom s w) : instructionRegions w = instructionRegions s := by
  obtain ⟨_, _, _, _, rfl⟩ := h
  rw [instructionRegions_view]
  rfl

/-- A register update inside an instruction, and `done()`: what an address depends on stays. -/
def RegUpdate.isInner : RegUpdate → Bool
  | .streamPtr _ => true
  | .blkCount _ => true
  | .cls _ => true
  | .done => true
  | .width _ => false
  | .height _ => false
  | .atRecord _ => false
  | .atFinish => false

theorem SeenFrom.apply {u : RegUpdate} (hu : u.isInner = true) (h : SeenFrom s w) : SeenFrom s (u.apply w).view := by
  obtain ⟨_, _, _, _, rfl⟩ := h
  cases u with
  | streamPtr p => exact ⟨_, _, _, _, rfl⟩
  | blkCount n => exact ⟨_, _, _, _, rfl⟩
  | cls c => exact ⟨_, _, _, _, rfl⟩
  | done => exact ⟨_, _, _, _, rfl⟩
  | width x => cases hu
  | height x => cases hu
  | atRecord b => cases hu
  | atFinish => cases hu

theorem update_keeps {u : RegUpdate} (hu : u.isInner = true := by rfl) : Keeps (SeenFrom s) (update u : Eng ρ Unit) := by
  refine Keeps.update fun w hw => ⟨hw.apply hu, ?_⟩
  rw [← instructionRegions_view (u.apply w), (hw.apply hu).instructionRegions, hw.instructionRegions]

/-- A command's last step may move the position. -/
theorem update_ends (u : RegUpdate) (v : State) : ((update u : Eng Unit Unit) .finish).Confined v :=
  ⟨.inr ⟨(), rfl⟩, trivial⟩

/-! ## Accesses -/

/-- The instruction writes the region, and has checked it. -/
structure Writable (s : State) (r : Region) : Prop where
  listed : r ∈ instructionRegions s
  checked : inBounds s r = true

theorem lt_memBytes_of_holds {r : Region} {a : Nat} (hb : inBounds s r = true) (ha : r.holds a = true) :
    a < s.platform.memBytes := by
  obtain ⟨hbase, hlen⟩ := (holds_iff r a).1 ha
  rcases (inBounds_iff s r).1 hb with h | h <;> omega

theorem memRead_keeps {r : Region} {a : Nat} (hb : inBounds s r = true) (ha : r.holds a = true) :
    Keeps (SeenFrom s) (memRead a : Eng ρ Byte) :=
  Keeps.memRead fun w hw => by rw [hw.platform]; exact lt_memBytes_of_holds hb ha

theorem memWrite_keeps {r : Region} {a : Nat} {x : Byte} (hw : Writable s r) (ha : r.holds a = true) :
    Keeps (SeenFrom s) (memWrite a x : Eng ρ Unit) :=
  Keeps.memWrite fun w hseen => by
    rw [hseen.platform, hseen.instructionRegions]
    exact ⟨lt_memBytes_of_holds hw.checked ha, r, hw.listed, ha⟩

theorem writeBytes_keeps {r : Region} {a : Nat} {bytes : List Byte} (hw : Writable s r) (hfirst : r.base ≤ a)
    (hlast : a + bytes.length ≤ r.base + r.len) : Keeps (SeenFrom s) (writeBytes a bytes : Eng ρ Unit) :=
  Keeps.forN _ fun k hk => memWrite_keeps hw ((holds_iff r _).2 (by omega))

theorem px_keeps {p : Plane} {x y : Nat} (hb : inBounds s (planeRegion s p) = true) (hx : x < planeWidth s p)
    (hy : y < planeHeight s p) : Keeps (SeenFrom s) (px p x y : Eng ρ Byte) :=
  Keeps.state_bind fun w hw => by rw [hw.planeAddr]; exact memRead_keeps hb (planeAddr_mem hx hy)

theorem pxW_keeps {p : Plane} {x y : Nat} {v : Byte} (hw : Writable s (planeRegion s p)) (hx : x < planeWidth s p)
    (hy : y < planeHeight s p) : Keeps (SeenFrom s) (pxW p x y v : Eng ρ Unit) :=
  Keeps.state_bind fun w hseen => by rw [hseen.planeAddr]; exact memWrite_keeps hw (planeAddr_mem hx hy)

/-- A channel of a pixel lies in the image's region (20_memory.md R67). -/
theorem imageAddr_mem {x y c : Nat} (hx : x < imageWidth s) (hy : y < imageHeight s) (hc : c < 3) :
    (imageRegion s).holds (imageAddr s x y c) = true := by
  have := offset_lt_area hx hy
  rw [holds_iff]
  simp only [imageRegion, imageAddr, Nat.mul_assoc]
  omega

/-- A byte before `STREAM_LEN` lies in the stream's region (20_memory.md R66). -/
theorem streamAddr_mem {k : Nat} (hk : k < s.regs.streamLen.toNat) : (streamRegion s).holds (streamAddr s k) = true := by
  rw [holds_iff]
  simp only [streamRegion, streamAddr]
  omega

/-! ## Blocks -/

/-- The block lies inside its plane (60_exceptions.md R266). -/
def BlockInside (s : State) (b : Block) : Prop :=
  b.x + 8 ≤ planeWidth s b.plane ∧ b.y + 8 ≤ planeHeight s b.plane

theorem singleBlock_inside {p : Plane} (h : windowInside s p = true) : BlockInside s (singleBlock s p) := by
  simpa [windowInside, BlockInside, singleBlock] using h

theorem traversal_inside {n : Nat} (hd : validDims s.regs.width s.regs.height = true)
    (hn : n < blockTotal (imageWidth s) (imageHeight s)) : BlockInside s (blockAt (imageWidth s) n) := by
  obtain ⟨_, _, hw, hh⟩ := (validDims_iff _ _).1 hd
  exact blockAt_inside hw hh hn

theorem readWindow_keeps {b : Block} (hb : inBounds s (planeRegion s b.plane) = true) (h : BlockInside s b) :
    Keeps (SeenFrom s) (readWindow b : Eng ρ (List Byte)) := by
  obtain ⟨hx, hy⟩ := h
  exact Keeps.listN 64 fun i hi => px_keeps hb (by omega) (by omega)

theorem decodeInto_keeps {f : Nat → Nat → Byte} (hw : Writable s (planeRegion s s.engine.block.plane))
    (h : BlockInside s s.engine.block) : Keeps (SeenFrom s) (decodeInto f : Eng ρ Unit) := by
  obtain ⟨hx, hy⟩ := h
  refine Keeps.state_bind fun w hseen => ?_
  rw [hseen.block]
  exact Keeps.forN 8 fun y hy' => Keeps.forN 8 fun x hx' => pxW_keeps hw (by omega) (by omega)

/-- The planes an image's blocks lie in are planes of the codec (44_container.md R231). -/
theorem blockAt_plane_mem (il : Bool) (s : State) (n : Nat) :
    planeRegion s (blockAt (imageWidth s) n).plane ∈ codecRegions il s := by
  have hplane : (blockAt (imageWidth s) n).plane = .y ∨ (blockAt (imageWidth s) n).plane = .cbh ∨
      (blockAt (imageWidth s) n).plane = .crh := by
    unfold blockAt
    dsimp only
    split <;> simp
  rcases hplane with h | h | h <;> simp [h, codecRegions]

/-- The encoding of one block: the window is read, the record written where it fits the stream (42_block_codec.md R167). -/
theorem encodeStep_keeps {forced : Option BlockMode} {b : Block} (hb : inBounds s (planeRegion s b.plane) = true)
    (h : BlockInside s b) (hstream : Writable s (streamRegion s)) :
    Keeps (SeenFrom s) (encodeStep forced b : Eng ρ Unit) := by
  refine (readWindow_keeps hb h).bind fun p => (update_keeps).bind fun _ => ?_
  refine Keeps.state_bind fun w hw => Keeps.require_bind fun hlen => ?_
  have hlen := of_decide_eq_true hlen
  rw [hw.streamLen] at hlen
  rw [hw.streamAddr]
  refine (writeBytes_keeps hstream ?_ ?_).bind fun _ => (update_keeps).bind fun _ => update_keeps
  · exact Nat.le_add_right _ _
  · simp only [streamRegion, streamAddr]
    omega

/-! ## Planes -/

theorem downsampleBody_keeps {f h : Plane} (hfull : ∀ d, planeDim d f = d) (hhalf : ∀ d, planeDim d h = d / 2)
    (hf : inBounds s (planeRegion s f) = true) (hh : Writable s (planeRegion s h)) :
    Keeps (SeenFrom s) (downsampleBody f h : Eng ρ Unit) := by
  refine Keeps.state_bind fun w hw => ?_
  rw [hw.imageWidth, hw.imageHeight]
  refine Keeps.forN _ fun y hy => Keeps.forN _ fun x hx => ?_
  have hread (dx dy : Nat) (hdx : dx < 2) (hdy : dy < 2) :
      Keeps (SeenFrom s) (px f (2 * x + dx) (2 * y + dy) : Eng ρ Byte) :=
    px_keeps hf (by rw [planeWidth, hfull]; omega) (by rw [planeHeight, hfull]; omega)
  refine (hread 0 0 (by decide) (by decide)).bind fun _ => (hread 1 0 (by decide) (by decide)).bind fun _ => ?_
  refine (hread 0 1 (by decide) (by decide)).bind fun _ => (hread 1 1 (by decide) (by decide)).bind fun _ => ?_
  exact pxW_keeps hh (by rw [planeWidth, hhalf]; exact hx) (by rw [planeHeight, hhalf]; exact hy)

/-- The positions a reconstruction reads lie in the half plane (42_block_codec.md R171). -/
theorem reconPositions_lt {gw gh x y : Nat} (hx : x / 2 < gw) (hy : y / 2 < gh) :
    ∀ ji ∈ reconPositions gw gh x y, ji.1 < gh ∧ ji.2 < gw := by
  unfold reconPositions
  dsimp only
  split <;> split <;> simp only [List.forall_mem_cons, List.not_mem_nil, false_implies, implies_true, and_true] <;> omega

theorem upsampleBody_keeps {h f : Plane} (hfull : ∀ d, planeDim d f = d) (hhalf : ∀ d, planeDim d h = d / 2)
    (hd : validDims s.regs.width s.regs.height = true) (hh : inBounds s (planeRegion s h) = true)
    (hf : Writable s (planeRegion s f)) : Keeps (SeenFrom s) (upsampleBody h f : Eng ρ Unit) := by
  obtain ⟨_, _, hw16, hh16⟩ := (validDims_iff _ _).1 hd
  refine Keeps.state_bind fun w hw => ?_
  rw [hw.imageWidth, hw.imageHeight]
  refine Keeps.forN _ fun y hy => Keeps.forN _ fun x hx => ?_
  refine Keeps.bind (Keeps.listN _ fun k hk => ?_) fun vs => ?_
  · have hwidth : x / 2 < imageWidth s / 2 := by unfold imageWidth at hx ⊢; omega
    have hheight : y / 2 < imageHeight s / 2 := by unfold imageHeight at hy ⊢; omega
    obtain ⟨hj, hi⟩ := reconPositions_lt hwidth hheight _ (List.getElem_mem hk)
    rw [List.getD_eq_getElem _ _ hk]
    exact px_keeps hh (by rw [planeWidth, hhalf]; exact hi) (by rw [planeHeight, hhalf]; exact hj)
  · exact pxW_keeps hf (by rw [planeWidth, hfull]; exact hx) (by rw [planeHeight, hfull]; exact hy)

theorem splitBody_keeps (himage : inBounds s (imageRegion s) = true) (hy : Writable s (planeRegion s .y))
    (hcb : Writable s (planeRegion s .cbf)) (hcr : Writable s (planeRegion s .crf)) :
    Keeps (SeenFrom s) (splitBody : Eng ρ Unit) := by
  refine Keeps.state_bind fun w hw => ?_
  rw [hw.imageWidth, hw.imageHeight]
  refine Keeps.forN _ fun y hy' => Keeps.forN _ fun x hx' => Keeps.state_bind fun w hw => ?_
  have hread (c : Nat) (hc : c < 3) : Keeps (SeenFrom s) (memRead (imageAddr w x y c) : Eng ρ Byte) := by
    rw [hw.imageAddr]
    exact memRead_keeps himage (imageAddr_mem hx' hy' hc)
  refine (hread 0 (by decide)).bind fun _ => (hread 1 (by decide)).bind fun _ => (hread 2 (by decide)).bind fun _ => ?_
  exact (pxW_keeps hy hx' hy').bind fun _ => (pxW_keeps hcb hx' hy').bind fun _ => pxW_keeps hcr hx' hy'

theorem mergeBody_keeps (himage : Writable s (imageRegion s)) (hy : inBounds s (planeRegion s .y) = true)
    (hcb : inBounds s (planeRegion s .cbf) = true) (hcr : inBounds s (planeRegion s .crf) = true) :
    Keeps (SeenFrom s) (mergeBody : Eng ρ Unit) := by
  refine Keeps.state_bind fun w hw => ?_
  rw [hw.imageWidth, hw.imageHeight]
  refine Keeps.forN _ fun y hy' => Keeps.forN _ fun x hx' => Keeps.state_bind fun w hw => ?_
  have hwrite (c : Nat) (v : Byte) (hc : c < 3) : Keeps (SeenFrom s) (memWrite (imageAddr w x y c) v : Eng ρ Unit) := by
    rw [hw.imageAddr]
    exact memWrite_keeps himage (imageAddr_mem hx' hy' hc)
  refine (px_keeps hy hx' hy').bind fun _ => (px_keeps hcb hx' hy').bind fun _ => (px_keeps hcr hx' hy').bind fun _ => ?_
  exact (hwrite 0 _ (by decide)).bind fun _ => (hwrite 1 _ (by decide)).bind fun _ => hwrite 2 _ (by decide)

end Sys2Proof.Machine
end

section
/-! SUPPORT. The programs of the commands, of a record and of the end of a decoding command are confined, and so is what is left
of the engine's current instruction. -/

namespace Sys2Proof.Machine

variable {ρ α : Type} {s : State}

/-! ## Checks -/

theorem requireBlock_keeps {p : Plane} {regions : State → List Region} {f : Unit → Eng ρ α}
    (hregions : ∀ w, SeenFrom s w → regions w = regions s)
    (h : windowInside s p = true → allInBounds s (regions s) = true → Keeps (SeenFrom s) (f ())) :
    Keeps (SeenFrom s) (requireBlock p regions >>= f) := by
  simp only [requireBlock, bind_assoc]
  refine Keeps.state_bind fun w hw => Keeps.require_bind fun _ => ?_
  rw [hw.windowInside, hw.allInBounds, hregions w hw]
  exact Keeps.require_bind fun hwindow => Keeps.require_bind fun hin => h hwindow hin

theorem requireResample_keeps {p q : Plane} {f : Unit → Eng ρ α}
    (h : validDims s.regs.width s.regs.height = true → inBounds s (planeRegion s p) = true →
      inBounds s (planeRegion s q) = true → Keeps (SeenFrom s) (f ())) :
    Keeps (SeenFrom s) (requireResample p q >>= f) := by
  simp only [requireResample, bind_assoc]
  refine Keeps.state_bind fun w hw => ?_
  rw [hw.validDims, hw.allInBounds, hw.planeRegion, hw.planeRegion]
  refine Keeps.require_bind fun hd => Keeps.require_bind fun hin => ?_
  simp only [allInBounds_iff, List.forall_mem_cons] at hin
  obtain ⟨hp, hq, _⟩ := hin
  exact h hd hp hq

theorem requireImage_keeps {f : Unit → Eng ρ α}
    (h : inBounds s (imageRegion s) = true → inBounds s (planeRegion s .y) = true →
      inBounds s (planeRegion s .cbf) = true → inBounds s (planeRegion s .crf) = true → Keeps (SeenFrom s) (f ())) :
    Keeps (SeenFrom s) (requireImage >>= f) := by
  simp only [requireImage, bind_assoc]
  refine Keeps.state_bind fun w hw => Keeps.require_bind fun _ => ?_
  rw [hw.allInBounds, hw.imageAndPlanes]
  refine Keeps.require_bind fun hin => ?_
  simp only [allInBounds_iff, imageAndPlanes, List.forall_mem_cons] at hin
  obtain ⟨himage, hy, hcb, hcr, _⟩ := hin
  exact h himage hy hcb hcr

/-! ## The programs of the commands -/

theorem done_keeps : Keeps (SeenFrom s) (done : Eng ρ Unit) := update_keeps

theorem packProgram_keeps (n : Nat) (hr : Region.mk s.regs.pkDst.toNat (packedLength n s.regs.pkCount.toNat) ∈
    instructionRegions s) : Keeps (SeenFrom s) (packProgram n : Eng ρ Unit) := by
  refine Keeps.state_bind fun w hw => ?_
  obtain ⟨hcount, hsrc, hdst⟩ := hw.packer
  rw [hcount, hsrc, hdst]
  dsimp only
  rw [hw.allInBounds]
  refine Keeps.require_bind fun hin => (Keeps.forN _ fun k hk => ?_).bind fun _ => done_keeps
  simp only [allInBounds_iff, List.forall_mem_cons] at hin
  obtain ⟨hread, hwrite, _⟩ := hin
  refine (Keeps.listN _ fun j hj => ?_).bind fun levels => ?_
  · exact memRead_keeps hread ((holds_iff _ _).2 (by dsimp only; omega))
  · exact memWrite_keeps ⟨hr, hwrite⟩ ((holds_iff _ _).2 (by dsimp only; omega))

theorem unpackProgram_keeps (n : Nat) (hr : Region.mk s.regs.pkDst.toNat s.regs.pkCount.toNat ∈ instructionRegions s) :
    Keeps (SeenFrom s) (unpackProgram n : Eng ρ Unit) := by
  refine Keeps.state_bind fun w hw => ?_
  obtain ⟨hcount, hsrc, hdst⟩ := hw.packer
  rw [hcount, hsrc, hdst]
  dsimp only
  rw [hw.allInBounds]
  refine Keeps.require_bind fun hin => (Keeps.forN _ fun k hk => ?_).bind fun _ => done_keeps
  simp only [allInBounds_iff, List.forall_mem_cons] at hin
  obtain ⟨hread, hwrite, _⟩ := hin
  refine (memRead_keeps hread ((holds_iff _ _).2 (by dsimp only; omega))).bind fun b => Keeps.forN _ fun j hj => ?_
  exact memWrite_keeps ⟨hr, hwrite⟩ ((holds_iff _ _).2 (by dsimp only; omega))

theorem classifyProgram_keeps (plane : BitVec 2) : Keeps (SeenFrom s) (classifyProgram plane : Eng ρ Unit) := by
  unfold classifyProgram
  cases blockPlane plane with
  | none => exact Keeps.raise _ _ _
  | some p =>
    refine requireBlock_keeps (fun w hw => by rw [hw.planeRegion]) fun hwindow hin => Keeps.state_bind fun w hw => ?_
    simp only [allInBounds_iff, List.forall_mem_cons] at hin
    obtain ⟨hp, _⟩ := hin
    rw [hw.singleBlock]
    exact (readWindow_keeps hp (singleBlock_inside hwindow)).bind fun _ => (update_keeps).bind fun _ => done_keeps

theorem encodeBlockProgram_keeps (plane : BitVec 2) (fmode : BitVec 3) (hr : streamRegion s ∈ instructionRegions s) :
    Keeps (SeenFrom s) (encodeBlockProgram plane fmode : Eng ρ Unit) := by
  unfold encodeBlockProgram
  cases blockPlane plane with
  | none => exact Keeps.raise _ _ _
  | some p =>
    cases forcedMode fmode with
    | none => exact Keeps.raise _ _ _
    | some forced =>
      refine requireBlock_keeps (fun w hw => by rw [hw.planeRegion, hw.streamRegion]) fun hwindow hin =>
        Keeps.state_bind fun w hw => ?_
      simp only [allInBounds_iff, List.forall_mem_cons] at hin
      obtain ⟨hp, hstream, _⟩ := hin
      rw [hw.singleBlock]
      exact (encodeStep_keeps hp (singleBlock_inside hwindow) ⟨hr, hstream⟩).bind fun _ => done_keeps

theorem chromaPlanes_dims {plane : BitVec 2} {f h : Plane} (hp : chromaPlanes plane = some (f, h)) :
    (∀ d, planeDim d f = d) ∧ ∀ d, planeDim d h = d / 2 := by
  unfold chromaPlanes at hp
  split at hp <;> cases hp <;> exact ⟨fun _ => rfl, fun _ => rfl⟩

theorem downsampleProgram_keeps (plane : BitVec 2)
    (hr : ∀ f h, chromaPlanes plane = some (f, h) → planeRegion s h ∈ instructionRegions s) :
    Keeps (SeenFrom s) (downsampleProgram plane : Eng ρ Unit) := by
  unfold downsampleProgram
  cases hp : chromaPlanes plane with
  | none => exact Keeps.raise _ _ _
  | some planes =>
    obtain ⟨f, h⟩ := planes
    obtain ⟨hfull, hhalf⟩ := chromaPlanes_dims hp
    exact requireResample_keeps fun _ hf hh =>
      (downsampleBody_keeps hfull hhalf hf ⟨hr f h hp, hh⟩).bind fun _ => done_keeps

theorem upsampleProgram_keeps (plane : BitVec 2)
    (hr : ∀ f h, chromaPlanes plane = some (f, h) → planeRegion s f ∈ instructionRegions s) :
    Keeps (SeenFrom s) (upsampleProgram plane : Eng ρ Unit) := by
  unfold upsampleProgram
  cases hp : chromaPlanes plane with
  | none => exact Keeps.raise _ _ _
  | some planes =>
    obtain ⟨f, h⟩ := planes
    obtain ⟨hfull, hhalf⟩ := chromaPlanes_dims hp
    exact requireResample_keeps fun hd hf hh =>
      (upsampleBody_keeps hfull hhalf hd hh ⟨hr f h hp, hf⟩).bind fun _ => done_keeps

theorem splitProgram_keeps (hr : ∀ p ∈ [Plane.y, .cbf, .crf], planeRegion s p ∈ instructionRegions s) :
    Keeps (SeenFrom s) (splitProgram : Eng ρ Unit) :=
  requireImage_keeps fun himage hy hcb hcr =>
    (splitBody_keeps himage ⟨hr _ (by simp), hy⟩ ⟨hr _ (by simp), hcb⟩ ⟨hr _ (by simp), hcr⟩).bind fun _ => done_keeps

theorem mergeProgram_keeps (hr : imageRegion s ∈ instructionRegions s) :
    Keeps (SeenFrom s) (mergeProgram : Eng ρ Unit) :=
  requireImage_keeps fun himage hy hcb hcr => (mergeBody_keeps ⟨hr, himage⟩ hy hcb hcr).bind fun _ => done_keeps

theorem writeHeader_keeps (hstream : Writable s (streamRegion s)) : Keeps (SeenFrom s) (writeHeader : Eng ρ Unit) := by
  refine Keeps.state_bind fun w hw => ?_
  rw [hw.streamLen, hw.streamAddr]
  refine Keeps.require_bind fun h4 => (writeBytes_keeps hstream (Nat.le_refl _) ?_).bind fun _ => update_keeps
  exact Nat.add_le_add_left (of_decide_eq_true h4) s.regs.streamBase.toNat

/-- The planes an image codec has checked (44_container.md R237, R238). -/
theorem codecRegions_inBounds {il : Bool} (h : ∀ r ∈ codecRegions il s, inBounds s r = true) :
    (∀ p, inBounds s (planeRegion s p) = true) ∧ (il = true → inBounds s (imageRegion s) = true) := by
  refine ⟨fun p => h _ ?_, fun hil => h _ ?_⟩
  · cases p <;> simp [codecRegions]
  · simp [codecRegions, hil]

theorem encodeImageProgram_keeps (fmode : BitVec 3) (il : Bool)
    (hr : ∀ r ∈ streamRegion s :: encodedPlanes il s, r ∈ instructionRegions s) :
    Keeps (SeenFrom s) (encodeImageProgram fmode il : Eng ρ Unit) := by
  unfold encodeImageProgram
  cases forcedMode fmode with
  | none => exact Keeps.raise _ _ _
  | some forced =>
    refine Keeps.state_bind fun w hw => ?_
    rw [hw.validDims, hw.allInBounds, hw.streamRegion, hw.codecRegions, hw.imageWidth, hw.imageHeight]
    refine Keeps.require_bind fun hd => Keeps.require_bind fun hin => ?_
    simp only [allInBounds_iff, List.forall_mem_cons] at hin
    obtain ⟨hstream, hcodec⟩ := hin
    obtain ⟨hplane, himage⟩ := codecRegions_inBounds hcodec
    have hwrite : Writable s (streamRegion s) := ⟨hr _ List.mem_cons_self, hstream⟩
    have hdown (f h : Plane) (hfull : ∀ d, planeDim d f = d) (hhalf : ∀ d, planeDim d h = d / 2)
        (hmem : planeRegion s h ∈ encodedPlanes il s) : Keeps (SeenFrom s) (downsampleBody f h : Eng ρ Unit) :=
      downsampleBody_keeps hfull hhalf (hplane f) ⟨hr _ (List.mem_cons_of_mem _ hmem), hplane h⟩
    have hencode : Keeps (SeenFrom s) (do
        downsampleBody .cbf .cbh
        downsampleBody .crf .crh
        writeHeader
        forN (blockTotal (imageWidth s) (imageHeight s)) fun n => encodeStep forced (blockAt (imageWidth s) n)
        done : Eng ρ Unit) := by
      refine (hdown .cbf .cbh (fun _ => rfl) (fun _ => rfl) (by simp [encodedPlanes])).bind fun _ => ?_
      refine (hdown .crf .crh (fun _ => rfl) (fun _ => rfl) (by simp [encodedPlanes])).bind fun _ => ?_
      refine (writeHeader_keeps hwrite).bind fun _ => (Keeps.forN _ fun n hn => ?_).bind fun _ => done_keeps
      exact encodeStep_keeps (hplane _) (traversal_inside hd hn) hwrite
    refine (update_keeps).bind fun _ => ?_
    cases il with
    | false => exact hencode
    | true =>
      refine (splitBody_keeps (himage rfl) ⟨hr _ ?_, hplane _⟩ ⟨hr _ ?_, hplane _⟩ ⟨hr _ ?_, hplane _⟩).bind fun _ => hencode
      all_goals simp [encodedPlanes]

end Sys2Proof.Machine
end

section
/-! SUPPORT. The decoding commands up to their first record, a record, and the end of a decoding command are confined, and so is
what is left of the engine's current instruction. -/

namespace Sys2Proof.Machine

variable {ρ α β : Type} {s : State}

/-! ## A look and a check before the rest of a program -/

theorem look_confined {f : State → Eng β β} {v : State} (h : (f v .finish).Confined v) :
    ((state >>= f) .finish).Confined v :=
  h

theorem require_confined {f : Unit → Eng β β} {v : State} {c : Bool} {code : ErrCode} {stage : ErrStage} {index : Nat}
    (h : c = true → (f () .finish).Confined v) : ((require c code stage index >>= f) .finish).Confined v := by
  cases c with
  | false => trivial
  | true => exact h rfl

/-! ## A decoding command up to its first record -/

theorem decodeBlockProgram_confined (plane : BitVec 2) (v : State) :
    ((decodeBlockProgram plane : Eng Unit Unit) .finish).Confined v := by
  unfold decodeBlockProgram
  cases blockPlane plane with
  | none => trivial
  | some p =>
    simp only [requireBlock, bind_assoc]
    exact look_confined (require_confined fun _ => require_confined fun _ => require_confined fun _ =>
      look_confined (update_ends _ v))

/-- The pseudocode sees `w` while DECODE_IMAGE, from `s` on, reads its header: the header's fields and `STREAM_PTR` may have
been written (44_container.md R233). -/
def HeaderSeen (s w : State) : Prop :=
  ∃ ptr width height, w = State.view { s with
    regs := { s.regs with streamPtr := ptr, width := width, height := height } }

theorem HeaderSeen.stream {w : State} (h : HeaderSeen s w) :
    w.regs.streamLen = s.regs.streamLen ∧ (∀ k, streamAddr w k = streamAddr s k) ∧ w.platform = s.platform := by
  obtain ⟨_, _, _, rfl⟩ := h
  exact ⟨rfl, fun _ => rfl, rfl⟩

/-- The header's updates: `STREAM_PTR`, `WIDTH` and `HEIGHT` (44_container.md R233). -/
def RegUpdate.isHeader : RegUpdate → Bool
  | .streamPtr _ => true
  | .width _ => true
  | .height _ => true
  | .blkCount _ => false
  | .cls _ => false
  | .atRecord _ => false
  | .atFinish => false
  | .done => false

theorem HeaderSeen.apply {u : RegUpdate} {w : State} (hu : u.isHeader = true) (h : HeaderSeen s w) :
    HeaderSeen s (u.apply w).view := by
  obtain ⟨_, _, _, rfl⟩ := h
  cases u with
  | streamPtr p => exact ⟨_, _, _, rfl⟩
  | width x => exact ⟨_, _, _, rfl⟩
  | height x => exact ⟨_, _, _, rfl⟩
  | blkCount n => cases hu
  | cls c => cases hu
  | done => cases hu
  | atRecord b => cases hu
  | atFinish => cases hu

theorem instructionRegions_header {il : Bool} (hphase : s.engine.phase = .command)
    (hi : runningCommand s = .decodeImage il) : instructionRegions s = [] := by
  unfold instructionRegions
  rw [hphase, hi]

/-- Up to its first record DECODE_IMAGE writes no cell, so its register updates move no region. -/
theorem headerUpdate_keeps {il : Bool} {u : RegUpdate} (hphase : s.engine.phase = .command)
    (hi : runningCommand s = .decodeImage il) (hu : u.isHeader = true := by rfl) :
    Keeps (HeaderSeen s) (update u : Eng ρ Unit) := by
  have hnone (w : State) (hw : HeaderSeen s w) : instructionRegions w = [] := by
    obtain ⟨_, _, _, rfl⟩ := hw
    exact instructionRegions_header hphase hi
  refine Keeps.update fun w hw => ⟨hw.apply hu, ?_⟩
  rw [← instructionRegions_view (u.apply w), hnone _ (hw.apply hu), hnone w hw]

theorem readHeader_keeps {il : Bool} (hphase : s.engine.phase = .command) (hi : runningCommand s = .decodeImage il)
    (hb : inBounds s (streamRegion s) = true) : Keeps (HeaderSeen s) (readHeader : Eng ρ Unit) := by
  refine Keeps.state_bind fun w hw => ?_
  obtain ⟨hlen, haddr, _⟩ := hw.stream
  simp only [hlen, haddr]
  refine Keeps.require_bind fun h4 => ?_
  have hread (k : Nat) (hk : k < 4) : Keeps (HeaderSeen s) (memRead (streamAddr s k) : Eng ρ Byte) := by
    refine Keeps.memRead fun w hw => ?_
    obtain ⟨_, _, hplatform⟩ := hw.stream
    rw [hplatform]
    exact lt_memBytes_of_holds hb (streamAddr_mem (Nat.lt_of_lt_of_le hk (of_decide_eq_true h4)))
  refine (hread 0 (by decide)).bind fun _ => (hread 1 (by decide)).bind fun _ => ?_
  refine (hread 2 (by decide)).bind fun _ => (hread 3 (by decide)).bind fun _ => ?_
  exact (headerUpdate_keeps hphase hi).bind fun _ => (headerUpdate_keeps hphase hi).bind fun _ =>
    headerUpdate_keeps hphase hi

theorem decodeImageProgram_confined {il : Bool} (hphase : s.engine.phase = .command)
    (hi : runningCommand s = .decodeImage il) : ((decodeImageProgram il : Eng Unit Unit) .finish).Confined s.view := by
  refine look_confined (require_confined fun hin => ?_)
  rw [allInBounds_view, streamRegion_view, allInBounds_iff, List.forall_mem_singleton] at hin
  refine (headerUpdate_keeps hphase hi).ends (fun _ w hw => ?_) (⟨_, _, _, rfl⟩ : HeaderSeen s s.view)
  exact (readHeader_keeps hphase hi hin).ends (fun _ w _ => look_confined (require_confined fun _ =>
    require_confined fun _ => update_ends _ w)) hw

/-! ## Every command -/

/-- Every command but DECODE_IMAGE may write its regions from its first step on. -/
theorem mem_instructionRegions {i : Instr} {r : Region} (hi : runningCommand s = i) (h : r ∈ writtenRegions s)
    (hne : ∀ il, i ≠ .decodeImage il := by nofun) : r ∈ instructionRegions s := by
  unfold instructionRegions
  split
  · rename_i hc
    exact absurd (hi.symm.trans hc) (hne _)
  · exact h

theorem decodeCmd_format (c : CmdBits) : (decodeCmd c).format = .command := by
  unfold decodeCmd
  split <;> rfl

/-- A command's program, while the engine stands at it. -/
theorem command_confined (hphase : s.engine.phase = .command) :
    ((program (runningCommand s) : Eng Unit Unit) .finish).Confined s.view := by
  have hformat : (runningCommand s).format = .command := decodeCmd_format s.engine.cmd
  have hseen := seenFrom_view s
  cases hi : runningCommand s with
  | nop => exact done_keeps.finish hseen
  | pack2 => exact (packProgram_keeps 2 (mem_instructionRegions hi (by simp [writtenRegions, hi]))).finish hseen
  | pack4 => exact (packProgram_keeps 4 (mem_instructionRegions hi (by simp [writtenRegions, hi]))).finish hseen
  | unpack2 =>
    exact (unpackProgram_keeps 2 (mem_instructionRegions hi (by simp [writtenRegions, hi]))).finish hseen
  | unpack4 =>
    exact (unpackProgram_keeps 4 (mem_instructionRegions hi (by simp [writtenRegions, hi]))).finish hseen
  | classify plane => exact (classifyProgram_keeps plane).finish hseen
  | encodeBlock plane fmode =>
    exact (encodeBlockProgram_keeps plane fmode
      (mem_instructionRegions hi (by simp [writtenRegions, hi]))).finish hseen
  | decodeBlock plane => exact decodeBlockProgram_confined plane s.view
  | downsample plane =>
    exact (downsampleProgram_keeps plane fun f h hp =>
      mem_instructionRegions hi (by simp [writtenRegions, hi, hp])).finish hseen
  | upsample plane =>
    exact (upsampleProgram_keeps plane fun f h hp =>
      mem_instructionRegions hi (by simp [writtenRegions, hi, hp])).finish hseen
  | split =>
    refine (splitProgram_keeps fun p hp => mem_instructionRegions hi ?_).finish hseen
    rw [writtenRegions, hi]
    exact List.mem_map_of_mem hp
  | merge => exact (mergeProgram_keeps (mem_instructionRegions hi (by simp [writtenRegions, hi]))).finish hseen
  | encodeImage fmode il =>
    refine (encodeImageProgram_keeps fmode il fun r hr => mem_instructionRegions hi ?_).finish hseen
    simp only [encodedPlanes, List.mem_cons, List.mem_append] at hr
    simp only [writtenRegions, hi, List.mem_cons, List.mem_append]
    tauto
  | decodeImage il => exact decodeImageProgram_confined hphase hi
  | illegalCommand low => trivial
  | _ => rw [hi] at hformat; cases hformat

/-! ## A record, and the end of a decoding command -/

theorem fetchRecord_keeps (hb : inBounds s (streamRegion s) = true) :
    Keeps (SeenFrom s) (fetchRecord : Eng ρ (Byte × Byte × List Byte)) := by
  refine Keeps.state_bind fun w hw => ?_
  simp only [hw.streamLen, hw.streamAddr]
  refine Keeps.require_bind fun h2 => (memRead_keeps hb (streamAddr_mem ?_)).bind fun c => ?_
  · have := of_decide_eq_true h2
    omega
  · refine Keeps.require_bind fun hlen => (memRead_keeps hb (streamAddr_mem ?_)).bind fun r => ?_
    · have := of_decide_eq_true h2
      omega
    · refine (Keeps.listN _ fun k hk => memRead_keeps hb (streamAddr_mem ?_)).bind fun _ => Keeps.pure _
      have := of_decide_eq_true hlen
      omega

theorem recordInstr_keeps (control range : Byte) (samples : List Byte) (hin : BlockInside s s.engine.block)
    (hw : Writable s (planeRegion s s.engine.block.plane)) :
    Keeps (SeenFrom s) (program (recordInstr control range samples) : Eng ρ Unit) := by
  unfold recordInstr
  split
  · split
    · exact Keeps.pure ()
    · exact decodeInto_keeps hw hin
  · exact decodeInto_keeps hw hin
  · exact decodeInto_keeps hw hin
  · exact decodeInto_keeps hw hin

theorem instructionRegions_decodeImage {il : Bool} (hphase : s.engine.phase ≠ .command)
    (hi : runningCommand s = .decodeImage il) : instructionRegions s = codecRegions il s := by
  unfold instructionRegions writtenRegions decodeImageRegions
  rw [hi]
  cases hp : s.engine.phase with
  | command => exact absurd hp hphase
  | record => rfl
  | finish => rfl

/-- At a record the stream is checked, and so is the plane of the current block, which lies in it. -/
theorem decodingOk_checked (hphase : s.engine.phase ≠ .command) (hd : validDims s.regs.width s.regs.height = true)
    (h : decodingOk s) : inBounds s (streamRegion s) = true ∧ BlockInside s s.engine.block ∧
      Writable s (planeRegion s s.engine.block.plane) := by
  unfold decodingOk at h
  cases hi : runningCommand s with
  | decodeBlock plane =>
    rw [hi] at h
    obtain ⟨p, hp, hb, hwindow, hin⟩ := h
    simp only [allInBounds_iff, List.forall_mem_cons] at hin
    obtain ⟨hplane, hstream, _⟩ := hin
    rw [hb]
    exact ⟨hstream, singleBlock_inside hwindow,
      mem_instructionRegions hi (by simp [writtenRegions, hi, hp, singleBlock]), hplane⟩
  | decodeImage il =>
    rw [hi] at h
    obtain ⟨⟨n, hn, hb⟩, hin⟩ := h
    simp only [allInBounds_iff, List.forall_mem_cons] at hin
    obtain ⟨hstream, hcodec⟩ := hin
    rw [hb]
    refine ⟨hstream, traversal_inside hd hn, ?_, hcodec _ (blockAt_plane_mem il s n)⟩
    rw [instructionRegions_decodeImage hphase hi]
    exact blockAt_plane_mem il s n
  | _ => rw [hi] at h; exact h.elim

theorem recordProgram_eq : (recordProgram : Eng ρ Unit) = (do
    let (control, range, samples) ← fetchRecord
    program (recordInstr control range samples)
    let s ← state
    update (.streamPtr (s.regs.streamPtr.toNat + recordLength control))
    update (.blkCount (s.engine.block.index + 1))
    update (nextPosition s)) :=
  rfl

/-- A record's program, while the engine stands at it. -/
theorem recordProgram_confined (hphase : s.engine.phase ≠ .command) (hd : validDims s.regs.width s.regs.height = true)
    (h : decodingOk s) : ((recordProgram : Eng Unit Unit) .finish).Confined s.view := by
  obtain ⟨hstream, hin, hw⟩ := decodingOk_checked hphase hd h
  rw [recordProgram_eq]
  refine (fetchRecord_keeps hstream).ends (fun (c, r, samples) w hseen => ?_) (seenFrom_view s)
  refine (recordInstr_keeps c r samples hin hw).ends (fun _ w hseen => look_confined ?_) hseen
  exact (update_keeps (s := s)).ends (fun _ w hseen => (update_keeps (s := s)).ends (fun _ w _ => update_ends _ w) hseen)
    hseen

/-- The end of a decoding command. -/
theorem finishProgram_confined (hphase : s.engine.phase ≠ .command) (hd : validDims s.regs.width s.regs.height = true)
    (h : decodingOk s) : ((finishProgram s : Eng Unit Unit) .finish).Confined s.view := by
  refine Keeps.finish (P := SeenFrom s) ?_ (seenFrom_view s)
  unfold finishProgram
  cases hi : runningCommand s with
  | decodeImage il =>
    unfold decodingOk at h
    rw [hi] at h
    obtain ⟨_, hin⟩ := h
    simp only [allInBounds_iff, List.forall_mem_cons] at hin
    obtain ⟨_, hcodec⟩ := hin
    obtain ⟨hplane, himage⟩ := codecRegions_inBounds hcodec
    have hwrite {r : Region} (hr : r ∈ codecRegions il s) : Writable s r :=
      ⟨by rw [instructionRegions_decodeImage hphase hi]; exact hr, hcodec r hr⟩
    refine (upsampleBody_keeps (fun _ => rfl) (fun _ => rfl) hd (hplane .cbh) (hwrite ?_)).bind fun _ => ?_
    · simp [codecRegions]
    refine (upsampleBody_keeps (fun _ => rfl) (fun _ => rfl) hd (hplane .crh) (hwrite ?_)).bind fun _ => ?_
    · simp [codecRegions]
    cases il with
    | false => exact done_keeps
    | true =>
      refine (mergeBody_keeps (hwrite ?_) (hplane .y) (hplane .cbf) (hplane .crf)).bind fun _ => done_keeps
      simp [codecRegions]
  | _ => exact done_keeps

/-! ## The engine's current instruction -/

/-- The program of the engine's next instruction is confined. -/
theorem stretch_confined (hmode : s.engine.mode = .run) (hpos : positionOk s) :
    (stretch s .finish).Confined s.view := by
  unfold stretch
  cases hp : s.engine.phase with
  | command => exact command_confined hp
  | record =>
    have hphase : s.engine.phase ≠ .command := by rw [hp]; decide
    obtain ⟨hd, hdecoding⟩ := hpos hmode hphase
    exact recordProgram_confined hphase hd hdecoding
  | finish =>
    have hphase : s.engine.phase ≠ .command := by rw [hp]; decide
    obtain ⟨hd, hdecoding⟩ := hpos hmode hphase
    exact finishProgram_confined hphase hd hdecoding

/-- What is left of the engine's current instruction is confined. -/
theorem remaining_confined (h : Inv s) (hmode : s.engine.mode = .run) : (remaining s).Confined s.view := by
  unfold remaining
  split
  · exact stretch_confined hmode h.position
  · rename_i u hu
    obtain ⟨_, m, hentry, hwalk⟩ := h.underway u hu
    exact Prog.Confined.replay (s := entryState s u m) (t := s.atBoundary)
      (stretch_confined (s := entryState s u m) hmode hentry) hwalk

end Sys2Proof.Machine
end

section
/-! SUPPORT. The memory port (20_memory.md R69, R73): what a host access inside `MEM` answers, and which byte a read returns. -/

namespace Sys2Proof.Machine

theorem step_memRead {s : State} {off n : Nat} {rest : List Turn} (ha : s.agenda = .host (.memRead off n) :: rest)
    (h : off + n ≤ s.platform.memBytes) :
    step s = .next { s with
      agenda := rest
      reply := .bytes ((List.range n).map fun k => hostByte s (off + k))
      draws := if s.busy then s.draws + 1 else s.draws } := by
  rw [step_host ha]
  exact if_pos h

theorem step_memWrite_idle {s : State} {off : Nat} {bytes : List Byte} {rest : List Turn}
    (ha : s.agenda = .host (.memWrite off bytes) :: rest) (hidle : s.engine.mode = .idle)
    (h : off + bytes.length ≤ s.platform.memBytes) :
    step s = .next { s with agenda := rest, mem := memInsertAll s.mem off bytes } := by
  have hbusy : State.busy { s with agenda := rest } = false := not_busy_of_idle hidle
  rw [step_host ha, hostMove, memPortWrite, hbusy]
  exact if_pos h

/-- While a command runs the write has no move (20_memory.md R73). -/
theorem step_memWrite_busy {s : State} {off : Nat} {bytes : List Byte} {rest : List Turn}
    (ha : s.agenda = .host (.memWrite off bytes) :: rest) (hrun : s.engine.mode = .run) :
    step s = .refused .memWriteWhileBusy := by
  rw [step_host ha]
  exact if_pos ((busy_iff s).2 hrun)

/-- Idle, or outside the regions the running command writes, a read returns what `MEM` holds. -/
theorem hostByte_held {s : State} {a : Nat}
    (h : s.engine.mode = .idle ∨ (writtenRegions s).any (·.holds a) = false) : hostByte s a = s.byte a := by
  refine if_neg ?_
  rcases h with hidle | hout
  · simp [not_busy_of_idle hidle]
  · simp [hout]

/-- In a region the running command writes, a read returns a draw (20_memory.md R73). -/
theorem hostByte_draw {s : State} {a : Nat} (hrun : s.engine.mode = .run)
    (h : (writtenRegions s).any (·.holds a) = true) : hostByte s a = Config.busyByte s.draws a :=
  if_pos (by rw [(busy_iff s).2 hrun, h]; rfl)

/-- Bytes written while idle are what a read of them returns. -/
theorem hostByte_memInsertAll {s : State} (off : Nat) (bytes : List Byte) (hidle : s.engine.mode = .idle) :
    ((List.range bytes.length).map fun k => hostByte { s with mem := memInsertAll s.mem off bytes } (off + k)) = bytes := by
  refine List.ext_getElem (by simp) fun k _ hk => ?_
  have hbyte : memByte (memInsertAll s.mem off bytes) (off + k) = bytes[k] := by
    rw [memByte_memInsertAll, if_pos (by omega), Nat.add_sub_cancel_left, List.getD_eq_getElem _ _ hk]
  rw [List.getElem_map, List.getElem_range]
  exact (hostByte_held (s := { s with mem := memInsertAll s.mem off bytes }) (.inl hidle)).trans hbyte

end Sys2Proof.Machine
end

section
/-! The statements of 20_memory.md about the engine's accesses and the memory port, from the facts above. -/

namespace Sys2Proof.Machine

/-- The engine's move from a state with the invariant: a next state, that differs in `MEM` in the command's regions only. -/
theorem engineTurn_frame {s : State} (h : Inv s) (hmode : s.engine.mode = .run) :
    ∃ t, engineTurn s = .next t ∧ sameOutsideAll (writtenRegions s) s t := by
  obtain ⟨t, ht, hsame⟩ := (remaining_confined h hmode).run (s := s.atBoundary)
  refine ⟨t, (engineTurn_run hmode).trans ht, fun a ha => hsame a fun r hr => ?_⟩
  simp only [List.any_eq_false, Bool.not_eq_true] at ha
  exact ha r (mem_writtenRegions hr)

/-- One engine step from a state with the invariant: a next state, reached by one access, one register update or one error
entry, the engine's place in its instruction aside. -/
theorem engineStep_oneStep {s : State} (h : Inv s) (hmode : s.engine.mode = .run) :
    ∃ t u, engineStep s = .next t ∧ t.atBoundary = u.atBoundary ∧ OneStep s u := by
  have hone := (remaining_confined h hmode).once
  rw [engineStep_run hmode]
  cases hs : (remaining s).once s with
  | more answer u => rw [hs] at hone; exact ⟨_, u, rfl, rfl, hone⟩
  | ended u => rw [hs] at hone; exact ⟨_, u, rfl, rfl, hone⟩
  | fault f => rw [hs] at hone; exact hone.elim

/-- Settles O11: what is left of the current instruction, run to its end or one step further, stays inside `MEM`. -/
theorem engineNeverLeavesMem : Obligations.EngineNeverLeavesMem := by
  intro s h
  cases hmode : s.engine.mode with
  | idle => exact ⟨⟨s, engineTurn_idle hmode⟩, s, engineStep_idle hmode⟩
  | run =>
    obtain ⟨t, ht, _⟩ := engineTurn_frame h hmode
    obtain ⟨t', _, ht', _⟩ := engineStep_oneStep h hmode
    exact ⟨⟨t, ht⟩, t', ht'⟩

/-- Settles O14: what is left of the current instruction writes the command's regions only, one access or update a step. -/
theorem engineWritesOnlyItsRegions : Obligations.EngineWritesOnlyItsRegions := by
  refine ⟨fun s t h hmode ht => ?_, fun s t rest h hmode ha ht => ?_⟩
  · obtain ⟨t', ht', hsame⟩ := engineTurn_frame h hmode
    obtain rfl : t' = t := Host.Outcome.next.inj (ht'.symm.trans ht)
    exact hsame
  · rw [step_engineStep ha] at ht
    obtain ⟨t', v, ht', hv, hone⟩ := engineStep_oneStep (h.set_agenda rest) hmode
    obtain rfl : t' = t := Host.Outcome.next.inj (ht'.symm.trans ht)
    dsimp only
    rw [hv]
    rcases hone with rfl | ⟨a, x, ⟨r, hr, hin⟩, rfl⟩ | ⟨r, rfl⟩ | ⟨code, stage, index, rfl⟩
    · exact .inl rfl
    · exact .inr (.inl ⟨a, x, List.any_eq_true.2 ⟨r, mem_writtenRegions (s := { s with agenda := rest }) hr, hin⟩, rfl⟩)
    · exact .inr (.inr (.inl ⟨r, rfl⟩))
    · exact .inr (.inr (.inr ⟨code, stage, index, rfl⟩))

/-- Settles O26: the answers of the port's read and write, byte by byte. -/
theorem memoryPortReadsWhatWasWritten : Obligations.MemoryPortReadsWhatWasWritten := by
  refine ⟨fun s off n rest ha hin => ?_, fun s off bytes rest ha => ⟨fun hidle hin => ?_, step_memWrite_busy ha⟩⟩
  · refine ⟨_, _, step_memRead ha hin, rfl, by simp, rfl, fun hidle => ?_, fun hrun => ?_, fun k hk => ?_⟩
    · dsimp only
      rw [not_busy_of_idle hidle]
      rfl
    · dsimp only
      rw [(busy_iff s).2 hrun]
      exact Nat.lt_succ_self _
    · rw [List.getD_eq_getElem _ _ (by simpa using hk), List.getElem_map, List.getElem_range]
      exact ⟨hostByte_held, hostByte_draw⟩
  · refine ⟨_, _, step_memWrite_idle ha hidle hin, step_memRead rfl hin, ?_, rfl, fun a ha => ?_⟩
    · exact congrArg Reply.bytes (hostByte_memInsertAll (s := { s with agenda := _ }) off bytes hidle)
    · have hout : ¬(off ≤ a ∧ a < off + bytes.length) := by simpa [Region.holds] using ha
      exact (memByte_memInsertAll bytes s.mem off a).trans (if_neg hout)

end Sys2Proof.Machine
end

section
/-! SUPPORT. The two encodings by their fields: a command word is decoded by the four fields of its low ten bits
(30_encoding.md R91 to R93), a record by the two fields of its control byte and by its length (30_encoding.md R95 to R98,
R107). -/

namespace Sys2Proof.Machine

/-! ## The command word by its fields -/

/-- The opcode map of 30_encoding.md R92 with every field a variable of its own, so that it computes where the opcode is known
and the other fields are not. -/
def commandOfFields (op : Nat) (plane : BitVec 2) (fmode : BitVec 3) (il : Bool) : Instr :=
  match op with
  | 0 => .nop
  | 1 => .pack2
  | 2 => .pack4
  | 3 => .unpack2
  | 4 => .unpack4
  | 5 => .classify plane
  | 6 => .encodeBlock plane fmode
  | 7 => .decodeBlock plane
  | 8 => .downsample plane
  | 9 => .upsample plane
  | 10 => .split
  | 11 => .merge
  | 12 => .encodeImage fmode il
  | 13 => .decodeImage il
  | 14 => .illegalCommand 0
  | _ => .illegalCommand 1

theorem decodeCmd_eq_commandOfFields (c : CmdBits) :
    decodeCmd c = commandOfFields (opField c).toNat (planeField c) (fmodeField c) (ilField c) := rfl

/-! The fields of a word are its bits, whatever the bits above them. -/

theorem opField_cmdBits (w : Word) : opField (cmdBits w) = w.extractLsb' 0 4 := by
  ext k hk
  simp [opField, cmdBits]

theorem planeField_cmdBits (w : Word) : planeField (cmdBits w) = w.extractLsb' 4 2 := by
  ext k hk
  simp [planeField, cmdBits]

theorem fmodeField_cmdBits (w : Word) : fmodeField (cmdBits w) = w.extractLsb' 6 3 := by
  ext k hk
  simp [fmodeField, cmdBits]

theorem ilField_cmdBits (w : Word) : ilField (cmdBits w) = w.getLsbD 9 := by
  simp [ilField, cmdBits]

theorem decodeCommandWord_eq_commandOfFields (w : Word) :
    decodeCommandWord w = commandOfFields (w.extractLsb' 0 4).toNat (w.extractLsb' 4 2) (w.extractLsb' 6 3) (w.getLsbD 9) := by
  rw [decodeCommandWord, decodeCmd_eq_commandOfFields, opField_cmdBits, planeField_cmdBits, fmodeField_cmdBits,
    ilField_cmdBits]

/-- A word is decoded by the opcode in its bits 3:0 and by that opcode's fields (30_encoding.md R93, R94). -/
theorem decodeCommandWord_of_op {w : Word} {op : Nat} (h : w.toNat % 16 = op) :
    decodeCommandWord w = commandOfFields op (w.extractLsb' 4 2) (w.extractLsb' 6 3) (w.getLsbD 9) := by
  have hop : (w.extractLsb' 0 4).toNat = op := by simp [BitVec.extractLsb'_toNat, h]
  rw [decodeCommandWord_eq_commandOfFields, hop]

theorem decodeCommandWord_mask (w : Word) : decodeCommandWord (w &&& 0x3FF) = decodeCommandWord w := by
  have hbits : cmdBits (w &&& 0x3FF) = cmdBits w := by
    apply BitVec.eq_of_toNat_eq
    simp [cmdBits, BitVec.extractLsb'_toNat, Nat.and_two_pow_sub_one_eq_mod _ 10]
  rw [decodeCommandWord, hbits, decodeCommandWord]

/-! The word built from four fields has these fields. -/

theorem decodeCommandWord_commandWord (op : BitVec 4) (plane : BitVec 2) (fmode : BitVec 3) (il : Bool) :
    decodeCommandWord (commandWord op plane fmode il) = commandOfFields op.toNat plane fmode il := by
  have hop : (commandWord op plane fmode il).extractLsb' 0 4 = op := by
    rw [commandWord, BitVec.extractLsb'_append_eq_right]
  have hplane : (commandWord op plane fmode il).extractLsb' 4 2 = plane := by
    rw [commandWord, BitVec.extractLsb'_append_eq_of_le (by decide), BitVec.extractLsb'_append_eq_right]
  have hfmode : (commandWord op plane fmode il).extractLsb' 6 3 = fmode := by
    rw [commandWord, BitVec.extractLsb'_append_eq_of_le (by decide), BitVec.extractLsb'_append_eq_of_le (by decide),
      BitVec.extractLsb'_append_eq_right]
  have hil : (commandWord op plane fmode il).getLsbD 9 = il := by
    rw [commandWord, BitVec.getLsbD_append, BitVec.getLsbD_append, BitVec.getLsbD_append, BitVec.getLsbD_append]
    simp
  rw [decodeCommandWord_eq_commandOfFields, hop, hplane, hfmode, hil]

/-- The round trip of the command word (30_encoding.md R91 to R93). -/
theorem decodeCommandWord_encodeCommandWord {i : Instr} (h : i.format = .command) :
    decodeCommandWord (encodeCommandWord i) = i := by
  cases i with
  | nop => exact decodeCommandWord_commandWord 0 0 0 false
  | pack2 => exact decodeCommandWord_commandWord 1 0 0 false
  | pack4 => exact decodeCommandWord_commandWord 2 0 0 false
  | unpack2 => exact decodeCommandWord_commandWord 3 0 0 false
  | unpack4 => exact decodeCommandWord_commandWord 4 0 0 false
  | classify plane => exact decodeCommandWord_commandWord 5 plane 0 false
  | encodeBlock plane fmode => exact decodeCommandWord_commandWord 6 plane fmode false
  | decodeBlock plane => exact decodeCommandWord_commandWord 7 plane 0 false
  | downsample plane => exact decodeCommandWord_commandWord 8 plane 0 false
  | upsample plane => exact decodeCommandWord_commandWord 9 plane 0 false
  | split => exact decodeCommandWord_commandWord 10 0 0 false
  | merge => exact decodeCommandWord_commandWord 11 0 0 false
  | encodeImage fmode il => exact decodeCommandWord_commandWord 12 0 fmode il
  | decodeImage il => exact decodeCommandWord_commandWord 13 0 0 il
  | illegalCommand low =>
    have hlow : commandOfFields (7#3 ++ low).toNat 0 0 false = .illegalCommand low := by
      revert low
      decide
    exact (decodeCommandWord_commandWord (7#3 ++ low) 0 0 false).trans hlow
  | skip | solid | half2 | full2 | full4 => exact absurd h (by nofun)

theorem decodeCommandWord_format (w : Word) : (decodeCommandWord w).format = .command :=
  decodeCmd_format (cmdBits w)

/-! ## The command word as bytes -/

theorem encode_of_command {i : Instr} (h : i.format = .command) : encode i = bytesLE 4 (encodeCommandWord i).toNat := by
  cases i with
  | skip | solid | half2 | full2 | full4 => exact absurd h (by nofun)
  | _ => rfl

/-- The four bytes of a word, joined with the first lowest, are the word (20_memory.md R62). -/
theorem append_extractLsb'_of_word (w : Word) :
    w.extractLsb' 24 8 ++ w.extractLsb' 16 8 ++ w.extractLsb' 8 8 ++ w.extractLsb' 0 8 = w := by
  rw [BitVec.extractLsb'_append_extractLsb'_eq_extractLsb' (by decide),
    BitVec.extractLsb'_append_extractLsb'_eq_extractLsb' (by decide),
    BitVec.extractLsb'_append_extractLsb'_eq_extractLsb' (by decide), BitVec.extractLsb'_eq_self]

theorem bytesLE_of_word (w : Word) :
    bytesLE 4 w.toNat = [w.extractLsb' 0 8, w.extractLsb' 8 8, w.extractLsb' 16 8, w.extractLsb' 24 8] := by
  simp [bytesLE, BitVec.extractLsb', Nat.shiftRight_eq_div_pow, Nat.div_div_eq_div_mul]

theorem decode_command_bytesLE (w : Word) (rest : List Byte) :
    decode .command (bytesLE 4 w.toNat ++ rest) = .ok (decodeCommandWord w, rest) := by
  rw [bytesLE_of_word]
  exact congrArg (fun v => Except.ok (decodeCommandWord v, rest)) (append_extractLsb'_of_word w)

/-! ## The control byte by its fields -/

@[simp] theorem modeField_controlByte (base : BitVec 6) (mode : BitVec 2) : modeField (controlByte base mode) = mode :=
  BitVec.extractLsb'_append_eq_right

@[simp] theorem baseField_controlByte (base : BitVec 6) (mode : BitVec 2) : baseField (controlByte base mode) = base :=
  BitVec.extractLsb'_append_eq_left

theorem controlByte_baseField_modeField (c : Byte) : controlByte (baseField c) (modeField c) = c :=
  (BitVec.extractLsb'_append_extractLsb'_eq_extractLsb' rfl).trans BitVec.extractLsb'_eq_self

/-- Every control byte is one of the four modes with six high bits (30_encoding.md R96). -/
theorem controlByte_cases {P : Byte → Prop} (solid : ∀ base, P (controlByte base 0#2))
    (half2 : ∀ base, P (controlByte base 1#2)) (full2 : ∀ base, P (controlByte base 2#2))
    (full4 : ∀ base, P (controlByte base 3#2)) (c : Byte) : P c := by
  have hmode : ∀ m : BitVec 2, m = 0#2 ∨ m = 1#2 ∨ m = 2#2 ∨ m = 3#2 := by decide
  rw [← controlByte_baseField_modeField c]
  rcases hmode (modeField c) with h | h | h | h <;> rw [h]
  · exact solid _
  · exact half2 _
  · exact full2 _
  · exact full4 _

/-! What each mode gives: the record's length and its kind (30_encoding.md R97, R107). -/

section
variable (base : BitVec 6) (range : Byte) (samples : List Byte)

@[simp] theorem recordLength_solid : recordLength (controlByte base 0#2) = 2 := by simp [recordLength]

@[simp] theorem recordLength_half2 : recordLength (controlByte base 1#2) = 6 := by simp [recordLength]

@[simp] theorem recordLength_full2 : recordLength (controlByte base 2#2) = 18 := by simp [recordLength]

@[simp] theorem recordLength_full4 : recordLength (controlByte base 3#2) = 34 := by simp [recordLength]

@[simp] theorem recordInstr_skip : recordInstr (controlByte base 0#2) 0#8 samples = .skip base := by simp [recordInstr]

@[simp] theorem recordInstr_solid (h : range ≠ 0#8) :
    recordInstr (controlByte base 0#2) range samples = .solid base range := by
  simp [recordInstr, h]

@[simp] theorem recordInstr_half2 : recordInstr (controlByte base 1#2) range samples = .half2 base range samples := by
  simp [recordInstr]

@[simp] theorem recordInstr_full2 : recordInstr (controlByte base 2#2) range samples = .full2 base range samples := by
  simp [recordInstr]

@[simp] theorem recordInstr_full4 : recordInstr (controlByte base 3#2) range samples = .full4 base range samples := by
  simp [recordInstr]

end

theorem two_le_recordLength (c : Byte) : 2 ≤ recordLength c := by
  unfold recordLength
  split <;> decide

/-! ## Records -/

/-- A record with exactly its sample bytes decodes to the kind its control and range byte name, and leaves what follows. -/
theorem decode_record_append {c r : Byte} {samples : List Byte} (h : samples.length = recordLength c - 2) (rest : List Byte) :
    decode .record (c :: r :: (samples ++ rest)) = .ok (recordInstr c r samples, rest) := by
  simp [decode, decodeRecord, ← h]

theorem decode_record_short {c r : Byte} {rest : List Byte} (h : rest.length < recordLength c - 2) :
    decode .record (c :: r :: rest) = .error .truncatedRecord := by
  rw [decode, decodeRecord, if_pos h]

theorem recordInstr_format (c r : Byte) (samples : List Byte) : (recordInstr c r samples).format = .record := by
  induction c using controlByte_cases with
  | solid base => by_cases hr : r = 0#8 <;> simp [hr, Instr.format]
  | half2 base => simp [Instr.format]
  | full2 base => simp [Instr.format]
  | full4 base => simp [Instr.format]

/-- A record read with the sample bytes its control byte says is well-formed, and its bytes are those it was read from. -/
theorem recordInstr_wellFormed_encode {c r : Byte} {samples : List Byte} (h : samples.length = recordLength c - 2) :
    (recordInstr c r samples).wellFormed = true ∧ encode (recordInstr c r samples) = c :: r :: samples := by
  induction c using controlByte_cases with
  | solid base =>
    obtain rfl : samples = [] := List.eq_nil_of_length_eq_zero (by simpa using h)
    by_cases hr : r = 0#8 <;> simp [hr, Instr.wellFormed, encode]
  | half2 base => simpa [Instr.wellFormed, encode] using h
  | full2 base => simpa [Instr.wellFormed, encode] using h
  | full4 base => simpa [Instr.wellFormed, encode] using h

/-- Every well-formed record is read from a control byte, a range byte and as many sample bytes as the control byte says. -/
theorem exists_recordInstr_of_wellFormed {i : Instr} (hformat : i.format = .record) (hwf : i.wellFormed = true) :
    ∃ c r samples, samples.length = recordLength c - 2 ∧ recordInstr c r samples = i := by
  cases i with
  | skip base => exact ⟨controlByte base 0#2, 0#8, [], by simp, by simp⟩
  | solid base fill => exact ⟨controlByte base 0#2, fill, [], by simp, recordInstr_solid _ _ _ (of_decide_eq_true hwf)⟩
  | half2 base range samples => exact ⟨controlByte base 1#2, range, samples, by simpa using of_decide_eq_true hwf, by simp⟩
  | full2 base range samples => exact ⟨controlByte base 2#2, range, samples, by simpa using of_decide_eq_true hwf, by simp⟩
  | full4 base range samples => exact ⟨controlByte base 3#2, range, samples, by simpa using of_decide_eq_true hwf, by simp⟩
  | _ => exact absurd hformat (by nofun)

end Sys2Proof.Machine
end

section
/-! The statements of 30_encoding.md, from the facts above. -/

namespace Sys2Proof.Machine

/-- Settles O4: fixed words, which the decoder computes. -/
theorem specWordsDecode : Obligations.SpecWordsDecode :=
  ⟨rfl, rfl, rfl, rfl, rfl, rfl, rfl⟩

/-- Settles O1: the word by its fields, and the round trip, also of what a word decodes to. -/
theorem commandWordsRoundTrip : Obligations.CommandWordsRoundTrip := by
  refine ⟨fun i rest hi => ?_, fun w => ?_, fun w => ⟨?_, decodeCommandWord_mask w⟩⟩
  · rw [encode_of_command hi, decode_command_bytesLE, decodeCommandWord_encodeCommandWord hi]
  · exact ⟨decodeCommandWord_of_op, decodeCommandWord_of_op, decodeCommandWord_of_op, decodeCommandWord_of_op,
      decodeCommandWord_of_op, decodeCommandWord_of_op, decodeCommandWord_of_op, decodeCommandWord_of_op,
      decodeCommandWord_of_op, decodeCommandWord_of_op, decodeCommandWord_of_op, decodeCommandWord_of_op,
      decodeCommandWord_of_op, decodeCommandWord_of_op, decodeCommandWord_of_op, decodeCommandWord_of_op⟩
  · exact decodeCommandWord_encodeCommandWord (decodeCommandWord_format w)

/-- Settles O2: a well-formed record is the kind its control byte and range byte name, with the sample bytes that decoding
takes. -/
theorem recordsRoundTrip : Obligations.RecordsRoundTrip := by
  intro i rest hformat hwf
  obtain ⟨c, r, samples, hlen, rfl⟩ := exists_recordInstr_of_wellFormed hformat hwf
  obtain ⟨_, hencode⟩ := recordInstr_wellFormed_encode (r := r) hlen
  rw [hencode]
  exact decode_record_append hlen rest

/-- Settles O3: the record's sample bytes are the first `recordLength c - 2` of what follows its first two bytes. -/
theorem everyCompleteRecordDecodes : Obligations.EveryCompleteRecordDecodes := by
  refine ⟨rfl, fun _ => rfl, fun c r rest => ⟨fun hlen => ?_, fun hshort => decode_record_short (by omega)⟩⟩
  have h2 := two_le_recordLength c
  have htake : (rest.take (recordLength c - 2)).length = recordLength c - 2 := List.length_take_of_le (by omega)
  obtain ⟨hwf, hencode⟩ := recordInstr_wellFormed_encode (r := r) htake
  refine ⟨recordInstr c r (rest.take (recordLength c - 2)), ?_, recordInstr_format _ _ _, hwf, ?_, ?_⟩
  · simpa using decode_record_append (r := r) htake (rest.drop (recordLength c - 2))
  · rw [hencode, List.length_cons, List.length_cons, htake]
    omega
  · rw [hencode, List.cons_append, List.cons_append, List.take_append_drop]

end Sys2Proof.Machine
end

section
/-! SUPPORT. The levels of the BitPacker by their bits (40_bitpacker.md R120 to R124): which bit of which level a bit of a
packed byte is, and what unpacking takes from a byte. -/

namespace Sys2Proof.Machine

variable {w n k i : Nat}

/-! ## Widths -/

/-- The two widths of the BitPacker fill a byte (40_bitpacker.md R120, R121). -/
theorem mul_perByte (h : w = 2 ∨ w = 4) : w * perByte w = 8 := by
  rcases h with rfl | rfl <;> rfl

theorem width_pos (hw : w * perByte w = 8) : 0 < w :=
  Nat.pos_of_ne_zero fun h => by simp [h] at hw

theorem perByte_pos (hw : w * perByte w = 8) : 0 < perByte w :=
  Nat.pos_of_ne_zero fun h => by simp [h] at hw

theorem width_le (hw : w * perByte w = 8) : w ≤ 8 :=
  Nat.le_of_dvd (by decide) ⟨perByte w, hw.symm⟩

/-- A bit of a byte lies in one of its levels. -/
theorem div_width_lt_perByte (hw : w * perByte w = 8) (hi : i < 8) : i / w < perByte w :=
  Nat.div_lt_of_lt_mul (hw.symm ▸ hi)

/-- The bits of level `k` of a byte. -/
theorem level_bit_lt (hw : w * perByte w = 8) (hk : k < perByte w) (hi : i < w) : w * k + i < 8 := by
  have := Nat.mul_le_mul_left w (Nat.succ_le_of_lt hk)
  rw [Nat.mul_succ] at this
  omega

theorem level_bit_div (hi : i < w) : (w * k + i) / w = k := by
  rw [Nat.mul_add_div (by omega), Nat.div_eq_of_lt hi, Nat.add_zero]

/-- A packed byte has at least one level. -/
theorem mul_lt_of_lt_packedLength (hp : 0 < perByte w) (hk : k < packedLength w n) : perByte w * k < n := by
  have := (Nat.le_div_iff_mul_le hp).1 (Nat.succ_le_of_lt hk)
  rw [Nat.succ_mul, Nat.mul_comm] at this
  omega

theorem div_lt_packedLength (hp : 0 < perByte w) (hi : i < n) : i / perByte w < packedLength w n := by
  refine (Nat.le_div_iff_mul_le hp).2 ?_
  have := Nat.div_mul_le_self i (perByte w)
  rw [Nat.succ_mul]
  omega

/-- The packed bytes have room for every level. -/
theorem le_mul_packedLength (hp : 0 < perByte w) (n : Nat) : n ≤ perByte w * packedLength w n := by
  by_contra h
  exact absurd (div_lt_packedLength hp (Nat.lt_of_not_le h)) (by rw [Nat.mul_div_cancel_left _ hp]; exact Nat.lt_irrefl _)

/-! ## One level -/

theorem levelMask_getLsbD (w : Nat) (v : Byte) (i : Nat) : (levelMask w v).getLsbD i = (decide (i < w) && v.getLsbD i) := by
  rw [levelMask, BitVec.getLsbD_and, BitVec.getLsbD_ofNat, Nat.testBit_two_pow_sub_one]
  by_cases hi : i < 8
  · simp [hi, Bool.and_comm]
  · simp [BitVec.getLsbD_of_ge v i (Nat.le_of_not_lt hi)]

theorem levelMask_toNat (hw : w ≤ 8) (v : Byte) : (levelMask w v).toNat = v.toNat % 2 ^ w := by
  have : 2 ^ w ≤ 2 ^ 8 := Nat.pow_le_pow_right (by decide) hw
  rw [levelMask, BitVec.toNat_and, BitVec.toNat_ofNat, Nat.mod_eq_of_lt (by omega), Nat.and_two_pow_sub_one_eq_mod]

theorem unpackLevel_getLsbD (w : Nat) (b : Byte) (j i : Nat) :
    (unpackLevel w b j).getLsbD i = (decide (i < w) && b.getLsbD (w * j + i)) := by
  rw [unpackLevel, levelMask_getLsbD, BitVec.getLsbD_ushiftRight]

/-- A level is a quotient and a remainder of its byte (40_bitpacker.md R122, R123). -/
theorem unpackLevel_toNat (hw : w ≤ 8) (b : Byte) (j : Nat) : (unpackLevel w b j).toNat = b.toNat / 2 ^ (w * j) % 2 ^ w := by
  rw [unpackLevel, levelMask_toNat hw, BitVec.toNat_ushiftRight, Nat.shiftRight_eq_div_pow]

/-! ## One byte -/

/-- Bit `i` of a packed byte is bit `i % w` of its level `i / w`, and 0 where there is no such level. -/
theorem packByte_getLsbD (hw : 0 < w) (levels : List Byte) (i : Nat) :
    (packByte w levels).getLsbD i = (decide (i < 8) && (levels.getD (i / w) 0).getLsbD (i % w)) := by
  induction levels generalizing i with
  | nil => simp [packByte]
  | cons l rest ih =>
    rw [packByte, BitVec.getLsbD_or, levelMask_getLsbD, BitVec.getLsbD_shiftLeft, ih]
    by_cases hi : i < w
    · by_cases h8 : i < 8
      · simp [hi, h8, Nat.div_eq_of_lt hi, Nat.mod_eq_of_lt hi]
      · simp [h8, BitVec.getLsbD_of_ge l i (Nat.le_of_not_lt h8)]
    · have hdiv : i / w = (i - w) / w + 1 := Nat.div_eq_sub_div hw (Nat.le_of_not_lt hi)
      have hmod : i % w = (i - w) % w := Nat.mod_eq_sub_mod (Nat.le_of_not_lt hi)
      rw [hdiv, hmod, List.getD_cons_succ]
      by_cases h8 : i < 8
      · simp [hi, h8, show i - w < 8 by omega]
      · simp [hi, h8]

/-! ## Every byte -/

@[simp] theorem packLevels_length (w : Nat) (levels : List Byte) :
    (packLevels w levels).length = packedLength w levels.length := by
  simp [packLevels]

theorem packLevels_getD {levels : List Byte} (hk : k < packedLength w levels.length) :
    (packLevels w levels).getD k 0 = packByte w ((levels.drop (perByte w * k)).take (perByte w)) := by
  simp [packLevels, List.getD, hk]

/-- Level `i` occupies bits `w * (i % perByte w)` and up of byte `i / perByte w` (40_bitpacker.md R120, R121). -/
theorem packLevels_getLsbD (hw : w * perByte w = 8) {levels : List Byte} (hk : k < packedLength w levels.length) (hi : i < 8) :
    ((packLevels w levels).getD k 0).getLsbD i = (levels.getD (perByte w * k + i / w) 0).getLsbD (i % w) := by
  rw [packLevels_getD hk, packByte_getLsbD (width_pos hw)]
  simp [List.getD, div_width_lt_perByte hw hi, hi]

@[simp] theorem unpackLevels_length (w : Nat) (bytes : List Byte) (n : Nat) : (unpackLevels w bytes n).length = n := by
  simp [unpackLevels]

/-- Unpacking what was packed keeps the low `w` bits of each level (40_bitpacker.md R129). -/
theorem unpackLevels_packLevels (hw : w * perByte w = 8) (levels : List Byte) :
    unpackLevels w (packLevels w levels) levels.length = levels.map (levelMask w) := by
  refine List.ext_getElem (by simp) fun i hi _ => BitVec.eq_of_getLsbD_eq fun j _ => ?_
  have hp := perByte_pos hw
  have hi : i < levels.length := by simpa using hi
  have hlevel : i % perByte w < perByte w := Nat.mod_lt i hp
  simp only [unpackLevels, List.getElem_map, List.getElem_range, unpackLevel_getLsbD, levelMask_getLsbD]
  by_cases hj : j < w
  · rw [packLevels_getLsbD hw (div_lt_packedLength hp hi) (level_bit_lt hw hlevel hj), level_bit_div hj, Nat.div_add_mod,
      Nat.mul_add_mod, Nat.mod_eq_of_lt hj, List.getD_eq_getElem _ _ hi]
  · simp [hj]

end Sys2Proof.Machine
end

section
/-! SUPPORT. The commands of the BitPacker on `MEM` (40_bitpacker.md R125 to R128). `Filled s src dst v k t` says how far a
command has come that reads the region `src` and writes the region `dst`: the first `k` bytes of `dst` are written. -/

namespace Sys2Proof.Machine

variable {ρ : Type}

/-! ## The checks -/

/-- PACK's output byte `k`: the levels it packs are read, then it is written. -/
def packStep (w src dst n k : Nat) : Eng ρ Unit := do
  let levels ← listN (min (perByte w) (n - perByte w * k)) fun j => memRead (src + perByte w * k + j)
  memWrite (dst + k) (packByte w levels)

/-- The loop of PACK (40_bitpacker.md R125, R126). -/
def packLoop (w src dst n : Nat) : Eng ρ Unit := forN (packedLength w n) (packStep w src dst n)

/-- The levels of UNPACK's packed byte `k`, which is `b`. -/
def unpackByte (w dst n k : Nat) (b : Byte) : Eng ρ Unit :=
  forN (min (perByte w) (n - perByte w * k)) fun j => memWrite (dst + perByte w * k + j) (unpackLevel w b j)

/-- UNPACK's packed byte `k`: it is read, then its levels are written. -/
def unpackStep (w src dst n k : Nat) : Eng ρ Unit := memRead (src + k) >>= unpackByte w dst n k

/-- The loop of UNPACK (40_bitpacker.md R127, R128). -/
def unpackLoop (w src dst n : Nat) : Eng ρ Unit := forN (packedLength w n) (unpackStep w src dst n)

/-- The levels in memory, one byte each, from `base` on. -/
def levelRegion (base : Word) (s : State) : Region := { base := base.toNat, len := s.regs.pkCount.toNat }

/-- The packed bytes in memory, from `base` on. -/
def packedRegion (w : Nat) (base : Word) (s : State) : Region :=
  { base := base.toNat, len := packedLength w s.regs.pkCount.toNat }

/-- PACK with its regions checked: `IO_FAILURE` at `SETUP`, or its loop and `done()`. -/
theorem packProgram_answers {w : Nat} {s t : State}
    (h : allInBounds s [levelRegion s.regs.pkSrc s, packedRegion w s.regs.pkDst s] = true →
      Answers (packLoop w s.regs.pkSrc.toNat s.regs.pkDst.toNat s.regs.pkCount.toNat : Eng ρ Unit) s (.ok ((), t))) :
    Answers (packProgram w : Eng ρ Unit) s
      (if allInBounds s [levelRegion s.regs.pkSrc s, packedRegion w s.regs.pkDst s] = true then .ok ((), t.complete)
        else .error (.halt (s.errorEntry .ioFailure .setup 0))) :=
  (Answers.state s).bind (require_bind fun hc => (h hc).bind (Answers.done t))

/-- UNPACK with its regions checked: `IO_FAILURE` at `SETUP`, or its loop and `done()`. -/
theorem unpackProgram_answers {w : Nat} {s t : State}
    (h : allInBounds s [packedRegion w s.regs.pkSrc s, levelRegion s.regs.pkDst s] = true →
      Answers (unpackLoop w s.regs.pkSrc.toNat s.regs.pkDst.toNat s.regs.pkCount.toNat : Eng ρ Unit) s (.ok ((), t))) :
    Answers (unpackProgram w : Eng ρ Unit) s
      (if allInBounds s [packedRegion w s.regs.pkSrc s, levelRegion s.regs.pkDst s] = true then .ok ((), t.complete)
        else .error (.halt (s.errorEntry .ioFailure .setup 0))) :=
  (Answers.state s).bind (require_bind fun hc => (h hc).bind (Answers.done t))

theorem runToEnd_packProgram_outOfBounds {w : Nat} {s : State}
    (h : allInBounds s [levelRegion s.regs.pkSrc s, packedRegion w s.regs.pkDst s] = false) :
    runToEnd (packProgram w) s = .next (s.errorEntry .ioFailure .setup 0) := by
  rw [(packProgram_answers (t := s) fun hc => absurd (h.symm.trans hc) (by decide)).runToEnd, h]
  rfl

theorem runToEnd_unpackProgram_outOfBounds {w : Nat} {s : State}
    (h : allInBounds s [packedRegion w s.regs.pkSrc s, levelRegion s.regs.pkDst s] = false) :
    runToEnd (unpackProgram w) s = .next (s.errorEntry .ioFailure .setup 0) := by
  rw [(unpackProgram_answers (t := s) fun hc => absurd (h.symm.trans hc) (by decide)).runToEnd, h]
  rfl

/-! ## A region filled byte by byte -/

/-- From `s`, the first `k` bytes of `dst` are written; where `dst` does not overlap `src` they are `v 0`, `v 1`, .... -/
structure Filled (s : State) (src dst : Region) (v : Nat → Byte) (k : Nat) (t : State) : Prop where
  memOnly : t = { s with mem := t.mem }
  outside : sameOutside dst s t
  filled : disjoint src dst → ∀ i, i < k → t.byte (dst.base + i) = v i

section
variable {s t : State} {src dst : Region} {v : Nat → Byte} {k : Nat}

theorem Filled.start (s : State) (src dst : Region) (v : Nat → Byte) : Filled s src dst v 0 s :=
  ⟨rfl, fun _ _ => rfl, fun _ _ h => absurd h (Nat.not_lt_zero _)⟩

theorem Filled.platform (h : Filled s src dst v k t) : t.platform = s.platform := by
  rw [h.memOnly]

/-- The input still reads as before the command, where the output does not overlap it. -/
theorem Filled.source (h : Filled s src dst v k t) (hd : disjoint src dst) {i : Nat} (hi : i < src.len) :
    t.byte (src.base + i) = s.byte (src.base + i) := by
  refine h.outside _ (decide_eq_false ?_)
  unfold disjoint at hd
  omega

/-- The next byte of the region written. -/
theorem Filled.setByte {x : Byte} (h : Filled s src dst v k t) (hk : k < dst.len) (hx : disjoint src dst → x = v k) :
    Filled s src dst v (k + 1) (t.setByte (dst.base + k) x) := by
  refine ⟨?_, fun a ha => ?_, fun hd i hi => ?_⟩
  · rw [h.memOnly]
    rfl
  · have hne : a ≠ dst.base + k := by
      rintro rfl
      exact absurd ha (by simp [Region.holds, hk])
    rw [byte_setByte_of_ne t x hne, h.outside a ha]
  · rcases Nat.lt_succ_iff_lt_or_eq.1 hi with hi | rfl
    · rw [byte_setByte_of_ne t x (by omega), h.filled hd i hi]
    · rw [byte_setByte_same, hx hd]

theorem Filled.complete (h : Filled s src dst v k t) : endedChangingMemoryOnly s t.complete := by
  unfold endedChangingMemoryOnly
  rw [h.memOnly]
  rfl

/-- One byte of the region, written by the engine. -/
theorem memWrite_filled (hdst : inBounds s dst = true) (hk : k < dst.len) {x : Byte} (h : Filled s src dst v k t)
    (hx : disjoint src dst → x = v k) :
    ∃ u, Answers (memWrite (dst.base + k) x : Eng ρ Unit) t (.ok ((), u)) ∧ Filled s src dst v (k + 1) u :=
  ⟨_, Answers.memWrite x (h.platform ▸ lt_memBytes_of_inBounds hdst hk), h.setByte hk hx⟩

end

/-! ## The loops -/

theorem take_drop_map_range (f : Nat → Byte) (n a p : Nat) :
    (((List.range n).map f).drop a).take p = (List.range (min p (n - a))).map fun j => f (a + j) :=
  List.ext_getElem (by simp) fun i _ _ => by simp

/-- The levels a region holds, one byte each. -/
def levelsOf (s : State) (src : Region) : List Byte := (List.range src.len).map fun j => s.byte (src.base + j)

/-- Byte `k` of the packed levels of a region. -/
def packedByte (s : State) (w : Nat) (src : Region) (k : Nat) : Byte := (packLevels w (levelsOf s src)).getD k 0

/-- Level `i` of the packed bytes of a region. -/
def unpackedLevel (s : State) (w : Nat) (src : Region) (i : Nat) : Byte :=
  unpackLevel w (s.byte (src.base + i / perByte w)) (i % perByte w)

/-- A packed byte by the levels the loop of PACK reads. -/
theorem packedByte_eq {s : State} {w k : Nat} {src : Region} (hk : k < packedLength w src.len) :
    packedByte s w src k = packByte w ((List.range (min (perByte w) (src.len - perByte w * k))).map fun j =>
      s.byte (src.base + (perByte w * k + j))) := by
  rw [packedByte, packLevels_getD (by simpa [levelsOf] using hk), levelsOf, take_drop_map_range]

theorem unpackedLevel_mul_add {s : State} {w k j : Nat} {src : Region} (hj : j < perByte w) :
    unpackedLevel s w src (perByte w * k + j) = unpackLevel w (s.byte (src.base + k)) j := by
  rw [unpackedLevel, Nat.mul_add_div (by omega), Nat.mul_add_mod, Nat.div_eq_of_lt hj, Nat.mod_eq_of_lt hj, Nat.add_zero]

/-- A part that neither halts nor stops the machine answers. -/
theorem Hoare.answers {α : Type} {P : State → Prop} {p : Eng ρ α} {Q : α → State → Prop} {s : State}
    (h : Hoare P p Q (fun _ => False) False) (hs : P s) : ∃ a t, Answers p s (.ok (a, t)) ∧ Q a t := by
  obtain ⟨(t | f) | ⟨a, t⟩, ho, hres⟩ := h s hs
  · exact hres.elim
  · exact hres.elim
  · exact ⟨a, t, ho, hres⟩

section
variable {w k : Nat} {s : State} {src dst : Region}

theorem packStep_filled (hsrc : inBounds s src = true) (hdst : inBounds s dst = true) (hk : k < packedLength w src.len)
    (hlt : k < dst.len) :
    Hoare (Filled s src dst (packedByte s w src) k) (packStep w src.base dst.base src.len k : Eng ρ Unit)
      (fun _ => Filled s src dst (packedByte s w src) (k + 1)) (fun _ => False) False := by
  intro t ht
  have hread := listN_answers (ρ := ρ) (s := t) (fun j => t.byte (src.base + perByte w * k + j))
    (min (perByte w) (src.len - perByte w * k)) fun j hj => Answers.memRead (by
      rw [ht.platform, Nat.add_assoc]
      exact lt_memBytes_of_inBounds hsrc (by omega))
  refine (memWrite_filled hdst hlt ht fun hd => ?_).elim fun u ⟨hwrite, hu⟩ => ⟨_, hread.bind hwrite, hu⟩
  rw [packedByte_eq hk]
  refine congrArg (packByte w) (List.map_congr_left fun j hj => ?_)
  have hj := List.mem_range.1 hj
  rw [Nat.add_assoc]
  exact ht.source hd (by omega)

/-- The loop of PACK fills its output region with the packed bytes of its input region. -/
theorem packLoop_filled (hlen : dst.len = packedLength w src.len) (hsrc : inBounds s src = true)
    (hdst : inBounds s dst = true) :
    ∃ t, Answers (packLoop w src.base dst.base src.len : Eng ρ Unit) s (.ok ((), t)) ∧
      Filled s src dst (packedByte s w src) dst.len t := by
  have hloop := Hoare.forN (ρ := ρ) (Filled s src dst (packedByte s w src)) (packedLength w src.len)
    fun k hk => packStep_filled hsrc hdst hk (hlen ▸ hk)
  obtain ⟨_, t, ho, ht⟩ := hloop.answers (Filled.start s src dst _)
  exact ⟨t, ho, hlen ▸ ht⟩

/-- The levels of one packed byte, written after those of the bytes before it. -/
theorem unpackByte_filled (hdst : inBounds s dst = true) {b : Byte} (hb : disjoint src dst → b = s.byte (src.base + k)) :
    Hoare (Filled s src dst (unpackedLevel s w src) (perByte w * k)) (unpackByte w dst.base dst.len k b : Eng ρ Unit)
      (fun _ => Filled s src dst (unpackedLevel s w src) (perByte w * k + min (perByte w) (dst.len - perByte w * k)))
      (fun _ => False) False := by
  refine Hoare.forN (fun j => Filled s src dst (unpackedLevel s w src) (perByte w * k + j)) _ fun j hj t ht => ?_
  rw [Nat.add_assoc]
  refine (memWrite_filled hdst (by omega) ht fun hd => ?_).elim fun u ⟨hwrite, hu⟩ => ⟨_, hwrite, hu⟩
  rw [unpackedLevel_mul_add (by omega), hb hd]

theorem unpackStep_filled (hsrc : inBounds s src = true) (hdst : inBounds s dst = true) (hlt : k < src.len)
    (hk : perByte w * k ≤ dst.len) :
    Hoare (Filled s src dst (unpackedLevel s w src) (min (perByte w * k) dst.len))
      (unpackStep w src.base dst.base dst.len k : Eng ρ Unit)
      (fun _ => Filled s src dst (unpackedLevel s w src) (min (perByte w * (k + 1)) dst.len)) (fun _ => False) False := by
  rw [Nat.min_eq_left hk, Nat.mul_succ,
    show min (perByte w * k + perByte w) dst.len = perByte w * k + min (perByte w) (dst.len - perByte w * k) by omega]
  intro t ht
  have hread := Answers.memRead (ρ := ρ) (ht.platform ▸ lt_memBytes_of_inBounds hsrc hlt)
  obtain ⟨_, u, hwrite, hu⟩ := (unpackByte_filled hdst fun hd => ht.source hd hlt).answers ht
  exact ⟨_, hread.bind hwrite, hu⟩

/-- The loop of UNPACK fills its output region with the levels of its input region. -/
theorem unpackLoop_filled (hp : 0 < perByte w) (hlen : src.len = packedLength w dst.len) (hsrc : inBounds s src = true)
    (hdst : inBounds s dst = true) :
    ∃ t, Answers (unpackLoop w src.base dst.base dst.len : Eng ρ Unit) s (.ok ((), t)) ∧
      Filled s src dst (unpackedLevel s w src) dst.len t := by
  have hloop := Hoare.forN (ρ := ρ) (fun k => Filled s src dst (unpackedLevel s w src) (min (perByte w * k) dst.len))
    (packedLength w dst.len) fun k hk =>
    unpackStep_filled hsrc hdst (hlen ▸ hk) (Nat.le_of_lt (mul_lt_of_lt_packedLength hp hk))
  obtain ⟨_, t, ho, ht⟩ := hloop.answers (by simpa using Filled.start s src dst _)
  rw [Nat.min_eq_right (le_mul_packedLength hp dst.len)] at ht
  exact ⟨t, ho, ht⟩

end

/-! ## The commands with their regions in bounds -/

/-- PACK completes, and fills its output region with the packed bytes of its input region. -/
theorem runToEnd_packProgram {w : Nat} {s : State}
    (h : allInBounds s [levelRegion s.regs.pkSrc s, packedRegion w s.regs.pkDst s] = true) :
    ∃ t, runToEnd (packProgram w) s = .next t.complete ∧
      Filled s (levelRegion s.regs.pkSrc s) (packedRegion w s.regs.pkDst s)
        (packedByte s w (levelRegion s.regs.pkSrc s)) (packedRegion w s.regs.pkDst s).len t := by
  obtain ⟨t, ho, ht⟩ := packLoop_filled (w := w) (src := levelRegion s.regs.pkSrc s) (dst := packedRegion w s.regs.pkDst s) rfl
    ((allInBounds_iff s _).1 h _ (by simp)) ((allInBounds_iff s _).1 h _ (by simp))
  exact ⟨t, by rw [(packProgram_answers fun _ => ho).runToEnd, h]; rfl, ht⟩

/-- UNPACK completes, and fills its output region with the levels of its input region. -/
theorem runToEnd_unpackProgram {w : Nat} {s : State} (hp : 0 < perByte w)
    (h : allInBounds s [packedRegion w s.regs.pkSrc s, levelRegion s.regs.pkDst s] = true) :
    ∃ t, runToEnd (unpackProgram w) s = .next t.complete ∧
      Filled s (packedRegion w s.regs.pkSrc s) (levelRegion s.regs.pkDst s)
        (unpackedLevel s w (packedRegion w s.regs.pkSrc s)) (levelRegion s.regs.pkDst s).len t := by
  obtain ⟨t, ho, ht⟩ := unpackLoop_filled (w := w) (src := packedRegion w s.regs.pkSrc s)
    (dst := levelRegion s.regs.pkDst s) hp rfl
    ((allInBounds_iff s _).1 h _ (by simp)) ((allInBounds_iff s _).1 h _ (by simp))
  exact ⟨t, by rw [(unpackProgram_answers fun _ => ho).runToEnd, h]; rfl, ht⟩

end Sys2Proof.Machine
end

section
/-! SUPPORT. What an instruction's program leaves of a state, whatever it reads (10_state.md R22, R39): the surroundings,
`ENG_CMD`, and a property `R` of the registers that its register updates keep. -/

namespace Sys2Proof.Machine

variable {ρ α β : Type} {R : Regs → Prop}

/-- What no engine step changes between `s` and `t`, and `R` of the registers of `t`. -/
def EngineFrame (s : State) (R : Regs → Prop) (t : State) : Prop :=
  sameSurroundings s t ∧ t.engine.cmd = s.engine.cmd ∧ R t.regs

/-- A part of a program with an `EngineFrame`, whether it comes to its end or to an error entry. -/
def KeepsRegs (R : Regs → Prop) (p : Eng ρ α) : Prop :=
  ∀ s, Hoare (EngineFrame s R) p (fun _ => EngineFrame s R) (EngineFrame s R) True

/-- What the next state of an instruction keeps. -/
theorem exec_frame {i : Instr} {s t : State} (hi : KeepsRegs R (program i : Eng Unit Unit)) (hR : R s.regs)
    (ht : exec i s = .next t) : EngineFrame s R t := by
  rw [exec_eq_runToEnd] at ht
  refine next_of_hoare ((hi s).consequence ?_ (fun _ _ h => h) (fun _ h => h) id) ht
  rintro _ rfl
  exact ⟨⟨rfl, rfl, rfl, rfl, rfl⟩, rfl, hR⟩

/-! ## The rules for a part of a program -/

theorem KeepsRegs.pure (a : α) : KeepsRegs R (Pure.pure a : Eng ρ α) := fun _ => Hoare.pure fun _ h => h

theorem KeepsRegs.bind {p : Eng ρ α} {f : α → Eng ρ β} (hp : KeepsRegs R p) (hf : ∀ a, KeepsRegs R (f a)) :
    KeepsRegs R (p >>= f) :=
  fun s => (hp s).bind fun a => hf a s

theorem KeepsRegs.state : KeepsRegs R (Machine.state : Eng ρ State) := fun _ => Hoare.state fun _ h => h

theorem KeepsRegs.memRead (a : Nat) : KeepsRegs R (Machine.memRead a : Eng ρ Byte) :=
  fun _ => Hoare.memRead (fun _ h _ => h) fun _ _ _ => trivial

theorem KeepsRegs.memWrite (a : Nat) (v : Byte) : KeepsRegs R (Machine.memWrite a v : Eng ρ Unit) :=
  fun _ => Hoare.memWrite (fun _ h _ => h) fun _ _ _ => trivial

theorem KeepsRegs.raise (code : ErrCode) (stage : ErrStage) (index : Nat) :
    KeepsRegs R (Machine.raise code stage index : Eng ρ α) :=
  fun _ => Hoare.raise fun _ h => h

theorem KeepsRegs.require {c : Bool} {code : ErrCode} {stage : ErrStage} {index : Nat} :
    KeepsRegs R (Machine.require c code stage index : Eng ρ Unit) :=
  fun _ => Hoare.require (fun _ h _ => h) fun _ h _ => h

/-- A register update keeps what it keeps of the registers; none touches the surroundings or `ENG_CMD`. -/
theorem KeepsRegs.update {u : RegUpdate} (hu : ∀ t : State, R t.regs → R (u.apply t).regs) :
    KeepsRegs R (Machine.update u : Eng ρ Unit) := by
  refine fun s => Hoare.update fun t ⟨hsame, hcmd, hR⟩ => ⟨?_, ?_, hu t hR⟩
  · cases u <;> exact hsame
  · cases u <;> exact hcmd

theorem KeepsRegs.atRecord (b : Block) : KeepsRegs R (Machine.update (.atRecord b) : Eng ρ Unit) :=
  KeepsRegs.update fun _ h => h

theorem KeepsRegs.done : KeepsRegs R (Machine.done : Eng ρ Unit) := KeepsRegs.update fun _ h => h

theorem KeepsRegs.forN {body : Nat → Eng ρ Unit} (count : Nat) (h : ∀ i, KeepsRegs R (body i)) :
    KeepsRegs R (Machine.forN count body) :=
  fun s => Hoare.forN_keeps count fun i _ => h i s

theorem KeepsRegs.listN {f : Nat → Eng ρ α} (count : Nat) (h : ∀ i, KeepsRegs R (f i)) :
    KeepsRegs R (Machine.listN count f) :=
  fun s => (Hoare.listN (fun _ _ => True) count fun i _ => (h i s).consequence (fun _ h => h) (fun _ _ h => ⟨h, trivial⟩)
    (fun _ h => h) id).consequence (fun _ h => h) (fun _ _ h => h.1) (fun _ h => h) id

/-! ## The parts that write no register -/

theorem px_keepsRegs (p : Plane) (x y : Nat) : KeepsRegs R (px p x y : Eng ρ Byte) :=
  KeepsRegs.state.bind fun _ => KeepsRegs.memRead _

theorem pxW_keepsRegs (p : Plane) (x y : Nat) (v : Byte) : KeepsRegs R (pxW p x y v : Eng ρ Unit) :=
  KeepsRegs.state.bind fun _ => KeepsRegs.memWrite _ _

theorem readWindow_keepsRegs (b : Block) : KeepsRegs R (readWindow b : Eng ρ (List Byte)) :=
  KeepsRegs.listN 64 fun _ => px_keepsRegs _ _ _

theorem decodeInto_keepsRegs (f : Nat → Nat → Byte) : KeepsRegs R (decodeInto f : Eng ρ Unit) :=
  KeepsRegs.state.bind fun _ => KeepsRegs.forN 8 fun _ => KeepsRegs.forN 8 fun _ => pxW_keepsRegs _ _ _ _

theorem writeBytes_keepsRegs (a : Nat) (bytes : List Byte) : KeepsRegs R (writeBytes a bytes : Eng ρ Unit) :=
  KeepsRegs.forN _ fun _ => KeepsRegs.memWrite _ _

theorem downsampleBody_keepsRegs (f h : Plane) : KeepsRegs R (downsampleBody f h : Eng ρ Unit) :=
  KeepsRegs.state.bind fun _ => KeepsRegs.forN _ fun _ => KeepsRegs.forN _ fun _ =>
    (px_keepsRegs _ _ _).bind fun _ => (px_keepsRegs _ _ _).bind fun _ => (px_keepsRegs _ _ _).bind fun _ =>
      (px_keepsRegs _ _ _).bind fun _ => pxW_keepsRegs _ _ _ _

theorem upsampleBody_keepsRegs (h f : Plane) : KeepsRegs R (upsampleBody h f : Eng ρ Unit) :=
  KeepsRegs.state.bind fun _ => KeepsRegs.forN _ fun _ => KeepsRegs.forN _ fun _ =>
    (KeepsRegs.listN _ fun _ => px_keepsRegs _ _ _).bind fun _ => pxW_keepsRegs _ _ _ _

theorem splitBody_keepsRegs : KeepsRegs R (splitBody : Eng ρ Unit) :=
  KeepsRegs.state.bind fun _ => KeepsRegs.forN _ fun _ => KeepsRegs.forN _ fun _ => KeepsRegs.state.bind fun _ =>
    (KeepsRegs.memRead _).bind fun _ => (KeepsRegs.memRead _).bind fun _ => (KeepsRegs.memRead _).bind fun _ =>
      (pxW_keepsRegs _ _ _ _).bind fun _ => (pxW_keepsRegs _ _ _ _).bind fun _ => pxW_keepsRegs _ _ _ _

theorem mergeBody_keepsRegs : KeepsRegs R (mergeBody : Eng ρ Unit) :=
  KeepsRegs.state.bind fun _ => KeepsRegs.forN _ fun _ => KeepsRegs.forN _ fun _ => KeepsRegs.state.bind fun _ =>
    (px_keepsRegs _ _ _).bind fun _ => (px_keepsRegs _ _ _).bind fun _ => (px_keepsRegs _ _ _).bind fun _ =>
      (KeepsRegs.memWrite _ _).bind fun _ => (KeepsRegs.memWrite _ _).bind fun _ => KeepsRegs.memWrite _ _

theorem requireBlock_keepsRegs (p : Plane) (regions : State → List Region) :
    KeepsRegs R (requireBlock p regions : Eng ρ Unit) :=
  KeepsRegs.state.bind fun _ => KeepsRegs.require.bind fun _ => KeepsRegs.require.bind fun _ => KeepsRegs.require

theorem requireResample_keepsRegs (f h : Plane) : KeepsRegs R (requireResample f h : Eng ρ Unit) :=
  KeepsRegs.state.bind fun _ => KeepsRegs.require.bind fun _ => KeepsRegs.require

theorem requireImage_keepsRegs : KeepsRegs R (requireImage : Eng ρ Unit) :=
  KeepsRegs.state.bind fun _ => KeepsRegs.require.bind fun _ => KeepsRegs.require

/-! ## The programs that write no register -/

theorem packProgram_keepsRegs (w : Nat) : KeepsRegs R (packProgram w : Eng ρ Unit) :=
  KeepsRegs.state.bind fun _ => KeepsRegs.require.bind fun _ => (KeepsRegs.forN _ fun _ =>
    (KeepsRegs.listN _ fun _ => KeepsRegs.memRead _).bind fun _ => KeepsRegs.memWrite _ _).bind fun _ => KeepsRegs.done

theorem unpackProgram_keepsRegs (w : Nat) : KeepsRegs R (unpackProgram w : Eng ρ Unit) :=
  KeepsRegs.state.bind fun _ => KeepsRegs.require.bind fun _ => (KeepsRegs.forN _ fun _ =>
    (KeepsRegs.memRead _).bind fun _ => KeepsRegs.forN _ fun _ => KeepsRegs.memWrite _ _).bind fun _ => KeepsRegs.done

theorem decodeBlockProgram_keepsRegs (plane : BitVec 2) : KeepsRegs R (decodeBlockProgram plane : Eng ρ Unit) := by
  unfold decodeBlockProgram
  cases blockPlane plane with
  | none => exact KeepsRegs.raise _ _ _
  | some p => exact (requireBlock_keepsRegs _ _).bind fun _ => KeepsRegs.state.bind fun _ => KeepsRegs.atRecord _

theorem downsampleProgram_keepsRegs (plane : BitVec 2) : KeepsRegs R (downsampleProgram plane : Eng ρ Unit) := by
  unfold downsampleProgram
  cases chromaPlanes plane with
  | none => exact KeepsRegs.raise _ _ _
  | some planes =>
    exact (requireResample_keepsRegs _ _).bind fun _ => (downsampleBody_keepsRegs _ _).bind fun _ => KeepsRegs.done

theorem upsampleProgram_keepsRegs (plane : BitVec 2) : KeepsRegs R (upsampleProgram plane : Eng ρ Unit) := by
  unfold upsampleProgram
  cases chromaPlanes plane with
  | none => exact KeepsRegs.raise _ _ _
  | some planes =>
    exact (requireResample_keepsRegs _ _).bind fun _ => (upsampleBody_keepsRegs _ _).bind fun _ => KeepsRegs.done

theorem splitProgram_keepsRegs : KeepsRegs R (splitProgram : Eng ρ Unit) :=
  requireImage_keepsRegs.bind fun _ => splitBody_keepsRegs.bind fun _ => KeepsRegs.done

theorem mergeProgram_keepsRegs : KeepsRegs R (mergeProgram : Eng ρ Unit) :=
  requireImage_keepsRegs.bind fun _ => mergeBody_keepsRegs.bind fun _ => KeepsRegs.done

/-! ## The programs that write registers -/

/-- The registers of `g` but those CLASSIFY writes are those of `g₀` (41_classifier.md R146). -/
def ClassifierRegs (g₀ g : Regs) : Prop := g = { g₀ with cls := g.cls }

/-- The registers of `g` but those an encoding command writes are those of `g₀` (42_block_codec.md R167, 44_container.md
R237). -/
def EncoderRegs (g₀ g : Regs) : Prop := g = { g₀ with cls := g.cls, streamPtr := g.streamPtr, blkCount := g.blkCount }

/-- The registers of `g` but those DECODE_IMAGE writes up to its first record are those of `g₀` (44_container.md R238). -/
def HeaderRegs (g₀ g : Regs) : Prop := g = { g₀ with width := g.width, height := g.height, streamPtr := g.streamPtr }

section
variable {g₀ : Regs}

theorem classifyProgram_keepsRegs (plane : BitVec 2) :
    KeepsRegs (ClassifierRegs g₀) (classifyProgram plane : Eng ρ Unit) := by
  have hcls (c : Cls) : KeepsRegs (ClassifierRegs g₀) (update (.cls c) : Eng ρ Unit) :=
    KeepsRegs.update fun _ h => (congrArg (fun g : Regs => ({ g with cls := c } : Regs)) h).trans rfl
  unfold classifyProgram
  cases blockPlane plane with
  | none => exact KeepsRegs.raise _ _ _
  | some p =>
    exact (requireBlock_keepsRegs _ _).bind fun _ => KeepsRegs.state.bind fun _ => (readWindow_keepsRegs _).bind fun _ =>
      (hcls _).bind fun _ => KeepsRegs.done

theorem encoderRegs_streamPtr (p : Nat) : KeepsRegs (EncoderRegs g₀) (update (.streamPtr p) : Eng ρ Unit) :=
  KeepsRegs.update fun _ h => congrArg (fun g : Regs => ({ g with streamPtr := BitVec.ofNat 32 p } : Regs)) h

theorem encoderRegs_blkCount (n : Nat) : KeepsRegs (EncoderRegs g₀) (update (.blkCount n) : Eng ρ Unit) :=
  KeepsRegs.update fun _ h => congrArg (fun g : Regs => ({ g with blkCount := BitVec.ofNat 32 n } : Regs)) h

theorem encoderRegs_cls (c : Cls) : KeepsRegs (EncoderRegs g₀) (update (.cls c) : Eng ρ Unit) :=
  KeepsRegs.update fun _ h => congrArg (fun g : Regs => ({ g with cls := c } : Regs)) h

theorem encodeStep_keepsRegs (forced : Option BlockMode) (b : Block) :
    KeepsRegs (EncoderRegs g₀) (encodeStep forced b : Eng ρ Unit) :=
  (readWindow_keepsRegs _).bind fun _ => (encoderRegs_cls _).bind fun _ => KeepsRegs.state.bind fun _ =>
    KeepsRegs.require.bind fun _ => (writeBytes_keepsRegs _ _).bind fun _ => (encoderRegs_streamPtr _).bind fun _ =>
      encoderRegs_blkCount _

theorem encodeBlockProgram_keepsRegs (plane : BitVec 2) (fmode : BitVec 3) :
    KeepsRegs (EncoderRegs g₀) (encodeBlockProgram plane fmode : Eng ρ Unit) := by
  unfold encodeBlockProgram
  cases blockPlane plane with
  | none => exact KeepsRegs.raise _ _ _
  | some p =>
    cases forcedMode fmode with
    | none => exact KeepsRegs.raise _ _ _
    | some forced =>
      exact (requireBlock_keepsRegs _ _).bind fun _ => KeepsRegs.state.bind fun _ => (encodeStep_keepsRegs _ _).bind fun _ =>
        KeepsRegs.done

theorem writeHeader_keepsRegs : KeepsRegs (EncoderRegs g₀) (writeHeader : Eng ρ Unit) :=
  KeepsRegs.state.bind fun _ => KeepsRegs.require.bind fun _ => (writeBytes_keepsRegs _ _).bind fun _ =>
    encoderRegs_streamPtr _

theorem encodeImageProgram_keepsRegs (fmode : BitVec 3) (il : Bool) :
    KeepsRegs (EncoderRegs g₀) (encodeImageProgram fmode il : Eng ρ Unit) := by
  unfold encodeImageProgram
  cases forcedMode fmode with
  | none => exact KeepsRegs.raise _ _ _
  | some forced =>
    have hencode (w n : Nat) := (downsampleBody_keepsRegs (ρ := ρ) (R := EncoderRegs g₀) .cbf .cbh).bind fun _ =>
      (downsampleBody_keepsRegs .crf .crh).bind fun _ => writeHeader_keepsRegs.bind fun _ =>
        (KeepsRegs.forN n fun i => encodeStep_keepsRegs forced (blockAt w i)).bind fun _ => KeepsRegs.done
    refine KeepsRegs.state.bind fun s => KeepsRegs.require.bind fun _ => KeepsRegs.require.bind fun _ =>
      (encoderRegs_streamPtr _).bind fun _ => ?_
    cases il with
    | false => exact hencode (imageWidth s) (blockTotal (imageWidth s) (imageHeight s))
    | true => exact splitBody_keepsRegs.bind fun _ => hencode (imageWidth s) (blockTotal (imageWidth s) (imageHeight s))

theorem headerRegs_streamPtr (p : Nat) : KeepsRegs (HeaderRegs g₀) (update (.streamPtr p) : Eng ρ Unit) :=
  KeepsRegs.update fun _ h => congrArg (fun g : Regs => ({ g with streamPtr := BitVec.ofNat 32 p } : Regs)) h

theorem headerRegs_width (w : Half) : KeepsRegs (HeaderRegs g₀) (update (.width w) : Eng ρ Unit) :=
  KeepsRegs.update fun _ h => congrArg (fun g : Regs => ({ g with width := w } : Regs)) h

theorem headerRegs_height (x : Half) : KeepsRegs (HeaderRegs g₀) (update (.height x) : Eng ρ Unit) :=
  KeepsRegs.update fun _ h => congrArg (fun g : Regs => ({ g with height := x } : Regs)) h

theorem readHeader_keepsRegs : KeepsRegs (HeaderRegs g₀) (readHeader : Eng ρ Unit) :=
  KeepsRegs.state.bind fun _ => KeepsRegs.require.bind fun _ => (KeepsRegs.memRead _).bind fun _ =>
    (KeepsRegs.memRead _).bind fun _ => (KeepsRegs.memRead _).bind fun _ => (KeepsRegs.memRead _).bind fun _ =>
      (headerRegs_width _).bind fun _ => (headerRegs_height _).bind fun _ => headerRegs_streamPtr _

theorem decodeImageProgram_keepsRegs (il : Bool) : KeepsRegs (HeaderRegs g₀) (decodeImageProgram il : Eng ρ Unit) :=
  KeepsRegs.state.bind fun _ => KeepsRegs.require.bind fun _ => (headerRegs_streamPtr _).bind fun _ =>
    readHeader_keepsRegs.bind fun _ => KeepsRegs.state.bind fun _ => KeepsRegs.require.bind fun _ =>
      KeepsRegs.require.bind fun _ => KeepsRegs.atRecord _

end

end Sys2Proof.Machine
end

section
/-! The statements of 40_bitpacker.md, and the registers every instruction writes, from the facts above. -/

namespace Sys2Proof.Machine

/-- Settles O34: the first check of each program. -/
theorem packerRegionsChecked : Obligations.PackerRegionsChecked := fun _ =>
  ⟨runToEnd_packProgram_outOfBounds (w := 2), runToEnd_packProgram_outOfBounds (w := 4),
    runToEnd_unpackProgram_outOfBounds (w := 2), runToEnd_unpackProgram_outOfBounds (w := 4)⟩

/-- Settles O30: unpacking what was packed is the mask of each level, which is the level where it is below `2^N`. -/
theorem packingRoundTrips : Obligations.PackingRoundTrips := by
  intro w levels hw
  have hmask (l : Byte) : (levelMask w l).toNat = l.toNat % 2 ^ w := levelMask_toNat (width_le (mul_perByte hw)) l
  rw [unpackLevels_packLevels (mul_perByte hw)]
  refine ⟨by simp [hmask], fun hlt => ?_⟩
  calc levels.map (levelMask w) = levels.map id :=
        List.map_congr_left fun l hl => BitVec.eq_of_toNat_eq ((hmask l).trans (Nat.mod_eq_of_lt (hlt l hl)))
    _ = levels := List.map_id levels

/-- Settles O31: the lengths of the packed bytes, and each of their bits. -/
theorem packedBitPositions : Obligations.PackedBitPositions := fun levels =>
  ⟨packLevels_length 2 levels, packLevels_length 4 levels, fun _ _ hk hj => packLevels_getLsbD rfl hk hj,
    fun _ _ hk hj => packLevels_getLsbD rfl hk hj⟩

/-- Settles O32: the loop of PACK fills the output region. -/
theorem packCommandsComplete : Obligations.PackCommandsComplete := by
  intro s i w hi n src dst h
  obtain ⟨t, hrun, ht⟩ := runToEnd_packProgram (w := w) h
  have hexec : exec i s = runToEnd (packProgram w) s := by
    rcases hi with ⟨rfl, rfl⟩ | ⟨rfl, rfl⟩ <;> rfl
  exact ⟨t.complete, hexec.trans hrun, ht.complete, ht.outside, ht.filled⟩

/-- Settles O33: the loop of UNPACK fills the output region, and a level is a quotient and a remainder of its byte. -/
theorem unpackCommandsComplete : Obligations.UnpackCommandsComplete := by
  intro s i w hi n src dst h
  have hw : w * perByte w = 8 := mul_perByte (hi.imp And.right And.right)
  obtain ⟨t, hrun, ht⟩ := runToEnd_unpackProgram (perByte_pos hw) h
  have hexec : exec i s = runToEnd (unpackProgram w) s := by
    rcases hi with ⟨rfl, rfl⟩ | ⟨rfl, rfl⟩ <;> rfl
  refine ⟨t.complete, hexec.trans hrun, ht.complete, ht.outside, fun hd k hk => ?_⟩
  exact (congrArg BitVec.toNat (ht.filled hd k hk)).trans (unpackLevel_toNat (width_le hw) _ _)

/-- Settles O16: each instruction's program by its parts, of which only a register update can touch a register. -/
theorem execWritesOnlyItsRegisters : Obligations.ExecWritesOnlyItsRegisters := by
  intro i s t ht
  have same {i : Instr} (hi : KeepsRegs (· = s.regs) (program i : Eng Unit Unit)) (ht : exec i s = .next t) :
      EngineFrame s (· = s.regs) t := exec_frame hi rfl ht
  cases i with
  | classify plane => exact exec_frame (R := ClassifierRegs s.regs) (classifyProgram_keepsRegs plane) rfl ht
  | encodeBlock plane fmode => exact exec_frame (R := EncoderRegs s.regs) (encodeBlockProgram_keepsRegs plane fmode) rfl ht
  | encodeImage fmode il => exact exec_frame (R := EncoderRegs s.regs) (encodeImageProgram_keepsRegs fmode il) rfl ht
  | decodeImage il => exact exec_frame (R := HeaderRegs s.regs) (decodeImageProgram_keepsRegs il) rfl ht
  | nop => exact same KeepsRegs.done ht
  | pack2 => exact same (packProgram_keepsRegs 2) ht
  | pack4 => exact same (packProgram_keepsRegs 4) ht
  | unpack2 => exact same (unpackProgram_keepsRegs 2) ht
  | unpack4 => exact same (unpackProgram_keepsRegs 4) ht
  | decodeBlock plane => exact same (decodeBlockProgram_keepsRegs plane) ht
  | downsample plane => exact same (downsampleProgram_keepsRegs plane) ht
  | upsample plane => exact same (upsampleProgram_keepsRegs plane) ht
  | split => exact same splitProgram_keepsRegs ht
  | merge => exact same mergeProgram_keepsRegs ht
  | illegalCommand low => exact same (KeepsRegs.raise _ _ _) ht
  | skip base => exact same (KeepsRegs.pure ()) ht
  | solid base fill => exact same (decodeInto_keepsRegs _) ht
  | half2 base range samples => exact same (decodeInto_keepsRegs _) ht
  | full2 base range samples => exact same (decodeInto_keepsRegs _) ht
  | full4 base range samples => exact same (decodeInto_keepsRegs _) ht

end Sys2Proof.Machine
end

section
/-! SUPPORT. The classifier by the extremes it takes (41_classifier.md R141 to R144): `MIN`, `MAX` and `GRAD2` are the least and
the greatest of what they range over, the fields of a classification hold them exactly, and the decision is taken on half of
`GRAD2`. -/

namespace Sys2Proof.Machine

/-! ## Extremes of a list -/

/-- A fold that starts at no more than some element ends at the greatest element. -/
theorem isGreatest_foldl_max {α : Type} [LinearOrder α] {l : List α} {m : α} (hm : ∃ x ∈ l, m ≤ x) :
    IsGreatest {x | x ∈ l} (l.foldl max m) := by
  obtain ⟨hmem, hle⟩ := List.max?_eq_some_iff.1 (List.max?_cons' (x := m) (xs := l))
  have hbound : ∀ x ∈ l, x ≤ l.foldl max m := fun x hx => hle x (List.mem_cons_of_mem m hx)
  refine ⟨?_, hbound⟩
  rcases List.mem_cons.1 hmem with hstart | hmem
  · obtain ⟨x, hx, hmx⟩ := hm
    have heq : l.foldl max m = x := le_antisymm (hstart.le.trans hmx) (hbound x hx)
    exact heq ▸ hx
  · exact hmem

/-- A fold that starts at no less than some element ends at the least element. -/
theorem isLeast_foldl_min {α : Type} [LinearOrder α] {l : List α} {m : α} (hm : ∃ x ∈ l, x ≤ m) :
    IsLeast {x | x ∈ l} (l.foldl min m) :=
  isGreatest_foldl_max (α := αᵒᵈ) hm

/-! ## The samples (41_classifier.md R141) -/

section
variable {p : List Byte}

theorem isLeast_minSample (hp : p ≠ []) : IsLeast {n | n ∈ p.map BitVec.toNat} (minSample p) := by
  obtain ⟨v, hv⟩ := List.exists_mem_of_ne_nil p hp
  rw [minSample, ← List.foldl_map]
  exact isLeast_foldl_min ⟨v.toNat, List.mem_map_of_mem hv, Nat.le_of_lt_succ v.isLt⟩

theorem isGreatest_maxSample (hp : p ≠ []) : IsGreatest {n | n ∈ p.map BitVec.toNat} (maxSample p) := by
  obtain ⟨v, hv⟩ := List.exists_mem_of_ne_nil p hp
  rw [maxSample, ← List.foldl_map]
  exact isGreatest_foldl_max ⟨v.toNat, List.mem_map_of_mem hv, Nat.zero_le _⟩

theorem exists_eq_minSample (hp : p ≠ []) : ∃ v ∈ p, v.toNat = minSample p :=
  List.mem_map.1 (isLeast_minSample hp).1

theorem exists_eq_maxSample (hp : p ≠ []) : ∃ v ∈ p, v.toNat = maxSample p :=
  List.mem_map.1 (isGreatest_maxSample hp).1

theorem minSample_le {v : Byte} (hv : v ∈ p) : minSample p ≤ v.toNat :=
  (isLeast_minSample (List.ne_nil_of_mem hv)).2 (List.mem_map_of_mem hv)

theorem le_maxSample {v : Byte} (hv : v ∈ p) : v.toNat ≤ maxSample p :=
  (isGreatest_maxSample (List.ne_nil_of_mem hv)).2 (List.mem_map_of_mem hv)

end

/-! ## The gradient (41_classifier.md R142) -/

/-- The least coordinate of the window under a reading of it (41_classifier.md R142, D8); the greatest is 6 under both. -/
def windowLow (g : Config.GradWindow) : Nat := if g = .interior then 1 else 0

theorem mem_gradPositions {g : Config.GradWindow} {x y : Nat} :
    (x, y) ∈ gradPositions g ↔ windowLow g ≤ x ∧ x ≤ 6 ∧ windowLow g ≤ y ∧ y ≤ 6 := by
  cases g with
  | interior => simp [gradPositions, windowLow]; omega
  | forward => simp [gradPositions, windowLow]; omega

/-- The term of `GRAD2` at `(x, y)`, as 41_classifier.md R142 writes it. -/
def gradTerm (p : List Byte) (x y : Nat) : Int :=
  |(sampleAt p x y : Int) - sampleAt p (x + 1) y| + |(sampleAt p x y : Int) - sampleAt p x (y + 1)|

/-- `abs(a - b)` is the distance (00_scope.md R7). -/
theorem absDiff_cast (a b : Nat) : (absDiff a b : Int) = |(a : Int) - b| := by
  unfold absDiff
  split
  · rw [abs_sub_comm, abs_of_nonneg (by omega), Nat.cast_sub ‹_›]
  · rw [abs_of_nonneg (by omega), Nat.cast_sub (by omega)]

theorem gradAt_cast (p : List Byte) (x y : Nat) : (gradAt p (x, y) : Int) = gradTerm p x y := by
  rw [gradAt, Nat.cast_add, absDiff_cast, absDiff_cast, gradTerm]

theorem isGreatest_grad2 (g : Config.GradWindow) (p : List Byte) :
    IsGreatest {n | n ∈ (gradPositions g).map (gradAt p)} (grad2 g p) := by
  have h66 : (6, 6) ∈ gradPositions g := mem_gradPositions.2 (by cases g <;> decide)
  exact isGreatest_foldl_max ⟨_, List.mem_map_of_mem h66, Nat.zero_le _⟩

theorem gradTerm_le_grad2 {g : Config.GradWindow} (p : List Byte) {x y : Nat} (hx : windowLow g ≤ x) (hx6 : x ≤ 6)
    (hy : windowLow g ≤ y) (hy6 : y ≤ 6) : gradTerm p x y ≤ grad2 g p := by
  rw [← gradAt_cast]
  exact Int.ofNat_le.2 ((isGreatest_grad2 g p).2 (List.mem_map_of_mem (mem_gradPositions.2 ⟨hx, hx6, hy, hy6⟩)))

theorem exists_gradTerm_eq_grad2 (g : Config.GradWindow) (p : List Byte) :
    ∃ x y, windowLow g ≤ x ∧ x ≤ 6 ∧ windowLow g ≤ y ∧ y ≤ 6 ∧ gradTerm p x y = grad2 g p := by
  obtain ⟨⟨x, y⟩, hpos, hterm⟩ := List.mem_map.1 (isGreatest_grad2 g p).1
  obtain ⟨hx, hx6, hy, hy6⟩ := mem_gradPositions.1 hpos
  exact ⟨x, y, hx, hx6, hy, hy6, by rw [← gradAt_cast, hterm]⟩

/-! ## The decision (41_classifier.md R143, R144) -/

/-- `maxGrad < GRAD_THRESHOLD`, where `maxGrad` is half of `GRAD2` (41_classifier.md R143). -/
theorem half_lt_threshold_iff (g : Nat) : ((g : Int) : ℚ) / 2 < 15 ↔ g < 2 * gradThreshold := by
  rw [div_lt_iff₀ (by norm_num)]
  norm_num [gradThreshold]

theorem decideMode_eq (mn mx g : Nat) :
    decideMode mn mx g = if mx = mn then .solid else if ((g : Int) : ℚ) / 2 < 15 then .half2 else .full2 := by
  simp only [decideMode, half_lt_threshold_iff]

theorem decideMode_ne_full4 (mn mx g : Nat) : decideMode mn mx g ≠ .full4 := by
  unfold decideMode
  split
  · nofun
  · split <;> nofun

/-! ## The fields of a classification (10_state.md R34, R35) -/

section
variable (g : Config.GradWindow) {p : List Byte}

theorem classifyWith_min (hp : p ≠ []) : (classifyWith g p).min.toNat = minSample p := by
  obtain ⟨v, _, hv⟩ := exists_eq_minSample hp
  exact Nat.mod_eq_of_lt (hv ▸ v.isLt)

theorem classifyWith_max (hp : p ≠ []) : (classifyWith g p).max.toNat = maxSample p := by
  obtain ⟨v, _, hv⟩ := exists_eq_maxSample hp
  exact Nat.mod_eq_of_lt (hv ▸ v.isLt)

theorem classifyWith_grad2 (p : List Byte) : (classifyWith g p).grad2.toNat = grad2 g p :=
  Nat.mod_eq_of_lt (Nat.lt_of_le_of_lt (grad2_le g p) (by decide))

end

end Sys2Proof.Machine
end

section
/-! SUPPORT. The classifier's command (41_classifier.md R146, R147): a window inside a plane in bounds exists, so `CLASSIFY` with
its checks met reads it and completes with its classification. -/

namespace Sys2Proof.Machine

variable {ρ : Type} {s : State} {p : Plane}

/-- The samples of a block inside a plane in bounds exist (20_memory.md R68; 60_exceptions.md R266). -/
theorem blockAddr_lt {b : Block} (hin : BlockInside s b) (hb : inBounds s (planeRegion s b.plane) = true) {x y : Nat}
    (hx : x < 8) (hy : y < 8) : blockAddr s b x y < s.platform.memBytes := by
  obtain ⟨hright, hbottom⟩ := hin
  exact planeAddr_lt hb (by omega) (by omega)

/-- `CLASSIFY` with its checks met (41_classifier.md R146). -/
theorem classifyProgram_answers {plane : BitVec 2} (hplane : blockPlane plane = some p)
    (hdims : validDims s.regs.width s.regs.height = true) (hwindow : windowInside s p = true)
    (hbounds : allInBounds s [planeRegion s p] = true) :
    Answers (classifyProgram plane : Eng ρ Unit) s
      (.ok ((), (s.setCls (classifyBlock (blockSamples s (singleBlock s p)))).complete)) := by
  have hplaneIn : inBounds s (planeRegion s p) = true := (allInBounds_iff _ _).1 hbounds _ List.mem_cons_self
  have hchecks : Answers (requireBlock p (fun s => [planeRegion s p]) : Eng ρ Unit) s (.ok ((), s)) := by
    simpa only [planeRegion_view, hdims, hwindow, hbounds, if_true] using
      requireBlock_answers p (fun s => [planeRegion s p]) s
  have hread : Answers (readWindow (singleBlock s.view p) : Eng ρ (List Byte)) s
      (.ok (blockSamples s (singleBlock s p), s)) := by
    rw [singleBlock_view]
    exact readWindow_answers fun x y => blockAddr_lt (singleBlock_inside hwindow) hplaneIn
  unfold classifyProgram
  rw [hplane]
  exact hchecks.bind ((Answers.state s).bind (hread.bind ((Answers.update _ s).bind (Answers.done _))))

end Sys2Proof.Machine
end

section
/-! The family of 41_classifier.md settled. -/

namespace Sys2Proof.Machine

theorem ne_nil_of_length_64 {p : List Byte} (h : p.length = 64) : p ≠ [] :=
  List.ne_nil_of_length_pos (by omega)

/-- Settles O35: the two folds over the samples and the fold over the window's terms end at an extreme of what they range over. -/
theorem classifierExtremesAndGradient : Obligations.ClassifierExtremesAndGradient := by
  intro p g hlen
  have hp := ne_nil_of_length_64 hlen
  exact ⟨exists_eq_minSample hp, exists_eq_maxSample hp, fun v hv => ⟨minSample_le hv, le_maxSample hv⟩,
    fun x y => gradTerm_le_grad2 p, exists_gradTerm_eq_grad2 g p, grad2_le g p⟩

/-- Settles O36: no field of a classification is cut off, so it holds the extremes and the decision is taken on them. -/
theorem classifierDecision : Obligations.ClassifierDecision := by
  refine ⟨fun p hlen => ?_, fun p g hlen => ?_⟩
  · have hp := ne_nil_of_length_64 hlen
    have hgrad : (classifyBlock p).grad2.toNat = grad2 .interior p := classifyWith_grad2 .interior p
    dsimp only
    rw [hgrad]
    exact ⟨fun x y => gradTerm_le_grad2 (g := .interior) p, exists_gradTerm_eq_grad2 .interior p,
      classifyWith_min .interior hp, classifyWith_max .interior hp, decideMode_eq _ _ _⟩
  · have hp := ne_nil_of_length_64 hlen
    exact ⟨decideMode_eq _ _ _, decideMode_ne_full4 _ _ _, classifyWith_min g hp, classifyWith_max g hp,
      classifyWith_grad2 g p⟩

/-- Settles O37: the checks pass, the window is read, and the update is followed by `done()`. -/
theorem classifyCompletes : Obligations.ClassifyCompletes := by
  intro s plane p hplane hdims hwindow hbounds
  rw [exec_eq_runToEnd]
  exact (classifyProgram_answers hplane hdims hwindow hbounds).runToEnd

end Sys2Proof.Machine
end

section
/-! SUPPORT. The engine at a record (42_block_codec.md R177, R178; 44_container.md R238): what a fetch answers, with the whole
record there or not, the turn of a record, and the position behind it. -/

namespace Sys2Proof.Machine

variable {ρ : Type} {s : State}

/-! ## A check by its condition -/

theorem require_failed {α : Type} {c : Prop} [Decidable c] {code : ErrCode} {stage : ErrStage} {index : Nat}
    {f : Unit → Eng ρ α} (hc : ¬c) :
    Answers (require (decide c) code stage index >>= f) s (.error (.halt (s.errorEntry code stage index))) := by
  rw [decide_eq_false hc]
  exact (Answers.raise code stage index s).bind_error

theorem require_decide {α : Type} {c : Prop} [Decidable c] {code : ErrCode} {stage : ErrStage} {index : Nat}
    {f : Unit → Eng ρ α} {o : Except Stop (α × State)} (h : c → Answers (f ()) s o) :
    Answers (require (decide c) code stage index >>= f) s
      (if c then o else .error (.halt (s.errorEntry code stage index))) := by
  by_cases hc : c
  · rw [decide_eq_true hc, if_pos hc]
    exact (Answers.pure () s).bind (h hc)
  · rw [if_neg hc]
    exact require_failed hc

/-! ## The record at `STREAM_PTR` -/

/-- Byte `k` of the stream from `STREAM_PTR` on. -/
def recordByte (s : State) (k : Nat) : Byte := s.byte (streamAddr s (s.regs.streamPtr.toNat + k))

/-- How long the record at `STREAM_PTR` is, from its control byte (30_encoding.md R107). -/
def nextLength (s : State) : Nat := recordLength (recordByte s 0)

/-- The record at `STREAM_PTR`, as the instruction it is. -/
def nextRecord (s : State) : Instr :=
  recordInstr (recordByte s 0) (recordByte s 1) ((List.range (nextLength s - 2)).map fun k => recordByte s (2 + k))

/-- The bytes of the record at `STREAM_PTR` decode to it, and to nothing more. -/
theorem decode_nextRecord (s : State) :
    decode .record ((List.range (nextLength s)).map (recordByte s)) = .ok (nextRecord s, []) := by
  have hlen : nextLength s = 2 + (nextLength s - 2) := by
    have := two_le_recordLength (recordByte s 0)
    unfold nextLength
    omega
  have hbytes : (List.range (nextLength s)).map (recordByte s) = recordByte s 0 :: recordByte s 1 ::
      (((List.range (nextLength s - 2)).map fun k => recordByte s (2 + k)) ++ []) := by
    rw [hlen, List.range_add, ← hlen]
    simp [List.range_succ]
  rw [hbytes]
  exact decode_record_append (by simp [nextLength]) []

/-- A whole record is fetched (42_block_codec.md R177). -/
theorem fetchInstr_answers (hlen : s.regs.streamPtr.toNat + nextLength s ≤ s.regs.streamLen.toNat)
    (hmem : streamAddr s (s.regs.streamPtr.toNat + nextLength s) ≤ s.platform.memBytes) :
    Answers (fetchInstr : Eng ρ (Instr × Nat)) s (.ok ((nextRecord s, nextLength s), s)) :=
  (fetchRecord_answers hlen hmem).bind (Answers.pure _ s)

/-- A record of which a byte lies at `STREAM_LEN` or beyond is not (42_block_codec.md R177; 60_exceptions.md R263). -/
theorem fetchInstr_short (hstream : inBounds s (streamRegion s) = true)
    (hshort : s.regs.streamLen.toNat < s.regs.streamPtr.toNat + 2 ∨
      s.regs.streamLen.toNat < s.regs.streamPtr.toNat + nextLength s) :
    Answers (fetchInstr : Eng ρ (Instr × Nat)) s
      (.error (.halt (s.errorEntry .unexpectedEndOfInput .block s.engine.block.index))) := by
  refine Answers.bind_error ((Answers.state s).bind ?_)
  by_cases htwo : s.regs.streamPtr.toNat + 2 ≤ s.regs.streamLen.toNat
  · have hcontrol : streamAddr s s.regs.streamPtr.toNat < s.platform.memBytes :=
      lt_memBytes_of_inBounds hstream (show s.regs.streamPtr.toNat < s.regs.streamLen.toNat by omega)
    dsimp only [view_regs, view_engine, streamAddr_view]
    rw [decide_eq_true htwo]
    refine (Answers.pure () s).bind ((Answers.memRead hcontrol).bind (require_failed ?_))
    show ¬s.regs.streamPtr.toNat + nextLength s ≤ s.regs.streamLen.toNat
    omega
  · exact require_failed htwo

/-! ## The turn of a record -/

/-- What the turn of a record makes of what the record's meaning answers. -/
def advance (len : Nat) : Host.Outcome State Fault Refusal → Host.Outcome State Fault Refusal
  | .next t => .next (afterRecord len t)
  | .fault f => .fault f
  | .refused r => .refused r

theorem recordTurn_whole (hlen : s.regs.streamPtr.toNat + nextLength s ≤ s.regs.streamLen.toNat)
    (hmem : streamAddr s (s.regs.streamPtr.toNat + nextLength s) ≤ s.platform.memBytes) :
    recordTurn s = advance (nextLength s) (exec (nextRecord s) s) := by
  have hfetch : Prog.run (fetchInstr .finish) s = .ok ((nextRecord s, nextLength s), s) := fetchInstr_answers hlen hmem .finish
  rw [recordTurn, hfetch]
  rfl

theorem recordTurn_short (hstream : inBounds s (streamRegion s) = true)
    (hshort : s.regs.streamLen.toNat < s.regs.streamPtr.toNat + 2 ∨
      s.regs.streamLen.toNat < s.regs.streamPtr.toNat + nextLength s) :
    recordTurn s = .next (s.errorEntry .unexpectedEndOfInput .block s.engine.block.index) := by
  have hfetch : Prog.run (fetchInstr .finish) s =
    .error (.halt (s.errorEntry .unexpectedEndOfInput .block s.engine.block.index)) := fetchInstr_short hstream hshort .finish
  rw [recordTurn, hfetch]

/-! ## Behind a record -/

theorem recordTotal_decodeBlock {plane : BitVec 2} (h : runningCommand s = .decodeBlock plane) : recordTotal s = 1 := by
  rw [recordTotal, h]

theorem recordTotal_decodeImage {il : Bool} (h : runningCommand s = .decodeImage il) :
    recordTotal s = blockTotal (imageWidth s) (imageHeight s) := by
  rw [recordTotal, h]

/-- Behind a record that is not the last, the next block of the traversal. -/
theorem afterRecord_of_lt (len : Nat) (h : s.engine.block.index + 1 < recordTotal s) : afterRecord len s =
    ((s.setStreamPtr (s.regs.streamPtr.toNat + len)).setBlkCount (s.engine.block.index + 1)).atRecord
      (blockAt (imageWidth s) (s.engine.block.index + 1)) := by
  rw [afterRecord, nextPosition, if_pos h]
  rfl

/-- Behind the last record, the command's end. -/
theorem afterRecord_of_not_lt (len : Nat) (h : ¬s.engine.block.index + 1 < recordTotal s) : afterRecord len s =
    ((s.setStreamPtr (s.regs.streamPtr.toNat + len)).setBlkCount (s.engine.block.index + 1)).atFinish := by
  rw [afterRecord, nextPosition, if_neg h]
  rfl

/-- The advance touches neither `MEM` nor `STATUS`, and the engine goes on with the same command. -/
theorem afterRecord_frame (len : Nat) (s : State) :
    (afterRecord len s).mem = s.mem ∧ (afterRecord len s).status = s.status ∧
      (afterRecord len s).engine.mode = s.engine.mode ∧ (afterRecord len s).engine.cmd = s.engine.cmd := by
  by_cases h : s.engine.block.index + 1 < recordTotal s
  · rw [afterRecord_of_lt len h]
    exact ⟨rfl, rfl, rfl, rfl⟩
  · rw [afterRecord_of_not_lt len h]
    exact ⟨rfl, rfl, rfl, rfl⟩

end Sys2Proof.Machine
end

section
/-! The statements about the step at a record, from the facts above. -/

namespace Sys2Proof.Machine

/-- Settles O6: the record's bytes decode to the instruction the turn fetches. -/
theorem stepRunsTheRecord : Obligations.StepRunsTheRecord := by
  intro s i hmode hphase hunderway hagenda off len hlen hmem hdecode
  obtain rfl : nextRecord s = i :=
    congrArg Prod.fst (Except.ok.inj ((decode_nextRecord s).symm.trans hdecode))
  rw [step_nil hagenda, engineTurn_record hmode hunderway hphase, recordTurn_whole hlen hmem]
  exact match exec (nextRecord s) s with
    | .next _ => rfl
    | .fault _ => rfl
    | .refused _ => rfl

/-- Settles O7: the fetch fails one of its two checks, and the error entry is the whole turn. -/
theorem shortRecordRaisesUnexpectedEnd : Obligations.ShortRecordRaisesUnexpectedEnd := by
  intro s hmode hphase hunderway hagenda hstream off hshort
  rw [step_nil hagenda, engineTurn_record hmode hunderway hphase]
  exact recordTurn_short ((allInBounds_iff _ _).1 hstream _ List.mem_cons_self) hshort

/-- Settles O8: the registers and the frame of the advance, and whether the block was the command's last. -/
theorem afterRecordAdvances : Obligations.AfterRecordAdvances := by
  intro s len
  obtain ⟨hmem, hstatus, hmode, hcmd⟩ := afterRecord_frame len s
  refine ⟨by rw [afterRecord_regs], by rw [afterRecord_regs], hmem, hstatus, hmode, hcmd, fun plane hplane hindex => ?_,
    fun il hil => ?_⟩
  · rw [afterRecord_of_not_lt len (by rw [recordTotal_decodeBlock hplane, hindex]; decide), atFinish_engine]
  · have htotal : recordTotal s = 6 * (s.regs.width.toNat / 16) * (s.regs.height.toNat / 16) := recordTotal_decodeImage hil
    split
    · next hlt =>
      rw [afterRecord_of_lt len (by rwa [htotal])]
      exact ⟨rfl, rfl⟩
    · next hlast =>
      rw [afterRecord_of_not_lt len (by rwa [htotal]), atFinish_engine]

end Sys2Proof.Machine
end

section
/-! SUPPORT. The decoder's values by their numbers (42_block_codec.md R168 to R171): the baselines, the levels of packed samples,
the dequantizers and the reconstruction. -/

namespace Sys2Proof.Machine

/-! ## The control byte (30_encoding.md R96) -/

theorem controlByte_toNat (base : BitVec 6) (mode : BitVec 2) :
    (controlByte base mode).toNat = base.toNat * 4 + mode.toNat := toNat_append_eq base mode

/-- `(c & 0xFC) | mode` has the six high bits of `c` and the mode. -/
theorem and_FC_or_mode (c : Byte) (mode : BitVec 2) : (c &&& 0xFC) ||| (0#6 ++ mode) = controlByte (baseField c) mode := by
  calc (c &&& 0xFC) ||| (0#6 ++ mode)
      = ((baseField c ++ modeField c) &&& (BitVec.allOnes 6 ++ 0#2)) ||| (0#6 ++ mode) :=
        congrArg (· &&& (0xFC : Byte) ||| (0#6 ++ mode)) (controlByte_baseField_modeField c).symm
    _ = controlByte (baseField c) mode := by
        rw [BitVec.and_append, BitVec.or_append, BitVec.and_allOnes, BitVec.and_zero, BitVec.or_zero, BitVec.zero_or]
        rfl

theorem baseField_toNat (c : Byte) : (baseField c).toNat = c.toNat / 4 := by
  have := c.isLt
  rw [baseField, BitVec.extractLsb'_toNat, Nat.shiftRight_eq_div_pow]
  omega

theorem baseH_eq (base : BitVec 6) : baseH base = base.toNat * 4 + 2 := by
  have h := and_FC_or_mode (controlByte base 0) 2
  rw [baseField_controlByte] at h
  exact (congrArg BitVec.toNat h).trans (controlByte_toNat base 2)

theorem baseF2_eq (base : BitVec 6) : baseF2 base = base.toNat * 4 + 2 := controlByte_toNat base 2

theorem baseF4_eq (base : BitVec 6) : baseF4 base = base.toNat * 4 + 3 := controlByte_toNat base 3

/-! ## Levels and values -/

/-- A clamped value fits a byte (42_block_codec.md R168 to R170, D9). -/
theorem dequantWith_toNat (q base r : Nat) (level : Byte) :
    (dequantWith deqEval q base r level).toNat = min 255 (level.toNat * r / q + base) := by
  have hspan : levelSpan deqEval q level.toNat r = level.toNat * r / q := if_neg fun h => Config.DeqEval.noConfusion h.1
  rw [dequantWith, hspan, BitVec.toNat_ofNat]
  exact Nat.mod_eq_of_lt (by omega)

theorem dequantHalf2_toNat (base : BitVec 6) (range level : Byte) :
    (dequantHalf2 base range level).toNat = min 255 (level.toNat * range.toNat / 3 + (base.toNat * 4 + 2)) := by
  rw [dequantHalf2, dequantWith_toNat, baseH_eq]

theorem dequantFull2_toNat (base : BitVec 6) (range level : Byte) :
    (dequantFull2 base range level).toNat = min 255 (level.toNat * range.toNat / 3 + (base.toNat * 4 + 2)) := by
  rw [dequantFull2, dequantWith_toNat, baseF2_eq]

theorem dequantFull4_toNat (base : BitVec 6) (range level : Byte) :
    (dequantFull4 base range level).toNat = min 255 (level.toNat * range.toNat / 15 + (base.toNat * 4 + 3)) := by
  rw [dequantFull4, dequantWith_toNat, baseF4_eq]

/-- Level `i` of packed samples (40_bitpacker.md R122, R123). -/
theorem unpackLevels_getD_toNat {w n i : Nat} (hw : w ≤ 8) (bytes : List Byte) (hi : i < n) :
    ((unpackLevels w bytes n).getD i 0).toNat =
      (bytes.getD (i / perByte w) 0).toNat / (2 ^ w) ^ (i % perByte w) % 2 ^ w := by
  rw [List.getD_eq_getElem _ _ (by simpa using hi), ← pow_mul]
  simp only [unpackLevels, List.getElem_map, List.getElem_range]
  exact unpackLevel_toNat hw _ _

/-! ## Reconstruction (42_block_codec.md R171) -/

/-- The average of bytes is cut down to an integer and fits a byte (D10). -/
theorem average_toNat {vs : List Byte} (hvs : vs ≠ []) : (average vs).toNat = (vs.map BitVec.toNat).sum / vs.length := by
  have hlen : 0 < vs.length := List.length_pos_of_ne_nil hvs
  have hsum : (vs.map BitVec.toNat).sum ≤ vs.length * 255 := by
    simpa using List.sum_le_card_nsmul (vs.map BitVec.toNat) 255 (by simpa using fun v _ => Nat.le_of_lt_succ v.isLt)
  refine Nat.mod_eq_of_lt (Nat.lt_succ_of_le ?_)
  exact (Nat.div_le_div_right hsum).trans (Nat.le_of_eq (Nat.mul_div_cancel_left _ hlen))

/-- The reconstruction at `(x, y)` by the four cases of 42_block_codec.md R171. -/
theorem recon_toNat (g : Nat → Nat → Byte) (gw gh x y : Nat) :
    (recon g gw gh x y).toNat =
      (let at' (j i : Nat) : Nat := (g j i).toNat
       let i0 := x / 2
       let j0 := y / 2
       let i1 := min (i0 + 1) (gw - 1)
       let j1 := min (j0 + 1) (gh - 1)
       if x % 2 = 0 ∧ y % 2 = 0 then at' j0 i0
       else if y % 2 = 0 then (at' j0 i0 + at' j0 i1) / 2
       else if x % 2 = 0 then (at' j0 i0 + at' j1 i0) / 2
       else (at' j0 i0 + at' j0 i1 + at' j1 i0 + at' j1 i1) / 4) := by
  by_cases hx : x % 2 = 0
  · by_cases hy : y % 2 = 0
    · simp [recon, reconPositions, hx, hy, average_toNat]
    · simp [recon, reconPositions, hx, hy, average_toNat]
  · by_cases hy : y % 2 = 0
    · simp [recon, reconPositions, hx, hy, average_toNat]
    · simp [recon, reconPositions, hx, hy, average_toNat, Nat.add_assoc]

end Sys2Proof.Machine
end

section
/-! SUPPORT. The five record kinds on a block that fits its plane (42_block_codec.md R172 to R176): a record completes, each of
the 64 samples is what the record gives for it, and nothing else changes. -/

namespace Sys2Proof.Machine

variable {ρ : Type} {s : State}

/-- The record kind `i` has run from `s` on the current block of the engine: `MEM` holds `m`. -/
structure RecordRun (i : Instr) (s : State) (m : List Host.Cell) : Prop where
  exec_eq : exec i s = .next { s with mem := m }
  frame : sameOutsideBlock s.engine.block s { s with mem := m }
  sample : ∀ x y, x < 8 → y < 8 → memByte m (blockAddr s s.engine.block x y) =
    recordSample i (s.byte (blockAddr s s.engine.block x y)) x y

theorem execSkip_eq (base : BitVec 6) (s : State) : exec (.skip base) s = .next s := rfl

/-- A record that writes its block, `f x y` at sample `(x, y)`. -/
theorem recordRun_decodeInto {i : Instr} {f : Nat → Nat → Byte} (hfits : blockFits s s.engine.block)
    (hi : (program i : Eng Unit Unit) = decodeInto f) (hf : ∀ old x y, recordSample i old x y = f x y) :
    ∃ m, RecordRun i s m := by
  obtain ⟨m, hrun, hframe, hsample⟩ := writeWindow_answers (ρ := Unit) f hfits
  refine ⟨m, ?_, hframe, fun x y hx hy => by rw [hf, hsample x y hx hy]⟩
  have hinto : Answers (decodeInto f : Eng Unit Unit) s (.ok ((), { s with mem := m })) := by
    refine (Answers.state s).bind ?_
    exact hrun
  rw [exec_eq_runToEnd, hi, hinto.runToEnd]
  rfl

/-- Every record completes on a block that fits. -/
theorem exists_recordRun {i : Instr} (hformat : i.format = .record) (hfits : blockFits s s.engine.block) :
    ∃ m, RecordRun i s m := by
  cases i with
  | skip base => exact ⟨s.mem, execSkip_eq base s, fun _ _ => rfl, fun _ _ _ _ => rfl⟩
  | solid base fill => exact recordRun_decodeInto hfits rfl fun _ _ _ => rfl
  | half2 base range samples => exact recordRun_decodeInto hfits rfl fun _ _ _ => rfl
  | full2 base range samples => exact recordRun_decodeInto hfits rfl fun _ _ _ => rfl
  | full4 base range samples => exact recordRun_decodeInto hfits rfl fun _ _ _ => rfl
  | _ => exact absurd hformat (by nofun)

/-! What a record of levels gives at a sample, in numbers. -/

section
variable (base : BitVec 6) (range : Byte) (samples : List Byte)

theorem half2Sample_toNat {x y : Nat} (hx : x < 8) (hy : y < 8) : (half2Sample base range samples x y).toNat =
    (let level (k : Nat) : Nat := (samples.getD (k / 4) 0).toNat / 4 ^ (k % 4) % 4
     let g (j i : Nat) : Nat := min 255 (level (j * 4 + i) * range.toNat / 3 + (base.toNat * 4 + 2))
     let i0 := x / 2
     let j0 := y / 2
     let i1 := min (i0 + 1) 3
     let j1 := min (j0 + 1) 3
     if x % 2 = 0 ∧ y % 2 = 0 then g j0 i0
     else if y % 2 = 0 then (g j0 i0 + g j0 i1) / 2
     else if x % 2 = 0 then (g j0 i0 + g j1 i0) / 2
     else (g j0 i0 + g j0 i1 + g j1 i0 + g j1 i1) / 4) := by
  have hgrid (j i : Nat) (hj : j < 4) (hi : i < 4) :
      (dequantHalf2 base range ((unpackLevels 2 samples 16).getD (j * 4 + i) 0)).toNat =
        min 255 ((samples.getD ((j * 4 + i) / 4) 0).toNat / 4 ^ ((j * 4 + i) % 4) % 4 * range.toNat / 3 +
          (base.toNat * 4 + 2)) := by
    rw [dequantHalf2_toNat, unpackLevels_getD_toNat (by decide) samples (by omega)]
    rfl
  rw [half2Sample, recon_toNat]
  dsimp only
  rw [hgrid _ _ (by omega) (by omega), hgrid _ _ (by omega) (by omega), hgrid _ _ (by omega) (by omega),
    hgrid _ _ (by omega) (by omega)]

theorem full2Sample_toNat {x y : Nat} (hx : x < 8) (hy : y < 8) : (full2Sample base range samples x y).toNat =
    min 255 ((samples.getD ((y * 8 + x) / 4) 0).toNat / 4 ^ ((y * 8 + x) % 4) % 4 * range.toNat / 3 +
      (base.toNat * 4 + 2)) := by
  rw [full2Sample, dequantFull2_toNat, unpackLevels_getD_toNat (by decide) samples (by omega)]
  rfl

theorem full4Sample_toNat {x y : Nat} (hx : x < 8) (hy : y < 8) : (full4Sample base range samples x y).toNat =
    min 255 ((samples.getD ((y * 8 + x) / 2) 0).toNat / 16 ^ ((y * 8 + x) % 2) % 16 * range.toNat / 15 +
      (base.toNat * 4 + 3)) := by
  rw [full4Sample, dequantFull4_toNat, unpackLevels_getD_toNat (by decide) samples (by omega)]
  rfl

end

end Sys2Proof.Machine
end

section
/-! The statements about the record kinds, from the facts above. -/

namespace Sys2Proof.Machine

/-- Settles O43: `SKIP` has no step, and `SOLID` gives its fill at every sample. -/
theorem skipAndSolidRecordsComplete : Obligations.SkipAndSolidRecordsComplete := by
  refine fun s base fill => ⟨execSkip_eq base s, fun hfits => ?_⟩
  obtain ⟨m, hexec, hframe, hsample⟩ := exists_recordRun (i := .solid base fill) rfl hfits
  exact ⟨_, hexec, rfl, hframe, hsample⟩

/-- Settles O44: each sample is the reconstruction of the grid, in numbers. -/
theorem half2RecordCompletes : Obligations.Half2RecordCompletes := by
  intro s base range samples hfits
  obtain ⟨m, hexec, hframe, hsample⟩ := exists_recordRun (i := .half2 base range samples) rfl hfits
  refine ⟨_, hexec, rfl, hframe, fun x y hx hy => ?_⟩
  exact (congrArg BitVec.toNat (hsample x y hx hy)).trans (half2Sample_toNat base range samples hx hy)

/-- Settles O45: each sample is its own level dequantized, in numbers. -/
theorem full2AndFull4RecordsComplete : Obligations.Full2AndFull4RecordsComplete := by
  refine fun s base range samples hfits => ⟨?_, ?_⟩
  · obtain ⟨m, hexec, hframe, hsample⟩ := exists_recordRun (i := .full2 base range samples) rfl hfits
    refine ⟨_, hexec, rfl, hframe, fun x y hx hy => ?_⟩
    exact (congrArg BitVec.toNat (hsample x y hx hy)).trans (full2Sample_toNat base range samples hx hy)
  · obtain ⟨m, hexec, hframe, hsample⟩ := exists_recordRun (i := .full4 base range samples) rfl hfits
    refine ⟨_, hexec, rfl, hframe, fun x y hx hy => ?_⟩
    exact (congrArg BitVec.toNat (hsample x y hx hy)).trans (full4Sample_toNat base range samples hx hy)

end Sys2Proof.Machine
end

section
/-! SUPPORT. The block commands with their checks met (42_block_codec.md R167, R178): the single-block encoder, and DECODE_BLOCK
in its three turns. -/

namespace Sys2Proof.Machine

variable {ρ : Type} {s : State} {p : Plane} {plane : BitVec 2}

/-- The checks of the two codec commands on one block, met (60_exceptions.md R270). -/
theorem requireBlock_met (hdims : validDims s.regs.width s.regs.height = true) (hwindow : windowInside s p = true)
    (hbounds : allInBounds s [planeRegion s p, streamRegion s] = true) :
    Answers (requireBlock p (fun s => [planeRegion s p, streamRegion s]) : Eng ρ Unit) s (.ok ((), s)) := by
  simpa only [planeRegion_view, streamRegion_view, hdims, hwindow, hbounds, if_true] using
    requireBlock_answers p (fun s => [planeRegion s p, streamRegion s]) s

/-- The block of a window inside a plane in bounds fits its plane (60_exceptions.md R266, 20_memory.md R68). -/
theorem singleBlock_fits (hwindow : windowInside s p = true) (hplane : inBounds s (planeRegion s p) = true) :
    blockFits s (singleBlock s p) :=
  have hin := singleBlock_inside hwindow
  ⟨hin.1, fun _ _ => blockAddr_lt hin hplane⟩

/-- Bytes of the stream before `STREAM_LEN` exist (20_memory.md R66, R68). -/
theorem streamAddr_le (hstream : inBounds s (streamRegion s) = true) {off len : Nat} (hpos : 0 < len)
    (hlen : off + len ≤ s.regs.streamLen.toNat) : streamAddr s off + len ≤ s.platform.memBytes := by
  have hlast : s.regs.streamBase.toNat + (off + len - 1) < s.platform.memBytes :=
    lt_memBytes_of_inBounds hstream (show off + len - 1 < s.regs.streamLen.toNat by omega)
  unfold streamAddr
  omega

/-! ## ENCODE_BLOCK -/

theorem encodeRecord_length (q : List Byte) (m : BlockMode) (mn mx : Byte) : (encodeRecord q m mn mx).length =
    match m with
    | .solid => 2
    | .half2 => 6
    | .full2 => 18
    | .full4 => 34 := by
  cases m with
  | solid => rfl
  | _ => simp [encodeRecord, encHalf2, encFull2, encFull4, evenSamples, allSamples, packedLength, perByte]

/-- The mode `FMODE` leads to, by number: the classifier's, or the one it forces (30_encoding.md R93, 42_block_codec.md R166). -/
theorem exists_forcedMode {fmode : BitVec 3} (h : fmode.toNat ≤ 4) : ∃ forced, forcedMode fmode = some forced ∧
    ∀ m, forced.getD m = if fmode = 0 then m else [BlockMode.solid, .half2, .full2, .full4].getD (fmode.toNat - 1) .solid := by
  have hforced : ∀ f : BitVec 3, f.toNat ≤ 4 → forcedMode f =
      some (if f = 0 then none else some ([BlockMode.solid, .half2, .full2, .full4].getD (f.toNat - 1) .solid)) := by decide
  exact ⟨_, hforced fmode h, fun m => by split <;> rfl⟩

/-- The state after a classification and a record appended to the stream for block `n` (42_block_codec.md R167). -/
def State.appended (s : State) (c : Cls) (record : List Byte) (n : Nat) : State :=
  { ((s.setCls c).setStreamPtr (s.regs.streamPtr.toNat + record.length)).setBlkCount (n + 1) with
    mem := memInsertAll s.mem (streamAddr s s.regs.streamPtr.toNat) record }

/-- One block encoded: its record is appended where it fits (42_block_codec.md R166, R167). -/
theorem encodeStep_answers {b : Block} {c : Cls} {record : List Byte} (forced : Option BlockMode) (hfits : blockFits s b)
    (hstream : inBounds s (streamRegion s) = true) (hc : classifyBlock (blockSamples s b) = c)
    (hrecord : encodeRecord (blockSamples s b) (forced.getD c.mode) c.min c.max = record) :
    Answers (encodeStep forced b : Eng ρ Unit) s
      (if s.regs.streamPtr.toNat + record.length ≤ s.regs.streamLen.toNat then
        .ok ((), s.appended c record b.index)
      else .error (.halt ((s.setCls c).errorEntry .ioFailure .block b.index))) := by
  have hlen : 0 < record.length := by
    rw [← hrecord, encodeRecord_length]
    split <;> decide
  refine (readWindow_answers hfits.2).bind ?_
  rw [hc]
  refine (Answers.update (.cls c) s).bind ((Answers.state (s.setCls c)).bind ?_)
  rw [hrecord]
  refine require_decide fun hroom => ?_
  have hexists : streamAddr s s.regs.streamPtr.toNat + record.length ≤ s.platform.memBytes :=
    streamAddr_le hstream hlen hroom
  refine (writeBytes_answers (s := s.setCls c) hexists).bind ?_
  exact (Answers.update (.streamPtr (s.regs.streamPtr.toNat + record.length)) _).bind
    (Answers.update (.blkCount (b.index + 1)) _)

/-! ## DECODE_BLOCK -/

/-- DECODE_BLOCK with its checks met stands at its record (42_block_codec.md R178). -/
theorem execDecodeBlock_met (hplane : blockPlane plane = some p) (hdims : validDims s.regs.width s.regs.height = true)
    (hwindow : windowInside s p = true) (hbounds : allInBounds s [planeRegion s p, streamRegion s] = true) :
    exec (.decodeBlock plane) s = .next (s.atRecord (singleBlock s p)) := by
  have hprogram : Answers (decodeBlockProgram plane : Eng Unit Unit) s (.ok ((), s.atRecord (singleBlock s p))) := by
    unfold decodeBlockProgram
    rw [hplane]
    exact (requireBlock_met hdims hwindow hbounds).bind ((Answers.state s).bind (Answers.update _ s))
  exact hprogram.runToEnd

/-- One step of a run. -/
theorem run_succ_of_step {t : State} (k : Nat) (h : step s = .next t) :
    Host.Core.run Sys2Proof.core (k + 1) s = Host.Core.run Sys2Proof.core k t := by
  have hcore : Sys2Proof.core.step s = .next t := h
  simp only [Host.Core.run, hcore]

/-- The end of DECODE_BLOCK is `done()` (42_block_codec.md R178). -/
theorem finishProgram_decodeBlock (h : runningCommand s = .decodeBlock plane) :
    (finishProgram s : Eng ρ Unit) = done := by
  rw [finishProgram, h]

theorem step_finish_decodeBlock (hmode : s.engine.mode = .run) (hphase : s.engine.phase = .finish)
    (hunderway : s.engine.underway = none) (hagenda : s.agenda = []) (hcmd : runningCommand s = .decodeBlock plane) :
    step s = .next s.complete := by
  rw [step_nil hagenda, engineTurn_finish hmode hunderway hphase, finishProgram_decodeBlock hcmd, (Answers.done s).runToEnd]
  rfl

/-- The step at the last record of DECODE_BLOCK: the block is written, and the command stands at its end. -/
theorem step_record_decodeBlock (hmode : s.engine.mode = .run) (hphase : s.engine.phase = .record)
    (hunderway : s.engine.underway = none) (hagenda : s.agenda = []) (hcmd : runningCommand s = .decodeBlock plane)
    (hindex : s.engine.block.index = 0) (hfits : blockFits s s.engine.block) (hstream : inBounds s (streamRegion s) = true)
    (hlen : s.regs.streamPtr.toNat + nextLength s ≤ s.regs.streamLen.toNat) :
    ∃ u, step s = .next u ∧ u.engine = { s.engine with phase := .finish } ∧ u.status = s.status ∧ u.agenda = [] ∧
      u.regs = { s.regs with streamPtr := BitVec.ofNat 32 (s.regs.streamPtr.toNat + nextLength s), blkCount := 1 } ∧
      sameOutsideBlock s.engine.block s u := by
  have htwo : 2 ≤ nextLength s := two_le_recordLength _
  have hmem : streamAddr s (s.regs.streamPtr.toNat + nextLength s) ≤ s.platform.memBytes := by
    have := streamAddr_le hstream (by omega) hlen
    unfold streamAddr at this ⊢
    omega
  obtain ⟨m, hexec, hframe, _⟩ := exists_recordRun (i := nextRecord s) (recordInstr_format _ _ _) hfits
  have hlast : ¬({ s with mem := m } : State).engine.block.index + 1 < recordTotal { s with mem := m } := by
    rw [recordTotal_decodeBlock (s := { s with mem := m }) hcmd]
    simp [hindex]
  refine ⟨(({ s with mem := m }.setStreamPtr (s.regs.streamPtr.toNat + nextLength s)).setBlkCount 1).atFinish, ?_, rfl, rfl,
    hagenda, rfl, hframe⟩
  rw [step_nil hagenda, engineTurn_record hmode hunderway hphase, recordTurn_whole hlen hmem, hexec, advance,
    afterRecord_of_not_lt _ hlast, hindex]

end Sys2Proof.Machine
end

section
/-! The statements about the block commands, from the facts above. -/

namespace Sys2Proof.Machine

/-- Settles O46: the checks pass, and the record either fits or is an error, before `done()`. -/
theorem encodeBlockCompletes : Obligations.EncodeBlockCompletes := by
  intro s plane fmode p hplane hfmode hdims hwindow hbounds samples c mode record ptr
  have hin := (allInBounds_iff _ _).1 hbounds
  have hfits := singleBlock_fits hwindow (hin (planeRegion s p) (by simp))
  obtain ⟨forced, hforced, hmode⟩ := exists_forcedMode hfmode
  have hstep := encodeStep_answers (ρ := Unit) (record := record) forced hfits (hin (streamRegion s) (by simp))
    rfl (by rw [hmode])
  have hexec {o : Except Stop (Unit × State)}
      (h : Answers (encodeStep forced (singleBlock s p) >>= fun _ => done : Eng Unit Unit) s o) :
      exec (.encodeBlock plane fmode) s = lastState o := by
    refine Answers.runToEnd (p := encodeBlockProgram plane fmode) ?_
    unfold encodeBlockProgram
    rw [hplane, hforced]
    exact (requireBlock_met hdims hwindow hbounds).bind ((Answers.state s).bind h)
  split
  · next hroom =>
    rw [if_pos hroom] at hstep
    exact hexec (hstep.bind (Answers.done _))
  · next hroom =>
    rw [if_neg hroom] at hstep
    exact hexec hstep.bind_error

/-- Settles O47: the checks pass, and the only update is the position. -/
theorem decodeBlockReachesItsRecord : Obligations.DecodeBlockReachesItsRecord := by
  intro s plane p hplane hdims hwindow hbounds
  exact ⟨_, execDecodeBlock_met hplane hdims hwindow hbounds, rfl, rfl, rfl, rfl, rfl, rfl, rfl, rfl, rfl, rfl, rfl, rfl⟩

/-- Settles O48: the turns of the command, of its record and of its end, one after the other. -/
theorem decodeBlockRunCompletes : Obligations.DecodeBlockRunCompletes := by
  intro s plane p hstatus hmode hphase hunderway hagenda hcmd hplane hdims hwindow hbounds off len hlen
  obtain ⟨_, _, _, hbusy⟩ := hstatus
  have hin := (allInBounds_iff _ _).1 hbounds
  have hcommand : step s = .next (s.atRecord (singleBlock s p)) := by
    rw [step_nil hagenda, engineTurn_command hmode hunderway hphase, show runningCommand s = .decodeBlock plane from hcmd,
      execDecodeBlock_met hplane hdims hwindow hbounds]
  have hfits : blockFits s (singleBlock s p) := singleBlock_fits hwindow (hin (planeRegion s p) (by simp))
  have hcurrent : blockFits (s.atRecord (singleBlock s p)) (singleBlock s p) := by
    cases p <;> exact hfits
  obtain ⟨u, hrecord, hengine, hstatus, hu, hregs, hframe⟩ :=
    step_record_decodeBlock (s := s.atRecord (singleBlock s p)) hmode rfl hunderway hagenda hcmd rfl hcurrent (hin (streamRegion s) (by simp)) hlen
  have hend : step u = .next u.complete :=
    step_finish_decodeBlock (by rw [hengine]; exact hmode) (by rw [hengine]) (by rw [hengine]; exact hunderway) hu
      (show decodeCmd u.engine.cmd = _ by rw [hengine]; exact hcmd)
  refine ⟨u.complete, ?_, rfl, rfl, ?_, hregs, ?_⟩
  · rw [run_succ_of_step 2 hcommand, run_succ_of_step 1 hrecord, run_succ_of_step 0 hend]
    rfl
  · rw [complete_status, hstatus]
    exact (hbusy hmode).2
  · cases p <;> exact hframe

end Sys2Proof.Machine
end

section
/-! SUPPORT. The quantizer by its thresholds (42_block_codec.md R160, R161), and how far a dequantized level is from the offset
it was taken of, without the clamp (R179). -/

namespace Sys2Proof.Machine

variable {d r q k l : Nat}

theorem quantize_zero_range (d q : Nat) : quantize d 0 q = 0 := rfl

theorem quantize_of_pos (hr : 0 < r) : quantize d r q = (100 * d * q + 49 * r) / (100 * r) :=
  if_neg hr.ne'

/-- The threshold of level `k` (42_block_codec.md R161). -/
theorem le_quantize_iff (hr : 0 < r) : k ≤ quantize d r q ↔ k * (100 * r) ≤ 100 * d * q + 49 * r := by
  rw [quantize_of_pos hr, Nat.le_div_iff_mul_le (by omega)]

theorem quantize_eq_iff (hr : 0 < r) : quantize d r q = k ↔
    k * (100 * r) ≤ 100 * d * q + 49 * r ∧ 100 * d * q + 49 * r < (k + 1) * (100 * r) := by
  rw [← le_quantize_iff hr, ← not_le, ← le_quantize_iff hr]
  omega

theorem quantize_zero (r q : Nat) : quantize 0 r q = 0 := by
  rcases Nat.eq_zero_or_pos r with rfl | hr
  · rfl
  · rw [quantize_eq_iff hr]
    omega

theorem quantize_self (hr : 0 < r) (q : Nat) : quantize r r q = q := by
  rw [quantize_eq_iff hr, show 100 * r * q = q * (100 * r) from Nat.mul_comm _ _, Nat.add_mul]
  omega

theorem quantize_mono (r q : Nat) {d e : Nat} (h : d ≤ e) : quantize d r q ≤ quantize e r q := by
  rcases Nat.eq_zero_or_pos r with rfl | hr
  · rfl
  · rw [quantize_of_pos hr, quantize_of_pos hr]
    gcongr

theorem quantize_le (q : Nat) (h : d ≤ r) : quantize d r q ≤ q := by
  rcases Nat.eq_zero_or_pos r with rfl | hr
  · exact Nat.zero_le q
  · exact (quantize_mono r q h).trans_eq (quantize_self hr q)

/-- A level above 0 adds at most the range (42_block_codec.md R168 to R170). -/
theorem quantize_mul_div_le (q : Nat) (h : d ≤ r) : quantize d r q * r / q ≤ r :=
  Nat.div_le_of_le_mul (Nat.mul_le_mul_right r (quantize_le q h))

/-- What a 2-bit level adds, three times in hundredths, against its sample's offset: at most 49 hundredths of the range above,
and less than 51 hundredths and the division's cut-off below (42_block_codec.md R160, R169). -/
theorem full2_level_near (hr : 0 < r) : 300 * (quantize d r 3 * r / 3) ≤ 300 * d + 49 * r ∧
    300 * d < 300 * (quantize d r 3 * r / 3) + 51 * r + 200 := by
  obtain ⟨hlow, hhigh⟩ := (quantize_eq_iff hr).1 (rfl : quantize d r 3 = _)
  have hlevel : quantize d r 3 * (100 * r) = 100 * (quantize d r 3 * r) := by ring
  rw [Nat.add_mul, hlevel] at hhigh
  omega

/-- A level of a sample in range is not cut off (42_block_codec.md R161). -/
theorem levelOf_toNat {mn sample : Nat} (hq : q < 256) (h : sample - mn ≤ r) :
    (levelOf mn r q sample).toNat = quantize (sample - mn) r q :=
  Nat.mod_eq_of_lt ((quantize_le q h).trans_lt hq)

/-- A sample in range quantized against the minimum `low` and dequantized with the six high bits of `mn` (42_block_codec.md
R164, R169). -/
theorem dequantFull2_levelOf_toNat {mn range : Byte} {low sample : Nat} (h : sample - low ≤ range.toNat) :
    (dequantFull2 (mn.extractLsb' 2 6) range (levelOf low range.toNat 3 sample)).toNat =
      min 255 (quantize (sample - low) range.toNat 3 * range.toNat / 3 + (mn.toNat / 4 * 4 + 2)) := by
  rw [dequantFull2_toNat, levelOf_toNat (by decide) h]
  exact congrArg (fun b => min 255 (_ + (b * 4 + 2))) (baseField_toNat mn)

/-- Where the range is large against the step count, what a level adds is quantized to the level again (42_block_codec.md
R179). -/
theorem quantize_level_of_large (hq : 0 < q) (hr : 0 < r) (hlarge : 100 * (q - 1) ≤ 49 * r) :
    quantize (l * r / q) r q = l := by
  have hcut := Nat.div_add_mod (l * r) q
  have hmod := Nat.mod_lt (l * r) hq
  have hlevel : l * (100 * r) = 100 * (l * r) := by ring
  have hvalue : 100 * (l * r / q) * q = 100 * (q * (l * r / q)) := by ring
  rw [quantize_eq_iff hr, Nat.add_mul, hvalue, hlevel]
  omega

end Sys2Proof.Machine
end

section
/-! The statements about the quantizer alone, from the facts above. -/

namespace Sys2Proof.Machine

/-- Settles O39: the level's thresholds, and what they give at the ends. -/
theorem quantizerExactAndInRange : Obligations.QuantizerExactAndInRange := by
  intro d r q _
  refine ⟨quantize_zero_range d q, fun hr hd => ⟨fun k => ?_, quantize_zero r q, quantize_self hr q, quantize_le q hd,
    fun e => quantize_mono r q⟩⟩
  rw [le_quantize_iff hr]
  zify
  constructor <;> intro h <;> linarith

/-- Settles O41: the level is near the offset, the baseline is at most 2 above and 1 below the minimum, and the clamp only
moves a value towards the sample. -/
theorem full2AccuracyBound : Obligations.Full2AccuracyBound := by
  intro mn mx v hmn hmx hlt
  have hmn : mn.toNat ≤ v.toNat := hmn
  have hmx : v.toNat ≤ mx.toNat := hmx
  have hlt : mn.toNat < mx.toNat := hlt
  have hv := v.isLt
  have hrange : (mx - mn).toNat = mx.toNat - mn.toNat := BitVec.toNat_sub_of_le hlt.le
  obtain ⟨habove, hbelow⟩ := full2_level_near (d := v.toNat - mn.toNat) (show 0 < mx.toNat - mn.toNat by omega)
  rw [← hrange, dequantFull2_levelOf_toNat (by omega), hrange]
  rw [abs_eq_max_neg]
  omega

end Sys2Proof.Machine
end

section
/-! SUPPORT. What the encoder's records decode to (42_block_codec.md R162 to R166): the kind, the baseline and the range by the
control and range byte, and the levels in order. -/

namespace Sys2Proof.Machine

variable {w : Nat}

/-- The packer keeps the level modulo its number of values (40_bitpacker.md R124). -/
theorem levelMask_levelOf (hw : w ≤ 8) (mn r q sample : Nat) :
    levelMask w (levelOf mn r q sample) = BitVec.ofNat 8 (quantize (sample - mn) r q % 2 ^ w) := by
  have hdvd : 2 ^ w ∣ 2 ^ 8 := Nat.pow_dvd_pow 2 hw
  refine BitVec.eq_of_toNat_eq ?_
  rw [levelMask_toNat hw, levelOf, BitVec.toNat_ofNat, BitVec.toNat_ofNat, Nat.mod_mod_of_dvd _ hdvd]
  exact (Nat.mod_eq_of_lt ((Nat.mod_lt _ (by positivity)).trans_le (Nat.le_of_dvd (by decide) hdvd))).symm

/-- The levels of samples, packed and unpacked. -/
theorem unpackLevels_levelOf (hw : w = 2 ∨ w = 4) (samples : List Nat) (mn r q : Nat) :
    unpackLevels w (packLevels w (samples.map (levelOf mn r q))) samples.length =
      samples.map fun v => BitVec.ofNat 8 (quantize (v - mn) r q % 2 ^ w) := by
  have hunpack := unpackLevels_packLevels (mul_perByte hw) (samples.map (levelOf mn r q))
  rw [List.length_map, List.map_map] at hunpack
  rw [hunpack]
  exact List.map_congr_left fun v _ => levelMask_levelOf (by omega) mn r q v

/-- A record of quantized samples decodes to the kind its mode names, and holds their levels in order (42_block_codec.md R163
to R165). -/
theorem decode_levels (hw : w = 2 ∨ w = 4) (mode : BitVec 2) (mn mx : Byte) (q : Nat) {samples : List Nat} {n : Nat}
    (hn : samples.length = n) (hlen : packedLength w n = recordLength (controlByte (baseField mn) mode) - 2)
    (rest : List Byte) :
    ∃ bytes, decode .record (((mn &&& 0xFC) ||| (0#6 ++ mode)) :: (mx - mn) ::
        packLevels w (samples.map (levelOf mn.toNat (mx.toNat - mn.toNat) q)) ++ rest) =
      .ok (recordInstr (controlByte (baseField mn) mode) (mx - mn) bytes, rest) ∧
    (recordInstr (controlByte (baseField mn) mode) (mx - mn) bytes).wellFormed = true ∧
    unpackLevels w bytes n =
      samples.map fun v => BitVec.ofNat 8 (quantize (v - mn.toNat) (mx.toNat - mn.toNat) q % 2 ^ w) := by
  subst hn
  have hbytes : (packLevels w (samples.map (levelOf mn.toNat (mx.toNat - mn.toNat) q))).length =
      recordLength (controlByte (baseField mn) mode) - 2 := by
    rw [packLevels_length, List.length_map, hlen]
  rw [and_FC_or_mode]
  exact ⟨_, decode_record_append hbytes rest, (recordInstr_wellFormed_encode hbytes).1, unpackLevels_levelOf hw samples _ _ q⟩

/-- A Solid record is never a `SKIP` (42_block_codec.md R162). -/
theorem decode_encSolid (mn : Byte) (rest : List Byte) :
    decode .record (encSolid mn ++ rest) = .ok (.solid 0 (if mn = 0 then 1 else mn), rest) ∧
      (Instr.solid 0 (if mn = 0 then 1 else mn)).wellFormed = true := by
  have hfill : (if mn = 0 then 1 else mn) ≠ 0#8 := by
    split
    · decide
    · assumption
  refine ⟨?_, decide_eq_true hfill⟩
  have hdecode := decode_record_append (c := controlByte 0 0#2) (r := if mn = 0 then 1 else mn) (samples := []) (by simp) rest
  rwa [recordInstr_solid _ _ _ hfill] at hdecode

end Sys2Proof.Machine
end

section
/-! The statement about the encoder's records, from the facts above. -/

namespace Sys2Proof.Machine

/-- Settles O40: the four encodings, each by its control byte and its levels. -/
theorem encodedRecordsDecodeToTheirKind : Obligations.EncodedRecordsDecodeToTheirKind := by
  intro p m mn mx rest
  cases m with
  | solid =>
    obtain ⟨hdecode, hwf⟩ := decode_encSolid mn rest
    exact ⟨_, hdecode, hwf, rfl⟩
  | half2 =>
    obtain ⟨samples, hdecode, hwf, hlevels⟩ := decode_levels (w := 2) (.inl rfl) 1#2 mn mx 3 (n := 16)
      (samples := evenSamples p) (by simp [evenSamples]) (by simp [packedLength, perByte]) rest
    rw [recordInstr_half2] at hdecode hwf
    exact ⟨_, hdecode, hwf, samples, rfl, by rw [hlevels, evenSamples, List.map_map]; rfl⟩
  | full2 =>
    obtain ⟨samples, hdecode, hwf, hlevels⟩ := decode_levels (w := 2) (.inl rfl) 2#2 mn mx 3 (n := 64)
      (samples := allSamples p) (by simp [allSamples]) (by simp [packedLength, perByte]) rest
    rw [recordInstr_full2] at hdecode hwf
    exact ⟨_, hdecode, hwf, samples, rfl, by rw [hlevels, allSamples, List.map_map]; rfl⟩
  | full4 =>
    obtain ⟨samples, hdecode, hwf, hlevels⟩ := decode_levels (w := 4) (.inr rfl) 3#2 mn mx 15 (n := 64)
      (samples := allSamples p) (by simp [allSamples]) (by simp [packedLength, perByte]) rest
    rw [recordInstr_full4] at hdecode hwf
    exact ⟨_, hdecode, hwf, samples, rfl, by rw [hlevels, allSamples, List.map_map]; rfl⟩

end Sys2Proof.Machine
end

section
/-! SUPPORT. What a sample decodes to without a clamp, and the ranges at which that is quantized to what decodes to the same
value (42_block_codec.md R179): all large ones, and the small ones the rule does not list. -/

namespace Sys2Proof.Machine

variable {q r mn v : Nat}

/-- What a sample of a block of minimum `mn` and range `r` decodes to, with `q` steps and the baseline `base` (42_block_codec.md
R160, R169, R170). -/
def decodedValue (q base mn r v : Nat) : Nat := quantize (v - mn) r q * r / q + base

theorem decodedValue_le (q base : Nat) (h : v - mn ≤ r) : decodedValue q base mn r v ≤ r + base :=
  Nat.add_le_add_right (quantize_mul_div_le q h) base

/-- The levels the encoder produces at range `r` with `q` steps survive a second encode. -/
def LevelsStable (q r : Nat) : Prop :=
  ∀ d ≤ r, decodedValue q 0 0 r (decodedValue q 0 0 r d) = decodedValue q 0 0 r d

/-- At such a range what a sample decodes to, as a sample of a block whose minimum is the baseline, decodes to itself. -/
theorem LevelsStable.decodedValue_again (h : LevelsStable q r) (base : Nat) (hv : v - mn ≤ r) :
    decodedValue q base base r (decodedValue q base mn r v) = decodedValue q base mn r v := by
  have hlevel := h (v - mn) hv
  simp only [decodedValue, Nat.add_sub_cancel, Nat.sub_zero, Nat.add_zero] at hlevel ⊢
  rw [hlevel]

theorem levelsStable_of_large (hq : 0 < q) (hr : 0 < r) (hlarge : 100 * (q - 1) ≤ 49 * r) : LevelsStable q r := by
  intro d _
  simp only [decodedValue, Nat.sub_zero, Nat.add_zero]
  rw [quantize_level_of_large hq hr hlarge]

theorem levelsStable_full2 (h : r ≠ 4) : LevelsStable 3 r := by
  have hsmall : ∀ r < 5, r ≠ 4 → LevelsStable 3 r := by
    unfold LevelsStable
    decide
  by_cases hr : r < 5
  · exact hsmall r hr h
  · exact levelsStable_of_large (by decide) (by omega) (by omega)

theorem levelsStable_full4 (h : r ∉ [4, 7, 8, 11, 12, 13, 14, 16, 17, 18, 19, 20, 21, 22, 23, 24, 26, 28]) :
    LevelsStable 15 r := by
  have hsmall : ∀ r < 29, r ∉ [4, 7, 8, 11, 12, 13, 14, 16, 17, 18, 19, 20, 21, 22, 23, 24, 26, 28] → LevelsStable 15 r := by
    unfold LevelsStable
    decide
  by_cases hr : r < 29
  · exact hsmall r hr h
  · exact levelsStable_of_large (by decide) (by omega) (by omega)

end Sys2Proof.Machine
end

section
/-! SUPPORT. A whole block encoded and decoded again (42_block_codec.md R179, fixed point): without a clamp the decoded block is
each sample's level dequantized, its minimum is the record's baseline, its range the block's, and every level it holds is
quantized to what decodes to the same value. -/

namespace Sys2Proof.Machine

variable {p : List Byte} {q low : Nat}

/-! ## The decoded block without a clamp -/

/-- The range of a block (42_block_codec.md R160). -/
def sampleRange (p : List Byte) : Nat := maxSample p - minSample p

/-- The baseline of a block's record with `low` its two low bits (42_block_codec.md R164, R165). -/
def baseline (low : Nat) (p : List Byte) : Nat := minSample p / 4 * 4 + low

/-- What a block decodes to without a clamp. -/
def decodedAs (q low : Nat) (p : List Byte) : List Byte :=
  p.map fun v => BitVec.ofNat 8 (decodedValue q (baseline low p) (minSample p) (sampleRange p) v.toNat)

theorem sub_minSample_le {v : Byte} (hv : v ∈ p) : v.toNat - minSample p ≤ sampleRange p :=
  Nat.sub_le_sub_right (le_maxSample hv) _

theorem classifyBlock_min (hp : p ≠ []) : (classifyBlock p).min.toNat = minSample p := classifyWith_min gradWindow hp

theorem classifyBlock_max (hp : p ≠ []) : (classifyBlock p).max.toNat = maxSample p := classifyWith_max gradWindow hp

/-- The range byte of a block's record (42_block_codec.md R164). -/
theorem classifyBlock_range (hp : p ≠ []) : ((classifyBlock p).max - (classifyBlock p).min).toNat = sampleRange p := by
  obtain ⟨v, hv, hmin⟩ := exists_eq_minSample hp
  have hle : (classifyBlock p).min.toNat ≤ (classifyBlock p).max.toNat := by
    rw [classifyBlock_min hp, classifyBlock_max hp, ← hmin]
    exact le_maxSample hv
  rw [BitVec.toNat_sub_of_le hle, classifyBlock_min hp, classifyBlock_max hp, sampleRange]

theorem decodedAs_toNat (hclamp : baseline low p + sampleRange p ≤ 255) {v : Byte} (hv : v ∈ p) :
    (BitVec.ofNat 8 (decodedValue q (baseline low p) (minSample p) (sampleRange p) v.toNat)).toNat =
      decodedValue q (baseline low p) (minSample p) (sampleRange p) v.toNat := by
  have hvalue := decodedValue_le q (baseline low p) (sub_minSample_le hv)
  exact Nat.mod_eq_of_lt (by omega)

/-- A record of a block's levels, one for each sample, decodes to each sample's value where none clamps (42_block_codec.md R175,
R176). -/
theorem decodedBlock_eq_decodedAs {i : Instr} {record levels : List Byte} {value : Byte → Byte} (hlen : p.length = 64)
    (hclamp : baseline low p + sampleRange p ≤ 255) (hq : q < 256) (hdecode : decode .record record = .ok (i, []))
    (hsample : ∀ old x y, recordSample i old x y = value (levels.getD (y * 8 + x) 0))
    (hvalue : ∀ l, (value l).toNat = min 255 (l.toNat * sampleRange p / q + baseline low p))
    (hlevels : levels = (List.range 64).map fun k =>
      BitVec.ofNat 8 (quantize (sampleAt p (k % 8) (k / 8) - minSample p) (sampleRange p) q % (q + 1))) :
    decodedBlock record = decodedAs q low p := by
  rw [decodedBlock, hdecode, decodedAs]
  refine List.ext_getElem (by simp [hlen]) fun k hk _ => BitVec.eq_of_toNat_eq ?_
  have hk : k < 64 := by simpa using hk
  have hv : p[k] ∈ p := List.getElem_mem _
  have hlevel := quantize_le q (sub_minSample_le hv)
  have hraster : sampleAt p (k % 8) (k / 8) = p[k].toNat := by simp [sampleAt, Nat.div_add_mod', hlen, hk]
  have hlevelAt : levels.getD (k / 8 * 8 + k % 8) 0 = BitVec.ofNat 8 (quantize (p[k].toNat - minSample p) (sampleRange p) q) := by
    rw [hlevels, Nat.div_add_mod', List.getD_eq_getElem _ _ (by simpa using hk), List.getElem_map, List.getElem_range, hraster,
      Nat.mod_eq_of_lt (Nat.lt_succ_of_le hlevel)]
  rw [List.getElem_map, List.getElem_map, List.getElem_range, hsample, hvalue, hlevelAt, decodedAs_toNat hclamp hv,
    BitVec.toNat_ofNat, Nat.mod_eq_of_lt (hlevel.trans_lt hq)]
  exact Nat.min_eq_right ((decodedValue_le q _ (sub_minSample_le hv)).trans (by omega))

theorem decodedBlock_full2 (hlen : p.length = 64) (hclamp : baseline 2 p + sampleRange p ≤ 255) :
    decodedBlock (encodeRecord p .full2 (classifyBlock p).min (classifyBlock p).max) = decodedAs 3 2 p := by
  have hp := ne_nil_of_length_64 hlen
  obtain ⟨_, hdecode, _, samples, rfl, hlevels⟩ :=
    encodedRecordsDecodeToTheirKind p .full2 (classifyBlock p).min (classifyBlock p).max []
  rw [List.append_nil] at hdecode
  rw [classifyBlock_min hp, classifyBlock_max hp] at hlevels
  refine decodedBlock_eq_decodedAs (value := dequantFull2 _ _) hlen hclamp (by decide) hdecode (fun _ _ _ => rfl)
    (fun l => ?_) hlevels
  rw [dequantFull2_toNat, classifyBlock_range hp, baseline, ← classifyBlock_min hp]
  exact congrArg (fun b => min 255 (_ + (b * 4 + 2))) (baseField_toNat _)

theorem decodedBlock_full4 (hlen : p.length = 64) (hclamp : baseline 3 p + sampleRange p ≤ 255) :
    decodedBlock (encodeRecord p .full4 (classifyBlock p).min (classifyBlock p).max) = decodedAs 15 3 p := by
  have hp := ne_nil_of_length_64 hlen
  obtain ⟨_, hdecode, _, samples, rfl, hlevels⟩ :=
    encodedRecordsDecodeToTheirKind p .full4 (classifyBlock p).min (classifyBlock p).max []
  rw [List.append_nil] at hdecode
  rw [classifyBlock_min hp, classifyBlock_max hp] at hlevels
  refine decodedBlock_eq_decodedAs (value := dequantFull4 _ _) hlen hclamp (by decide) hdecode (fun _ _ _ => rfl)
    (fun l => ?_) hlevels
  rw [dequantFull4_toNat, classifyBlock_range hp, baseline, ← classifyBlock_min hp]
  exact congrArg (fun b => min 255 (_ + (b * 4 + 3))) (baseField_toNat _)

/-! ## The decoded block as a block -/

section
variable (hclamp : baseline low p + sampleRange p ≤ 255)
include hclamp

theorem decodedAs_map_toNat : (decodedAs q low p).map BitVec.toNat =
    p.map fun v => decodedValue q (baseline low p) (minSample p) (sampleRange p) v.toNat := by
  rw [decodedAs, List.map_map]
  exact List.map_congr_left fun v => decodedAs_toNat hclamp

/-- The block's minimum decodes to the baseline, and nothing to less. -/
theorem minSample_decodedAs (hp : p ≠ []) : minSample (decodedAs q low p) = baseline low p := by
  have hleast := isLeast_minSample (p := decodedAs q low p) (by simpa [decodedAs] using hp)
  rw [decodedAs_map_toNat hclamp] at hleast
  obtain ⟨v, hv, hmin⟩ := exists_eq_minSample hp
  refine hleast.unique ⟨List.mem_map.2 ⟨v, hv, ?_⟩, ?_⟩
  · rw [decodedValue, hmin, Nat.sub_self, quantize_zero, Nat.zero_mul, Nat.zero_div, Nat.zero_add]
  · rintro n hn
    obtain ⟨u, _, rfl⟩ := List.mem_map.1 hn
    exact Nat.le_add_left _ _

/-- The block's maximum decodes to the range above the baseline, and nothing to more. -/
theorem maxSample_decodedAs (hp : p ≠ []) (hq : 0 < q) :
    maxSample (decodedAs q low p) = sampleRange p + baseline low p := by
  have hgreatest := isGreatest_maxSample (p := decodedAs q low p) (by simpa [decodedAs] using hp)
  rw [decodedAs_map_toNat hclamp] at hgreatest
  obtain ⟨v, hv, hmax⟩ := exists_eq_maxSample hp
  refine hgreatest.unique ⟨List.mem_map.2 ⟨v, hv, ?_⟩, ?_⟩
  · rw [decodedValue, hmax]
    change quantize (sampleRange p) (sampleRange p) q * sampleRange p / q + _ = _
    rcases Nat.eq_zero_or_pos (sampleRange p) with hr | hr
    · simp [hr]
    · rw [quantize_self hr, Nat.mul_div_cancel_left _ hq]
  · rintro n hn
    obtain ⟨u, hu, rfl⟩ := List.mem_map.1 hn
    exact decodedValue_le q _ (sub_minSample_le hu)

theorem sampleRange_decodedAs (hp : p ≠ []) (hq : 0 < q) : sampleRange (decodedAs q low p) = sampleRange p := by
  rw [sampleRange, minSample_decodedAs hclamp hp, maxSample_decodedAs hclamp hp hq, Nat.add_sub_cancel]

theorem baseline_decodedAs (hp : p ≠ []) (hlow : low < 4) : baseline low (decodedAs q low p) = baseline low p := by
  rw [baseline, minSample_decodedAs hclamp hp, baseline]
  omega

/-! ## The fixed point -/

/-- Where every level of the range is quantized to what decodes to the same value, the decoded block decodes to itself. -/
theorem decodedAs_decodedAs (hp : p ≠ []) (hq : 0 < q) (hlow : low < 4)
    (hstable : LevelsStable q (sampleRange p)) :
    decodedAs q low (decodedAs q low p) = decodedAs q low p := by
  conv_lhs => rw [decodedAs, baseline_decodedAs hclamp hp hlow, minSample_decodedAs hclamp hp, sampleRange_decodedAs hclamp hp hq]
  rw [decodedAs, List.map_map]
  refine List.map_congr_left fun v hv => ?_
  rw [Function.comp_apply, decodedAs_toNat hclamp hv, hstable.decodedValue_again _ (sub_minSample_le hv)]

end

end Sys2Proof.Machine
end

section
/-! The fixed point, from the facts above. -/

namespace Sys2Proof.Machine

/-- Settles O42: the decoded block has the baseline as its minimum and the same range, so its second decoding is that of its own
levels, which are stable. -/
theorem full2FixedPoint : Obligations.Full2FixedPoint := by
  constructor
  · intro p hlen again r
    have hp := ne_nil_of_length_64 hlen
    have hlength (q low : Nat) : (decodedAs q low p).length = 64 := by rw [decodedAs, List.length_map, hlen]
    refine ⟨fun hclamp hr => ?_, fun hclamp hr => ?_⟩
    · have hfirst : again .full2 p = decodedAs 3 2 p := decodedBlock_full2 hlen hclamp
      have hsecond : again .full2 (decodedAs 3 2 p) = decodedAs 3 2 (decodedAs 3 2 p) :=
        decodedBlock_full2 (hlength 3 2) (by
          rwa [baseline_decodedAs hclamp hp (by decide), sampleRange_decodedAs hclamp hp (by decide)])
      rw [hfirst, hsecond, decodedAs_decodedAs hclamp hp (by decide) (by decide) (levelsStable_full2 hr)]
    · have hfirst : again .full4 p = decodedAs 15 3 p := decodedBlock_full4 hlen hclamp
      have hsecond : again .full4 (decodedAs 15 3 p) = decodedAs 15 3 (decodedAs 15 3 p) :=
        decodedBlock_full4 (hlength 15 3) (by
          rwa [baseline_decodedAs hclamp hp (by decide), sampleRange_decodedAs hclamp hp (by decide)])
      rw [hfirst, hsecond, decodedAs_decodedAs hclamp hp (by decide) (by decide) (levelsStable_full4 hr)]
  · intro mn mx v hmn hmx r base decoded hclamp hr
    have hmn : mn.toNat ≤ v.toNat := hmn
    have hmx : v.toNat ≤ mx.toNat := hmx
    have hv : v.toNat - mn.toNat ≤ r := Nat.sub_le_sub_right hmx _
    have hrange : (mx - mn).toNat = r := BitVec.toNat_sub_of_le (hmn.trans hmx)
    have hdecoded (sample low : Nat) (h : sample - low ≤ r) : (decoded sample low).toNat = decodedValue 3 base low r sample := by
      have hvalue := decodedValue_le 3 base h
      rw [← hrange] at h
      have htoNat := dequantFull2_levelOf_toNat (mn := mn) h
      rw [hrange] at htoNat
      exact htoNat.trans (Nat.min_eq_right (hvalue.trans (by omega)))
    have hagain : decodedValue 3 base mn.toNat r v.toNat - base ≤ r :=
      Nat.sub_le_of_le_add (decodedValue_le 3 base hv)
    refine BitVec.eq_of_toNat_eq ?_
    rw [hdecoded v.toNat mn.toNat hv, hdecoded _ base hagain, (levelsStable_full2 hr).decodedValue_again base hv]

end Sys2Proof.Machine
end

section
/-! SUPPORT. A plane filled from another (43_resampler.md R211, R213): a double loop that writes one plane sample by sample, in
raster order, with values that depend on the samples of the other plane. It fills the region of the plane it writes, so its
result is said by `Filled`. -/

namespace Sys2Proof.Machine

variable {ρ : Type} {s t : State} {p q : Plane} {dst : Region} {v : Nat → Byte} {k x y : Nat}

/-- The value of sample `(x, y)` of a plane `w` wide, by its place in the plane's region (20_memory.md R64). -/
def raster (w : Nat) (sample : Nat → Nat → Byte) (i : Nat) : Byte := sample (i % w) (i / w)

theorem raster_offset (sample : Nat → Nat → Byte) {w : Nat} (hx : x < w) (y : Nat) :
    raster w sample (x + y * w) = sample x y := by
  rw [raster, Nat.add_mul_mod_self_right, Nat.mod_eq_of_lt hx, Nat.add_mul_div_right _ _ (Nat.zero_lt_of_lt hx),
    Nat.div_eq_of_lt hx, Nat.zero_add]

theorem planeAddr_eq_base_add (s : State) (p : Plane) (x y : Nat) :
    planeAddr s p x y = (planeRegion s p).base + (x + y * planeWidth s p) := Nat.add_assoc _ _ _

/-- While another region is filled, the address of a sample stays what it was. -/
theorem Filled.planeAddr_eq {src : Region} (h : Filled s src dst v k t) (p : Plane) (x y : Nat) :
    planeAddr t p x y = planeAddr s p x y :=
  planeAddr_congr (by rw [h.memOnly]) p x y

/-- A sample of the input plane is read while the output is filled. -/
theorem px_filled (hsrc : inBounds s (planeRegion s p) = true) (h : Filled s (planeRegion s p) dst v k t)
    (hx : x < planeWidth s p) (hy : y < planeHeight s p) :
    Answers (px p x y : Eng ρ Byte) t (.ok (t.byte (planeAddr s p x y), t)) := by
  have hread := px_answers (ρ := ρ) (p := p) (x := x) (y := y) (s := t)
  rw [h.planeAddr_eq, h.platform] at hread
  exact hread (planeAddr_lt hsrc hx hy)

/-- A sample of the input plane is what it was before the command, where the output does not overlap it. -/
theorem Filled.source_sample (h : Filled s (planeRegion s p) dst v k t) (hd : disjoint (planeRegion s p) dst)
    (hx : x < planeWidth s p) (hy : y < planeHeight s p) :
    t.byte (planeAddr s p x y) = s.byte (planeAddr s p x y) := by
  rw [planeAddr_eq_base_add]
  exact h.source hd (offset_lt_area hx hy)

/-- From `s`, the first `k` samples of the plane `q` are written, in raster order; where the plane does not overlap `src` they
are the values of `sample`. -/
abbrev PlaneFilled (s : State) (src : Region) (q : Plane) (sample : Nat → Nat → Byte) (k : Nat) (t : State) : Prop :=
  Filled s src (planeRegion s q) (raster (planeWidth s q) sample) k t

/-- A sample of the output plane once the plane is filled. -/
theorem PlaneFilled.sample_eq {src : Region} {sample : Nat → Nat → Byte}
    (h : PlaneFilled s src q sample (planeRegion s q).len t)
    (hd : disjoint src (planeRegion s q)) (hx : x < planeWidth s q) (hy : y < planeHeight s q) :
    t.byte (planeAddr s q x y) = sample x y := by
  rw [planeAddr_eq_base_add, h.filled hd _ (offset_lt_area hx hy), raster_offset sample hx]

/-- The next sample of the output plane in raster order, written by the engine. -/
theorem pxW_filled {src : Region} {sample : Nat → Nat → Byte} {b : Byte} (hdst : inBounds s (planeRegion s q) = true)
    (h : PlaneFilled s src q sample (x + y * planeWidth s q) t)
    (hx : x < planeWidth s q) (hy : y < planeHeight s q) (hb : disjoint src (planeRegion s q) → b = sample x y) :
    ∃ u, Answers (pxW q x y b : Eng ρ Unit) t (.ok ((), u)) ∧
      PlaneFilled s src q sample (x + 1 + y * planeWidth s q) u := by
  have hwrite := pxW_answers (ρ := ρ) (p := q) (x := x) (y := y) (s := t) b
  rw [h.planeAddr_eq, h.platform] at hwrite
  refine ⟨_, hwrite (planeAddr_lt hdst hx hy), ?_⟩
  rw [planeAddr_eq_base_add, Nat.add_right_comm]
  exact h.setByte (offset_lt_area hx hy) fun hd => (hb hd).trans (raster_offset sample hx y).symm

/-- A double loop fills a plane if each of its iterations fills the next sample. -/
theorem planeLoop_filled {src : Region} {sample : Nat → Nat → Byte} {body : Nat → Nat → Eng ρ Unit}
    (hbody : ∀ x y t, x < planeWidth s q → y < planeHeight s q →
      PlaneFilled s src q sample (x + y * planeWidth s q) t →
      ∃ u, Answers (body y x) t (.ok ((), u)) ∧
        PlaneFilled s src q sample (x + 1 + y * planeWidth s q) u) :
    ∃ t, Answers (forN (planeHeight s q) fun y => forN (planeWidth s q) (body y)) s (.ok ((), t)) ∧
      PlaneFilled s src q sample (planeRegion s q).len t := by
  have hrow (y : Nat) (hy : y < planeHeight s q) := Hoare.forN (ρ := ρ) (H := fun _ => False) (F := False)
    (fun x => PlaneFilled s src q sample (x + y * planeWidth s q)) (planeWidth s q)
    fun x hx t ht => (hbody x y t hx hy ht).elim fun u ⟨ho, hu⟩ => ⟨_, ho, hu⟩
  have hrows := Hoare.forN (ρ := ρ) (H := fun _ => False) (F := False)
    (fun y => PlaneFilled s src q sample (y * planeWidth s q)) (planeHeight s q)
    fun y hy => by simpa only [Nat.zero_add, Nat.succ_mul, Nat.add_comm] using hrow y hy
  obtain ⟨_, t, ho, ht⟩ := hrows.answers (by simpa only [Nat.zero_mul] using Filled.start s src _ _)
  exact ⟨t, ho, by rwa [Nat.mul_comm] at ht⟩

end Sys2Proof.Machine
end

section
/-! SUPPORT. The two loops of the ChromaResampler (43_resampler.md R210 to R213): each fills its output plane, `DOWNSAMPLE` with
the box averages of the full plane and `UPSAMPLE` with the reconstruction from the half plane as a whole. -/

namespace Sys2Proof.Machine

variable {ρ : Type} {s t : State} {f h : Plane} {x y : Nat}

/-! ## The box average (43_resampler.md R210) -/

/-- A sum of four samples by its quotient and remainder: the bias carries only a remainder of 3. -/
theorem boxAverage_eq (sum : Nat) : boxAverage sum = (sum + 1) / 4 := by
  rw [boxAverage, dbiasDen, dbiasNum]
  omega

/-- The floor of the rational form, over the common denominator. -/
theorem floor_boxAverage (sum : Nat) : ⌊((sum : ℚ) / 4 + 2 / 5)⌋.toNat = (10 * sum + 16) / 40 := by
  have hcommon : (sum : ℚ) / 4 + 2 / 5 = ((10 * sum + 16 : ℕ) : ℚ) / (40 : ℕ) := by
    push_cast
    ring
  rw [hcommon, Int.floor_toNat, Nat.floor_div_eq_div]

theorem boxAverage_le {sum : Nat} (h : sum ≤ 1020) : boxAverage sum ≤ 255 := by
  rw [boxAverage_eq]
  omega

/-! ## DOWNSAMPLE -/

/-- The samples of a plane in a state, by column and row (00_scope.md R8). -/
def planeSample (s : State) (p : Plane) (x y : Nat) : Byte := s.byte (planeAddr s p x y)

/-- The sum of the four samples of a full plane `g` that half sample `(x, y)` covers (43_resampler.md R211). -/
def squareSum (g : Nat → Nat → Byte) (x y : Nat) : Nat :=
  (g (2 * x + 0) (2 * y + 0)).toNat + (g (2 * x + 1) (2 * y + 0)).toNat + (g (2 * x + 0) (2 * y + 1)).toNat +
    (g (2 * x + 1) (2 * y + 1)).toNat

theorem squareSum_le (g : Nat → Nat → Byte) (x y : Nat) : squareSum g x y ≤ 1020 := by
  unfold squareSum
  omega

/-- Only the four samples of the square count. -/
theorem squareSum_congr {g g' : Nat → Nat → Byte} {x y : Nat}
    (hg : ∀ dx dy, dx < 2 → dy < 2 → g (2 * x + dx) (2 * y + dy) = g' (2 * x + dx) (2 * y + dy)) :
    squareSum g x y = squareSum g' x y := by
  simp only [squareSum, hg _ _ Nat.zero_lt_two Nat.zero_lt_two, hg _ _ Nat.one_lt_two Nat.zero_lt_two,
    hg _ _ Nat.zero_lt_two Nat.one_lt_two, hg _ _ Nat.one_lt_two Nat.one_lt_two]

/-- The half sample `(x, y)` as `DOWNSAMPLE` writes it from a full plane `g`. -/
def halfSample (g : Nat → Nat → Byte) (x y : Nat) : Byte := BitVec.ofNat 8 (boxAverage (squareSum g x y))

/-- A box average fits a byte. -/
theorem halfSample_toNat (g : Nat → Nat → Byte) (x y : Nat) : (halfSample g x y).toNat = (squareSum g x y + 1) / 4 := by
  have hle := boxAverage_le (squareSum_le g x y)
  rw [halfSample, BitVec.toNat_ofNat, Nat.mod_eq_of_lt (Nat.lt_succ_of_le hle), boxAverage_eq]

/-- `t` is on the way of `DOWNSAMPLE` from `s`: the first `k` samples of the half plane are written. -/
abbrev Downsampled (f h : Plane) (s : State) (k : Nat) (t : State) : Prop :=
  PlaneFilled s (planeRegion s f) h (halfSample (planeSample s f)) k t

/-- One half sample: its square is read, then it is written (43_resampler.md R211). -/
theorem downsampleAt_filled (hfull : ∀ d, planeDim d f = d) (hhalf : ∀ d, planeDim d h = d / 2)
    (hf : inBounds s (planeRegion s f) = true) (hh : inBounds s (planeRegion s h) = true)
    (hx : x < planeWidth s h) (hy : y < planeHeight s h) (ht : Downsampled f h s (x + y * planeWidth s h) t) :
    ∃ u, Answers (downsampleAt f h x y : Eng ρ Unit) t (.ok ((), u)) ∧
      Downsampled f h s (x + 1 + y * planeWidth s h) u := by
  have hcovered {dx dy : Nat} (hdx : dx < 2) (hdy : dy < 2) :
      2 * x + dx < planeWidth s f ∧ 2 * y + dy < planeHeight s f := by
    rw [planeWidth, hhalf] at hx
    rw [planeHeight, hhalf] at hy
    rw [planeWidth, planeHeight, hfull, hfull]
    omega
  have hread (dx dy : Nat) (hdx : dx < 2) (hdy : dy < 2) :=
    px_filled (ρ := ρ) hf ht (hcovered hdx hdy).1 (hcovered hdx hdy).2
  obtain ⟨u, hwrite, hu⟩ := pxW_filled (ρ := ρ) (b := halfSample (fun x y => t.byte (planeAddr s f x y)) x y) hh ht hx hy
    fun hd => congrArg (fun sum => BitVec.ofNat 8 (boxAverage sum)) (squareSum_congr fun dx dy hdx hdy =>
      ht.source_sample hd (hcovered hdx hdy).1 (hcovered hdx hdy).2)
  exact ⟨u, (hread 0 0 (by decide) (by decide)).bind ((hread 1 0 (by decide) (by decide)).bind
    ((hread 0 1 (by decide) (by decide)).bind ((hread 1 1 (by decide) (by decide)).bind hwrite))), hu⟩

/-- The loop of `DOWNSAMPLE` fills the half plane with the box averages of the full one (43_resampler.md R211). -/
theorem downsampleBody_filled (hfull : ∀ d, planeDim d f = d) (hhalf : ∀ d, planeDim d h = d / 2)
    (hf : inBounds s (planeRegion s f) = true) (hh : inBounds s (planeRegion s h) = true) :
    ∃ t, Answers (downsampleBody f h : Eng ρ Unit) s (.ok ((), t)) ∧ Downsampled f h s (planeRegion s h).len t := by
  obtain ⟨t, ho, ht⟩ := planeLoop_filled (ρ := ρ) (body := fun y x => downsampleAt f h x y)
    fun x y t hx hy ht => downsampleAt_filled hfull hhalf hf hh hx hy ht
  rw [planeWidth, planeHeight, hhalf, hhalf] at ho
  exact ⟨t, (Answers.state s).bind ho, ht⟩

/-- The half plane, once filled, holds the downsample of the full plane. -/
theorem Downsampled.holds (ht : Downsampled f h s (planeRegion s h).len t)
    (hd : disjoint (planeRegion s f) (planeRegion s h)) : holdsDownsample f h s t :=
  fun x y hx hy => (congrArg BitVec.toNat (ht.sample_eq hd hx hy)).trans (halfSample_toNat _ x y)

/-! ## UPSAMPLE -/

/-- The full sample `(x, y)` as `UPSAMPLE` writes it: the reconstruction from the half plane as a whole (43_resampler.md
R212). -/
def fullSample (s : State) (h : Plane) (x y : Nat) : Byte :=
  recon (fun j i => planeSample s h i j) (imageWidth s / 2) (imageHeight s / 2) x y

/-- `t` is on the way of `UPSAMPLE` from `s`: the first `k` samples of the full plane are written. -/
abbrev Upsampled (f h : Plane) (s : State) (k : Nat) (t : State) : Prop :=
  PlaneFilled s (planeRegion s h) f (fullSample s h) k t

/-- Values collected by reads at the positions of a list, one after the other. -/
theorem listN_getD_answers {α β : Type} {g : α → Eng ρ β} (value : α → β) (l : List α) (d : α)
    (hread : ∀ a ∈ l, Answers (g a) s (.ok (value a, s))) :
    Answers (listN l.length fun k => g (l.getD k d)) s (.ok (l.map value, s)) := by
  have hvalues : (List.range l.length).map (fun k => value (l.getD k d)) = l.map value :=
    List.ext_getElem (by simp) fun i _ hi => by simp [List.getElem?_eq_getElem (by simpa using hi)]
  rw [← hvalues]
  refine listN_answers (fun k => value (l.getD k d)) l.length fun k hk => ?_
  rw [List.getD_eq_getElem _ _ hk]
  exact hread _ (List.getElem_mem hk)

/-- One full sample: the half samples its case needs are read, then it is written (43_resampler.md R213). -/
theorem upsampleAt_filled (hfull : ∀ d, planeDim d f = d) (hhalf : ∀ d, planeDim d h = d / 2)
    (hdims : validDims s.regs.width s.regs.height = true) (hf : inBounds s (planeRegion s f) = true)
    (hh : inBounds s (planeRegion s h) = true) (hx : x < planeWidth s f) (hy : y < planeHeight s f)
    (ht : Upsampled f h s (x + y * planeWidth s f) t) :
    ∃ u, Answers (upsampleAt h f (imageWidth s / 2) (imageHeight s / 2) x y : Eng ρ Unit) t (.ok ((), u)) ∧
      Upsampled f h s (x + 1 + y * planeWidth s f) u := by
  have hneeded : ∀ ji ∈ reconPositions (imageWidth s / 2) (imageHeight s / 2) x y,
      ji.2 < planeWidth s h ∧ ji.1 < planeHeight s h := by
    obtain ⟨_, _, hw16, hh16⟩ := (validDims_iff _ _).1 hdims
    have hx2 : x / 2 < imageWidth s / 2 := by
      rw [planeWidth, hfull] at hx
      unfold imageWidth at *
      omega
    have hy2 : y / 2 < imageHeight s / 2 := by
      rw [planeHeight, hfull] at hy
      unfold imageHeight at *
      omega
    rw [planeWidth, planeHeight, hhalf, hhalf]
    exact fun ji hji => (reconPositions_lt hx2 hy2 ji hji).symm
  have hreads := listN_getD_answers (s := t) (g := fun ji => px h ji.2 ji.1) (fun ji => t.byte (planeAddr s h ji.2 ji.1))
    _ (0, 0) fun ji hji => px_filled (ρ := ρ) hh ht (hneeded ji hji).1 (hneeded ji hji).2
  obtain ⟨u, hwrite, hu⟩ := pxW_filled (ρ := ρ) hf ht hx hy fun hd => congrArg average
    (List.map_congr_left fun ji hji => ht.source_sample hd (hneeded ji hji).1 (hneeded ji hji).2)
  exact ⟨u, hreads.bind hwrite, hu⟩

/-- The loop of `UPSAMPLE` fills the full plane with the reconstruction from the half one (43_resampler.md R213). -/
theorem upsampleBody_filled (hfull : ∀ d, planeDim d f = d) (hhalf : ∀ d, planeDim d h = d / 2)
    (hdims : validDims s.regs.width s.regs.height = true) (hf : inBounds s (planeRegion s f) = true)
    (hh : inBounds s (planeRegion s h) = true) :
    ∃ t, Answers (upsampleBody h f : Eng ρ Unit) s (.ok ((), t)) ∧ Upsampled f h s (planeRegion s f).len t := by
  obtain ⟨t, ho, ht⟩ := planeLoop_filled (ρ := ρ)
    (body := fun y x => upsampleAt h f (imageWidth s / 2) (imageHeight s / 2) x y)
    fun x y t hx hy ht => upsampleAt_filled hfull hhalf hdims hf hh hx hy ht
  rw [planeWidth, planeHeight, hfull, hfull] at ho
  exact ⟨t, (Answers.state s).bind ho, ht⟩

/-- The full plane, once filled, holds the upsample of the half plane. -/
theorem Upsampled.holds (ht : Upsampled f h s (planeRegion s f).len t)
    (hd : disjoint (planeRegion s f) (planeRegion s h)) : holdsUpsample f h s t :=
  fun x y hx hy => (congrArg BitVec.toNat (ht.sample_eq hd.symm hx hy)).trans (recon_toNat _ _ _ x y)

/-! ## The checks -/

/-- The checks of the resampling commands, met (60_exceptions.md R270). -/
theorem requireResample_met (hdims : validDims s.regs.width s.regs.height = true)
    (hbounds : allInBounds s [planeRegion s f, planeRegion s h] = true) :
    Answers (requireResample f h : Eng ρ Unit) s (.ok ((), s)) := by
  simpa only [hdims, hbounds, if_true] using requireResample_answers f h s

end Sys2Proof.Machine
end

section
/-! The statements of 43_resampler.md, from the facts above. -/

namespace Sys2Proof.Machine

/-- Settles O49: the rational form over the common denominator 40, the integer forms by quotient and remainder. -/
theorem boxAverageForms : Obligations.BoxAverageForms := by
  intro sum hsum
  have hforms : (10 * sum + 16) / 40 = (sum + 1) / 4 := by omega
  refine ⟨?_, ?_, boxAverage_eq sum, boxAverage_le hsum⟩
  · rw [floor_boxAverage, hforms, boxAverage_eq]
  · rw [hforms, boxAverage_eq]

/-- Settles O50: the checks pass, and the loop fills the half plane before `done()`. -/
theorem downsampleCompletes : Obligations.DownsampleCompletes := by
  intro s plane f h hplane hdims hbounds
  obtain ⟨hfull, hhalf⟩ := chromaPlanes_dims hplane
  have hin := (allInBounds_iff _ _).1 hbounds
  obtain ⟨t, hbody, ht⟩ := downsampleBody_filled (ρ := Unit) hfull hhalf (hin (planeRegion s f) (by simp))
    (hin (planeRegion s h) (by simp))
  have hprogram : Answers (downsampleProgram plane : Eng Unit Unit) s (.ok ((), t.complete)) := by
    unfold downsampleProgram
    rw [hplane]
    exact (requireResample_met hdims hbounds).bind (hbody.bind (Answers.done t))
  exact ⟨t.complete, hprogram.runToEnd, ht.complete, ht.outside, ht.holds⟩

/-- Settles O51: the checks pass, and the loop fills the full plane before `done()`. -/
theorem upsampleCompletes : Obligations.UpsampleCompletes := by
  intro s plane f h hplane hdims hbounds
  obtain ⟨hfull, hhalf⟩ := chromaPlanes_dims hplane
  have hin := (allInBounds_iff _ _).1 hbounds
  obtain ⟨t, hbody, ht⟩ := upsampleBody_filled (ρ := Unit) hfull hhalf hdims (hin (planeRegion s f) (by simp))
    (hin (planeRegion s h) (by simp))
  have hprogram : Answers (upsampleProgram plane : Eng Unit Unit) s (.ok ((), t.complete)) := by
    unfold upsampleProgram
    rw [hplane]
    exact (requireResample_met hdims hbounds).bind (hbody.bind (Answers.done t))
  exact ⟨t.complete, hprogram.runToEnd, ht.complete, ht.outside, ht.holds⟩

end Sys2Proof.Machine
end

section
/-! SUPPORT. The traversal by block index (44_container.md R230, R231): the two loops over tiles count the blocks in order, and
two different blocks share no sample. -/

namespace Sys2Proof.Machine

/-! ## The loops over tiles -/

/-- A double loop over rows of `c` counts from 0 on. -/
theorem flatMap_range_mul {α : Type} (r c : Nat) (f : Nat → α) :
    ((List.range r).flatMap fun i => (List.range c).map fun j => f (i * c + j)) = (List.range (r * c)).map f := by
  induction r with
  | zero => simp
  | succ r ih =>
    rw [List.range_succ, List.flatMap_append, ih, Nat.succ_mul, List.range_add, List.map_append, List.map_map]
    simp [Function.comp_def]

/-- The six blocks of a tile, `c` tiles to a row, are six blocks of the traversal one after the other. -/
theorem tileBlocks_eq {w tx : Nat} (hx : tx < w / 16) (ty : Nat) :
    tileBlocks w tx ty = (List.range 6).map fun k => blockAt w ((ty * (w / 16) + tx) * 6 + k) := by
  have hcol : (ty * (w / 16) + tx) % (w / 16) = tx := by rw [Nat.mul_add_mod', Nat.mod_eq_of_lt hx]
  have hrow : (ty * (w / 16) + tx) / (w / 16) = ty := by
    rw [Nat.mul_comm, Nat.mul_add_div (by omega), Nat.div_eq_of_lt hx, Nat.add_zero]
  have hblock (k : Nat) (hk : k < 6) : ((ty * (w / 16) + tx) * 6 + k) / 6 = ty * (w / 16) + tx ∧
      ((ty * (w / 16) + tx) * 6 + k) % 6 = k := by omega
  simp [tileBlocks, blockAt, List.range_succ, hblock, hcol, hrow, Nat.mul_comm 6]

theorem traversal_eq (w h : Nat) : traversal w h = (List.range (blockTotal w h)).map (blockAt w) := by
  have htiles (ty : Nat) : ((List.range (w / 16)).flatMap fun tx => tileBlocks w tx ty) =
      (List.range (w / 16 * 6)).map fun j => blockAt w (ty * (w / 16 * 6) + j) := by
    rw [← flatMap_range_mul]
    refine List.flatMap_congr fun tx htx => ?_
    rw [tileBlocks_eq (List.mem_range.1 htx)]
    exact List.map_congr_left fun k _ => congrArg (blockAt w) (by ring)
  rw [traversal, funext htiles, flatMap_range_mul, blockTotal]
  congr 2
  ring

/-! ## A block by its place -/

/-- The planes blocks lie in (44_container.md R231). -/
theorem blockAt_plane (w n : Nat) : (blockAt w n).plane = if n % 6 < 4 then .y else if n % 6 = 4 then .cbh else .crh := by
  have hlt : n % 6 < 6 := Nat.mod_lt _ (by decide)
  unfold blockAt
  interval_cases n % 6 <;> rfl

/-- A block's column and row of samples, in blocks of its plane: a luma tile is two blocks wide and two high. -/
theorem blockAt_place (w n : Nat) :
    (blockAt w n).x = 8 * (if n % 6 < 4 then 2 * (n / 6 % (w / 16)) + n % 6 % 2 else n / 6 % (w / 16)) ∧
      (blockAt w n).y = 8 * (if n % 6 < 4 then 2 * (n / 6 / (w / 16)) + n % 6 / 2 else n / 6 / (w / 16)) := by
  have hlt : n % 6 < 6 := Nat.mod_lt _ (by decide)
  unfold blockAt
  generalize n % 6 = k at hlt ⊢
  interval_cases k <;> simp <;> omega

/-- Two blocks of the traversal in the same plane at the same place are the same block. -/
theorem blockAt_inj {w m n : Nat} (hplane : (blockAt w m).plane = (blockAt w n).plane)
    (hx : (blockAt w m).x = (blockAt w n).x) (hy : (blockAt w m).y = (blockAt w n).y) : m = n := by
  obtain ⟨hxm, hym⟩ := blockAt_place w m
  obtain ⟨hxn, hyn⟩ := blockAt_place w n
  rw [hxm, hxn] at hx
  rw [hym, hyn] at hy
  rw [blockAt_plane, blockAt_plane] at hplane
  have hm : m / 6 = w / 16 * (m / 6 / (w / 16)) + m / 6 % (w / 16) := (Nat.div_add_mod _ _).symm
  have hn : n / 6 = w / 16 * (n / 6 / (w / 16)) + n / 6 % (w / 16) := (Nat.div_add_mod _ _).symm
  have htile : m / 6 / (w / 16) = n / 6 / (w / 16) ∧ m / 6 % (w / 16) = n / 6 % (w / 16) ∧ m % 6 = n % 6 := by
    have hi : m % 6 < 6 := Nat.mod_lt _ (by decide)
    have hj : n % 6 < 6 := Nat.mod_lt _ (by decide)
    clear hm hn hxm hym hxn hyn
    generalize m / 6 / (w / 16) = tym, m / 6 % (w / 16) = txm, n / 6 / (w / 16) = tyn, n / 6 % (w / 16) = txn,
      m % 6 = i, n % 6 = j at *
    have hpos : i < 4 ∧ j < 4 ∨ i = j ∧ ¬i < 4 := by
      split_ifs at hplane <;> omega
    rcases hpos with ⟨hi, hj⟩ | ⟨rfl, hi⟩
    · rw [if_pos hi, if_pos hj] at hx hy
      omega
    · rw [if_neg hi, if_neg hi] at hx hy
      omega
  obtain ⟨hrow, hcol, hpos⟩ := htile
  rw [hrow, hcol, ← hn] at hm
  omega

end Sys2Proof.Machine
end

section
/-! The traversal and `NOP`, from the facts above. -/

namespace Sys2Proof.Machine

/-- Settles O52: the six blocks of each tile, tile after tile, count from 0 on. -/
theorem traversalIsBlockOrder : Obligations.TraversalIsBlockOrder := traversal_eq

/-- Settles O28: the program is `done()` alone. -/
theorem nopCompletes : Obligations.NopCompletes := fun s => ⟨(Answers.done s).runToEnd, rfl, rfl, rfl, rfl⟩

end Sys2Proof.Machine
end

section
/-! SUPPORT. What a part of a program leaves where it is: the places of `MEM` a state's registers name (20_memory.md R64 to R67)
while only the engine's progress registers move, and the cells outside the regions a part writes. -/

namespace Sys2Proof.Machine

variable {s t u : State} {r q : Region} {rs qs : List Region}

/-! ## The same places -/

/-- `t` has the platform of `s` and its registers but the progress registers of the stream and the classifier, so every address
and every region is the same. -/
structure SamePlaces (s t : State) : Prop where
  regs : EncoderRegs s.regs t.regs
  platform : t.platform = s.platform

/-- `s` with the progress registers of `t`. -/
def State.withProgress (s t : State) : State :=
  { s with regs := { s.regs with cls := t.regs.cls, streamPtr := t.regs.streamPtr, blkCount := t.regs.blkCount } }

namespace SamePlaces

theorem regs_eq (h : SamePlaces s t) : t.regs = (s.withProgress t).regs := h.regs

theorem trans (h : SamePlaces s t) (h' : SamePlaces t u) : SamePlaces s u :=
  ⟨h'.regs.trans (by rw [h.regs_eq]; rfl), h'.platform.trans h.platform⟩

theorem planeAddr (h : SamePlaces s t) (p : Plane) (x y : Nat) : planeAddr t p x y = planeAddr s p x y :=
  (planeAddr_congr (s := s.withProgress t) h.regs_eq p x y).trans (by cases p <;> rfl)

theorem planeRegion (h : SamePlaces s t) (p : Plane) : planeRegion t p = planeRegion s p :=
  (planeRegion_congr (s := s.withProgress t) h.regs_eq p).trans (by cases p <;> rfl)

theorem imageAddr (h : SamePlaces s t) (x y c : Nat) : imageAddr t x y c = imageAddr s x y c :=
  imageAddr_congr (s := s.withProgress t) h.regs_eq x y c

theorem streamAddr (h : SamePlaces s t) (k : Nat) : streamAddr t k = streamAddr s k :=
  streamAddr_congr (s := s.withProgress t) h.regs_eq k

theorem width (h : SamePlaces s t) : t.regs.width = s.regs.width := by rw [h.regs_eq]; rfl

theorem height (h : SamePlaces s t) : t.regs.height = s.regs.height := by rw [h.regs_eq]; rfl

theorem streamLen (h : SamePlaces s t) : t.regs.streamLen = s.regs.streamLen := by rw [h.regs_eq]; rfl

theorem planeWidth (h : SamePlaces s t) (p : Plane) : planeWidth t p = planeWidth s p :=
  congrArg (fun w : Half => planeDim w.toNat p) h.width

theorem planeHeight (h : SamePlaces s t) (p : Plane) : planeHeight t p = planeHeight s p :=
  congrArg (fun w : Half => planeDim w.toNat p) h.height

theorem imageRegion (h : SamePlaces s t) : imageRegion t = imageRegion s := by
  rw [Machine.imageRegion, Machine.imageRegion, imageWidth, imageHeight, h.width, h.height]
  rw [h.regs_eq]
  rfl

theorem streamRegion (h : SamePlaces s t) : streamRegion t = streamRegion s := by
  rw [Machine.streamRegion, h.regs_eq]
  rfl

theorem codecRegions (h : SamePlaces s t) (il : Bool) : codecRegions il t = codecRegions il s := by
  simp only [Machine.codecRegions, h.planeRegion, h.imageRegion]

theorem imageAndPlanes (h : SamePlaces s t) : imageAndPlanes t = imageAndPlanes s := by
  simp only [Machine.imageAndPlanes, h.planeRegion, h.imageRegion]

theorem inBounds (h : SamePlaces s t) (r : Region) : inBounds t r = inBounds s r := by
  simp only [Machine.inBounds, h.platform]

theorem allInBounds (h : SamePlaces s t) (rs : List Region) : allInBounds t rs = allInBounds s rs := by
  simp only [Machine.allInBounds, funext h.inBounds]

theorem blockAddr (h : SamePlaces s t) (b : Block) (x y : Nat) : blockAddr t b x y = blockAddr s b x y :=
  h.planeAddr b.plane (b.x + x) (b.y + y)

theorem blockInside (h : SamePlaces s t) {b : Block} (hb : BlockInside s b) : BlockInside t b := by
  simpa only [BlockInside, h.planeWidth, h.planeHeight] using hb

theorem blockFits (h : SamePlaces s t) {b : Block} (hb : blockFits s b) : blockFits t b := by
  simpa only [Machine.blockFits, h.planeWidth, h.blockAddr, h.platform] using hb

end SamePlaces

/-! ## Cells outside some regions -/

theorem not_holds_of_disjoint {a : Nat} (hd : disjoint r q) (ha : r.holds a = true) : q.holds a = false := by
  rw [holds_iff] at ha
  unfold disjoint at hd
  exact decide_eq_false (by omega)

/-- `t` differs from `s` in `MEM` only, and there in some regions only. -/
structure ChangedIn (rs : List Region) (s t : State) : Prop where
  memOnly : t = { s with mem := t.mem }
  outside : sameOutsideAll rs s t

theorem sameOutsideAll_mono (h : sameOutsideAll rs s t) (hsub : rs ⊆ qs) : sameOutsideAll qs s t := by
  refine fun a ha => h a ?_
  simp only [List.any_eq_false] at ha ⊢
  exact fun r hr => ha r (hsub hr)

theorem sameOutsideAll_trans (h : sameOutsideAll rs s t) (h' : sameOutsideAll rs t u) : sameOutsideAll rs s u :=
  fun a ha => (h' a ha).trans (h a ha)

/-- A region that no written region overlaps reads as before. -/
theorem sameOutsideAll_byte {a : Nat} (h : sameOutsideAll rs s t) (hd : ∀ q ∈ rs, disjoint r q) (ha : r.holds a = true) :
    t.byte a = s.byte a :=
  h a (List.any_eq_false.2 fun q hq => by simp [not_holds_of_disjoint (hd q hq) ha])

namespace ChangedIn

theorem refl (rs : List Region) (s : State) : ChangedIn rs s s := ⟨rfl, fun _ _ => rfl⟩

theorem trans (h : ChangedIn rs s t) (h' : ChangedIn rs t u) : ChangedIn rs s u := by
  refine ⟨?_, sameOutsideAll_trans h.outside h'.outside⟩
  rw [h'.memOnly, h.memOnly]

theorem mono (h : ChangedIn rs s t) (hsub : rs ⊆ qs) : ChangedIn qs s t := ⟨h.memOnly, sameOutsideAll_mono h.outside hsub⟩

theorem setByte {a : Nat} (h : ChangedIn rs s t) (x : Byte) (hr : r ∈ rs) (ha : r.holds a = true) :
    ChangedIn rs s (t.setByte a x) := by
  refine ⟨by rw [h.memOnly]; rfl, fun c hc => ?_⟩
  have hne : c ≠ a := by
    rintro rfl
    exact List.any_eq_false.1 hc r hr ha
  rw [byte_setByte_of_ne t x hne, h.outside c hc]

theorem samePlaces (h : ChangedIn rs s t) : SamePlaces s t := by
  rw [h.memOnly]
  exact ⟨rfl, rfl⟩

theorem complete (h : ChangedIn rs s t) : endedChangingMemoryOnly s t.complete := by
  unfold endedChangingMemoryOnly
  rw [h.memOnly]
  rfl

theorem byte {a : Nat} (h : ChangedIn rs s t) (hd : ∀ q ∈ rs, disjoint r q) (ha : r.holds a = true) : t.byte a = s.byte a :=
  sameOutsideAll_byte h.outside hd ha

end ChangedIn

theorem Filled.changedIn {v : Nat → Byte} {k : Nat} (h : Filled s r q v k t) : ChangedIn [q] s t :=
  ⟨h.memOnly, fun a ha => h.outside a (by simpa using ha)⟩

/-! ## A region filled from its begin -/

/-- The first `k` bytes of a region are `v 0`, `v 1`, .... -/
def HoldsBytes (t : State) (r : Region) (v : Nat → Byte) (k : Nat) : Prop := ∀ i, i < k → t.byte (r.base + i) = v i

namespace HoldsBytes

variable {v : Nat → Byte} {k : Nat}

/-- The next byte written. -/
theorem setByte_next (h : HoldsBytes t r v k) {x : Byte} (hx : x = v k) :
    HoldsBytes (t.setByte (r.base + k) x) r v (k + 1) := by
  intro i hi
  rcases Nat.lt_succ_iff_lt_or_eq.1 hi with hi | rfl
  · rw [byte_setByte_of_ne t x (by omega), h i hi]
  · rw [byte_setByte_same, hx]

/-- A byte written elsewhere. -/
theorem setByte_outside (h : HoldsBytes t r v k) (hk : k ≤ r.len) {a : Nat} (x : Byte) (ha : r.holds a = false) :
    HoldsBytes (t.setByte a x) r v k := by
  intro i hi
  have hne : r.base + i ≠ a := by
    rintro rfl
    exact absurd ha (by simp [Region.holds]; omega)
  rw [byte_setByte_of_ne t x hne, h i hi]

end HoldsBytes

/-! ## A loop in raster order -/

/-- A double loop over `w` columns and `h` rows, one iteration after the other in raster order. -/
theorem rasterLoop_answers {ρ : Type} {w h : Nat} {body : Nat → Nat → Eng ρ Unit} (I : Nat → State → Prop)
    (hbody : ∀ x y t, x < w → y < h → I (x + y * w) t → ∃ u, Answers (body y x) t (.ok ((), u)) ∧ I (x + y * w + 1) u)
    (hs : I 0 s) : ∃ t, Answers (forN h fun y => forN w (body y)) s (.ok ((), t)) ∧ I (w * h) t := by
  have hrow (y : Nat) (hy : y < h) := Hoare.forN (ρ := ρ) (H := fun _ => False) (F := False) (fun x => I (x + y * w)) w
    fun x hx t ht => (hbody x y t hx hy ht).elim fun u ⟨ho, hu⟩ => ⟨_, ho, by rwa [Nat.add_right_comm]⟩
  have hrows := Hoare.forN (ρ := ρ) (H := fun _ => False) (F := False) (fun y => I (y * w)) h
    fun y hy => by simpa only [Nat.zero_add, Nat.add_zero, Nat.succ_mul, Nat.add_comm] using hrow y hy
  obtain ⟨_, t, ho, ht⟩ := hrows.answers (by rwa [Nat.zero_mul])
  exact ⟨t, ho, by rwa [Nat.mul_comm]⟩

end Sys2Proof.Machine
end

section
/-! SUPPORT. The loops of SPLIT and MERGE (44_container.md R235, R236): one fills the three full planes side by side, the other the
interleaved image, each pixel by pixel in raster order. -/

namespace Sys2Proof.Machine

variable {ρ : Type} {s t : State} {k c x y : Nat}

/-! ## Channels -/

/-- The full plane of each channel of the interleaved image (44_container.md R235). -/
def channelPlane : Nat → Plane
  | 0 => .y
  | 1 => .cbf
  | _ => .crf

/-- The full planes (10_state.md R30). -/
def fullPlanes (s : State) : List Region := [planeRegion s .y, planeRegion s .cbf, planeRegion s .crf]

theorem channel_mem (s : State) (c : Nat) : planeRegion s (channelPlane c) ∈ fullPlanes s := by
  unfold channelPlane
  split <;> simp [fullPlanes]

theorem channel_width (s : State) (c : Nat) : planeWidth s (channelPlane c) = imageWidth s := by
  unfold channelPlane
  split <;> rfl

theorem channel_height (s : State) (c : Nat) : planeHeight s (channelPlane c) = imageHeight s := by
  unfold channelPlane
  split <;> rfl

theorem channel_len (s : State) (c : Nat) : (planeRegion s (channelPlane c)).len = imageWidth s * imageHeight s := by
  rw [planeRegion, channel_width, channel_height]

/-- A pixel of a channel's plane by its place in raster order. -/
theorem channel_addr (s : State) (c x y : Nat) : planeAddr s (channelPlane c) x y =
    (planeRegion s (channelPlane c)).base + (x + y * imageWidth s) := by
  rw [planeAddr_eq_base_add, channel_width]

/-- A channel of a pixel of the interleaved image by the pixel's place in raster order (20_memory.md R67). -/
theorem imageAddr_eq (s : State) (x y c : Nat) :
    imageAddr s x y c = (imageRegion s).base + (3 * (x + y * imageWidth s) + c) := Nat.add_assoc _ _ _

theorem image_len (s : State) : (imageRegion s).len = 3 * (imageWidth s * imageHeight s) := Nat.mul_assoc _ _ _

/-- The planes of two channels do not overlap. -/
theorem channels_disjoint (h : (fullPlanes s).Pairwise disjoint) {c d : Nat} (hc : c < 3) (hd : d < 3) (hne : c ≠ d) :
    disjoint (planeRegion s (channelPlane c)) (planeRegion s (channelPlane d)) := by
  have hsymm : Std.Symm fun p q => disjoint (planeRegion s p) (planeRegion s q) := ⟨fun _ _ => Or.symm⟩
  have hplanes : [Plane.y, .cbf, .crf].Pairwise fun p q => disjoint (planeRegion s p) (planeRegion s q) := List.pairwise_map.1 h
  have hchannel : ∀ k, k < 3 → channelPlane k ∈ [Plane.y, .cbf, .crf] := by decide
  have hinj : ∀ k, k < 3 → ∀ l, l < 3 → k ≠ l → channelPlane k ≠ channelPlane l := by decide
  exact hplanes.forall (hchannel c hc) (hchannel d hd) (hinj c hc d hd hne)

/-! ## SPLIT -/

/-- Channel `c` of the interleaved image, pixel after pixel. -/
def channelByte (s : State) (c i : Nat) : Byte := s.byte ((imageRegion s).base + (3 * i + c))

/-- `t` is on the way of SPLIT from `s`: `k` pixels are split, and of the next one the first `c` channels. -/
structure SplitTo (s : State) (k c : Nat) (t : State) : Prop where
  changed : ChangedIn (fullPlanes s) s t
  planes : (imageAndPlanes s).Pairwise disjoint → ∀ d < 3,
    HoldsBytes t (planeRegion s (channelPlane d)) (channelByte s d) (if d < c then k + 1 else k)

theorem SplitTo.next_pixel (h : SplitTo s k 3 t) : SplitTo s (k + 1) 0 t :=
  ⟨h.changed, fun hd d hlt => by simpa only [hlt, if_true, Nat.not_lt_zero, if_false] using h.planes hd d hlt⟩

/-- The next channel of the pixel written. -/
theorem SplitTo.setByte (h : SplitTo s k c t) (hc : c < 3) (hk : k < imageWidth s * imageHeight s) {v : Byte}
    (hv : (imageAndPlanes s).Pairwise disjoint → v = channelByte s c k) :
    SplitTo s k (c + 1) (t.setByte ((planeRegion s (channelPlane c)).base + k) v) := by
  have hmem : (planeRegion s (channelPlane c)).holds ((planeRegion s (channelPlane c)).base + k) = true := by
    rw [holds_iff, channel_len]
    omega
  refine ⟨h.changed.setByte v (channel_mem s c) hmem, fun hd d hlt => ?_⟩
  have hold := h.planes hd d hlt
  by_cases hdc : d = c
  · subst hdc
    rw [if_pos (Nat.lt_succ_self d)]
    rw [if_neg (Nat.lt_irrefl d)] at hold
    exact hold.setByte_next (hv hd)
  · have hother := not_holds_of_disjoint (channels_disjoint (List.pairwise_cons.1 hd).2 hc hlt (Ne.symm hdc)) hmem
    have hiff : d < c + 1 ↔ d < c := by omega
    simp only [hiff]
    refine hold.setByte_outside ?_ v hother
    rw [channel_len]
    split <;> omega

/-- A channel of the image, read on the way of SPLIT. -/
theorem SplitTo.read (h : SplitTo s k c t) (himage : inBounds s (imageRegion s) = true) (hx : x < imageWidth s)
    (hy : y < imageHeight s) {d : Nat} (hd : d < 3) :
    Answers (memRead (imageAddr s x y d) : Eng ρ Byte) t (.ok (t.byte (imageAddr s x y d), t)) ∧
      ((imageAndPlanes s).Pairwise disjoint → t.byte (imageAddr s x y d) = channelByte s d (x + y * imageWidth s)) := by
  refine ⟨Answers.memRead (h.changed.samePlaces.platform ▸ imageAddr_lt himage hx hy hd), fun hdisjoint => ?_⟩
  rw [h.changed.byte (List.pairwise_cons.1 hdisjoint).1 (imageAddr_mem hx hy hd), imageAddr_eq, channelByte]

/-- A channel of the pixel, written on the way of SPLIT. -/
theorem SplitTo.write (h : SplitTo s (x + y * imageWidth s) c t) (hplane : inBounds s (planeRegion s (channelPlane c)) = true)
    (hx : x < imageWidth s) (hy : y < imageHeight s) (hc : c < 3) {v : Byte}
    (hv : (imageAndPlanes s).Pairwise disjoint → v = channelByte s c (x + y * imageWidth s)) :
    ∃ u, Answers (pxW (channelPlane c) x y v : Eng ρ Unit) t (.ok ((), u)) ∧ SplitTo s (x + y * imageWidth s) (c + 1) u := by
  have hplaces := h.changed.samePlaces
  have hlt : planeAddr s (channelPlane c) x y < s.platform.memBytes :=
    planeAddr_lt hplane (by rwa [channel_width]) (by rwa [channel_height])
  refine ⟨_, pxW_answers v (by rwa [hplaces.planeAddr, hplaces.platform]), ?_⟩
  rw [hplaces.planeAddr, channel_addr]
  exact h.setByte hc (offset_lt_area hx hy) hv

/-- One pixel: its channels are read, then written to their planes (44_container.md R235). -/
theorem splitAt_answers (hbounds : allInBounds s (imageAndPlanes s) = true) (hx : x < imageWidth s) (hy : y < imageHeight s)
    (ht : SplitTo s (x + y * imageWidth s) 0 t) :
    ∃ u, Answers (splitAt x y : Eng ρ Unit) t (.ok ((), u)) ∧ SplitTo s (x + y * imageWidth s + 1) 0 u := by
  have hin := (allInBounds_iff _ _).1 hbounds
  have hplane (c : Nat) := hin _ (List.mem_cons_of_mem _ (channel_mem s c))
  have hread (c : Nat) (hc : c < 3) := ht.read (ρ := ρ) (hin _ List.mem_cons_self) hx hy hc
  have hlook (c : Nat) (hc : c < 3) :
      Answers (memRead (imageAddr t.view x y c) : Eng ρ Byte) t (.ok (t.byte (imageAddr s x y c), t)) := by
    rw [imageAddr_view, ht.changed.samePlaces.imageAddr]
    exact (hread c hc).1
  obtain ⟨u0, ho0, hu0⟩ := ht.write (ρ := ρ) (hplane 0) hx hy (by decide) (hread 0 (by decide)).2
  obtain ⟨u1, ho1, hu1⟩ := hu0.write (ρ := ρ) (hplane 1) hx hy (by decide) (hread 1 (by decide)).2
  obtain ⟨u2, ho2, hu2⟩ := hu1.write (ρ := ρ) (hplane 2) hx hy (by decide) (hread 2 (by decide)).2
  exact ⟨u2, (Answers.state t).bind ((hlook 0 (by decide)).bind ((hlook 1 (by decide)).bind ((hlook 2 (by decide)).bind
    (ho0.bind (ho1.bind ho2))))), hu2.next_pixel⟩

/-- The loop of SPLIT fills the three full planes (44_container.md R235). -/
theorem splitBody_answers (hbounds : allInBounds s (imageAndPlanes s) = true) :
    ∃ t, Answers (splitBody : Eng ρ Unit) s (.ok ((), t)) ∧ SplitTo s (imageWidth s * imageHeight s) 0 t := by
  have hstart : SplitTo s 0 0 s := ⟨ChangedIn.refl _ s, fun _ _ _ _ hi => absurd hi (Nat.not_lt_zero _)⟩
  obtain ⟨t, ho, ht⟩ := rasterLoop_answers (ρ := ρ) (body := fun y x => splitAt x y) (fun k => SplitTo s k 0)
    (fun _ _ _ hx hy ht => splitAt_answers hbounds hx hy ht) hstart
  exact ⟨t, (Answers.state s).bind ho, ht⟩

/-- The full planes, once filled, hold the channels of the image. -/
theorem SplitTo.holds (h : SplitTo s (imageWidth s * imageHeight s) 0 t) (hd : (imageAndPlanes s).Pairwise disjoint) :
    holdsSplit s t := by
  intro x y hx hy
  have hchannel (c : Nat) (hc : c < 3) : t.byte (planeAddr s (channelPlane c) x y) = s.byte (imageAddr s x y c) := by
    rw [channel_addr, imageAddr_eq]
    exact h.planes hd c hc _ (offset_lt_area hx hy)
  exact ⟨hchannel 0 (by decide), hchannel 1 (by decide), hchannel 2 (by decide)⟩

/-! ## MERGE -/

/-- The interleaved image of the full planes, byte after byte. -/
def mergedByte (s : State) (j : Nat) : Byte := s.byte ((planeRegion s (channelPlane (j % 3))).base + j / 3)

/-- The image overlaps no full plane. -/
def ImageApart (s : State) : Prop := ∀ p : Plane, p = .y ∨ p = .cbf ∨ p = .crf → disjoint (imageRegion s) (planeRegion s p)

theorem ImageApart.channel (h : ImageApart s) (c : Nat) : disjoint (planeRegion s (channelPlane c)) (imageRegion s) := by
  refine Or.symm (h _ ?_)
  unfold channelPlane
  split <;> simp

/-- `t` is on the way of MERGE from `s`: the first `k` bytes of the image are written. -/
structure MergedTo (s : State) (k : Nat) (t : State) : Prop where
  changed : ChangedIn [imageRegion s] s t
  image : ImageApart s → HoldsBytes t (imageRegion s) (mergedByte s) k

/-- A sample of a channel's plane, read on the way of MERGE. -/
theorem MergedTo.read (h : MergedTo s k t) (hplane : inBounds s (planeRegion s (channelPlane c)) = true)
    (hx : x < imageWidth s) (hy : y < imageHeight s) (hc : c < 3) :
    Answers (px (channelPlane c) x y : Eng ρ Byte) t (.ok (t.byte (planeAddr s (channelPlane c) x y), t)) ∧
      (ImageApart s → t.byte (planeAddr s (channelPlane c) x y) = mergedByte s (3 * (x + y * imageWidth s) + c)) := by
  have hplaces := h.changed.samePlaces
  have hx : x < planeWidth s (channelPlane c) := by rwa [channel_width]
  have hy : y < planeHeight s (channelPlane c) := by rwa [channel_height]
  constructor
  · rw [← hplaces.planeAddr]
    exact px_answers (by rw [hplaces.planeAddr, hplaces.platform]; exact planeAddr_lt hplane hx hy)
  · intro hd
    rw [h.changed.byte (List.forall_mem_singleton.2 (hd.channel c)) (planeAddr_mem hx hy), channel_addr, mergedByte,
      Nat.mul_add_mod, Nat.mod_eq_of_lt hc, Nat.mul_add_div (by decide), Nat.div_eq_of_lt hc, Nat.add_zero]

/-- A channel of the pixel, written on the way of MERGE. -/
theorem MergedTo.write (h : MergedTo s (3 * (x + y * imageWidth s) + c) t) (himage : inBounds s (imageRegion s) = true)
    (hx : x < imageWidth s) (hy : y < imageHeight s) (hc : c < 3) {v : Byte}
    (hv : ImageApart s → v = mergedByte s (3 * (x + y * imageWidth s) + c)) :
    ∃ u, Answers (memWrite (imageAddr s x y c) v : Eng ρ Unit) t (.ok ((), u)) ∧
      MergedTo s (3 * (x + y * imageWidth s) + (c + 1)) u := by
  have hlt := imageAddr_lt himage hx hy hc
  refine ⟨_, Answers.memWrite v (h.changed.samePlaces.platform ▸ hlt),
    h.changed.setByte v List.mem_cons_self (imageAddr_mem hx hy hc), fun hd => ?_⟩
  rw [imageAddr_eq]
  exact (h.image hd).setByte_next (hv hd)

/-- One pixel: its three samples are read, then written to the image (44_container.md R236). -/
theorem mergeAt_answers (hbounds : allInBounds s (imageAndPlanes s) = true) (hx : x < imageWidth s) (hy : y < imageHeight s)
    (ht : MergedTo s (3 * (x + y * imageWidth s)) t) :
    ∃ u, Answers (mergeAt x y : Eng ρ Unit) t (.ok ((), u)) ∧ MergedTo s (3 * (x + y * imageWidth s + 1)) u := by
  have hin := (allInBounds_iff _ _).1 hbounds
  have himage := hin _ List.mem_cons_self
  have hread (c : Nat) (hc : c < 3) := ht.read (ρ := ρ) (hin _ (List.mem_cons_of_mem _ (channel_mem s c))) hx hy hc
  obtain ⟨u0, ho0, hu0⟩ := ht.write (ρ := ρ) (c := 0) himage hx hy (by decide) (hread 0 (by decide)).2
  obtain ⟨u1, ho1, hu1⟩ := hu0.write (ρ := ρ) himage hx hy (by decide) (hread 1 (by decide)).2
  obtain ⟨u2, ho2, hu2⟩ := hu1.write (ρ := ρ) himage hx hy (by decide) (hread 2 (by decide)).2
  rw [← ht.changed.samePlaces.imageAddr] at ho0 ho1 ho2
  exact ⟨u2, (Answers.state t).bind ((hread 0 (by decide)).1.bind ((hread 1 (by decide)).1.bind ((hread 2 (by decide)).1.bind
    (ho0.bind (ho1.bind ho2))))), hu2⟩

/-- The loop of MERGE fills the interleaved image (44_container.md R236). -/
theorem mergeBody_answers (hbounds : allInBounds s (imageAndPlanes s) = true) :
    ∃ t, Answers (mergeBody : Eng ρ Unit) s (.ok ((), t)) ∧ MergedTo s (imageRegion s).len t := by
  have hstart : MergedTo s 0 s := ⟨ChangedIn.refl _ s, fun _ _ hi => absurd hi (Nat.not_lt_zero _)⟩
  obtain ⟨t, ho, ht⟩ := rasterLoop_answers (ρ := ρ) (body := fun y x => mergeAt x y) (fun k => MergedTo s (3 * k))
    (fun _ _ _ hx hy ht => mergeAt_answers hbounds hx hy ht) hstart
  rw [image_len]
  exact ⟨t, (Answers.state s).bind ho, ht⟩

/-- The image, once filled, holds the full planes. -/
theorem MergedTo.holds (h : MergedTo s (imageRegion s).len t) (hd : ImageApart s) : holdsMerge s t := by
  intro x y hx hy
  have harea : x + y * imageWidth s < imageWidth s * imageHeight s := offset_lt_area hx hy
  have hchannel (c : Nat) (hc : c < 3) : t.byte (imageAddr s x y c) = s.byte (planeAddr s (channelPlane c) x y) := by
    rw [imageAddr_eq, h.image hd _ (by rw [image_len]; omega), mergedByte, channel_addr, Nat.mul_add_mod, Nat.mod_eq_of_lt hc,
      Nat.mul_add_div (by decide), Nat.div_eq_of_lt hc, Nat.add_zero]
  exact ⟨hchannel 0 (by decide), hchannel 1 (by decide), hchannel 2 (by decide)⟩

/-! ## The checks -/

/-- The checks of SPLIT and MERGE, met (60_exceptions.md R270). -/
theorem requireImage_met (hdims : validDims s.regs.width s.regs.height = true)
    (hbounds : allInBounds s (imageAndPlanes s) = true) : Answers (requireImage : Eng ρ Unit) s (.ok ((), s)) := by
  simpa only [hdims, hbounds, if_true] using requireImage_answers s

end Sys2Proof.Machine
end

section
/-! The commands SPLIT and MERGE, from the facts above. -/

namespace Sys2Proof.Machine

/-- Settles O53: the checks pass, and the loop fills the three full planes before `done()`. -/
theorem splitCompletes : Obligations.SplitCompletes := by
  intro s hdims hbounds
  obtain ⟨t, hbody, ht⟩ := splitBody_answers (ρ := Unit) hbounds
  have hprogram : Answers (splitProgram : Eng Unit Unit) s (.ok ((), t.complete)) :=
    (requireImage_met hdims hbounds).bind (hbody.bind (Answers.done t))
  exact ⟨t.complete, hprogram.runToEnd, ht.changed.complete, ht.changed.outside, ht.holds⟩

/-- Settles O54: the checks pass, and the loop fills the interleaved image before `done()`. -/
theorem mergeCompletes : Obligations.MergeCompletes := by
  intro s hdims hbounds
  obtain ⟨t, hbody, ht⟩ := mergeBody_answers (ρ := Unit) hbounds
  have hprogram : Answers (mergeProgram : Eng Unit Unit) s (.ok ((), t.complete)) :=
    (requireImage_met hdims hbounds).bind (hbody.bind (Answers.done t))
  exact ⟨t.complete, hprogram.runToEnd, ht.changed.complete, fun a ha => ht.changed.outside a (by simpa using ha), ht.holds⟩

end Sys2Proof.Machine
end

section
/-! SUPPORT. The image commands up to their first record (44_container.md R232, R233, R237, R238): DECODE_IMAGE's header read, and
ENCODE_IMAGE's planes and header written. -/

namespace Sys2Proof.Machine

variable {ρ : Type} {s t u : State}

/-! ## The header -/

/-- The four bytes of a header (44_container.md R232). -/
def headerBytes (s : State) : List Byte :=
  [s.regs.width.extractLsb' 0 8, s.regs.width.extractLsb' 8 8, s.regs.height.extractLsb' 0 8, s.regs.height.extractLsb' 8 8]

/-- `WIDTH` as a header in `MEM` has it (44_container.md R233). -/
def headerWidth (s : State) : Half := s.byte (streamAddr s 1) ++ s.byte (streamAddr s 0)

/-- `HEIGHT` as a header in `MEM` has it (44_container.md R233). -/
def headerHeight (s : State) : Half := s.byte (streamAddr s 3) ++ s.byte (streamAddr s 2)

/-- A header is read, or the stream is shorter than one (44_container.md R233). -/
theorem readHeader_answers (hstream : inBounds s (streamRegion s) = true) :
    Answers (readHeader : Eng ρ Unit) s
      (if 4 ≤ s.regs.streamLen.toNat then .ok ((), (s.setDims (headerWidth s) (headerHeight s)).setStreamPtr 4)
        else .error (.halt (s.errorEntry .unexpectedEndOfInput .header 0))) := by
  refine (Answers.state s).bind (require_decide fun h4 => ?_)
  have hread (k : Nat) (hk : k < 4) :
      Answers (memRead (streamAddr s.view k) : Eng ρ Byte) s (.ok (s.byte (streamAddr s k), s)) :=
    Answers.memRead (lt_memBytes_of_inBounds hstream (show k < s.regs.streamLen.toNat from hk.trans_le h4))
  exact (hread 0 (by decide)).bind ((hread 1 (by decide)).bind ((hread 2 (by decide)).bind ((hread 3 (by decide)).bind
    ((Answers.update (.width (headerWidth s)) s).bind ((Answers.update (.height (headerHeight s)) _).bind
      (Answers.update (.streamPtr 4) _))))))

/-- What DECODE_IMAGE answers, by its checks in order (44_container.md R238; 60_exceptions.md R270). -/
theorem decodeImageProgram_answers (il : Bool) (s : State) :
    Answers (decodeImageProgram il : Eng ρ Unit) s
      (if allInBounds s [streamRegion s] = true then
        if 4 ≤ s.regs.streamLen.toNat then
          let u := (s.setDims (headerWidth s) (headerHeight s)).setStreamPtr 4
          if validDims u.regs.width u.regs.height = true then
            if allInBounds u (codecRegions il u) = true then .ok ((), u.atRecord (blockAt (imageWidth u) 0))
            else .error (.halt (u.errorEntry .ioFailure .header 0))
          else .error (.halt (u.errorEntry .invalidDimensions .header 0))
        else .error (.halt ((s.setStreamPtr 0).errorEntry .unexpectedEndOfInput .header 0))
      else .error (.halt (s.errorEntry .ioFailure .setup 0))) := by
  refine (Answers.state s).bind (require_bind fun hin => (Answers.update (.streamPtr 0) s).bind ?_)
  rw [allInBounds_view, streamRegion_view] at hin
  have hheader := readHeader_answers (ρ := ρ) (s := s.setStreamPtr 0) ((allInBounds_iff _ _).1 hin _ List.mem_cons_self)
  by_cases h4 : 4 ≤ s.regs.streamLen.toNat
  · rw [if_pos h4]
    rw [if_pos (show 4 ≤ (s.setStreamPtr 0).regs.streamLen.toNat from h4)] at hheader
    refine hheader.bind ((Answers.state _).bind (require_bind fun _ => ?_))
    rw [codecRegions_view, allInBounds_view]
    exact require_bind fun _ => Answers.update _ _
  · rw [if_neg h4]
    rw [if_neg (show ¬4 ≤ (s.setStreamPtr 0).regs.streamLen.toNat from h4)] at hheader
    exact hheader.bind_error

end Sys2Proof.Machine
end

section
/-! The header of DECODE_IMAGE, from the facts above. -/

namespace Sys2Proof.Machine

/-- Settles O59: the meaning is the run of the program, whose checks each have their own end. -/
theorem decodeImageReadsTheHeader : Obligations.DecodeImageReadsTheHeader := by
  intro s il
  have hexec : exec (.decodeImage il) s = lastState _ := (decodeImageProgram_answers il s).runToEnd
  rw [hexec]
  refine ⟨fun hout => ?_, fun hin h4 => ?_, fun hin h4 => ?_⟩
  · rw [if_neg (by simp [hout])]
    rfl
  · rw [if_pos hin, if_neg (by omega)]
    rfl
  · rw [if_pos hin, if_pos h4]
    intro w h u
    change lastState (if validDims w h = true then
      if allInBounds u (codecRegions il u) = true then .ok ((), u.atRecord (blockAt w.toNat 0))
      else .error (.halt (u.errorEntry .ioFailure .header 0))
      else .error (.halt (u.errorEntry .invalidDimensions .header 0))) = _
    cases validDims w h with
    | false => rfl
    | true => cases allInBounds u (codecRegions il u) <;> rfl

end Sys2Proof.Machine
end

section
/-! SUPPORT. The planes an image command leaves (44_container.md R237, R238): regions that do not overlap, what a state holds of a
resampled or merged plane when other bytes change, and the planes ENCODE_IMAGE prepares and DECODE_IMAGE finishes. -/

namespace Sys2Proof.Machine

variable {ρ : Type} {s s' t t' u : State} {f h p q : Plane} {il : Bool}

/-! ## Regions that do not overlap -/

/-- The five planes, in the order an image command checks them (44_container.md R237). -/
def codecPlanes : List Plane := [.y, .cbf, .crf, .cbh, .crh]

theorem codecRegions_eq (il : Bool) (s : State) :
    codecRegions il s = codecPlanes.map (planeRegion s) ++ if il then [imageRegion s] else [] := rfl

theorem mem_codecPlanes (p : Plane) : p ∈ codecPlanes := by
  cases p <;> decide

/-- The full planes are no half planes. -/
theorem channelPlane_full (c : Nat) : channelPlane c ≠ .cbh ∧ channelPlane c ≠ .crh := by
  unfold channelPlane
  split <;> decide

theorem planes_disjoint (hd : (codecRegions il s).Pairwise disjoint) (hne : p ≠ q) :
    disjoint (planeRegion s p) (planeRegion s q) := by
  have hsymm : Std.Symm fun p q => disjoint (planeRegion s p) (planeRegion s q) := ⟨fun _ _ => Or.symm⟩
  rw [codecRegions_eq, List.pairwise_append, List.pairwise_map] at hd
  exact hd.1.forall (mem_codecPlanes p) (mem_codecPlanes q) hne

theorem image_disjoint (hd : (codecRegions true s).Pairwise disjoint) (p : Plane) :
    disjoint (imageRegion s) (planeRegion s p) := by
  rw [codecRegions_eq, List.pairwise_append] at hd
  exact Or.symm (hd.2.2 _ (List.mem_map_of_mem (mem_codecPlanes p)) _ List.mem_cons_self)

theorem imageAndPlanes_disjoint (hd : (codecRegions true s).Pairwise disjoint) : (imageAndPlanes s).Pairwise disjoint := by
  simp [imageAndPlanes, image_disjoint hd, planes_disjoint hd]

/-- What an image command with `IL = 1` checks is what SPLIT and MERGE check. -/
theorem imageAndPlanes_inBounds (hin : ∀ r ∈ codecRegions true s, inBounds s r = true) :
    allInBounds s (imageAndPlanes s) = true := by
  obtain ⟨hplane, himage⟩ := codecRegions_inBounds hin
  simp [allInBounds_iff, imageAndPlanes, hplane, himage]

/-! ## Bytes of a region that stay -/

/-- Every byte of a region reads in `t` as in `s`. -/
def SameBytes (r : Region) (s t : State) : Prop := ∀ a, r.holds a = true → t.byte a = s.byte a

theorem ChangedIn.sameBytes {rs : List Region} {r : Region} (h : ChangedIn rs s t) (hd : ∀ q ∈ rs, disjoint r q) :
    SameBytes r s t :=
  fun _ ha => h.byte hd ha

theorem SameBytes.trans {r : Region} (h : SameBytes r s t) (h' : SameBytes r t u) : SameBytes r s u :=
  fun a ha => (h' a ha).trans (h a ha)

theorem holdsSplit_congr (hplane : ∀ c, SameBytes (planeRegion s (channelPlane c)) t t') (ht : holdsSplit s t) :
    holdsSplit s t' := by
  intro x y hx hy
  have hsame (c : Nat) : t'.byte (planeAddr s (channelPlane c) x y) = t.byte (planeAddr s (channelPlane c) x y) :=
    hplane c _ (planeAddr_mem (by rwa [channel_width]) (by rwa [channel_height]))
  obtain ⟨h0, h1, h2⟩ := ht x y hx hy
  exact ⟨(hsame 0).trans h0, (hsame 1).trans h1, (hsame 2).trans h2⟩

theorem holdsMerge_congr (hplaces : SamePlaces s s') (hplane : ∀ c, SameBytes (planeRegion s (channelPlane c)) s s')
    (ht : holdsMerge s t) : holdsMerge s' t := by
  intro x y hx hy
  rw [hplaces.width] at hx
  rw [hplaces.height] at hy
  have hsame (c : Nat) : s.byte (planeAddr s (channelPlane c) x y) = s'.byte (planeAddr s' (channelPlane c) x y) := by
    rw [hplaces.planeAddr]
    exact (hplane c _ (planeAddr_mem (by rwa [channel_width]) (by rwa [channel_height]))).symm
  obtain ⟨h0, h1, h2⟩ := ht x y hx hy
  simp only [hplaces.imageAddr]
  exact ⟨h0.trans (hsame 0), h1.trans (hsame 1), h2.trans (hsame 2)⟩

theorem holdsDownsample_congr (hfull : ∀ d, planeDim d f = d) (hhalf : ∀ d, planeDim d h = d / 2) (hplaces : SamePlaces s s')
    (hf : SameBytes (planeRegion s f) s s') (hh : SameBytes (planeRegion s h) t t') (ht : holdsDownsample f h s t) :
    holdsDownsample f h s' t' := by
  intro x y hx hy
  rw [hplaces.planeWidth] at hx
  rw [hplaces.planeHeight] at hy
  have hcovered (dx dy : Nat) (hdx : dx < 2) (hdy : dy < 2) : s'.byte (planeAddr s' f (2 * x + dx) (2 * y + dy)) =
      s.byte (planeAddr s f (2 * x + dx) (2 * y + dy)) := by
    rw [hplaces.planeAddr]
    rw [planeWidth, hhalf] at hx
    rw [planeHeight, hhalf] at hy
    exact hf _ (planeAddr_mem (by rw [planeWidth, hfull]; omega) (by rw [planeHeight, hfull]; omega))
  dsimp only
  rw [hcovered 0 0 (by decide) (by decide), hcovered 1 0 (by decide) (by decide), hcovered 0 1 (by decide) (by decide),
    hcovered 1 1 (by decide) (by decide), hplaces.planeAddr, hh _ (planeAddr_mem hx hy)]
  exact ht x y hx hy

theorem holdsUpsample_congr (hfull : ∀ d, planeDim d f = d) (hhalf : ∀ d, planeDim d h = d / 2)
    (hdims : validDims s.regs.width s.regs.height = true) (hplaces : SamePlaces s s')
    (hh : SameBytes (planeRegion s h) s s') (hf : SameBytes (planeRegion s f) t t') (ht : holdsUpsample f h s t) :
    holdsUpsample f h s' t' := by
  intro x y hx hy
  rw [hplaces.planeWidth] at hx
  rw [hplaces.planeHeight] at hy
  obtain ⟨_, _, hw16, hh16⟩ := (validDims_iff _ _).1 hdims
  have hsame (i j : Nat) (hi : i < s.regs.width.toNat / 2) (hj : j < s.regs.height.toNat / 2) :
      s'.byte (planeAddr s' h i j) = s.byte (planeAddr s h i j) := by
    rw [hplaces.planeAddr]
    exact hh _ (planeAddr_mem (by rwa [planeWidth, hhalf]) (by rwa [planeHeight, hhalf]))
  have hx' : x < s.regs.width.toNat := by rwa [planeWidth, hfull] at hx
  have hy' : y < s.regs.height.toNat := by rwa [planeHeight, hfull] at hy
  have hi0 : x / 2 < s.regs.width.toNat / 2 := by omega
  have hj0 : y / 2 < s.regs.height.toNat / 2 := by omega
  have hi1 : min (x / 2 + 1) (s.regs.width.toNat / 2 - 1) < s.regs.width.toNat / 2 := by omega
  have hj1 : min (y / 2 + 1) (s.regs.height.toNat / 2 - 1) < s.regs.height.toNat / 2 := by omega
  dsimp only
  rw [hplaces.width, hplaces.height, hsame _ _ hi0 hj0, hsame _ _ hi1 hj0, hsame _ _ hi0 hj1, hsame _ _ hi1 hj1,
    hplaces.planeAddr, hf _ (planeAddr_mem hx hy)]
  exact ht x y hx hy

/-! ## ENCODE_IMAGE before its header -/

/-- `if IL == 1: splitBody()` (44_container.md R237). -/
def splitPart (il : Bool) : Eng ρ Unit := if il then splitBody else pure ()

/-- The part of ENCODE_IMAGE between its checks and its header (44_container.md R237). -/
def preparePlanes (il : Bool) : Eng ρ Unit := do
  splitPart il
  downsampleBody .cbf .cbh
  downsampleBody .crf .crh

/-- `t` is what ENCODE_IMAGE leaves of `s` before its header. -/
structure Prepared (il : Bool) (s t : State) : Prop where
  changed : ChangedIn (encodedPlanes il s) s t
  planes : (codecRegions il s).Pairwise disjoint → planesPrepared il s t

theorem splitPart_answers (hin : ∀ r ∈ codecRegions il s, inBounds s r = true) :
    ∃ t, Answers (splitPart il : Eng ρ Unit) s (.ok ((), t)) ∧ ChangedIn (encodedPlanes il s) s t ∧
      ((codecRegions il s).Pairwise disjoint → il = true → holdsSplit s t) := by
  cases il with
  | false => exact ⟨s, Answers.pure () s, ChangedIn.refl _ s, nofun⟩
  | true =>
    obtain ⟨t, ho, ht⟩ := splitBody_answers (ρ := ρ) (imageAndPlanes_inBounds hin)
    exact ⟨t, ho, ht.changed.mono (List.subset_append_right _ _), fun hd _ => ht.holds (imageAndPlanes_disjoint hd)⟩

theorem preparePlanes_answers (hin : ∀ r ∈ codecRegions il s, inBounds s r = true) :
    ∃ t, Answers (preparePlanes il : Eng ρ Unit) s (.ok ((), t)) ∧ Prepared il s t := by
  have hplane := (codecRegions_inBounds hin).1
  obtain ⟨u, hou, hu, hsplit⟩ := splitPart_answers (ρ := ρ) hin
  have hplane_u (p : Plane) : inBounds u (planeRegion u p) = true := by
    rw [hu.samePlaces.inBounds, hu.samePlaces.planeRegion, hplane]
  obtain ⟨v, hov, hv⟩ := downsampleBody_filled (ρ := ρ) (f := .cbf) (h := .cbh) (fun _ => rfl) (fun _ => rfl) (hplane_u _)
    (hplane_u _)
  have hv_places := hu.samePlaces.trans hv.changedIn.samePlaces
  have hplane_v (p : Plane) : inBounds v (planeRegion v p) = true := by
    rw [hv_places.inBounds, hv_places.planeRegion, hplane]
  obtain ⟨w, how, hw⟩ := downsampleBody_filled (ρ := ρ) (f := .crf) (h := .crh) (fun _ => rfl) (fun _ => rfl) (hplane_v _)
    (hplane_v _)
  have huv : ChangedIn [planeRegion s .cbh] u v := by
    rw [← hu.samePlaces.planeRegion]
    exact hv.changedIn
  have hvw : ChangedIn [planeRegion s .crh] v w := by
    rw [← hv_places.planeRegion]
    exact hw.changedIn
  refine ⟨w, hou.bind (hov.bind how), hu.trans ((huv.mono (by simp [encodedPlanes])).trans (hvw.mono (by simp [encodedPlanes]))), fun hd => ?_⟩
  have hsame_v (p : Plane) (hp : p ≠ .cbh) : SameBytes (planeRegion s p) u v :=
    huv.sameBytes (List.forall_mem_singleton.2 (planes_disjoint hd hp))
  have hsame_w (p : Plane) (hp : p ≠ .crh) : SameBytes (planeRegion s p) v w :=
    hvw.sameBytes (List.forall_mem_singleton.2 (planes_disjoint hd hp))
  refine ⟨fun hil => holdsSplit_congr (fun c => ?_) (hsplit hd hil), ?_, ?_⟩
  · exact (hsame_v _ (channelPlane_full c).1).trans (hsame_w _ (channelPlane_full c).2)
  · refine holdsDownsample_congr (fun _ => rfl) (fun _ => rfl) (hv.changedIn.samePlaces.trans hw.changedIn.samePlaces) ?_ ?_
      (hv.holds ?_) <;> simp only [hu.samePlaces.planeRegion]
    · exact (hsame_v _ (by decide)).trans (hsame_w _ (by decide))
    · exact hsame_w _ (by decide)
    · exact planes_disjoint hd (by decide)
  · refine holdsDownsample_congr (fun _ => rfl) (fun _ => rfl) hw.changedIn.samePlaces ?_ (fun _ _ => rfl) (hw.holds ?_) <;>
      simp only [hv_places.planeRegion]
    · exact hsame_w _ (by decide)
    · exact planes_disjoint hd (by decide)

end Sys2Proof.Machine
end

section
/-! SUPPORT. The stream of ENCODE_IMAGE (44_container.md R231, R232, R237): the header and the records as one list of bytes, and the
states of the command after each of its records. -/

namespace Sys2Proof.Machine

variable {ρ : Type} {s t p : State} {forced : Option BlockMode} {fmode : BitVec 3} {m n : Nat}

/-! ## One record -/

/-- The classification of a block as `MEM` holds it (41_classifier.md R144). -/
def blockCls (s : State) (b : Block) : Cls := classifyBlock (blockSamples s b)

/-- The record of a block as `MEM` holds it (42_block_codec.md R166). -/
def recordOf (forced : Option BlockMode) (s : State) (b : Block) : List Byte :=
  encodeRecord (blockSamples s b) (forced.getD (blockCls s b).mode) (blockCls s b).min (blockCls s b).max

/-- The mode each `FMODE` leads to, the classifier's under `AUTO` (30_encoding.md R93, 42_block_codec.md R166). -/
def ForcedBy (fmode : BitVec 3) (forced : Option BlockMode) : Prop :=
  ∀ m, forced.getD m = if fmode = 0 then m else [BlockMode.solid, .half2, .full2, .full4].getD (fmode.toNat - 1) .solid

/-- The length of the longest record a mode can give (30_encoding.md R102). -/
def longestRecord (fmode : BitVec 3) : Nat := if fmode = 0 then 18 else 34

theorem two_le_recordOf (forced : Option BlockMode) (s : State) (b : Block) : 2 ≤ (recordOf forced s b).length := by
  rw [recordOf, encodeRecord_length]
  split <;> decide

/-- The classifier never gives `FULL4`, the mode of the longest record (41_classifier.md R144). -/
theorem recordOf_length_le (hforced : ForcedBy fmode forced) (s : State) (b : Block) :
    (recordOf forced s b).length ≤ longestRecord fmode := by
  rw [recordOf, encodeRecord_length, hforced, longestRecord]
  by_cases hauto : fmode = 0
  · rw [if_pos hauto, if_pos hauto]
    have hmode := decideMode_ne_full4 (minSample (blockSamples s b)) (maxSample (blockSamples s b))
      (grad2 gradWindow (blockSamples s b))
    rw [blockCls, classifyBlock, classifyWith]
    generalize decideMode _ _ _ = m at hmode
    cases m with
    | full4 => exact absurd rfl hmode
    | _ => simp
  · rw [if_neg hauto, if_neg hauto]
    split <;> decide

/-- A block's samples where its plane's bytes stay. -/
theorem blockSamples_congr {b : Block} (hplaces : SamePlaces s t) (hplane : SameBytes (planeRegion s b.plane) s t)
    (hb : BlockInside s b) : blockSamples t b = blockSamples s b := by
  obtain ⟨hx, hy⟩ := hb
  refine List.map_congr_left fun i hi => ?_
  have hi := List.mem_range.1 hi
  rw [hplaces.blockAddr]
  exact hplane _ (planeAddr_mem (by omega) (by omega))

/-! ## Records one after the other -/

/-- A header and the first `n` records behind it (44_container.md R231, R232). -/
def streamBytes (header : List Byte) (record : Nat → List Byte) (n : Nat) : List Byte :=
  header ++ (List.range n).flatMap record

section
variable {header : List Byte} {record record' : Nat → List Byte}

theorem streamBytes_succ (header : List Byte) (record : Nat → List Byte) (n : Nat) :
    streamBytes header record (n + 1) = streamBytes header record n ++ record n := by
  simp [streamBytes, List.range_succ]

theorem streamBytes_congr (h : ∀ i < n, record i = record' i) : streamBytes header record n = streamBytes header record' n :=
  congrArg (header ++ ·) (List.flatMap_congr fun i hi => h i (List.mem_range.1 hi))

theorem streamBytes_length_mono (header : List Byte) (record : Nat → List Byte) :
    Monotone fun n => (streamBytes header record n).length :=
  monotone_nat_of_le_succ fun n => by simp [streamBytes_succ]

theorem streamBytes_length_bounds {least most : Nat} (hrecord : ∀ i, least ≤ (record i).length ∧ (record i).length ≤ most)
    (n : Nat) : header.length + least * n ≤ (streamBytes header record n).length ∧
      (streamBytes header record n).length ≤ header.length + most * n := by
  induction n with
  | zero => simp [streamBytes]
  | succ n ih =>
    have := hrecord n
    rw [streamBytes_succ, List.length_append, Nat.mul_succ, Nat.mul_succ]
    omega

/-- The header stands before every record. -/
theorem streamBytes_getD {k : Nat} (hk : k < header.length) (n : Nat) (d : Byte) :
    (streamBytes header record n).getD k d = header.getD k d := by
  rw [streamBytes, List.getD_append _ _ _ _ hk]

end

theorem memInsertAll_append (m : List Host.Cell) (a : Nat) (l l' : List Byte) :
    memInsertAll m a (l ++ l') = memInsertAll (memInsertAll m a l) (a + l.length) l' := by
  induction l generalizing m a with
  | nil => rfl
  | cons v rest ih => simp only [List.cons_append, memInsertAll, ih, List.length_cons, Nat.add_assoc, Nat.add_comm 1]

/-! ## The states after each record -/

/-- The planes `p` with the header behind them (44_container.md R232). -/
def headed (p : State) : State :=
  { p.setStreamPtr 4 with mem := memInsertAll p.mem (streamAddr p 0) (headerBytes p) }

/-- The state of ENCODE_IMAGE after its first `n` records, from the planes `p` on, while there is room (44_container.md R237). -/
def encodedTo (forced : Option BlockMode) (p : State) : Nat → State
  | 0 => headed p
  | n + 1 =>
    let t := encodedTo forced p n
    t.appended (blockCls t (blockAt (imageWidth p) n)) (recordOf forced t (blockAt (imageWidth p) n)) n

/-- Record `n`, of the samples block `n` holds once the records before it are written. -/
def encodedRecord (forced : Option BlockMode) (p : State) (n : Nat) : List Byte :=
  recordOf forced (encodedTo forced p n) (blockAt (imageWidth p) n)

/-- The stream up to record `n`. -/
def encodedStream (forced : Option BlockMode) (p : State) (n : Nat) : List Byte :=
  streamBytes (headerBytes p) (encodedRecord forced p) n

/-- The stream has room up to record `n`. -/
abbrev Fits (forced : Option BlockMode) (p : State) (n : Nat) : Prop :=
  (encodedStream forced p n).length ≤ p.regs.streamLen.toNat

/-- The state ENCODE_IMAGE ends in at a record that does not fit (42_block_codec.md R166, R240). -/
def stoppedAt (forced : Option BlockMode) (p : State) (n : Nat) : State :=
  ((encodedTo forced p n).setCls (blockCls (encodedTo forced p n) (blockAt (imageWidth p) n))).errorEntry .ioFailure .block n

theorem encodedStream_succ (forced : Option BlockMode) (p : State) (n : Nat) :
    encodedStream forced p (n + 1) = encodedStream forced p n ++ encodedRecord forced p n := streamBytes_succ _ _ _

theorem Fits.of_le (h : Fits forced p n) (hmn : m ≤ n) : Fits forced p m :=
  (streamBytes_length_mono (headerBytes p) (encodedRecord forced p) hmn).trans h

/-- Nothing but `MEM` and the progress registers changes. -/
theorem encodedTo_eq (forced : Option BlockMode) (p : State) (n : Nat) : encodedTo forced p n =
    { p.withProgress (encodedTo forced p n) with mem := (encodedTo forced p n).mem } := by
  induction n with
  | zero => rfl
  | succ n ih =>
    have happended (u : State) (hu : u = { p.withProgress u with mem := u.mem }) (c : Cls) (record : List Byte) (k : Nat) :
        u.appended c record k = { p.withProgress (u.appended c record k) with mem := (u.appended c record k).mem } := by
      rw [hu]
      rfl
    exact happended _ ih _ _ _

theorem encodedTo_samePlaces (forced : Option BlockMode) (p : State) (n : Nat) : SamePlaces p (encodedTo forced p n) := by
  rw [encodedTo_eq]
  exact ⟨rfl, rfl⟩

/-- While there is room, `STREAM_PTR` is the stream's length, and the stream stands in `MEM`. -/
theorem encodedTo_stream (h : Fits forced p n) :
    (encodedTo forced p n).regs.streamPtr.toNat = (encodedStream forced p n).length ∧
      (encodedTo forced p n).mem = memInsertAll p.mem (streamAddr p 0) (encodedStream forced p n) := by
  induction n with
  | zero => exact ⟨rfl, by simp [encodedTo, headed, encodedStream, streamBytes]⟩
  | succ n ih =>
    obtain ⟨hptr, hmem⟩ := ih (h.of_le (Nat.le_succ n))
    have hplaces := encodedTo_samePlaces forced p n
    have hlt : (encodedStream forced p (n + 1)).length < 2 ^ 32 := h.trans_lt p.regs.streamLen.isLt
    rw [encodedStream_succ, List.length_append] at hlt
    rw [encodedStream_succ, memInsertAll_append, List.length_append]
    constructor
    · change (BitVec.ofNat 32 (_ + (encodedRecord forced p n).length)).toNat = _
      rw [hptr, BitVec.toNat_ofNat, Nat.mod_eq_of_lt hlt]
    · change memInsertAll (encodedTo forced p n).mem (streamAddr _ _) (encodedRecord forced p n) = _
      rw [hptr, hmem, hplaces.streamAddr]
      rfl

theorem encodedTo_blkCount (hn : n ≠ 0) : (encodedTo forced p n).regs.blkCount = BitVec.ofNat 32 n := by
  obtain ⟨n, rfl⟩ := Nat.exists_eq_succ_of_ne_zero hn
  rfl

theorem encodedTo_cls (hn : n ≠ 0) : (encodedTo forced p n).regs.cls =
    blockCls (encodedTo forced p (n - 1)) (blockAt (imageWidth p) (n - 1)) := by
  obtain ⟨n, rfl⟩ := Nat.exists_eq_succ_of_ne_zero hn
  rfl

theorem encodedTo_status (forced : Option BlockMode) (p : State) (n : Nat) : (encodedTo forced p n).status = p.status := by
  rw [encodedTo_eq]
  rfl

/-! ## The loop -/

/-- One block of the traversal: its record is appended where it fits. -/
theorem encodeStep_encodedTo (hstream : inBounds p (streamRegion p) = true) (hblock : blockFits p (blockAt (imageWidth p) n))
    (h : Fits forced p n) :
    Answers (encodeStep forced (blockAt (imageWidth p) n) : Eng ρ Unit) (encodedTo forced p n)
      (if Fits forced p (n + 1) then .ok ((), encodedTo forced p (n + 1)) else .error (.halt (stoppedAt forced p n))) := by
  have hplaces := encodedTo_samePlaces forced p n
  have hstep := encodeStep_answers (ρ := ρ) forced (hplaces.blockFits hblock)
    (by rwa [hplaces.inBounds, hplaces.streamRegion]) rfl rfl
  rw [(encodedTo_stream h).1, hplaces.streamLen, blockAt_index] at hstep
  have hfits : Fits forced p (n + 1) ↔
      (encodedStream forced p n).length + (encodedRecord forced p n).length ≤ p.regs.streamLen.toNat := by
    rw [Fits, encodedStream_succ, List.length_append]
  simp only [hfits]
  exact hstep

section
variable {total : Nat} (hstream : inBounds p (streamRegion p) = true)
  (hblocks : ∀ n < total, blockFits p (blockAt (imageWidth p) n))
include hstream hblocks

/-- The loop from block `k` on, while there is room. -/
theorem encodeLoop_fits {k : Nat} (hk : k + n ≤ total) (h : Fits forced p (k + n)) :
    Answers (forFrom k n fun i => encodeStep forced (blockAt (imageWidth p) i) : Eng ρ Unit) (encodedTo forced p k)
      (.ok ((), encodedTo forced p (k + n))) := by
  induction n generalizing k with
  | zero => exact Answers.pure () _
  | succ n ih =>
    have hstep := encodeStep_encodedTo (ρ := ρ) hstream (hblocks k (by omega)) (h.of_le (Nat.le_add_right k _))
    rw [if_pos (h.of_le (by omega))] at hstep
    have hrest := ih (k := k + 1) (by omega) (by rwa [Nat.succ_add_eq_add_succ])
    rw [Nat.succ_add_eq_add_succ] at hrest
    exact hstep.bind hrest

/-- The loop up to the first block whose record does not fit. -/
theorem encodeLoop_stops (hn : n < total) (h : Fits forced p n) (hno : ¬Fits forced p (n + 1)) :
    Answers (forN total fun i => encodeStep forced (blockAt (imageWidth p) i) : Eng ρ Unit) (encodedTo forced p 0)
      (.error (.halt (stoppedAt forced p n))) := by
  have hstep := encodeStep_encodedTo (ρ := ρ) hstream (hblocks n hn) h
  rw [if_neg hno] at hstep
  obtain ⟨rest, rfl⟩ := Nat.exists_eq_add_of_lt hn
  rw [forN, Nat.add_assoc, forFrom_append]
  have hbefore := encodeLoop_fits (ρ := ρ) (k := 0) (n := n) hstream hblocks (by omega) (by rwa [Nat.zero_add])
  rw [Nat.zero_add] at hbefore ⊢
  exact hbefore.bind hstep.bind_error

end

/-- Either all records fit, or there is a first that does not. -/
theorem fits_all_or_first (h : Fits forced p 0) (total : Nat) :
    Fits forced p total ∨ ∃ n < total, Fits forced p n ∧ ¬Fits forced p (n + 1) := by
  induction total with
  | zero => exact .inl h
  | succ k ih =>
    rcases ih with hk | ⟨n, hn, hfits⟩
    · by_cases hnext : Fits forced p (k + 1)
      · exact .inl hnext
      · exact .inr ⟨k, Nat.lt_succ_self k, hk, hnext⟩
    · exact .inr ⟨n, Nat.lt_succ_of_lt hn, hfits⟩

end Sys2Proof.Machine
end

section
/-! SUPPORT. ENCODE_IMAGE as a whole (44_container.md R237): the two ways it ends once its checks are met, and what `MEM` holds
then. -/

namespace Sys2Proof.Machine

variable {ρ : Type} {s t p : State} {forced : Option BlockMode} {fmode : BitVec 3} {il : Bool} {m n total : Nat}

/-! ## The program -/

theorem samePlaces_setStreamPtr (s : State) (n : Nat) : SamePlaces s (s.setStreamPtr n) := ⟨rfl, rfl⟩

theorem encodeImageProgram_eq (hforced : forcedMode fmode = some forced) : (encodeImageProgram fmode il : Eng ρ Unit) = (do
    let s ← state
    require (validDims s.regs.width s.regs.height) .invalidDimensions .setup 0
    require (allInBounds s (streamRegion s :: codecRegions il s)) .ioFailure .setup 0
    update (.streamPtr 0)
    preparePlanes il
    writeHeader
    forN (blockTotal (imageWidth s) (imageHeight s)) fun n => encodeStep forced (blockAt (imageWidth s) n)
    done) := by
  unfold encodeImageProgram
  rw [hforced]
  cases il <;> rfl

theorem writeHeader_answers (hstream : inBounds p (streamRegion p) = true) (h4 : 4 ≤ p.regs.streamLen.toNat) :
    Answers (writeHeader : Eng ρ Unit) p (.ok ((), headed p)) := by
  refine (Answers.state p).bind ?_
  rw [view_regs, decide_eq_true h4]
  have hroom : streamAddr p 0 + (headerBytes p).length ≤ p.platform.memBytes := streamAddr_le hstream (by simp [headerBytes]) h4
  exact (Answers.pure () p).bind ((writeBytes_answers hroom).bind (Answers.update (.streamPtr 4) _))

/-- How ENCODE_IMAGE ends from the planes `p` on: with all its records, or at the first that does not fit (44_container.md
R237). -/
def EncodeEnds (forced : Option BlockMode) (p : State) (total : Nat) (t : State) : Prop :=
  (Fits forced p total ∧ t = (encodedTo forced p total).complete) ∨
    ∃ n < total, (Fits forced p n ∧ ¬Fits forced p (n + 1)) ∧ t = stoppedAt forced p n

/-- With its checks met and room for the header, ENCODE_IMAGE prepares its planes and comes to one of its two ends. -/
theorem exec_encodeImage (hforced : forcedMode fmode = some forced) (hdims : validDims s.regs.width s.regs.height = true)
    (hbounds : allInBounds s (streamRegion s :: codecRegions il s) = true) (h4 : 4 ≤ s.regs.streamLen.toNat) :
    ∃ p t, exec (.encodeImage fmode il) s = .next t ∧ Prepared il (s.setStreamPtr 0) p ∧
      EncodeEnds forced p (blockTotal (imageWidth s) (imageHeight s)) t := by
  have hin := (allInBounds_iff _ _).1 hbounds
  obtain ⟨p, hplanes, hp⟩ := preparePlanes_answers (ρ := Unit) (s := s.setStreamPtr 0) (il := il)
    fun r hr => hin r (List.mem_cons_of_mem _ (by cases il <;> exact hr))
  have hplaces : SamePlaces s p := (samePlaces_setStreamPtr s 0).trans hp.changed.samePlaces
  have hstream : inBounds p (streamRegion p) = true := by
    rw [hplaces.inBounds, hplaces.streamRegion]
    exact hin _ List.mem_cons_self
  have hwidth : imageWidth p = imageWidth s := congrArg BitVec.toNat hplaces.width
  have hblocks (n : Nat) (hn : n < blockTotal (imageWidth s) (imageHeight s)) : blockFits p (blockAt (imageWidth p) n) := by
    have hinside := traversal_inside hdims hn
    rw [hwidth]
    exact hplaces.blockFits ⟨hinside.1, fun _ _ =>
      blockAddr_lt hinside (hin _ (List.mem_cons_of_mem _ (blockAt_plane_mem il s n)))⟩
  have hexec {o : Except Stop (Unit × State)}
      (hloop : Answers (forN (blockTotal (imageWidth s) (imageHeight s)) (fun n => encodeStep forced (blockAt (imageWidth p) n))
        >>= fun _ => done : Eng Unit Unit) (encodedTo forced p 0) o) :
      exec (.encodeImage fmode il) s = lastState o := by
    refine Answers.runToEnd (p := encodeImageProgram fmode il) ?_
    rw [encodeImageProgram_eq hforced]
    refine (Answers.state s).bind ?_
    rw [view_regs, hdims, allInBounds_view, streamRegion_view, codecRegions_view, hbounds]
    rw [hwidth] at hloop
    exact (Answers.pure () s).bind ((Answers.pure () s).bind ((Answers.update (.streamPtr 0) s).bind (hplanes.bind
      ((writeHeader_answers hstream (by rwa [hplaces.streamLen])).bind hloop))))
  rcases fits_all_or_first (forced := forced) (p := p) (by rw [Fits, hplaces.streamLen]; exact h4)
    (blockTotal (imageWidth s) (imageHeight s)) with hall | ⟨n, hn, hfits, hno⟩
  · have hloop := encodeLoop_fits (ρ := Unit) (k := 0) (n := blockTotal (imageWidth s) (imageHeight s)) hstream hblocks
      (by omega) (by rwa [Nat.zero_add])
    rw [Nat.zero_add] at hloop
    exact ⟨p, _, hexec (hloop.bind (Answers.done _)), hp, .inl ⟨hall, rfl⟩⟩
  · exact ⟨p, _, hexec (encodeLoop_stops hstream hblocks hn hfits hno).bind_error, hp, .inr ⟨n, hn, ⟨hfits, hno⟩, rfl⟩⟩

/-! ## What the ends hold -/

/-- `t` shows the first `n` records, from the planes `p`. -/
structure ShowsRecords (forced : Option BlockMode) (p : State) (n : Nat) (t : State) : Prop where
  fits : Fits forced p n
  places : SamePlaces p t
  mem : t.mem = memInsertAll p.mem (streamAddr p 0) (encodedStream forced p n)
  ptr : t.regs.streamPtr.toNat = (encodedStream forced p n).length
  blkCount : t.regs.blkCount = if n = 0 then p.regs.blkCount else BitVec.ofNat 32 n

theorem encodedTo_showsRecords (h : Fits forced p n) : ShowsRecords forced p n (encodedTo forced p n) := by
  obtain ⟨hptr, hmem⟩ := encodedTo_stream h
  refine ⟨h, encodedTo_samePlaces forced p n, hmem, hptr, ?_⟩
  split
  · next h0 => rw [h0]; rfl
  · next h0 => exact encodedTo_blkCount h0

namespace ShowsRecords

theorem complete (h : ShowsRecords forced p n t) : ShowsRecords forced p n t.complete :=
  ⟨h.fits, h.places.trans ⟨rfl, rfl⟩, h.mem, h.ptr, h.blkCount⟩

theorem stopped (h : ShowsRecords forced p n t) (c : Cls) (code : ErrCode) (stage : ErrStage) (index : Nat) :
    ShowsRecords forced p n ((t.setCls c).errorEntry code stage index) :=
  ⟨h.fits, h.places.trans ⟨rfl, rfl⟩, h.mem, h.ptr, h.blkCount⟩

/-- Every byte, as the stream has it or as it was. -/
theorem byte (h : ShowsRecords forced p n t) (a : Nat) : t.byte a =
    if streamAddr p 0 ≤ a ∧ a < streamAddr p 0 + (encodedStream forced p n).length then
      (encodedStream forced p n).getD (a - streamAddr p 0) 0 else p.byte a := by
  rw [State.byte, h.mem, memByte_memInsertAll]
  rfl

/-- A byte of the stream. -/
theorem stream_byte (h : ShowsRecords forced p n t) {k : Nat} (hk : k < (encodedStream forced p n).length) :
    t.byte (streamAddr p k) = (encodedStream forced p n).getD k 0 := by
  rw [h.byte, if_pos (by unfold streamAddr; omega)]
  congr 1
  unfold streamAddr
  omega

/-- A byte behind the stream. -/
theorem byte_behind (h : ShowsRecords forced p n t) {k : Nat} (hk : (encodedStream forced p n).length ≤ k) :
    t.byte (streamAddr p k) = p.byte (streamAddr p k) := by
  rw [h.byte, if_neg (by unfold streamAddr; omega)]

theorem outside (h : ShowsRecords forced p n t) : sameOutsideAll [streamRegion p] p t := by
  intro a ha
  have hfits := h.fits
  rw [h.byte, if_neg]
  rintro ⟨hfirst, hlast⟩
  refine List.any_eq_false.1 ha _ List.mem_cons_self ((holds_iff _ a).2 ?_)
  simp only [streamRegion, streamAddr] at hfirst hlast ⊢
  unfold Fits at hfits
  omega

theorem sameBytes (h : ShowsRecords forced p n t) {r : Region} (hd : disjoint (streamRegion p) r) : SameBytes r p t :=
  fun _ ha => sameOutsideAll_byte h.outside (List.forall_mem_singleton.2 hd.symm) ha

end ShowsRecords

/-- The stream overlaps no plane that is encoded. -/
def StreamApart (s : State) : Prop := ∀ p : Plane, p = .y ∨ p = .cbh ∨ p = .crh → disjoint (streamRegion s) (planeRegion s p)

theorem StreamApart.block (h : StreamApart s) (w n : Nat) :
    disjoint (streamRegion s) (planeRegion s (blockAt w n).plane) := by
  refine h _ ?_
  rw [blockAt_plane]
  split_ifs <;> simp

/-- The header and the first `n` records of the blocks as `t` holds them at the end (44_container.md R231). -/
def heldStream (forced : Option BlockMode) (t : State) (n : Nat) : List Byte :=
  streamBytes (headerBytes t) (fun i => recordOf forced t (blockAt (imageWidth t) i)) n

section
variable (hapart : StreamApart p) (hblocks : ∀ i < total, BlockInside p (blockAt (imageWidth p) i))
include hapart hblocks

/-- Where the stream overlaps no encoded plane, a block holds the same samples after whatever number of records. -/
theorem ShowsRecords.blockSamples_eq {u : State} {i : Nat} (ht : ShowsRecords forced p n t) (hu : ShowsRecords forced p m u)
    (hi : i < total) : blockSamples u (blockAt (imageWidth p) i) = blockSamples t (blockAt (imageWidth p) i) := by
  have hsame {k : Nat} {v : State} (hv : ShowsRecords forced p k v) :=
    blockSamples_congr hv.places (hv.sameBytes (hapart.block _ _)) (hblocks i hi)
  rw [hsame hu, hsame ht]

/-- The classification of a block is the one of the samples it holds at the end. -/
theorem ShowsRecords.blockCls_eq (ht : ShowsRecords forced p n t) (hfits : Fits forced p m) (hm : m < total) :
    blockCls (encodedTo forced p m) (blockAt (imageWidth p) m) = blockCls t (blockAt (imageWidth p) m) :=
  congrArg classifyBlock (ht.blockSamples_eq hapart hblocks (encodedTo_showsRecords hfits) hm)

/-- Each record is the one of the samples its block holds at the end. -/
theorem ShowsRecords.encodedStream_eq (ht : ShowsRecords forced p n t) (hm : m ≤ n + 1) (htotal : m ≤ total) :
    encodedStream forced p m = heldStream forced t m := by
  have hwidth : imageWidth t = imageWidth p := congrArg BitVec.toNat ht.places.width
  have hheader : headerBytes t = headerBytes p := by rw [headerBytes, ht.places.width, ht.places.height]; rfl
  rw [heldStream, hheader, hwidth]
  refine streamBytes_congr fun i hi => ?_
  have hthen := encodedTo_showsRecords (ht.fits.of_le (m := i) (by omega))
  simp only [encodedRecord, recordOf, blockCls, ht.blockSamples_eq hapart hblocks hthen (hi.trans_le htotal)]

/-- Which of its ends the command comes to, by the stream of the samples held at the end. -/
theorem EncodeEnds.by_heldStream (h : EncodeEnds forced p total t) :
    ((heldStream forced t total).length ≤ p.regs.streamLen.toNat →
      Fits forced p total ∧ t = (encodedTo forced p total).complete) ∧
    ∀ n < total, (heldStream forced t n).length ≤ p.regs.streamLen.toNat →
      p.regs.streamLen.toNat < (heldStream forced t (n + 1)).length → Fits forced p n ∧ t = stoppedAt forced p n := by
  have hmono {m n : Nat} (hmn : m ≤ n) : (heldStream forced t m).length ≤ (heldStream forced t n).length :=
    streamBytes_length_mono _ _ hmn
  rcases h with ⟨hall, rfl⟩ | ⟨m, hm, ⟨hfits, hno⟩, rfl⟩
  · refine ⟨fun _ => ⟨hall, rfl⟩, fun n hn _ hlast => absurd (hall.of_le hn) ?_⟩
    rw [Fits, (encodedTo_showsRecords hall).complete.encodedStream_eq hapart hblocks (by omega) hn]
    exact Nat.not_le.2 hlast
  · have hshows : ShowsRecords forced p m (stoppedAt forced p m) := (encodedTo_showsRecords hfits).stopped _ _ _ _
    have heq {k : Nat} (hk : k ≤ m + 1) := hshows.encodedStream_eq hapart hblocks hk (hk.trans hm)
    rw [Fits, heq le_rfl] at hno
    refine ⟨fun hroom => absurd ((hmono hm).trans hroom) hno, fun n hn hroom hlast => ?_⟩
    rcases Nat.lt_trichotomy n m with hlt | rfl | hgt
    · have hnext := hfits.of_le hlt
      rw [Fits, heq (by omega)] at hnext
      exact absurd hnext (Nat.not_le.2 hlast)
    · exact ⟨hfits, rfl⟩
    · exact absurd ((hmono hgt).trans hroom) hno

end

end Sys2Proof.Machine
end

section
/-! SUPPORT. ENCODE_IMAGE's end in the terms of its statements: which cells it changed, the planes it leaves, and the bounds of its
stream (30_encoding.md R102, 44_container.md R237). -/

namespace Sys2Proof.Machine

variable {s t p : State} {forced : Option BlockMode} {fmode : BitVec 3} {il : Bool} {n total : Nat}

theorem Prepared.samePlaces (hp : Prepared il (s.setStreamPtr 0) p) : SamePlaces s p :=
  (samePlaces_setStreamPtr s 0).trans hp.changed.samePlaces

theorem Prepared.status (hp : Prepared il (s.setStreamPtr 0) p) : p.status = s.status := by
  rw [hp.changed.memOnly]
  rfl

theorem Prepared.blkCount (hp : Prepared il (s.setStreamPtr 0) p) : p.regs.blkCount = s.regs.blkCount := by
  rw [hp.changed.memOnly]
  rfl

theorem encodedPlanes_setStreamPtr (il : Bool) (s : State) (k : Nat) :
    encodedPlanes il (s.setStreamPtr k) = encodedPlanes il s := by
  cases il <;> rfl

theorem Prepared.outside (hp : Prepared il (s.setStreamPtr 0) p) : sameOutsideAll (encodedPlanes il s) s p := by
  have h := hp.changed.outside
  rwa [encodedPlanes_setStreamPtr] at h

theorem encodedPlanes_subset (il : Bool) (s : State) : encodedPlanes il s ⊆ codecPlanes.map (planeRegion s) := by
  cases il <;> simp [encodedPlanes, codecPlanes]

/-- The cells ENCODE_IMAGE changes (20_memory.md R73). -/
theorem ShowsRecords.outside_all (ht : ShowsRecords forced p n t) (hp : Prepared il (s.setStreamPtr 0) p) :
    sameOutsideAll (streamRegion s :: encodedPlanes il s) s t := by
  have hstream := ht.outside
  rw [hp.samePlaces.streamRegion] at hstream
  exact sameOutsideAll_trans (sameOutsideAll_mono hp.outside (List.subset_cons_self _ _))
    (sameOutsideAll_mono hstream (by simp))

/-- The planes ENCODE_IMAGE leaves, where no region overlaps another (44_container.md R237). -/
theorem ShowsRecords.planes (ht : ShowsRecords forced p n t) (hp : Prepared il (s.setStreamPtr 0) p)
    (hd : (streamRegion s :: codecRegions il s).Pairwise disjoint) : planesPrepared il s t := by
  obtain ⟨hstream, hcodec⟩ := List.pairwise_cons.1 hd
  have hsame (q : Plane) : SameBytes (planeRegion s q) p t := by
    have hq := ht.sameBytes (r := planeRegion s q)
    rw [hp.samePlaces.streamRegion] at hq
    exact hq (hstream _ (List.mem_append_left _ (List.mem_map_of_mem (mem_codecPlanes q))))
  have hcodec' : (codecRegions il (s.setStreamPtr 0)).Pairwise disjoint := by
    rwa [(samePlaces_setStreamPtr s 0).codecRegions]
  obtain ⟨hsplit, hcb, hcr⟩ := hp.planes hcodec'
  refine ⟨fun hil => holdsSplit_congr (fun c => hsame _) (hsplit hil), ?_, ?_⟩
  · refine holdsDownsample_congr (fun _ => rfl) (fun _ => rfl) ht.places ?_ ?_ hcb <;> rw [hp.samePlaces.planeRegion] <;>
      exact hsame _
  · refine holdsDownsample_congr (fun _ => rfl) (fun _ => rfl) ht.places ?_ ?_ hcr <;> rw [hp.samePlaces.planeRegion] <;>
      exact hsame _

/-- The cells of the stream behind its records stay, where the stream overlaps no plane. -/
theorem ShowsRecords.stream_behind (ht : ShowsRecords forced p n t) (hp : Prepared il (s.setStreamPtr 0) p)
    (hd : ∀ q, disjoint (streamRegion s) (planeRegion s q)) {k : Nat} (hfirst : (encodedStream forced p n).length ≤ k)
    (hlast : k < s.regs.streamLen.toNat) : t.byte (streamAddr s k) = s.byte (streamAddr s k) := by
  have hbehind := ht.byte_behind hfirst
  rw [hp.samePlaces.streamAddr] at hbehind
  refine hbehind.trans (sameOutsideAll_byte hp.outside (fun r hr => ?_) (streamAddr_mem hlast))
  obtain ⟨q, _, rfl⟩ := List.mem_map.1 (encodedPlanes_subset il s hr)
  exact hd q

/-! ## The bounds of the stream -/

theorem encodedStream_bounds (hforced : ForcedBy fmode forced) (p : State) (n : Nat) :
    4 + 2 * n ≤ (encodedStream forced p n).length ∧ (encodedStream forced p n).length ≤ 4 + longestRecord fmode * n :=
  streamBytes_length_bounds (header := headerBytes p) (record := encodedRecord forced p)
    (fun _ => ⟨two_le_recordOf _ _ _, recordOf_length_le hforced _ _⟩) n

theorem heldStream_length_le (hforced : ForcedBy fmode forced) (t : State) (n : Nat) :
    (heldStream forced t n).length ≤ 4 + longestRecord fmode * n :=
  (streamBytes_length_bounds (fun _ => ⟨two_le_recordOf _ _ _, recordOf_length_le hforced _ _⟩) n).2

/-- The longest records of `k` tiles, six to a tile (30_encoding.md R102). -/
theorem longestRecord_mul (fmode : BitVec 3) (k : Nat) :
    longestRecord fmode * (6 * k) = (if fmode = 0 then 108 else 204) * k := by
  unfold longestRecord
  split <;> omega

end Sys2Proof.Machine
end

section
/-! ENCODE_IMAGE, from the facts above. -/

namespace Sys2Proof.Machine

/-- Settles O56: with room for the longest records every record fits, whatever `MEM` holds. -/
theorem encodeImageCompletes : Obligations.EncodeImageCompletes := by
  intro s fmode il hfmode hdims hbounds tiles most hroom
  obtain ⟨forced, hforced, hmode⟩ := exists_forcedMode hfmode
  have htotal : blockTotal (imageWidth s) (imageHeight s) = 6 * tiles := blockTotal_eq _ _
  obtain ⟨p, t, hexec, hp, hends⟩ := exec_encodeImage hforced hdims hbounds (le_trans (Nat.le_add_right 4 _) hroom)
  rw [htotal] at hends
  obtain ⟨hleast, hmost⟩ := encodedStream_bounds hmode p (6 * tiles)
  rw [longestRecord_mul] at hmost
  have hall : Fits forced p (6 * tiles) := by
    rw [Fits, hp.samePlaces.streamLen]
    exact hmost.trans hroom
  obtain rfl : t = (encodedTo forced p (6 * tiles)).complete := by
    rcases hends with ⟨_, ht⟩ | ⟨n, hn, ⟨_, hno⟩, _⟩
    · exact ht
    · exact absurd (hall.of_le hn) hno
  have hshows := (encodedTo_showsRecords hall).complete
  have hpos : 6 * tiles ≠ 0 := htotal ▸ (blockTotal_pos hdims).ne'
  have hstatus : (encodedTo forced p (6 * tiles)).complete.status = { s.status with done := true } := by
    rw [complete_status, encodedTo_status, hp.status]
  have hheader (k : Nat) (hk : k < 4) :
      (encodedTo forced p (6 * tiles)).complete.byte (streamAddr s k) = (headerBytes s).getD k 0 := by
    have hbyte := hshows.stream_byte (k := k) (by omega)
    rw [encodedStream, streamBytes_getD hk, hp.samePlaces.streamAddr] at hbyte
    rw [hbyte, headerBytes, hp.samePlaces.width, hp.samePlaces.height]
    rfl
  refine ⟨_, hexec, rfl, hstatus, ?_, ?_, ?_, hheader 0 (by decide), hheader 1 (by decide), hheader 2 (by decide),
    hheader 3 (by decide), (hp.samePlaces.trans hshows.places).regs, fun a hcb hcr hstream hfull => ?_⟩
  · rw [hshows.blkCount, if_neg hpos]
  · rw [hshows.ptr]
    omega
  · rw [hshows.ptr]
    exact hmost
  · refine hshows.outside_all hp a ?_
    cases il with
    | false => simp [encodedPlanes, hcb, hcr, hstream]
    | true => simp [encodedPlanes, hcb, hcr, hstream, hfull rfl]

theorem flatMap_take_traversal {w h n : Nat} (hn : n ≤ blockTotal w h) (f : Block → List Byte) :
    ((traversal w h).take n).flatMap f = (List.range n).flatMap fun i => f (blockAt w i) := by
  rw [traversal_eq, ← List.map_take, List.take_range, Nat.min_eq_left hn, List.flatMap_map]

/-- Settles O57: the end the command comes to is the one the stream of the samples held at the end says. -/
theorem encodeImageWritesTheRecords : Obligations.EncodeImageWritesTheRecords := by
  intro s fmode il hfmode hdims hbounds h4
  obtain ⟨forced, hforced, hmode⟩ := exists_forcedMode hfmode
  obtain ⟨p, t, hexec, hp, hends⟩ := exec_encodeImage hforced hdims hbounds h4
  have hplaces := hp.samePlaces
  have hwidth : imageWidth p = imageWidth s := congrArg BitVec.toNat hplaces.width
  obtain ⟨n, hshows, hidle⟩ : ∃ n, ShowsRecords forced p n t ∧ t.engine.mode = .idle := by
    rcases hends with ⟨hall, rfl⟩ | ⟨n, _, ⟨hfits, _⟩, rfl⟩
    · exact ⟨_, (encodedTo_showsRecords hall).complete, rfl⟩
    · exact ⟨n, (encodedTo_showsRecords hfits).stopped _ _ _ _, rfl⟩
  refine ⟨t, hexec, hidle, hshows.outside_all hp, hshows.planes hp, fun hapart => ?_⟩
  intro tiles cls record blocks header stream written
  have htotal : blockTotal (imageWidth s) (imageHeight s) = 6 * tiles := blockTotal_eq _ _
  have hpos : 6 * tiles ≠ 0 := htotal ▸ (blockTotal_pos hdims).ne'
  rw [htotal] at hends
  have hapart' : StreamApart p := fun q hq => by
    rw [hplaces.streamRegion, hplaces.planeRegion]
    exact hapart q hq
  have hblocks : ∀ i < 6 * tiles, BlockInside p (blockAt (imageWidth p) i) := fun i hi => by
    rw [hwidth]
    exact hplaces.blockInside (traversal_inside hdims (htotal ▸ hi))
  have hstream (k : Nat) (hk : k ≤ 6 * tiles) : stream k = heldStream forced t k := by
    have hrecord : record = recordOf forced t := funext fun b => by
      rw [recordOf, hmode]
      rfl
    have hall := hplaces.trans hshows.places
    have hwidth_t : imageWidth t = imageWidth s := congrArg BitVec.toNat hall.width
    have htake : (blocks.take k).flatMap record = _ := flatMap_take_traversal (htotal ▸ hk) record
    rw [heldStream, streamBytes, headerBytes, hall.width, hall.height, hwidth_t, ← hrecord]
    exact congrArg (header ++ ·) htake
  have hwritten {m : Nat} (hm : m ≤ 6 * tiles) (h : ShowsRecords forced p m t) : written m := by
    have hlist : stream m = encodedStream forced p m :=
      (hstream m hm).trans (h.encodedStream_eq hapart' hblocks (Nat.le_succ m) hm).symm
    simp only [written, hlist]
    refine ⟨h.ptr, fun k hk => ?_⟩
    rw [← hplaces.streamAddr]
    exact h.stream_byte hk
  obtain ⟨hall, hstop⟩ := hends.by_heldStream hapart' hblocks
  rw [hplaces.streamLen] at hall hstop
  refine ⟨fun hroom => ?_, fun hroom => ?_, fun m hm hroom hlast => ?_⟩
  · rw [hstream _ le_rfl]
    have hmost := heldStream_length_le hmode t (6 * tiles)
    rw [longestRecord_mul] at hmost
    exact hmost.trans hroom
  · rw [hstream _ le_rfl] at hroom
    obtain ⟨hfits, rfl⟩ := hall hroom
    have hend := (encodedTo_showsRecords hfits).complete
    refine ⟨hwritten le_rfl hend, ?_, ?_, ?_⟩
    · rw [complete_status, encodedTo_status, hp.status]
    · rw [hend.blkCount, if_neg hpos]
    · rw [complete_regs, encodedTo_cls hpos, hend.blockCls_eq hapart' hblocks (hfits.of_le (Nat.sub_le _ _)) (by omega), hwidth]
      rfl
  · rw [hstream _ hm.le] at hroom
    rw [hstream _ hm] at hlast
    obtain ⟨hfits, rfl⟩ := hstop m hm hroom hlast
    have hend : ShowsRecords forced p m (stoppedAt forced p m) := (encodedTo_showsRecords hfits).stopped _ _ _ _
    refine ⟨hwritten hm.le hend, rfl, ?_, ?_, fun k hfirst hlast hcb hcr => ?_⟩
    · rw [hend.blkCount, hp.blkCount]
    · exact (hend.blockCls_eq hapart' hblocks hfits hm).trans (by rw [hwidth]; rfl)
    · refine hend.stream_behind hp (fun q => ?_) ?_ hlast
      · cases q with
        | cbf => exact hcb
        | crf => exact hcr
        | _ => exact hapart _ (by simp)
      · rwa [hend.encodedStream_eq hapart' hblocks (Nat.le_succ m) hm.le, ← hstream m hm.le]

end Sys2Proof.Machine
end

section
/-! SUPPORT. The end of DECODE_IMAGE (44_container.md R238, R239): the full chroma planes are filled from the half planes, and with
`IL = 1` the image from the full planes. -/

namespace Sys2Proof.Machine

variable {ρ : Type} {s t u : State} {il : Bool}

/-- `if IL == 1: mergeBody()` (44_container.md R238). -/
def mergePart (il : Bool) : Eng ρ Unit := if il then mergeBody else pure ()

/-- The interleaved image, with `IL = 1`. -/
def imagePart (il : Bool) (s : State) : List Region := if il then [imageRegion s] else []

/-- The regions the end of DECODE_IMAGE writes. -/
def finishedRegions (il : Bool) (s : State) : List Region := [planeRegion s .cbf, planeRegion s .crf] ++ imagePart il s

/-- What the end of DECODE_IMAGE leaves in `MEM` (44_container.md R238, 43_resampler.md R213). -/
def Resampled (il : Bool) (t : State) : Prop :=
  holdsUpsample .cbf .cbh t t ∧ holdsUpsample .crf .crh t t ∧ (il = true → holdsMerge t t)

theorem decodeImageEnd_eq (il : Bool) : (decodeImageEnd il : Eng ρ Unit) = (do
    upsampleBody .cbh .cbf
    upsampleBody .crh .crf
    mergePart il
    done) := by
  cases il <;> rfl

/-- The image overlaps no plane, where no region overlaps another. -/
theorem imagePart_disjoint (hd : (codecRegions il s).Pairwise disjoint) (p : Plane) :
    ∀ q ∈ imagePart il s, disjoint (planeRegion s p) q := by
  cases il with
  | false => exact fun q hq => absurd hq List.not_mem_nil
  | true => exact List.forall_mem_singleton.2 (image_disjoint hd p).symm

theorem mergePart_answers (hin : ∀ r ∈ codecRegions il s, inBounds s r = true) :
    ∃ t, Answers (mergePart il : Eng ρ Unit) s (.ok ((), t)) ∧ ChangedIn (imagePart il s) s t ∧
      ((codecRegions il s).Pairwise disjoint → il = true → holdsMerge s t) := by
  cases il with
  | false => exact ⟨s, Answers.pure () s, ChangedIn.refl _ s, nofun⟩
  | true =>
    obtain ⟨t, ho, ht⟩ := mergeBody_answers (ρ := ρ) (imageAndPlanes_inBounds hin)
    exact ⟨t, ho, ht.changed, fun hd _ => ht.holds fun p _ => image_disjoint hd p⟩

theorem decodeImageEnd_answers (hdims : validDims s.regs.width s.regs.height = true)
    (hin : ∀ r ∈ codecRegions il s, inBounds s r = true) :
    ∃ t, Answers (decodeImageEnd il : Eng ρ Unit) s (.ok ((), t.complete)) ∧ ChangedIn (finishedRegions il s) s t ∧
      ((codecRegions il s).Pairwise disjoint → Resampled il t) := by
  have hplane := (codecRegions_inBounds hin).1
  obtain ⟨u, hou, hu⟩ := upsampleBody_filled (ρ := ρ) (f := .cbf) (h := .cbh) (fun _ => rfl) (fun _ => rfl) hdims (hplane _)
    (hplane _)
  have hplaces_u := hu.changedIn.samePlaces
  have hplane_u (p : Plane) : inBounds u (planeRegion u p) = true := by
    rw [hplaces_u.inBounds, hplaces_u.planeRegion, hplane]
  obtain ⟨v, hov, hv⟩ := upsampleBody_filled (ρ := ρ) (f := .crf) (h := .crh) (fun _ => rfl) (fun _ => rfl)
    (by rwa [hplaces_u.width, hplaces_u.height]) (hplane_u _) (hplane_u _)
  have hplaces_uv := hv.changedIn.samePlaces
  have hplaces_v := hplaces_u.trans hplaces_uv
  obtain ⟨w, how, hw, hmerge⟩ := mergePart_answers (ρ := ρ) (s := v) (il := il) fun r hr => by
    rw [hplaces_v.inBounds]
    rw [hplaces_v.codecRegions] at hr
    exact hin r hr
  have huv : ChangedIn [planeRegion s .crf] u v := by
    rw [← hplaces_u.planeRegion]
    exact hv.changedIn
  have hvw : ChangedIn (imagePart il s) v w := by
    rw [imagePart, ← hplaces_v.imageRegion]
    exact hw
  have hchanged : ChangedIn (finishedRegions il s) s w :=
    (hu.changedIn.mono (by simp [finishedRegions])).trans
      ((huv.mono (by simp [finishedRegions])).trans (hvw.mono (List.subset_append_right _ _)))
  rw [decodeImageEnd_eq]
  refine ⟨w, hou.bind (hov.bind (how.bind (Answers.done w))), hchanged, fun hd => ?_⟩
  have hsame_u (p : Plane) (hp : p ≠ .cbf) : SameBytes (planeRegion s p) s u :=
    hu.changedIn.sameBytes (List.forall_mem_singleton.2 (planes_disjoint hd hp))
  have hsame_v (p : Plane) (hp : p ≠ .crf) : SameBytes (planeRegion s p) u v :=
    huv.sameBytes (List.forall_mem_singleton.2 (planes_disjoint hd hp))
  have hsame_w (p : Plane) : SameBytes (planeRegion s p) v w := hvw.sameBytes (imagePart_disjoint hd p)
  refine ⟨?_, ?_, fun hil => holdsMerge_congr hw.samePlaces (fun c => ?_) (hmerge ?_ hil)⟩
  · refine holdsUpsample_congr (fun _ => rfl) (fun _ => rfl) hdims hchanged.samePlaces ?_ ?_
      (hu.holds (planes_disjoint hd (by decide)))
    · exact (hsame_u _ (by decide)).trans ((hsame_v _ (by decide)).trans (hsame_w _))
    · exact (hsame_v _ (by decide)).trans (hsame_w _)
  · refine holdsUpsample_congr (fun _ => rfl) (fun _ => rfl) (by rwa [hplaces_u.width, hplaces_u.height])
      (hplaces_uv.trans hw.samePlaces) ?_ ?_ (hv.holds ?_) <;> simp only [hplaces_u.planeRegion]
    · exact (hsame_v _ (by decide)).trans (hsame_w _)
    · exact hsame_w _
    · exact planes_disjoint hd (by decide)
  · rw [hplaces_v.planeRegion]
    exact hsame_w _
  · rwa [hplaces_v.codecRegions]

end Sys2Proof.Machine
end

section
/-! SUPPORT. The run of DECODE_IMAGE from its first record on, in whole turns (44_container.md R238, R241; log 3): one step for each
record, and one for the end. -/

namespace Sys2Proof.Machine

variable {s t u v : State} {il : Bool} {n : Nat}

/-- How many records the image of a state has (44_container.md R230). -/
def imageBlocks (s : State) : Nat := blockTotal (imageWidth s) (imageHeight s)

/-- `s` runs DECODE_IMAGE, with nothing pending and its checks met, between two instructions. -/
structure RunsDecodeImage (il : Bool) (s : State) : Prop where
  mode : s.engine.mode = .run
  underway : s.engine.underway = none
  agenda : s.agenda = []
  command : runningCommand s = .decodeImage il
  dims : validDims s.regs.width s.regs.height = true
  stream : inBounds s (streamRegion s) = true
  planes : ∀ r ∈ codecRegions il s, inBounds s r = true
  noError : s.status.err = false

/-- The invariant gives what DECODE_IMAGE has checked before its first record. -/
theorem Inv.runsDecodeImage (h : Inv s) (hmode : s.engine.mode = .run) (hunderway : s.engine.underway = none)
    (hagenda : s.agenda = []) (hcommand : runningCommand s = .decodeImage il) (hphase : s.engine.phase ≠ .command) :
    RunsDecodeImage il s := by
  obtain ⟨hdims, hdecoding⟩ := h.position hmode hphase
  unfold decodingOk at hdecoding
  rw [hcommand] at hdecoding
  obtain ⟨_, hin⟩ := hdecoding
  obtain ⟨hstream, hplanes⟩ := List.forall_mem_cons.1 ((allInBounds_iff _ _).1 hin)
  obtain ⟨_, _, _, hrun⟩ := h.status
  exact ⟨hmode, hunderway, hagenda, hcommand, hdims, hstream, hplanes, (hrun hmode).2⟩

/-- The turn at the end of DECODE_IMAGE. -/
theorem RunsDecodeImage.step_finish (h : RunsDecodeImage il s) (hphase : s.engine.phase = .finish) :
    ∃ t, step s = .next t.complete ∧ ChangedIn (finishedRegions il s) s t ∧
      ((codecRegions il s).Pairwise disjoint → Resampled il t) := by
  obtain ⟨t, hend, hchanged, hresampled⟩ := decodeImageEnd_answers (ρ := Unit) h.dims h.planes
  refine ⟨t, ?_, hchanged, hresampled⟩
  rw [step_nil h.agenda, engineTurn_finish h.mode h.underway hphase, finishProgram, h.command]
  exact hend.runToEnd

/-! ## One record -/

/-- `u` is the state of the DECODE_IMAGE that ran in `s`, after its first `n` records, whatever `MEM` and `STREAM_PTR` are. -/
structure AfterRecords (s : State) (n : Nat) (u : State) : Prop where
  regs : u.regs = { s.regs with
    streamPtr := u.regs.streamPtr, blkCount := if n = 0 then s.regs.blkCount else BitVec.ofNat 32 n }
  engine : u.engine = { s.engine with phase := u.engine.phase, block := u.engine.block }
  status : u.status = s.status
  platform : u.platform = s.platform
  agenda : u.agenda = s.agenda
  position : if n < imageBlocks s then u.engine.phase = .record ∧ u.engine.block = blockAt (imageWidth s) n
    else u.engine.phase = .finish

/-- The record `i` leaves `v` of `u` on a block of `s`: each of its 64 samples is what the record gives, and nothing else
changes. -/
structure BlockWritten (s : State) (b : Block) (i : Instr) (u v : State) : Prop where
  outside : ∀ a, (∀ x y, x < 8 → y < 8 → a ≠ blockAddr s b x y) → v.byte a = u.byte a
  inside : ∀ x y, x < 8 → y < 8 → v.byte (blockAddr s b x y) = recordSample i (u.byte (blockAddr s b x y)) x y

namespace AfterRecords

theorem samePlaces (h : AfterRecords s n u) : SamePlaces s u :=
  ⟨by rw [EncoderRegs, h.regs], h.platform⟩

theorem runs (h : AfterRecords s n u) (hs : RunsDecodeImage il s) : RunsDecodeImage il u where
  mode := by rw [h.engine]; exact hs.mode
  underway := by rw [h.engine]; exact hs.underway
  agenda := h.agenda.trans hs.agenda
  command := by rw [runningCommand, h.engine]; exact hs.command
  dims := by rw [h.samePlaces.width, h.samePlaces.height]; exact hs.dims
  stream := by rw [h.samePlaces.inBounds, h.samePlaces.streamRegion]; exact hs.stream
  planes := fun r hr => by
    rw [h.samePlaces.inBounds]
    rw [h.samePlaces.codecRegions] at hr
    exact hs.planes r hr
  noError := by rw [h.status]; exact hs.noError

/-- The registers and the position behind a record. -/
theorem advance (h : AfterRecords s n u) (hs : RunsDecodeImage il s) (hn : n < imageBlocks s) (m : List Host.Cell)
    (len : Nat) : AfterRecords s (n + 1) (afterRecord len { u with mem := m }) := by
  obtain ⟨hphase, hblock⟩ : u.engine.phase = .record ∧ u.engine.block = blockAt (imageWidth s) n := by
    simpa only [hn, if_true] using h.position
  have hindex : ({ u with mem := m } : State).engine.block.index = n := by
    rw [hblock, blockAt_index]
  have hwidth : imageWidth u = imageWidth s := congrArg BitVec.toNat h.samePlaces.width
  have htotal : recordTotal { u with mem := m } = imageBlocks s := by
    rw [recordTotal_decodeImage (s := { u with mem := m }) (h.runs hs).command, imageBlocks, ← hwidth]
    exact congrArg _ (congrArg BitVec.toNat h.samePlaces.height)
  have hregs : (afterRecord len { u with mem := m }).regs = { s.regs with
      streamPtr := (afterRecord len { u with mem := m }).regs.streamPtr, blkCount := BitVec.ofNat 32 (n + 1) } := by
    have hu : ({ u with mem := m } : State).regs = _ := h.regs
    rw [afterRecord_regs, hindex, hu]
  by_cases hlt : n + 1 < imageBlocks s
  · rw [afterRecord_of_lt len (by rw [hindex, htotal]; exact hlt)] at hregs ⊢
    refine ⟨hregs, ?_, h.status, h.platform, h.agenda, ?_⟩
    · rw [atRecord_engine]
      simp only [setBlkCount_engine, setStreamPtr_engine]
      rw [h.engine]
    · rw [if_pos hlt, hindex]
      exact ⟨rfl, congrArg (fun w => blockAt w (n + 1)) hwidth⟩
  · rw [afterRecord_of_not_lt len (by rw [hindex, htotal]; exact hlt)] at hregs ⊢
    refine ⟨hregs, ?_, h.status, h.platform, h.agenda, ?_⟩
    · rw [atFinish_engine]
      simp only [setBlkCount_engine, setStreamPtr_engine]
      rw [h.engine]
    · rw [if_neg hlt]
      rfl

/-- The current block lies in its plane, and the plane exists. -/
theorem blockFits (h : AfterRecords s n u) (hs : RunsDecodeImage il s) (hn : n < imageBlocks s) :
    Machine.blockFits u (blockAt (imageWidth s) n) := by
  have hinside : BlockInside s (blockAt (imageWidth s) n) := traversal_inside hs.dims hn
  exact h.samePlaces.blockFits
    ⟨hinside.1, fun _ _ => blockAddr_lt hinside (hs.planes _ (blockAt_plane_mem il s n))⟩

/-- The turn of a record that ends before `STREAM_LEN` (42_block_codec.md R178; 44_container.md R238). -/
theorem exists_step (h : AfterRecords s n u) (hs : RunsDecodeImage il s) (hn : n < imageBlocks s)
    (hlen : u.regs.streamPtr.toNat + nextLength u ≤ s.regs.streamLen.toNat) :
    ∃ v, step u = .next v ∧ AfterRecords s (n + 1) v ∧ v.regs.streamPtr.toNat = u.regs.streamPtr.toNat + nextLength u ∧
      BlockWritten s (blockAt (imageWidth s) n) (nextRecord u) u v := by
  obtain ⟨hphase, hblock⟩ : u.engine.phase = .record ∧ u.engine.block = blockAt (imageWidth s) n := by
    simpa only [hn, if_true] using h.position
  have hu := h.runs hs
  have htwo : 2 ≤ nextLength u := two_le_recordLength _
  have hlen' : u.regs.streamPtr.toNat + nextLength u ≤ u.regs.streamLen.toNat := by rwa [h.samePlaces.streamLen]
  have hmem := streamAddr_le hu.stream (by omega) hlen'
  rw [streamAddr, Nat.add_assoc] at hmem
  obtain ⟨m, hexec, hframe, hsample⟩ := exists_recordRun (i := nextRecord u) (recordInstr_format _ _ _)
    (by rw [hblock]; exact h.blockFits hs hn)
  have hbytes (a : Nat) : (afterRecord (nextLength u) { u with mem := m }).byte a = memByte m a :=
    byte_congr (afterRecord_frame _ _).1 a
  refine ⟨afterRecord (nextLength u) { u with mem := m }, ?_, h.advance hs hn m _, ?_, ?_, ?_⟩
  · rw [step_nil hu.agenda, engineTurn_record hu.mode hu.underway hphase, recordTurn_whole hlen' hmem, hexec]
    rfl
  · rw [afterRecord_regs]
    exact Nat.mod_eq_of_lt (lt_of_le_of_lt hlen s.regs.streamLen.isLt)
  · intro a ha
    rw [hbytes]
    refine hframe a fun x y hx hy => ?_
    rw [hblock, h.samePlaces.blockAddr]
    exact ha x y hx hy
  · intro x y hx hy
    rw [hbytes, ← h.samePlaces.blockAddr, ← hblock]
    exact hsample x y hx hy

end AfterRecords

/-! ## All records, and the end -/

/-- A run over `total` steps that each keep `P`. -/
theorem exists_run {P : Nat → State → Prop} {total : Nat} (h0 : P 0 s)
    (hstep : ∀ n u, n < total → P n u → ∃ v, step u = .next v ∧ P (n + 1) v) (n : Nat) (hn : n ≤ total) :
    ∃ u, P n u ∧ ∀ k, Host.Core.run Sys2Proof.core (n + k) s = Host.Core.run Sys2Proof.core k u := by
  induction n with
  | zero => exact ⟨s, h0, fun k => by rw [Nat.zero_add]⟩
  | succ n ih =>
    obtain ⟨u, hu, hrun⟩ := ih (by omega)
    obtain ⟨v, hv, hnext⟩ := hstep n u (by omega) hu
    refine ⟨v, hnext, fun k => ?_⟩
    rw [show n + 1 + k = n + (k + 1) by omega, hrun, run_succ_of_step k hv]

/-- A run that stands at its first record and whose every record ends before `STREAM_LEN` comes to its end, and is complete after
one step more. -/
theorem RunsDecodeImage.exists_run_complete {P : Nat → State → Prop} (hs : RunsDecodeImage il s) (h0 : P 0 s)
    (hafter : ∀ n u, P n u → AfterRecords s n u)
    (hstep : ∀ n u, n < imageBlocks s → P n u → ∃ v, step u = .next v ∧ P (n + 1) v) :
    ∃ u t, P (imageBlocks s) u ∧ Host.Core.run Sys2Proof.core (imageBlocks s + 1) s = .next t.complete ∧
      t.status.err = false ∧ ChangedIn (finishedRegions il s) u t ∧
      ((codecRegions il s).Pairwise disjoint → Resampled il t) := by
  obtain ⟨u, hu, hrun⟩ := exists_run h0 hstep _ le_rfl
  have h := hafter _ u hu
  obtain ⟨t, hend, hchanged, hresampled⟩ := (h.runs hs).step_finish (by simpa using h.position)
  have hfinished : finishedRegions il u = finishedRegions il s := by
    simp only [finishedRegions, imagePart, h.samePlaces.planeRegion, h.samePlaces.imageRegion]
  rw [h.samePlaces.codecRegions] at hresampled
  rw [hfinished] at hchanged
  refine ⟨u, t, hu, ?_, ?_, hchanged, hresampled⟩
  · rw [hrun, run_succ_of_step 0 hend]
    rfl
  · rw [hchanged.memOnly]
    exact (h.runs hs).noError

end Sys2Proof.Machine
end

section
/-! SUPPORT. The two streams a run of DECODE_IMAGE is stated for: one with room for the longest records, whatever they are, and
one whose records all end before `STREAM_LEN` (30_encoding.md R102; 44_container.md R238, R241). -/

namespace Sys2Proof.Machine

variable {s t u v : State} {il : Bool} {n : Nat}

theorem recordLength_le (c : Byte) : recordLength c ≤ 34 := by
  unfold recordLength
  split <;> decide

/-! ## Room for the longest records -/

/-- After `n` records `STREAM_PTR` is behind `n` records of some length. -/
structure RoomyRecords (s : State) (n : Nat) (u : State) : Prop where
  after : AfterRecords s n u
  shortest : 4 + 2 * n ≤ u.regs.streamPtr.toNat
  longest : u.regs.streamPtr.toNat ≤ 4 + 34 * n

theorem RoomyRecords.exists_step (h : RoomyRecords s n u) (hs : RunsDecodeImage il s) (hn : n < imageBlocks s)
    (hroom : 4 + 34 * imageBlocks s ≤ s.regs.streamLen.toNat) : ∃ v, step u = .next v ∧ RoomyRecords s (n + 1) v := by
  obtain ⟨hafter, hshort, hlong⟩ := h
  have htwo : 2 ≤ nextLength u := two_le_recordLength _
  have hmax : nextLength u ≤ 34 := recordLength_le _
  obtain ⟨v, hstep, hv, hptr, _⟩ := hafter.exists_step hs hn (by omega)
  exact ⟨v, hstep, hv, by omega, by omega⟩

/-! ## Records that end before `STREAM_LEN` -/

/-- The records of the stream of `s` stand at `off 0`, `off 1`, ... and end before `STREAM_LEN`; no region overlaps another. -/
structure ExactStream (il : Bool) (s : State) (off : Nat → Nat) : Prop where
  next : ∀ k, k < imageBlocks s → off (k + 1) = off k + recordLength (s.byte (streamAddr s (off k)))
  last : off (imageBlocks s) ≤ s.regs.streamLen.toNat
  apart : (streamRegion s :: codecRegions il s).Pairwise disjoint

/-- The record at `off k` is `i`. -/
def RecordIs (s : State) (off : Nat → Nat) (k : Nat) (i : Instr) : Prop :=
  decode .record ((List.range (off (k + 1) - off k)).map fun j => s.byte (streamAddr s (off k + j))) = .ok (i, [])

/-- After `n` records `STREAM_PTR` is at the next, the stream is as it was, the first `n` blocks hold what their records give, and
the blocks behind them are as they were. -/
structure ExactRecords (s : State) (off : Nat → Nat) (n : Nat) (u : State) : Prop where
  after : AfterRecords s n u
  ptr : u.regs.streamPtr.toNat = off n
  stream : SameBytes (streamRegion s) s u
  written : ∀ k i, k < n → RecordIs s off k i → ∀ x y, x < 8 → y < 8 →
    u.byte (blockAddr s (blockAt (imageWidth s) k) x y) =
      recordSample i (s.byte (blockAddr s (blockAt (imageWidth s) k) x y)) x y
  ahead : ∀ k, n ≤ k → k < imageBlocks s → ∀ x y, x < 8 → y < 8 →
    u.byte (blockAddr s (blockAt (imageWidth s) k) x y) = s.byte (blockAddr s (blockAt (imageWidth s) k) x y)

/-- Block `k` lies in its plane. -/
theorem blockAddr_mem {k x y : Nat} (hs : RunsDecodeImage il s) (hk : k < imageBlocks s) (hx : x < 8) (hy : y < 8) :
    (planeRegion s (blockAt (imageWidth s) k).plane).holds (blockAddr s (blockAt (imageWidth s) k) x y) = true := by
  obtain ⟨hright, hbottom⟩ : BlockInside s (blockAt (imageWidth s) k) := traversal_inside hs.dims hk
  exact planeAddr_mem (by omega) (by omega)

/-- Two samples of a plane at the same address are the same sample. -/
theorem planeAddr_inj {p : Plane} {x y x' y' : Nat} (hx : x < planeWidth s p) (hx' : x' < planeWidth s p)
    (h : planeAddr s p x y = planeAddr s p x' y') : x = x' ∧ y = y' := by
  have heq : x + y * planeWidth s p = x' + y' * planeWidth s p := by
    unfold planeAddr at h
    omega
  have hcol := congrArg (· % planeWidth s p) heq
  have hrow := congrArg (· / planeWidth s p) heq
  simp only [Nat.add_mul_mod_self_right, Nat.mod_eq_of_lt hx, Nat.mod_eq_of_lt hx'] at hcol
  simp only [Nat.add_mul_div_right _ _ (show 0 < planeWidth s p by omega), Nat.div_eq_of_lt hx, Nat.div_eq_of_lt hx',
    Nat.zero_add] at hrow
  exact ⟨hcol, hrow⟩

/-- Two blocks of the traversal share no sample. -/
theorem blockAddr_ne {k m x y x' y' : Nat} (hs : RunsDecodeImage il s) (hd : (codecRegions il s).Pairwise disjoint)
    (hk : k < imageBlocks s) (hm : m < imageBlocks s) (hne : k ≠ m) (hx : x < 8) (hy : y < 8) (hx' : x' < 8) (hy' : y' < 8) :
    blockAddr s (blockAt (imageWidth s) k) x y ≠ blockAddr s (blockAt (imageWidth s) m) x' y' := by
  intro h
  by_cases hplane : (blockAt (imageWidth s) k).plane = (blockAt (imageWidth s) m).plane
  · obtain ⟨hright, _⟩ : BlockInside s (blockAt (imageWidth s) k) := traversal_inside hs.dims hk
    obtain ⟨hright', _⟩ : BlockInside s (blockAt (imageWidth s) m) := traversal_inside hs.dims hm
    unfold blockAddr at h
    rw [hplane] at h hright
    obtain ⟨hcol, hrow⟩ := planeAddr_inj (by omega) (by omega) h
    have hplace := blockAt_place (imageWidth s) k
    have hplace' := blockAt_place (imageWidth s) m
    exact hne (blockAt_inj hplane (by omega) (by omega))
  · have hmem := blockAddr_mem hs hm hx' hy'
    rw [← h, not_holds_of_disjoint (planes_disjoint hd hplane) (blockAddr_mem hs hk hx hy)] at hmem
    exact absurd hmem (by decide)

namespace ExactStream

variable {off : Nat → Nat}

theorem off_le (h : ExactStream il s off) (hn : n ≤ imageBlocks s) : off n ≤ off (imageBlocks s) := by
  induction hn using Nat.decreasingInduction with
  | self => exact le_rfl
  | of_succ k hk ih =>
    have := h.next k hk
    omega

/-- No plane of a block overlaps the stream. -/
theorem block_disjoint (h : ExactStream il s off) (n : Nat) :
    disjoint (streamRegion s) (planeRegion s (blockAt (imageWidth s) n).plane) :=
  (List.pairwise_cons.1 h.apart).1 _ (blockAt_plane_mem il s n)

end ExactStream

namespace ExactRecords

variable {off : Nat → Nat}

/-- The bytes of the stream from `STREAM_PTR` on are still those of the stream. -/
theorem recordByte_eq (h : ExactRecords s off n u) {k : Nat} (hk : off n + k < s.regs.streamLen.toNat) :
    recordByte u k = s.byte (streamAddr s (off n + k)) := by
  rw [recordByte, h.ptr, h.after.samePlaces.streamAddr]
  exact h.stream _ (streamAddr_mem hk)

/-- The record the engine reads is the record of the stream. -/
theorem off_succ (h : ExactRecords s off n u) (he : ExactStream il s off) (hn : n < imageBlocks s) :
    off (n + 1) = off n + nextLength u ∧ off (n + 1) ≤ s.regs.streamLen.toNat := by
  have hnext := he.next n hn
  have htwo := two_le_recordLength (s.byte (streamAddr s (off n)))
  have hle := (he.off_le (show n + 1 ≤ imageBlocks s from hn)).trans he.last
  rw [nextLength, h.recordByte_eq (by omega)]
  exact ⟨hnext, hle⟩

theorem recordIs_nextRecord (h : ExactRecords s off n u) (he : ExactStream il s off) (hn : n < imageBlocks s) :
    RecordIs s off n (nextRecord u) := by
  obtain ⟨hnext, hle⟩ := h.off_succ he hn
  rw [RecordIs, hnext, Nat.add_sub_cancel_left, ← decode_nextRecord u]
  congr 1
  refine List.map_congr_left fun j hj => ?_
  have := List.mem_range.1 hj
  exact (h.recordByte_eq (by omega)).symm

theorem exists_step (h : ExactRecords s off n u) (hs : RunsDecodeImage il s) (he : ExactStream il s off)
    (hn : n < imageBlocks s) : ∃ v, step u = .next v ∧ ExactRecords s off (n + 1) v := by
  obtain ⟨hnext, hle⟩ := h.off_succ he hn
  have hd := (List.pairwise_cons.1 he.apart).2
  obtain ⟨v, hstep, hv, hptr, houtside, hinside⟩ := h.after.exists_step hs hn (by rw [h.ptr]; omega)
  have hother {k x y : Nat} (hk : k < imageBlocks s) (hne : k ≠ n) (hx : x < 8) (hy : y < 8) :
      v.byte (blockAddr s (blockAt (imageWidth s) k) x y) = u.byte (blockAddr s (blockAt (imageWidth s) k) x y) :=
    houtside _ fun _ _ hx' hy' => blockAddr_ne hs hd hk hn hne hx hy hx' hy'
  refine ⟨v, hstep, hv, by rw [hptr, h.ptr, hnext], h.stream.trans fun a ha => houtside a ?_, ?_, ?_⟩
  · rintro x y hx hy rfl
    have hmem := blockAddr_mem hs hn hx hy
    rw [not_holds_of_disjoint (he.block_disjoint n) ha] at hmem
    exact absurd hmem (by decide)
  · intro k i hk hi x y hx hy
    rcases Nat.lt_succ_iff_lt_or_eq.1 hk with hlt | rfl
    · rw [hother (by omega) (by omega) hx hy, h.written k i hlt hi x y hx hy]
    · have hrecord : nextRecord u = i := by
        have hdecoded := (h.recordIs_nextRecord he hn).symm.trans hi
        injection hdecoded with hpair
        exact congrArg Prod.fst hpair
      rw [hinside x y hx hy, hrecord, h.ahead k le_rfl hn x y hx hy]
  · intro k hk hlt x y hx hy
    rw [hother hlt (by omega) hx hy, h.ahead k (by omega) hlt x y hx hy]

/-- The end of the command writes no block. -/
theorem byte_finished (hs : RunsDecodeImage il s) (hd : (codecRegions il s).Pairwise disjoint)
    (ht : ChangedIn (finishedRegions il s) u t) {k x y : Nat} (hk : k < imageBlocks s) (hx : x < 8) (hy : y < 8) :
    t.byte (blockAddr s (blockAt (imageWidth s) k) x y) = u.byte (blockAddr s (blockAt (imageWidth s) k) x y) := by
  refine ht.byte (fun q hq => ?_) (blockAddr_mem hs hk hx hy)
  have hplane : (blockAt (imageWidth s) k).plane ≠ .cbf ∧ (blockAt (imageWidth s) k).plane ≠ .crf := by
    rw [blockAt_plane]
    split_ifs <;> decide
  rcases List.mem_append.1 hq with hq | hq
  · rcases List.mem_pair.1 hq with rfl | rfl
    · exact planes_disjoint hd hplane.1
    · exact planes_disjoint hd hplane.2
  · exact imagePart_disjoint hd _ q hq

end ExactRecords

end Sys2Proof.Machine
end

section
/-! The run of DECODE_IMAGE, from the facts above. -/

namespace Sys2Proof.Machine

/-- Settles O60: each step up to the last record keeps what is known of `STREAM_PTR` and the blocks, and the end writes no block. -/
theorem decodeImageRunCompletes : Obligations.DecodeImageRunCompletes := by
  intro s il hinv hmode hunderway hagenda hcommand total complete resampled
  have hruns (hphase : s.engine.phase ≠ .command) : RunsDecodeImage il s :=
    hinv.runsDecodeImage hmode hunderway hagenda hcommand hphase
  refine ⟨fun hphase hblock hptr => ?_, fun hphase => ?_⟩
  · have hs := hruns (by rw [hphase]; decide)
    have hpos : 0 < imageBlocks s := blockTotal_pos hs.dims
    have hstart : AfterRecords s 0 s := ⟨rfl, rfl, rfl, rfl, rfl, by rw [if_pos hpos]; exact ⟨hphase, hblock⟩⟩
    have hptr4 : s.regs.streamPtr.toNat = 4 := by rw [hptr]; rfl
    refine ⟨fun hroom => ?_, fun off hoff hnext hlast hdisjoint => ?_⟩
    · obtain ⟨u, t, hu, hrun, herr, hchanged, _⟩ := hs.exists_run_complete (P := RoomyRecords s)
        ⟨hstart, by omega, by omega⟩ (fun _ _ h => h.after) fun _ _ hn h => h.exists_step hs hn hroom
      have hregs : t.regs = u.regs := by rw [hchanged.memOnly]
      refine ⟨t.complete, hrun, ⟨rfl, rfl, herr⟩, ?_, ?_, ?_⟩
      · rw [complete_regs, hregs, hu.after.regs]
        exact if_neg hpos.ne'
      · rw [complete_regs, hregs]
        exact hu.shortest
      · rw [complete_regs, hregs]
        exact hu.longest
    · have he : ExactStream il s off := ⟨hnext, hlast, hdisjoint⟩
      have hd := (List.pairwise_cons.1 hdisjoint).2
      obtain ⟨u, t, hu, hrun, herr, hchanged, hresampled⟩ := hs.exists_run_complete (P := ExactRecords s off)
        ⟨hstart, hptr4.trans hoff.symm, fun _ _ => rfl, nofun, fun _ _ _ _ _ _ _ => rfl⟩ (fun _ _ h => h.after)
        fun _ _ hn h => h.exists_step hs he hn
      refine ⟨t.complete, hrun, ⟨rfl, rfl, herr⟩, ?_, hresampled hd, fun k i hk hi x y hx hy => ?_⟩
      · have hptr_u : u.regs.streamPtr = BitVec.ofNat 32 (off total) := by
          rw [← show u.regs.streamPtr.toNat = off total from hu.ptr, BitVec.ofNat_toNat, BitVec.setWidth_eq]
        rw [complete_regs, show t.regs = u.regs by rw [hchanged.memOnly], hu.after.regs, if_neg hpos.ne', hptr_u]
        rfl
      · exact (ExactRecords.byte_finished hs hd hchanged hk hx hy).trans (hu.written k i hk hi x y hx hy)
  · obtain ⟨t, hstep, hchanged, hresampled⟩ := (hruns (by rw [hphase]; decide)).step_finish hphase
    exact ⟨t.complete, hstep, hchanged.complete, hchanged.outside, hresampled⟩

end Sys2Proof.Machine
end

section
/-! SUPPORT. What an error entry and an acknowledge leave (60_exceptions.md R275, R279), and what a machine signals at the end of a
command (R280, R281). -/

namespace Sys2Proof.Machine

variable {ρ : Type} {s t : State} {irqEn : Bool}

/-! ## The error entry and the acknowledge -/

theorem errorEntry_busy (s : State) (code : ErrCode) (stage : ErrStage) (index : Nat) :
    (s.errorEntry code stage index).busy = false :=
  not_busy_of_idle rfl

theorem errorEntry_irq (s : State) (code : ErrCode) (stage : ErrStage) (index : Nat) :
    (s.errorEntry code stage index).irq = s.regs.irqEn :=
  Bool.and_true _

theorem errorEntry_sameSurroundings (s : State) (code : ErrCode) (stage : ErrStage) (index : Nat) :
    sameSurroundings s (s.errorEntry code stage index) :=
  ⟨rfl, rfl, rfl, rfl, rfl⟩

theorem regAt_status {off : Byte} (h : off.toNat / 4 = 2) : regAt off = some .status := by
  rw [regAt_eq_getElem?, h]
  rfl

/-- Idle and not held in reset, a write to `STATUS` is the acknowledge (60_exceptions.md R279). -/
theorem hostRegWrite_status {off : Byte} (v : Word) (hrst : s.rst = false) (hidle : s.engine.mode = .idle)
    (hoff : regAt off = some .status) : hostRegWrite off v s = .next (s.acknowledge v) := by
  simp [hostRegWrite, hrst, hoff, not_busy_of_idle hidle]

/-- The reserved opcodes (30_encoding.md R92). -/
theorem decodeCmd_reserved (low : BitVec 1) : decodeCmd (0#6 ++ 7#3 ++ low) = .illegalCommand low := by
  revert low
  decide

/-! ## The signal of a command's end -/

/-- `DONE` is set exactly when the engine is idle, and `IRQ_EN` is as given (60_exceptions.md R280, R281). -/
structure SignalsEnd (irqEn : Bool) (t : State) : Prop where
  irqEn_eq : t.regs.irqEn = irqEn
  done_eq : t.status.done = !t.busy

namespace SignalsEnd

theorem of_statusOk (h : statusOk s) (hmode : s.engine.mode = .run) : SignalsEnd s.regs.irqEn s := by
  obtain ⟨_, _, _, hrun⟩ := h
  obtain ⟨hdone, _⟩ := hrun hmode
  exact ⟨rfl, by rw [hdone, (busy_iff s).2 hmode]; rfl⟩

theorem idle (h : SignalsEnd irqEn t) (hmode : t.engine.mode = .idle) : t.status.done = true ∧ t.irq = irqEn := by
  have hdone : t.status.done = true := by rw [h.done_eq, not_busy_of_idle hmode]; rfl
  exact ⟨hdone, by rw [State.irq, hdone, h.irqEn_eq, Bool.and_true]⟩

theorem run (h : SignalsEnd irqEn t) (hmode : t.engine.mode = .run) : t.busy = true ∧ t.irq = false := by
  have hbusy : t.busy = true := (busy_iff t).2 hmode
  exact ⟨hbusy, by rw [State.irq, h.done_eq, hbusy]; exact Bool.and_false _⟩

/-- Where the engine stands inside its instruction is no part of the signal. -/
theorem underway (h : SignalsEnd irqEn t) (u : Option Underway) :
    SignalsEnd irqEn { t with engine := { t.engine with underway := u } } :=
  ⟨h.irqEn_eq, h.done_eq⟩

theorem setByte (h : SignalsEnd irqEn t) (a : Nat) (v : Byte) : SignalsEnd irqEn (t.setByte a v) :=
  ⟨h.irqEn_eq, h.done_eq⟩

theorem errorEntry (h : SignalsEnd irqEn t) (code : ErrCode) (stage : ErrStage) (index : Nat) :
    SignalsEnd irqEn (t.errorEntry code stage index) :=
  ⟨h.irqEn_eq, rfl⟩

/-- Of the register updates only `done()` touches `DONE` or the engine's mode, and it touches both. -/
theorem apply (h : SignalsEnd irqEn t) (u : RegUpdate) : SignalsEnd irqEn (u.apply t) := by
  obtain ⟨hirq, hdone⟩ := h
  cases u with
  | done => exact ⟨hirq, rfl⟩
  | _ => exact ⟨hirq, hdone⟩

/-- The signal after a program run to its end, whichever program it is. -/
theorem lastState_run {p : Prog Unit} (h : SignalsEnd irqEn s) (ht : lastState (p.run s) = .next t) :
    SignalsEnd irqEn t := by
  induction p generalizing s with
  | finish answer => cases ht; exact h
  | look next ih => exact ih _ h ht
  | read a next ih =>
    simp only [Prog.run] at ht
    split at ht
    · exact ih _ h ht
    · cases ht
  | write a v next ih =>
    simp only [Prog.run] at ht
    split at ht
    · exact ih (h.setByte a v) ht
    · cases ht
  | set u next ih => exact ih (h.apply u) ht
  | fail code stage index => cases ht; exact h.errorEntry code stage index

end SignalsEnd

/-- What one engine step leaves has the signal. -/
def StepSignals (irqEn : Bool) : Stepped → Prop
  | .more _ t => SignalsEnd irqEn t
  | .ended t => SignalsEnd irqEn t
  | .fault _ => True

theorem SignalsEnd.afterStep (h : SignalsEnd irqEn t) (next : Prog ρ) (answer : Option Byte) :
    StepSignals irqEn (next.afterStep answer t) := by
  unfold Prog.afterStep
  split <;> exact h

/-- The signal after one engine step, whichever program it is a step of. -/
theorem SignalsEnd.once (h : SignalsEnd irqEn s) (p : Prog ρ) : StepSignals irqEn (p.once s) := by
  unfold Prog.once
  cases p.settle s with
  | finish answer => exact h
  | look next => exact h
  | read a next =>
    dsimp only
    split
    · exact h.afterStep _ _
    · trivial
  | write a v next =>
    dsimp only
    split
    · exact (h.setByte a v).afterStep _ _
    · trivial
  | set u next => exact (h.apply u).afterStep _ _
  | fail code stage index => exact h.errorEntry code stage index

theorem engineTurn_signalsEnd (hmode : s.engine.mode = .run) (h : SignalsEnd irqEn s) (ht : engineTurn s = .next t) :
    SignalsEnd irqEn t := by
  rw [engineTurn_run hmode] at ht
  exact SignalsEnd.lastState_run (s := s.atBoundary) (h.underway none) ht

theorem engineStep_signalsEnd (hmode : s.engine.mode = .run) (h : SignalsEnd irqEn s) (ht : engineStep s = .next t) :
    SignalsEnd irqEn t := by
  rw [engineStep_run hmode] at ht
  have honce := h.once (remaining s)
  cases hstep : (remaining s).once s with
  | more answer u => rw [hstep] at ht honce; cases ht; exact honce.underway _
  | ended u => rw [hstep] at ht honce; cases ht; exact honce.underway none
  | fault f => rw [hstep] at ht; cases ht

end Sys2Proof.Machine
end

section
/-! SUPPORT. Moves of the host that always answer (70_reset_and_hazards.md R314): the resets, from a state whose running
instruction stays inside `MEM`, and 32-bit accesses to registers. -/

namespace Sys2Proof.Machine

variable {ρ : Type} {s : State}

/-- A confined program, cut short anywhere, never stops the machine (70_reset_and_hazards.md R301). -/
theorem Prog.Confined.cut {p : Prog ρ} (h : p.Confined s.view) (k : Nat) : ∃ t, p.cut k s = .ok t := by
  induction p generalizing s k with
  | finish answer => exact ⟨s, rfl⟩
  | look next ih => exact ih s.view h k
  | read a next ih =>
    obtain ⟨ha, hnext⟩ := h
    rw [view_platform] at ha
    cases k with
    | zero => exact ⟨s, rfl⟩
    | succ k =>
      simp only [Prog.cut, if_pos ha]
      exact ih _ (hnext _) k
  | write a v next ih =>
    obtain ⟨⟨ha, _⟩, hnext⟩ := h
    rw [view_platform] at ha
    cases k with
    | zero => exact ⟨s, rfl⟩
    | succ k =>
      simp only [Prog.cut, if_pos ha]
      exact ih (s := s.setByte a v) hnext k
  | set u next ih =>
    obtain ⟨_, hnext⟩ := h
    rw [apply_view] at hnext
    cases k with
    | zero => exact ⟨s, rfl⟩
    | succ k => exact ih hnext k
  | fail code stage index => cases k <;> exact ⟨_, rfl⟩

/-- A reset answers: idle there is nothing to cut short, busy what it cuts short is confined. -/
theorem takeReset_answers (h : s.engine.mode = .run → (remaining s).Confined s.view) : ∃ t, takeReset s = .next t := by
  unfold takeReset
  cases hmode : s.engine.mode with
  | idle => exact ⟨_, rfl⟩
  | run =>
    obtain ⟨t, ht⟩ := (h hmode).cut (Config.cutPoint s.draws)
    simp only [cutMem, ht]
    exact ⟨_, rfl⟩

theorem writeCtrl_answers (h : Inv s) (v : Word) : ∃ t, writeCtrl v s = .next t := by
  unfold writeCtrl
  split
  · exact takeReset_answers (remaining_confined h)
  · dsimp only
    split <;> exact ⟨_, rfl⟩

theorem hostRegWrite_answers (h : Inv s) (off : Byte) (v : Word) : ∃ t, hostRegWrite off v s = .next t := by
  unfold hostRegWrite
  split
  · exact ⟨_, rfl⟩
  · split
    · exact ⟨_, rfl⟩
    · exact writeCtrl_answers h v
    · split <;> exact ⟨_, rfl⟩
    · split <;> exact ⟨_, rfl⟩

/-- The level of `rst` is not seen by the instruction a reset cuts short (70_reset_and_hazards.md R300). -/
theorem setRst_answers (h : Inv s) (level : Bool) : ∃ t, setRst level s = .next t := by
  cases level with
  | false => exact ⟨_, rfl⟩
  | true =>
    exact takeReset_answers (s := { s with rst := true }) fun hmode => remaining_confined (s := s) h hmode

end Sys2Proof.Machine
end

section
/-! SUPPORT. The checks at `SETUP` (60_exceptions.md R270): which error each part of a command raises, and that the command ends
with it. -/

namespace Sys2Proof.Machine

variable {ρ α β : Type} {s t : State} {p f h : Plane} {plane : BitVec 2} {fmode : BitVec 3} {il : Bool} {i : Instr}
  {code : ErrCode}

/-- A part of a program raises an error at `SETUP` before it has changed anything. -/
def RaisesAtSetup (q : Eng ρ α) (s : State) (code : ErrCode) : Prop :=
  Answers q s (.error (.halt (s.errorEntry code .setup 0)))

namespace RaisesAtSetup

theorem raise (s : State) (code : ErrCode) : RaisesAtSetup (Machine.raise code .setup 0 : Eng ρ α) s code :=
  Answers.raise code .setup 0 s

/-- What follows is not reached. -/
theorem bind {q : Eng ρ α} (hq : RaisesAtSetup q s code) (r : α → Eng ρ β) : RaisesAtSetup (q >>= r) s code :=
  Answers.bind_error hq

/-- The command ends with the error, and nothing else is changed (60_exceptions.md R275). -/
theorem exec (hi : RaisesAtSetup (program i : Eng Unit Unit) s code) :
    exec i s = .next (s.errorEntry code .setup 0) :=
  (exec_eq_runToEnd i s).trans (Answers.runToEnd hi)

end RaisesAtSetup

/-! ## The checks by their outcome -/

section
variable (p) (regions : State → List Region)

theorem requireBlock_invalidDimensions (hdims : validDims s.regs.width s.regs.height = false) :
    RaisesAtSetup (requireBlock p regions : Eng ρ Unit) s .invalidDimensions := by
  have hchecks := requireBlock_answers (ρ := ρ) p regions s
  rwa [hdims] at hchecks

theorem requireBlock_argumentRange (hdims : validDims s.regs.width s.regs.height = true)
    (hwindow : windowInside s p = false) : RaisesAtSetup (requireBlock p regions : Eng ρ Unit) s .argumentRange := by
  have hchecks := requireBlock_answers (ρ := ρ) p regions s
  rwa [hdims, hwindow] at hchecks

theorem requireBlock_ioFailure (hdims : validDims s.regs.width s.regs.height = true) (hwindow : windowInside s p = true)
    (hbounds : allInBounds s (regions s.view) = false) :
    RaisesAtSetup (requireBlock p regions : Eng ρ Unit) s .ioFailure := by
  have hchecks := requireBlock_answers (ρ := ρ) p regions s
  rwa [hdims, hwindow, hbounds] at hchecks

end

theorem requireResample_invalidDimensions (f h : Plane) (hdims : validDims s.regs.width s.regs.height = false) :
    RaisesAtSetup (requireResample f h : Eng ρ Unit) s .invalidDimensions := by
  have hchecks := requireResample_answers (ρ := ρ) f h s
  rwa [hdims] at hchecks

theorem requireResample_ioFailure (hdims : validDims s.regs.width s.regs.height = true)
    (hbounds : allInBounds s [planeRegion s f, planeRegion s h] = false) :
    RaisesAtSetup (requireResample f h : Eng ρ Unit) s .ioFailure := by
  have hchecks := requireResample_answers (ρ := ρ) f h s
  rwa [hdims, hbounds] at hchecks

theorem requireImage_invalidDimensions (hdims : validDims s.regs.width s.regs.height = false) :
    RaisesAtSetup (requireImage : Eng ρ Unit) s .invalidDimensions := by
  have hchecks := requireImage_answers (ρ := ρ) s
  rwa [hdims] at hchecks

theorem requireImage_ioFailure (hdims : validDims s.regs.width s.regs.height = true)
    (hbounds : allInBounds s (imageAndPlanes s) = false) : RaisesAtSetup (requireImage : Eng ρ Unit) s .ioFailure := by
  have hchecks := requireImage_answers (ρ := ρ) s
  rwa [hdims, hbounds] at hchecks

/-! ## Reserved fields (60_exceptions.md R265) -/

theorem blockPlane_reserved : blockPlane 3 = none := rfl

theorem chromaPlanes_reserved (hplane : plane = 0 ∨ plane = 3) : chromaPlanes plane = none := by
  rcases hplane with rfl | rfl <;> rfl

theorem forcedMode_reserved (hfmode : 4 < fmode.toNat) : forcedMode fmode = none := by
  revert fmode
  decide

/-! ## The single-block commands -/

/-- The single-block commands (10_state.md R29). -/
def SingleBlockCommand (plane : BitVec 2) (fmode : BitVec 3) (i : Instr) : Prop :=
  i = .classify plane ∨ i = .encodeBlock plane fmode ∨ i = .decodeBlock plane

/-- The regions a single-block command checks: ENCODE_BLOCK and DECODE_BLOCK check the stream too. -/
def singleBlockRegions (plane : BitVec 2) (i : Instr) (p : Plane) (s : State) : List Region :=
  if i = .classify plane then [planeRegion s p] else [planeRegion s p, streamRegion s]

theorem singleBlockRegions_view (plane : BitVec 2) (i : Instr) (p : Plane) (s : State) :
    singleBlockRegions plane i p s.view = singleBlockRegions plane i p s := by
  simp only [singleBlockRegions, planeRegion_view, streamRegion_view]

theorem singleBlockRegions_classify (plane : BitVec 2) (p : Plane) :
    singleBlockRegions plane (.classify plane) p = fun s => [planeRegion s p] :=
  funext fun _ => if_pos rfl

theorem singleBlockRegions_encodeBlock (plane : BitVec 2) (fmode : BitVec 3) (p : Plane) :
    singleBlockRegions plane (.encodeBlock plane fmode) p = fun s => [planeRegion s p, streamRegion s] :=
  funext fun _ => if_neg nofun

theorem singleBlockRegions_decodeBlock (plane : BitVec 2) (p : Plane) :
    singleBlockRegions plane (.decodeBlock plane) p = fun s => [planeRegion s p, streamRegion s] :=
  funext fun _ => if_neg nofun

namespace SingleBlockCommand

/-- `PLANE` is the first check. -/
theorem exec_illegalPlane (hi : SingleBlockCommand plane fmode i) (hplane : blockPlane plane = none) :
    exec i s = .next (s.errorEntry .illegalCommand .setup 0) := by
  refine RaisesAtSetup.exec ?_
  rcases hi with rfl | rfl | rfl
  · simp only [program, classifyProgram, hplane]
    exact RaisesAtSetup.raise _ _
  · simp only [program, encodeBlockProgram, hplane]
    exact RaisesAtSetup.raise _ _
  · simp only [program, decodeBlockProgram, hplane]
    exact RaisesAtSetup.raise _ _

/-- With the fields in range, `requireBlock` is the next check. -/
theorem exec_of_check (hi : SingleBlockCommand plane fmode i) (hplane : blockPlane plane = some p)
    (hfmode : i = .encodeBlock plane fmode → fmode.toNat ≤ 4)
    (hcheck : RaisesAtSetup (requireBlock p (singleBlockRegions plane i p) : Eng Unit Unit) s code) :
    exec i s = .next (s.errorEntry code .setup 0) := by
  refine RaisesAtSetup.exec ?_
  rcases hi with rfl | rfl | rfl
  · rw [singleBlockRegions_classify] at hcheck
    simp only [program, classifyProgram, hplane]
    exact hcheck.bind _
  · obtain ⟨forced, hforced, _⟩ := exists_forcedMode (hfmode rfl)
    rw [singleBlockRegions_encodeBlock] at hcheck
    simp only [program, encodeBlockProgram, hplane, hforced]
    exact hcheck.bind _
  · rw [singleBlockRegions_decodeBlock] at hcheck
    simp only [program, decodeBlockProgram, hplane]
    exact hcheck.bind _

end SingleBlockCommand

/-- A reserved `FMODE`, whatever `PLANE` is. -/
theorem exec_encodeBlock_illegalMode (plane : BitVec 2) (hfmode : 4 < fmode.toNat) :
    exec (.encodeBlock plane fmode) s = .next (s.errorEntry .illegalCommand .setup 0) := by
  refine RaisesAtSetup.exec ?_
  simp only [program, encodeBlockProgram, forcedMode_reserved hfmode]
  cases blockPlane plane <;> exact RaisesAtSetup.raise _ _

/-! ## The plane commands -/

/-- `PLANE` is the first check of a resampling command. -/
theorem exec_resample_illegalPlane (hi : i = .downsample plane ∨ i = .upsample plane)
    (hplane : chromaPlanes plane = none) : exec i s = .next (s.errorEntry .illegalCommand .setup 0) := by
  refine RaisesAtSetup.exec ?_
  rcases hi with rfl | rfl
  · simp only [program, downsampleProgram, hplane]
    exact RaisesAtSetup.raise _ _
  · simp only [program, upsampleProgram, hplane]
    exact RaisesAtSetup.raise _ _

theorem exec_resample_of_check (hi : i = .downsample plane ∨ i = .upsample plane)
    (hplane : chromaPlanes plane = some (f, h))
    (hcheck : RaisesAtSetup (requireResample f h : Eng Unit Unit) s code) :
    exec i s = .next (s.errorEntry code .setup 0) := by
  refine RaisesAtSetup.exec ?_
  rcases hi with rfl | rfl
  · simp only [program, downsampleProgram, hplane]
    exact hcheck.bind _
  · simp only [program, upsampleProgram, hplane]
    exact hcheck.bind _

theorem exec_image_of_check (hi : i = .split ∨ i = .merge)
    (hcheck : RaisesAtSetup (requireImage : Eng Unit Unit) s code) : exec i s = .next (s.errorEntry code .setup 0) := by
  refine RaisesAtSetup.exec ?_
  rcases hi with rfl | rfl
  · exact hcheck.bind _
  · exact hcheck.bind _

/-! ## ENCODE_IMAGE -/

theorem exec_encodeImage_illegalMode (il : Bool) (hfmode : 4 < fmode.toNat) :
    exec (.encodeImage fmode il) s = .next (s.errorEntry .illegalCommand .setup 0) := by
  refine RaisesAtSetup.exec ?_
  simp only [program, encodeImageProgram, forcedMode_reserved hfmode]
  exact RaisesAtSetup.raise _ _

section
variable {forced : Option BlockMode} (hforced : forcedMode fmode = some forced)
include hforced

theorem exec_encodeImage_invalidDimensions (hdims : validDims s.regs.width s.regs.height = false) :
    exec (.encodeImage fmode il) s = .next (s.errorEntry .invalidDimensions .setup 0) := by
  refine RaisesAtSetup.exec ?_
  simp only [program, encodeImageProgram_eq hforced]
  refine (Answers.state s).bind ?_
  rw [view_regs, hdims]
  exact (RaisesAtSetup.raise s _).bind _

theorem exec_encodeImage_ioFailure (hdims : validDims s.regs.width s.regs.height = true)
    (hbounds : allInBounds s (streamRegion s :: codecRegions il s) = false) :
    exec (.encodeImage fmode il) s = .next (s.errorEntry .ioFailure .setup 0) := by
  refine RaisesAtSetup.exec ?_
  simp only [program, encodeImageProgram_eq hforced]
  refine (Answers.state s).bind ?_
  rw [view_regs, hdims, allInBounds_view, streamRegion_view, codecRegions_view, hbounds]
  exact (Answers.pure () s).bind ((RaisesAtSetup.raise s _).bind _)

/-- With its checks met and a stream too short for the header, ENCODE_IMAGE ends behind its planes (44_container.md R232). -/
theorem exec_encodeImage_noHeader (hdims : validDims s.regs.width s.regs.height = true)
    (hbounds : allInBounds s (streamRegion s :: codecRegions il s) = true) (hshort : s.regs.streamLen.toNat < 4) :
    ∃ p, Prepared il (s.setStreamPtr 0) p ∧
      exec (.encodeImage fmode il) s = .next (p.errorEntry .ioFailure .header 0) := by
  have hin := (allInBounds_iff _ _).1 hbounds
  obtain ⟨p, hplanes, hp⟩ := preparePlanes_answers (ρ := Unit) (s := s.setStreamPtr 0) (il := il)
    fun r hr => hin r (List.mem_cons_of_mem _ (by cases il <;> exact hr))
  have hheader : Answers (writeHeader : Eng Unit Unit) p (.error (.halt (p.errorEntry .ioFailure .header 0))) := by
    refine (Answers.state p).bind (require_failed ?_)
    rw [view_regs, hp.samePlaces.streamLen]
    omega
  have hprogram : Answers (encodeImageProgram fmode il : Eng Unit Unit) s
      (.error (.halt (p.errorEntry .ioFailure .header 0))) := by
    rw [encodeImageProgram_eq hforced]
    refine (Answers.state s).bind ?_
    rw [view_regs, hdims, allInBounds_view, streamRegion_view, codecRegions_view, hbounds]
    exact (Answers.pure () s).bind ((Answers.pure () s).bind ((Answers.update (.streamPtr 0) s).bind (hplanes.bind
      hheader.bind_error)))
  exact ⟨p, hp, hprogram.runToEnd⟩

end

/-- The planes ENCODE_IMAGE prepares, told from the state before it cleared `STREAM_PTR`. -/
theorem Prepared.planesPrepared (hp : Prepared il (s.setStreamPtr 0) t)
    (hd : (codecRegions il s).Pairwise disjoint) : planesPrepared il s t :=
  hp.planes (by rwa [(samePlaces_setStreamPtr s 0).codecRegions])

/-- Where no region overlaps another, preparing the planes leaves the stream as it was (60_exceptions.md R276). -/
theorem Prepared.stream_sameBytes (hp : Prepared il (s.setStreamPtr 0) t)
    (hd : (streamRegion s :: codecRegions il s).Pairwise disjoint) : SameBytes (streamRegion s) s t := by
  obtain ⟨hstream, _⟩ := List.pairwise_cons.1 hd
  refine fun a ha => sameOutsideAll_byte hp.outside (fun r hr => hstream r ?_) ha
  rw [codecRegions_eq]
  exact List.mem_append_left _ (encodedPlanes_subset il s hr)

end Sys2Proof.Machine
end

section
/-! The statements of 60_exceptions.md, from the facts above. -/

namespace Sys2Proof.Machine

/-- Settles O12: the engine's turns stay inside `MEM`, and the host's moves that are left always answer. -/
theorem stepStopsOnlyOnHostAccess : Obligations.StepStopsOnlyOnHostAccess := by
  intro s h hhost
  cases ha : s.agenda with
  | nil => rw [step_nil ha]; exact (engineNeverLeavesMem s h).1
  | cons head rest =>
    have hrest := h.set_agenda rest
    cases head with
    | engine => rw [step_engine ha]; exact (engineNeverLeavesMem _ hrest).1
    | engineStep => rw [step_engineStep ha]; exact (engineNeverLeavesMem _ hrest).2
    | wait =>
      rw [step_wait ha]
      split
      · exact (engineNeverLeavesMem s h).1
      · exact ⟨_, rfl⟩
    | host m =>
      rcases hhost m rest ha with ⟨off, v, rfl⟩ | ⟨off, rfl⟩ | ⟨level, rfl⟩
      · rw [step_regWrite ha]
        exact hostRegWrite_answers hrest off v
      · exact ⟨_, step_regRead ha⟩
      · rw [step_host ha]
        exact setRst_answers hrest level

/-- Settles O15: every engine step keeps `DONE` set exactly when the engine is idle. -/
theorem endOfCommandSignalsDone : Obligations.EndOfCommandSignalsDone := by
  intro s t hstatus hmode ht
  have hs := SignalsEnd.of_statusOk hstatus hmode
  have hend : SignalsEnd s.regs.irqEn t := ht.elim (engineTurn_signalsEnd hmode hs) (engineStep_signalsEnd hmode hs)
  exact ⟨hend.idle, hend.run⟩

/-- Settles O38: the reserved fields end the command before `requireBlock`, whose checks follow in order. -/
theorem singleBlockCheckOrder : Obligations.SingleBlockCheckOrder := by
  intro s plane fmode i hi
  have hcommand : SingleBlockCommand plane fmode i := hi
  refine ⟨?_, ?_, fun p hplane hfmode => ?_⟩
  · rintro rfl
    exact hcommand.exec_illegalPlane blockPlane_reserved
  · rintro rfl hfmode
    exact exec_encodeBlock_illegalMode plane hfmode
  · refine ⟨fun hdims => ?_, fun hdims hwindow => ?_, fun hdims hwindow hbounds => ?_⟩
    · exact hcommand.exec_of_check hplane hfmode (requireBlock_invalidDimensions p _ hdims)
    · exact hcommand.exec_of_check hplane hfmode (requireBlock_argumentRange p _ hdims hwindow)
    · refine hcommand.exec_of_check hplane hfmode (requireBlock_ioFailure p _ hdims hwindow ?_)
      rw [singleBlockRegions_view]
      exact hbounds

/-- Settles O55: the checks of the resampling commands, and of SPLIT and MERGE, each by its outcome. -/
theorem planeCommandCheckOrder : Obligations.PlaneCommandCheckOrder := by
  intro s plane f h i j hi hj
  refine ⟨fun hplane => exec_resample_illegalPlane hi (chromaPlanes_reserved hplane), fun hdims => ?_, fun hdims => ?_⟩
  · exact ⟨fun hplane => exec_resample_of_check hi hplane (requireResample_invalidDimensions f h hdims),
      exec_image_of_check hj (requireImage_invalidDimensions hdims)⟩
  · exact ⟨fun hplane hbounds => exec_resample_of_check hi hplane (requireResample_ioFailure hdims hbounds),
      fun hbounds => exec_image_of_check hj (requireImage_ioFailure hdims hbounds)⟩

/-- Settles O58: the checks in order, then the planes are prepared, and only then the header does not fit. -/
theorem encodeImageErrors : Obligations.EncodeImageErrors := by
  intro s fmode il
  refine ⟨exec_encodeImage_illegalMode il, fun hfmode => ?_⟩
  obtain ⟨forced, hforced, _⟩ := exists_forcedMode hfmode
  refine ⟨exec_encodeImage_invalidDimensions hforced, fun hdims => ⟨exec_encodeImage_ioFailure hforced hdims, ?_⟩⟩
  intro hbounds hshort
  obtain ⟨p, hp, hexec⟩ := exec_encodeImage_noHeader hforced hdims hbounds hshort
  have hregs : p.regs = { s.regs with streamPtr := 0 } := by
    rw [hp.changed.memOnly]
    rfl
  refine ⟨_, hexec, rfl, rfl, hregs, hp.outside, fun hd => ⟨?_, hp.stream_sameBytes hd⟩⟩
  exact hp.planesPrepared (List.pairwise_cons.1 hd).2

/-- Settles O22: the write to `STATUS` is the acknowledge. -/
theorem acknowledgeClears : Obligations.AcknowledgeClears := by
  intro s off v rest hrst hidle ha hoff
  rw [step_regWrite ha]
  exact hostRegWrite_status (s := { s with agenda := rest }) v hrst hidle (regAt_status hoff)

/-- Settles O27: the fields of the error entry. -/
theorem errorEntryRecordsTheError : Obligations.ErrorEntryRecordsTheError := fun s code stage n =>
  ⟨rfl, rfl, rfl, rfl, rfl, errorEntry_busy s code stage n, errorEntry_irq s code stage n, rfl, rfl, rfl,
    errorEntry_sameSurroundings s code stage n⟩

/-- Settles O29: both opcodes decode to the instruction whose program only raises the error. -/
theorem reservedOpcodesRaiseIllegalCommand : Obligations.ReservedOpcodesRaiseIllegalCommand := by
  intro low s
  rw [decodeCmd_reserved]
  have hexec : exec (.illegalCommand low) s = .next (s.errorEntry .illegalCommand .setup 0) :=
    RaisesAtSetup.exec (RaisesAtSetup.raise s _)
  exact ⟨hexec, hexec⟩

end Sys2Proof.Machine
end

section
/-! SUPPORT. An engine step against the rest of its instruction (60_exceptions.md R271): it is the instruction's last, or it
leaves the engine inside the same instruction, with one step less to go. -/

namespace Sys2Proof.Machine

variable {ρ : Type} {s t : State}

/-! ## Changes past every step -/

/-- What a change past every engine step leaves alone before a run, it leaves alone after it. -/
theorem Unread.fixed_lastState_run {f : State → State} (hf : Unread f) {p : Prog Unit} (hs : f s = s)
    (ht : lastState (p.run s) = .next t) : f t = t := by
  have hrun := run_map hf p s
  rw [hs] at hrun
  rcases h : p.run s with (u | e) | ⟨a, u⟩
  · rw [h] at hrun ht
    cases ht
    injection hrun with hrun
    injection hrun with hrun
    exact hrun.symm
  · rw [h] at ht
    cases ht
  · rw [h] at hrun ht
    cases ht
    injection hrun with hrun
    injection hrun with _ hrun
    exact hrun.symm

theorem set_agenda_self {l : List Turn} (h : s.agenda = l) : { s with agenda := l } = s := by
  rw [← h]

theorem atBoundary_self (h : s.engine.underway = none) : s.atBoundary = s := by
  unfold State.atBoundary
  rw [← h]

/-! ## The steps left of a program -/

/-- How many engine steps the run of a program makes. -/
def Prog.steps : Prog ρ → State → Nat
  | .finish _, _ => 0
  | .look next, s => (next s.view).steps s
  | .read a next, s => (next (s.byte a)).steps s + 1
  | .write a v next, s => next.steps (s.setByte a v) + 1
  | .set u next, s => next.steps (u.apply s) + 1
  | .fail _ _ _, _ => 1

/-- After `n` steps, `n` fewer are left. -/
theorem walk_steps {p : Prog ρ} {n : Nat} {l : List (Option Byte)} (h : p.walk n s = some (l, t)) :
    p.steps s = (p.replay s.view l).steps t + n := by
  induction p generalizing n s l with
  | finish a => cases h
  | look next ih => exact ih s.view h
  | read a next ih =>
    cases n with
    | zero => cases h; rfl
    | succ n =>
      simp only [Prog.walk, Option.ite_none_right_eq_some, Option.map_eq_some_iff, Prod.exists, Prod.mk.injEq] at h
      obtain ⟨_, l', t', hw, rfl, rfl⟩ := h
      exact congrArg (· + 1) (ih _ hw)
  | write a v next ih =>
    cases n with
    | zero => cases h; rfl
    | succ n =>
      simp only [Prog.walk, Option.ite_none_right_eq_some, Option.map_eq_some_iff, Prod.exists, Prod.mk.injEq] at h
      obtain ⟨_, l', t', hw, rfl, rfl⟩ := h
      exact congrArg (· + 1) (ih hw)
  | set u next ih =>
    cases n with
    | zero => cases h; rfl
    | succ n =>
      simp only [Prog.walk, Option.map_eq_some_iff, Prod.exists, Prod.mk.injEq] at h
      obtain ⟨l', t', hw, rfl, rfl⟩ := h
      simp only [Prog.replay, apply_view]
      exact congrArg (· + 1) (ih hw)
  | fail code stage index =>
    cases n with
    | zero => cases h; rfl
    | succ n => cases h

/-- What is left after some steps and then others is what the others leave of what the first left. -/
theorem walk_replay_append {p : Prog ρ} {n : Nat} {l : List (Option Byte)} (h : p.walk n s = some (l, t))
    (l' : List (Option Byte)) : p.replay s.view (l ++ l') = (p.replay s.view l).replay t.view l' := by
  induction p generalizing n s l with
  | finish a => cases h
  | look next ih => exact ih s.view h
  | read a next ih =>
    cases n with
    | zero => cases h; rfl
    | succ n =>
      simp only [Prog.walk, Option.ite_none_right_eq_some, Option.map_eq_some_iff, Prod.exists, Prod.mk.injEq] at h
      obtain ⟨_, l₁, t', hw, rfl, rfl⟩ := h
      exact ih _ hw
  | write a v next ih =>
    cases n with
    | zero => cases h; rfl
    | succ n =>
      simp only [Prog.walk, Option.ite_none_right_eq_some, Option.map_eq_some_iff, Prod.exists, Prod.mk.injEq] at h
      obtain ⟨_, l₁, t', hw, rfl, rfl⟩ := h
      exact ih (s := s.setByte a v) hw
  | set u next ih =>
    cases n with
    | zero => cases h; rfl
    | succ n =>
      simp only [Prog.walk, Option.map_eq_some_iff, Prod.exists, Prod.mk.injEq] at h
      obtain ⟨l₁, t', hw, rfl, rfl⟩ := h
      simp only [List.cons_append, Prog.replay, apply_view]
      exact ih hw
  | fail code stage index =>
    cases n with
    | zero => cases h; rfl
    | succ n => cases h

/-! ## One step of a program -/

/-- A step that others follow is the first step of a walk. -/
theorem walk_one_of_more {p : Prog Unit} {a : Option Byte} (h : p.once s = .more a t) : p.walk 1 s = some ([a], t) := by
  rcases settle_finish_or_walk p s with ⟨_, hfinish, _⟩ | ⟨hwalk, _⟩
  · simp [Prog.once, hfinish] at h
  · have hfirst := walk_first hwalk
    rw [h] at hfirst
    exact hfirst

/-- The last step of a program ends its run. -/
theorem lastState_run_of_ended {p : Prog Unit} (h : p.once s = .ended t) : lastState (p.run s) = .next t := by
  rcases settle_finish_or_walk p s with ⟨_, hfinish, hrun⟩ | ⟨hwalk, _⟩
  · simp only [Prog.once, hfinish, Stepped.ended.injEq] at h
    rw [hrun, ← h]
    rfl
  · have hfirst := walk_first hwalk
    rw [h] at hfirst
    exact hfirst

theorem cut_of_settle_finish {p : Prog ρ} {a : ρ} (h : p.settle s = .finish a) (k : Nat) : p.cut k s = .ok s := by
  induction p with
  | finish a => rfl
  | look next ih => exact ih s.view h
  | read a next => cases h
  | write a v next => cases h
  | set u next => cases h
  | fail code stage index => cases h

theorem cut_zero (p : Prog ρ) (s : State) : p.cut 0 s = .ok s := by
  induction p with
  | look next ih => exact ih s.view
  | finish a => rfl
  | read a next => rfl
  | write a v next => rfl
  | set u next => rfl
  | fail code stage index => rfl

/-- A reset after the last step of a program finds what that step left. -/
theorem cut_of_ended {p : Prog ρ} (h : p.once s = .ended t) (k : Nat) : p.cut (k + 1) s = .ok t := by
  have after {q : Prog ρ} {a : Option Byte} {u : State} (h : q.afterStep a u = .ended t) : q.cut k u = .ok t := by
    unfold Prog.afterStep at h
    split at h
    · next hfinish =>
      cases h
      exact cut_of_settle_finish hfinish k
    · cases h
  induction p with
  | finish a => cases h; rfl
  | look next ih => exact ih s.view h
  | read a next =>
    by_cases ha : a < s.platform.memBytes
    · simp only [Prog.once, Prog.settle, ha, if_true] at h
      simp only [Prog.cut, ha, if_true]
      exact after h
    · simp [Prog.once, Prog.settle, ha] at h
  | write a v next =>
    by_cases ha : a < s.platform.memBytes
    · simp only [Prog.once, Prog.settle, ha, if_true] at h
      simp only [Prog.cut, ha, if_true]
      exact after h
    · simp [Prog.once, Prog.settle, ha] at h
  | set u next => exact after h
  | fail code stage index => cases h; rfl

/-! ## One step of the engine -/

/-- The engine inside its instruction, one step past `s`, which left `t`. -/
def inside (s t : State) (answer : Option Byte) : State :=
  { t with engine := { t.engine with underway := some (noteStep s answer) } }

/-- What is left of an instruction past a step that others follow. -/
theorem remaining_inside {answer : Option Byte} (h : Inv s) (hmode : s.engine.mode = .run)
    (hmore : (remaining s).once s.atBoundary = .more answer t) :
    remaining (inside s t answer) = (remaining s).replay s.view [answer] := by
  have hkept := (remaining_safe h hmode).once (s := s.atBoundary) (h.engineInv hmode)
  rw [hmore] at hkept
  obtain ⟨_, m, g, rfl⟩ := hkept
  cases hu : s.engine.underway with
  | none =>
    simp only [inside, remaining, noteStep, hu]
    rfl
  | some u =>
    obtain ⟨_, m, _, hwalk⟩ := h.underway u hu
    simp only [inside, remaining, noteStep, hu]
    exact walk_replay_append hwalk [answer]

/-- How many steps are left of the engine's current instruction. -/
def stepsLeft (s : State) : Nat := (remaining s).steps s.atBoundary

theorem cutMem_eq (k : Nat) (s : State) : cutMem k s = ((remaining s).cut k s.atBoundary).map (·.mem) := by
  have hcut := cut_map (unread_underway none) (remaining s) k s
  unfold cutMem State.atBoundary
  rw [hcut]
  cases (remaining s).cut k s <;> rfl

/-- The engine step to `t` is the last of its instruction. -/
structure LastStep (s t : State) : Prop where
  turn : engineTurn s = .next t
  cut : ∀ k, cutMem (k + 1) s = .ok t.mem

/-- The engine step to `t` leaves the engine inside its instruction. -/
structure InnerStep (s t : State) : Prop where
  mode : t.engine.mode = .run
  turn : engineTurn t = engineTurn s
  cut : ∀ k, cutMem k t = cutMem (k + 1) s
  steps : stepsLeft s = stepsLeft t + 1

theorem lastStep_of_ended (hmode : s.engine.mode = .run) (hended : (remaining s).once s.atBoundary = .ended t) :
    LastStep s t where
  turn := (engineTurn_run hmode).trans (lastState_run_of_ended hended)
  cut k := by rw [cutMem_eq, cut_of_ended hended]; rfl

theorem innerStep_of_more {answer : Option Byte} (h : Inv s) (hmode : s.engine.mode = .run)
    (hmore : (remaining s).once s.atBoundary = .more answer t) (hinv : Inv (inside s t answer)) :
    InnerStep s (inside s t answer) := by
  have hwalk := walk_one_of_more hmore
  have hrest := remaining_inside h hmode hmore
  obtain ⟨hinside, _⟩ := hinv.underway _ rfl
  have hkept := (remaining_safe h hmode).once (s := s.atBoundary) (h.engineInv hmode)
  rw [hmore] at hkept
  have hboundary : (inside s t answer).atBoundary = t := atBoundary_self (s := t) hkept.1.underway
  refine ⟨hinside, ?_, fun k => ?_, ?_⟩
  · rw [engineTurn_run hinside, engineTurn_run hmode, hrest, hboundary]
    exact congrArg lastState (walk_run hwalk).symm
  · rw [cutMem_eq, cutMem_eq, hrest, hboundary, Nat.add_comm k 1, walk_cut k hwalk]
    rfl
  · rw [stepsLeft, stepsLeft, hrest, hboundary]
    exact walk_steps hwalk

/-- What one engine step can do (60_exceptions.md R271). -/
theorem engineStep_cases (h : Inv s) (hmode : s.engine.mode = .run) :
    ∃ t, engineStep s = .next t ∧ (LastStep s t ∨ InnerStep s t) := by
  obtain ⟨t, ht⟩ := (engineNeverLeavesMem s h).2
  have hinv := engineStep_keeps_inv h ht
  have honce : (remaining s).once s.atBoundary = ((remaining s).once s).map State.atBoundary :=
    once_map (unread_underway none) _ s
  refine ⟨t, ht, ?_⟩
  rw [engineStep_run hmode] at ht
  cases hstep : (remaining s).once s with
  | fault f => rw [hstep] at ht; cases ht
  | ended u =>
    rw [hstep] at ht honce
    cases ht
    exact .inl (lastStep_of_ended hmode honce)
  | more answer u =>
    rw [hstep] at ht honce
    cases ht
    exact .inr (innerStep_of_more (t := u.atBoundary) h hmode honce hinv)

end Sys2Proof.Machine
end

section
/-! SUPPORT. How a turn of the engine leaves the command (70_reset_and_hazards.md R307): idle, or at a record or at its end with
fewer records to come. -/

namespace Sys2Proof.Machine

variable {ρ α : Type} {s t : State} {R : Regs → Regs → Prop} {P : State → Prop}

/-! ## What a program leaves the engine at -/

/-- An error leaves the engine idle (60_exceptions.md R275). -/
theorem run_halt_idle {p : Prog ρ} (h : p.run s = .error (.halt t)) : t.engine.mode = .idle := by
  induction p generalizing s with
  | finish a => cases h
  | look next ih => exact ih _ h
  | read a next ih =>
    simp only [Prog.run] at h
    split at h
    · exact ih _ h
    · cases h
  | write a v next ih =>
    simp only [Prog.run] at h
    split at h
    · exact ih h
    · cases h
  | set u next ih => exact ih h
  | fail code stage index => cases h; rfl

/-- A program that, run to its end, leaves the engine idle or a state with `P`. -/
def LeavesIdleOr (P : State → Prop) (p : Eng Unit Unit) : Prop :=
  ∀ s t, runToEnd p s = .next t → t.engine.mode = .idle ∨ P t

namespace LeavesIdleOr

theorem done : LeavesIdleOr P Machine.done := by
  rintro s _ ⟨⟩
  exact .inl rfl

theorem update {u : RegUpdate} (h : ∀ s, P (u.apply s)) : LeavesIdleOr P (Machine.update u) := by
  rintro s _ ⟨⟩
  exact .inr (h s)

theorem raise {code : ErrCode} {stage : ErrStage} {index : Nat} : LeavesIdleOr P (Machine.raise code stage index) := by
  rintro s _ ⟨⟩
  exact .inl rfl

/-- The last part of a program decides what the program leaves; `R` is what is known of the registers the part before it
writes. -/
theorem bind {p : Eng Unit α} {f : α → Eng Unit Unit} (hR : ∀ g, R g g) (hp : ∀ g, KeepsRegs (R g) p)
    (hf : ∀ a, LeavesIdleOr P (f a)) : LeavesIdleOr P (p >>= f) := by
  intro s t ht
  obtain ⟨o, ho, _⟩ := hp s.regs s s ⟨⟨rfl, rfl, rfl, rfl, rfl⟩, rfl, hR _⟩
  have hrun : ((p >>= f) .finish).run s = andThen o fun a => f a .finish := ho _
  rcases o with (u | e) | ⟨a, u⟩
  · rw [runToEnd, hrun] at ht
    cases ht
    exact .inl (run_halt_idle hrun)
  · rw [runToEnd, hrun] at ht
    cases ht
  · rw [runToEnd, hrun] at ht
    exact hf a u t ht

/-- A part whose registers do not matter for what follows it. -/
theorem after {p : Eng Unit α} {f : α → Eng Unit Unit} (hp : KeepsRegs (fun _ => True) p)
    (hf : ∀ a, LeavesIdleOr P (f a)) : LeavesIdleOr P (p >>= f) :=
  bind (R := fun _ _ => True) (fun _ => trivial) (fun _ => hp) hf

end LeavesIdleOr

theorem keepsRegs_update (u : RegUpdate) : KeepsRegs (fun _ => True) (update u : Eng ρ Unit) :=
  KeepsRegs.update fun _ h => h

/-! ## The commands -/

/-- The engine stands at a record. -/
def AtRecord (s : State) : Prop := s.engine.phase = .record

theorem packProgram_leaves (w : Nat) : LeavesIdleOr P (packProgram w) :=
  .after .state fun _ => .after .require fun _ => .after (.forN _ fun _ => (KeepsRegs.listN _ fun _ => .memRead _).bind
    fun _ => .memWrite _ _) fun _ => .done

theorem unpackProgram_leaves (w : Nat) : LeavesIdleOr P (unpackProgram w) :=
  .after .state fun _ => .after .require fun _ => .after (.forN _ fun _ => (KeepsRegs.memRead _).bind fun _ =>
    .forN _ fun _ => .memWrite _ _) fun _ => .done

theorem classifyProgram_leaves (plane : BitVec 2) : LeavesIdleOr P (classifyProgram plane) := by
  unfold classifyProgram
  cases blockPlane plane with
  | none => exact .raise
  | some p =>
    exact .after (requireBlock_keepsRegs _ _) fun _ => .after .state fun _ => .after (readWindow_keepsRegs _) fun _ =>
      .after (keepsRegs_update _) fun _ => .done

theorem encodeBlockProgram_leaves (plane : BitVec 2) (fmode : BitVec 3) : LeavesIdleOr P (encodeBlockProgram plane fmode) := by
  unfold encodeBlockProgram
  cases blockPlane plane with
  | none => exact .raise
  | some p =>
    cases forcedMode fmode with
    | none => exact .raise
    | some forced =>
      exact .after (requireBlock_keepsRegs _ _) fun _ => .after .state fun _ =>
        .bind (R := EncoderRegs) (fun _ => rfl) (fun _ => encodeStep_keepsRegs _ _) fun _ => .done

theorem downsampleProgram_leaves (plane : BitVec 2) : LeavesIdleOr P (downsampleProgram plane) := by
  unfold downsampleProgram
  cases chromaPlanes plane with
  | none => exact .raise
  | some planes => exact .after (requireResample_keepsRegs _ _) fun _ => .after (downsampleBody_keepsRegs _ _) fun _ => .done

theorem upsampleProgram_leaves (plane : BitVec 2) : LeavesIdleOr P (upsampleProgram plane) := by
  unfold upsampleProgram
  cases chromaPlanes plane with
  | none => exact .raise
  | some planes => exact .after (requireResample_keepsRegs _ _) fun _ => .after (upsampleBody_keepsRegs _ _) fun _ => .done

theorem splitProgram_leaves : LeavesIdleOr P splitProgram :=
  .after requireImage_keepsRegs fun _ => .after splitBody_keepsRegs fun _ => .done

theorem mergeProgram_leaves : LeavesIdleOr P mergeProgram :=
  .after requireImage_keepsRegs fun _ => .after mergeBody_keepsRegs fun _ => .done

theorem preparePlanes_keepsRegs {Q : Regs → Prop} (il : Bool) : KeepsRegs Q (preparePlanes il : Eng ρ Unit) := by
  have hplanes : KeepsRegs Q (do downsampleBody .cbf .cbh; downsampleBody .crf .crh : Eng ρ Unit) :=
    (downsampleBody_keepsRegs _ _).bind fun _ => downsampleBody_keepsRegs _ _
  cases il with
  | false => exact hplanes
  | true => exact splitBody_keepsRegs.bind fun _ => hplanes

theorem encodeImageProgram_leaves (fmode : BitVec 3) (il : Bool) : LeavesIdleOr P (encodeImageProgram fmode il) := by
  cases hforced : forcedMode fmode with
  | none =>
    unfold encodeImageProgram
    rw [hforced]
    exact .raise
  | some forced =>
    rw [encodeImageProgram_eq hforced]
    exact .after .state fun _ => .after .require fun _ => .after .require fun _ => .after (keepsRegs_update _) fun _ =>
      .after (preparePlanes_keepsRegs il) fun _ =>
        .bind (R := EncoderRegs) (fun _ => rfl) (fun _ => writeHeader_keepsRegs) fun _ =>
          .bind (R := EncoderRegs) (fun _ => rfl) (fun _ => .forN _ fun _ => encodeStep_keepsRegs _ _) fun _ => .done

/-- DECODE_BLOCK raises an error, or comes to its record (42_block_codec.md R178). -/
theorem decodeBlockProgram_leaves (plane : BitVec 2) : LeavesIdleOr AtRecord (decodeBlockProgram plane) := by
  unfold decodeBlockProgram
  cases blockPlane plane with
  | none => exact .raise
  | some p => exact .after (requireBlock_keepsRegs _ _) fun _ => .after .state fun _ => .update fun _ => rfl

/-- DECODE_IMAGE raises an error, or comes to its first record (44_container.md R238). -/
theorem decodeImageProgram_leaves (il : Bool) : LeavesIdleOr AtRecord (decodeImageProgram il) :=
  .after .state fun _ => .after .require fun _ => .after (keepsRegs_update _) fun _ =>
    .bind (R := HeaderRegs) (fun _ => rfl) (fun _ => readHeader_keepsRegs) fun _ => .after .state fun _ => .after .require fun _ =>
      .after .require fun _ => .update fun _ => rfl

/-- A command ends, or comes to its first record. -/
theorem program_leaves {i : Instr} (hi : i.format = .command) : LeavesIdleOr AtRecord (program i) := by
  cases i with
  | nop => exact .done
  | pack2 => exact packProgram_leaves 2
  | pack4 => exact packProgram_leaves 4
  | unpack2 => exact unpackProgram_leaves 2
  | unpack4 => exact unpackProgram_leaves 4
  | classify plane => exact classifyProgram_leaves plane
  | encodeBlock plane fmode => exact encodeBlockProgram_leaves plane fmode
  | decodeBlock plane => exact decodeBlockProgram_leaves plane
  | downsample plane => exact downsampleProgram_leaves plane
  | upsample plane => exact upsampleProgram_leaves plane
  | split => exact splitProgram_leaves
  | merge => exact mergeProgram_leaves
  | encodeImage fmode il => exact encodeImageProgram_leaves fmode il
  | decodeImage il => exact decodeImageProgram_leaves il
  | illegalCommand low => exact .raise
  | _ => exact absurd hi nofun

/-- A decoding command ends behind its last record. -/
theorem finishProgram_leaves (s : State) : LeavesIdleOr P (finishProgram s) := by
  unfold finishProgram
  cases runningCommand s with
  | decodeImage il =>
    refine .after (upsampleBody_keepsRegs _ _) fun _ => .after (upsampleBody_keepsRegs _ _) fun _ => ?_
    cases il with
    | false => exact .done
    | true => exact .after mergeBody_keepsRegs fun _ => .done
  | _ => exact .done

/-! ## A record -/

/-- The current block of a decoding command fits its plane. -/
theorem blockFits_of_positionOk (hmode : s.engine.mode = .run) (hphase : s.engine.phase ≠ .command) (h : positionOk s) :
    blockFits s s.engine.block := by
  obtain ⟨hdims, hdecoding⟩ := h hmode hphase
  obtain ⟨_, hin, _, hplane⟩ := decodingOk_checked hphase hdims hdecoding
  exact ⟨hin.1, fun _ _ => blockAddr_lt hin hplane⟩

/-- The turn of a record raises an error, or goes on behind the record, with `MEM` changed only. -/
theorem recordTurn_leaves (hfits : blockFits s s.engine.block) (ht : recordTurn s = .next t) :
    t.engine.mode = .idle ∨ ∃ len m, t = afterRecord len { s with mem := m } := by
  obtain ⟨o, ho, hres⟩ := fetchInstr_hoare (ρ := Instr × Nat) s s rfl
  have hfetch : Prog.run (fetchInstr .finish) s = andThen o Prog.finish := ho .finish
  unfold recordTurn at ht
  rw [hfetch] at ht
  rcases o with (u | f) | ⟨⟨i, len⟩, u⟩
  · cases ht
    exact .inl (run_halt_idle hfetch)
  · cases ht
  · obtain ⟨rfl, c, r, samples, hi⟩ := hres
    obtain rfl : i = recordInstr c r samples := hi
    obtain ⟨m, hexec, _, _⟩ := exists_recordRun (recordInstr_format c r samples) hfits
    simp only [andThen, Prog.run, hexec] at ht
    cases ht
    exact .inr ⟨len, m, rfl⟩

/-! ## The turns of a command -/

/-- How many records of the running command are still to come, the current one among them. -/
def recordsLeft (s : State) : Nat :=
  match s.engine.phase with
  | .record => recordTotal s - s.engine.block.index
  | _ => 0

/-- The current record is one of the command's records. -/
theorem index_lt_recordTotal (h : decodingOk s) : s.engine.block.index < recordTotal s := by
  unfold decodingOk at h
  cases hi : runningCommand s with
  | decodeBlock plane =>
    rw [hi] at h
    obtain ⟨p, _, hb, _⟩ := h
    rw [hb, recordTotal_decodeBlock hi]
    exact Nat.one_pos
  | decodeImage il =>
    rw [hi] at h
    obtain ⟨⟨n, hn, hb⟩, _⟩ := h
    rw [hb, recordTotal_decodeImage hi, blockAt_index]
    exact hn
  | _ => rw [hi] at h; exact h.elim

/-- Behind a record the engine stands at a record with fewer to come, or at the end. -/
theorem recordsLeft_afterRecord (len : Nat) (hphase : s.engine.phase = .record)
    (hindex : s.engine.block.index < recordTotal s) :
    (afterRecord len s).engine.phase ≠ .command ∧ recordsLeft (afterRecord len s) < recordsLeft s := by
  have hs : recordsLeft s = recordTotal s - s.engine.block.index := by rw [recordsLeft, hphase]
  by_cases hlt : s.engine.block.index + 1 < recordTotal s
  · rw [afterRecord_of_lt len hlt, hs]
    refine ⟨nofun, ?_⟩
    show recordTotal s - (blockAt (imageWidth s) (s.engine.block.index + 1)).index < _
    rw [blockAt_index]
    omega
  · rw [afterRecord_of_not_lt len hlt, hs]
    refine ⟨nofun, ?_⟩
    show 0 < _
    omega

/-- The turn that runs the current instruction is the turn from the instruction's begin. -/
theorem exists_entry (h : Inv s) (hmode : s.engine.mode = .run) :
    ∃ e, e.engine = s.atBoundary.engine ∧ positionOk e ∧ engineTurn e = engineTurn s := by
  cases hu : s.engine.underway with
  | none => exact ⟨s, by rw [atBoundary_self hu], h.position, rfl⟩
  | some u =>
    obtain ⟨_, m, hentry, hwalk⟩ := h.underway u hu
    refine ⟨entryState s u m, rfl, hentry, ?_⟩
    rw [engineTurn_run (s := entryState s u m) hmode, engineTurn_run hmode]
    have hremaining : remaining s = (stretch s .finish).replay (entryState s u m).view u.answers := by
      rw [remaining, hu]
      rfl
    rw [hremaining]
    exact congrArg lastState (walk_run hwalk)

/-- What a turn leaves the engine at, from an instruction's begin. -/
theorem engineTurn_leaves (hmode : s.engine.mode = .run) (hu : s.engine.underway = none) (hpos : positionOk s)
    (ht : engineTurn s = .next t) : t.engine.mode = .idle ∨ t.engine.phase ≠ .command ∧
      (s.engine.phase ≠ .command → recordsLeft t < recordsLeft s) := by
  cases hphase : s.engine.phase with
  | command =>
    rw [engineTurn_command hmode hu hphase, exec_eq_runToEnd] at ht
    refine (program_leaves (decodeCmd_format _) s t ht).imp_right fun hrecord => ?_
    rw [show t.engine.phase = .record from hrecord]
    exact ⟨nofun, fun h => absurd rfl h⟩
  | record =>
    have hphase' : s.engine.phase ≠ .command := by rw [hphase]; decide
    obtain ⟨_, hdecoding⟩ := hpos hmode hphase'
    rw [engineTurn_record hmode hu hphase] at ht
    refine (recordTurn_leaves (blockFits_of_positionOk hmode hphase' hpos) ht).imp_right ?_
    rintro ⟨len, m, rfl⟩
    obtain ⟨hbehind, hfewer⟩ :=
      recordsLeft_afterRecord (s := { s with mem := m }) len hphase (index_lt_recordTotal hdecoding)
    exact ⟨hbehind, fun _ => hfewer⟩
  | finish =>
    rw [engineTurn_finish hmode hu hphase] at ht
    exact .inl ((finishProgram_leaves (P := fun _ => False) s s t ht).elim id False.elim)

/-- The engine runs a command of which no step of the next instruction is made, and has come past the command's first part. -/
structure AtInstruction (s : State) : Prop where
  mode : s.engine.mode = .run
  underway : s.engine.underway = none
  phase : s.engine.phase ≠ .command

/-- A turn ends the command, or comes to its next record or its end. -/
theorem engineTurn_ends_or_advances (h : Inv s) (hmode : s.engine.mode = .run) (ht : engineTurn s = .next t) :
    t.engine.mode = .idle ∨ AtInstruction t ∧ (AtInstruction s → recordsLeft t < recordsLeft s) := by
  cases hrun : t.engine.mode with
  | idle => exact .inl rfl
  | run =>
    have hunderway : t.engine.underway = none := by
      rw [engineTurn_run hmode] at ht
      have hfixed := (unread_underway none).fixed_lastState_run (s := s.atBoundary) rfl ht
      rw [← hfixed]
    have hidle : ¬t.engine.mode = .idle := by rw [hrun]; decide
    obtain ⟨e, hengine, hpos, hturn⟩ := exists_entry h hmode
    have he := (engineTurn_leaves (by rw [hengine]; exact hmode) (by rw [hengine]; rfl) hpos
      (hturn.trans ht)).resolve_left hidle
    refine .inr ⟨⟨hrun, hunderway, he.1⟩, fun hs => ?_⟩
    exact ((engineTurn_leaves hmode hs.underway h.position ht).resolve_left hidle).2 hs.phase

end Sys2Proof.Machine
end

section
/-! SUPPORT. Runs by single engine steps (60_exceptions.md R271): the turn is a number of them, a cut instruction is a number of
them, and a running command ends by turns and by steps (70_reset_and_hazards.md R301, R307). -/

namespace Sys2Proof.Machine

variable {s t u : State}

/-! ## Single steps pending -/

/-- The machine with `n` engine steps pending, and nothing else. -/
def withSteps (n : Nat) (s : State) : State := { s with agenda := List.replicate n .engineStep }

/-- What is pending is not seen by an engine step. -/
theorem engineStep_agenda (l : List Turn) (h : engineStep s = .next t) :
    engineStep { s with agenda := l } = .next { t with agenda := l } := by
  cases hmode : s.engine.mode with
  | idle =>
    rw [engineStep_idle hmode] at h
    cases h
    exact engineStep_idle hmode
  | run =>
    have honce : (remaining s).once { s with agenda := l } = ((remaining s).once s).map fun s => { s with agenda := l } :=
      once_map (unread_agenda l) _ s
    rw [engineStep_run hmode] at h
    rw [engineStep_run (s := { s with agenda := l }) hmode, show remaining { s with agenda := l } = remaining s from rfl, honce]
    cases hstep : (remaining s).once s with
    | more answer u => rw [hstep] at h; cases h; rfl
    | ended u => rw [hstep] at h; cases h; rfl
    | fault f => rw [hstep] at h; cases h

theorem run_withSteps_succ (n : Nat) (h : engineStep s = .next t) :
    Host.Core.run Sys2Proof.core (n + 1) (withSteps (n + 1) s) = Host.Core.run Sys2Proof.core n (withSteps n t) :=
  run_succ_of_step n ((step_engineStep rfl).trans (engineStep_agenda (s := s) (List.replicate n .engineStep) h))

/-- Engine steps, at least one, lead from `s` to `t`, whatever engine steps are pending behind them. -/
def ReachedBySteps (s t : State) : Prop :=
  ∃ n, 0 < n ∧ ∀ m,
    Host.Core.run Sys2Proof.core (m + n) (withSteps (m + n) s) = Host.Core.run Sys2Proof.core m (withSteps m t)

theorem ReachedBySteps.one (h : engineStep s = .next t) : ReachedBySteps s t :=
  ⟨1, Nat.one_pos, fun m => run_withSteps_succ m h⟩

theorem ReachedBySteps.head (h : engineStep s = .next u) (hu : ReachedBySteps u t) : ReachedBySteps s t := by
  obtain ⟨n, _, hrun⟩ := hu
  exact ⟨n + 1, Nat.succ_pos n, fun m => (run_withSteps_succ (m + n) h).trans (hrun m)⟩

/-- The engine's turn is what the steps left of its instruction add up to (60_exceptions.md R271; log 3). -/
theorem reachedBySteps_of_engineTurn (h : Inv s) (hmode : s.engine.mode = .run) (ht : engineTurn s = .next t) :
    ReachedBySteps s t := by
  induction hn : stepsLeft s using Nat.strong_induction_on generalizing s with
  | _ n ih =>
    obtain ⟨u, hstep, hlast | hinner⟩ := engineStep_cases h hmode
    · obtain rfl : u = t := Host.Outcome.next.inj (hlast.turn.symm.trans ht)
      exact .one hstep
    · have hfewer : stepsLeft u < n := by rw [← hn, hinner.steps]; exact Nat.lt_succ_self _
      exact .head hstep (ih _ hfewer (engineStep_keeps_inv h hstep) hinner.mode (hinner.turn.trans ht) rfl)

/-- What a reset finds of an instruction it cuts short is what a number of engine steps leave (70_reset_and_hazards.md R301). -/
theorem exists_run_of_cutMem {k : Nat} {m : List Host.Cell} (h : Inv s) (hmode : s.engine.mode = .run)
    (hcut : cutMem k s = .ok m) :
    ∃ n u, Host.Core.run Sys2Proof.core n (withSteps n s) = .next u ∧ m = u.mem := by
  induction k generalizing s with
  | zero =>
    rw [cutMem, cut_zero] at hcut
    cases hcut
    exact ⟨0, _, rfl, rfl⟩
  | succ k ih =>
    obtain ⟨t, hstep, hlast | hinner⟩ := engineStep_cases h hmode
    · rw [hlast.cut k] at hcut
      cases hcut
      exact ⟨1, _, run_withSteps_succ 0 hstep, rfl⟩
    · rw [← hinner.cut k] at hcut
      obtain ⟨n, u, hrun, hmem⟩ := ih (engineStep_keeps_inv h hstep) hinner.mode hcut
      exact ⟨n + 1, u, (run_withSteps_succ n hstep).trans hrun, hmem⟩

/-! ## The end of a command -/

/-- The command that runs in `s` ends with `DONE`, by turns and by single engine steps. -/
def CommandEnds (s : State) : Prop :=
  (∃ k t, Host.Core.run Sys2Proof.core k s = .next t ∧ t.engine.mode = .idle ∧ t.status.done = true) ∧
  ∃ k t, Host.Core.run Sys2Proof.core k (withSteps k s) = .next t ∧ t.engine.mode = .idle ∧ t.status.done = true

theorem engineTurn_agenda (hmode : s.engine.mode = .run) (ht : engineTurn s = .next t) : t.agenda = s.agenda := by
  rw [engineTurn_run hmode] at ht
  have hfixed := (unread_agenda s.agenda).fixed_lastState_run (s := s.atBoundary) rfl ht
  rw [← hfixed]

/-- A command ends where it ends after one turn, at once or later. -/
theorem CommandEnds.of_engineTurn (h : Inv s) (hagenda : s.agenda = []) (hmode : s.engine.mode = .run)
    (ht : engineTurn s = .next t) (hends : t.engine.mode = .idle ∨ CommandEnds t) : CommandEnds s := by
  have hstep : step s = .next t := (step_nil hagenda).trans ht
  obtain ⟨n, _, hsteps⟩ := reachedBySteps_of_engineTurn h hmode ht
  rcases hends with hidle | ⟨⟨k, u, hrun, hu⟩, j, v, hrun', hv⟩
  · obtain ⟨hdone, _⟩ := (endOfCommandSignalsDone s t h.status hmode (.inl ht)).1 hidle
    exact ⟨⟨1, t, run_succ_of_step 0 hstep, hidle, hdone⟩, 0 + n, withSteps 0 t, hsteps 0, hidle, hdone⟩
  · exact ⟨⟨k + 1, u, (run_succ_of_step k hstep).trans hrun, hu⟩, j + n, v, (hsteps j).trans hrun', hv⟩

/-- From its first record on, a command ends: each turn leaves fewer records. -/
theorem AtInstruction.commandEnds (h : Inv s) (hagenda : s.agenda = []) (hs : AtInstruction s) : CommandEnds s := by
  induction hn : recordsLeft s using Nat.strong_induction_on generalizing s with
  | _ n ih =>
    obtain ⟨t, ht⟩ := (engineNeverLeavesMem s h).1
    refine .of_engineTurn h hagenda hs.mode ht ?_
    refine (engineTurn_ends_or_advances h hs.mode ht).imp_right fun ⟨hat, hfewer⟩ => ?_
    exact ih _ (hn ▸ hfewer hs) (engineTurn_keeps_inv h ht) ((engineTurn_agenda hs.mode ht).trans hagenda) hat rfl

theorem commandEnds (h : Inv s) (hagenda : s.agenda = []) (hmode : s.engine.mode = .run) : CommandEnds s := by
  obtain ⟨t, ht⟩ := (engineNeverLeavesMem s h).1
  refine .of_engineTurn h hagenda hmode ht ?_
  refine (engineTurn_ends_or_advances h hmode ht).imp_right fun ⟨hat, _⟩ => ?_
  exact hat.commandEnds (engineTurn_keeps_inv h ht) ((engineTurn_agenda hmode ht).trans hagenda)

end Sys2Proof.Machine
end

section
/-! SUPPORT. What a reset leaves, idle or busy (70_reset_and_hazards.md R300, R301), and what a register write does that falls
into a running command (10_state.md R37; 70_reset_and_hazards.md R311). -/

namespace Sys2Proof.Machine

variable {s t : State}

/-! ## Resets -/

/-- A change that goes past every engine step does not change what a reset finds in `MEM`. -/
theorem Surrounding.cutMem {f : State → State} (hf : Surrounding f) (k : Nat) (s : State)
    (hs : remaining (f s) = remaining s) : cutMem k (f s) = cutMem k s := by
  unfold Machine.cutMem
  rw [hs, cut_map hf.toUnread]
  cases (remaining s).cut k s with
  | error e => rfl
  | ok t => exact congrArg Except.ok (hf.mem t)

/-- What a reset leaves of `s` in `t` (10_state.md R44; 70_reset_and_hazards.md R300, R301). -/
structure ResetFrom (s t : State) : Prop where
  regs : t.regs = Regs.reset
  status : t.status = Status.reset
  engine : t.engine = Engine.reset
  platform : t.platform = s.platform
  rst : t.rst = s.rst
  agenda : t.agenda = s.agenda
  mem_idle : s.engine.mode = .idle → t.mem = s.mem
  mem_run : s.engine.mode = .run → ∃ k, cutMem k s = .ok t.mem

theorem takeReset_resetFrom (ht : takeReset s = .next t) : ResetFrom s t := by
  unfold takeReset at ht
  split at ht
  · next hidle =>
    cases ht
    exact ⟨rfl, rfl, rfl, rfl, rfl, rfl, fun _ => rfl, fun hrun => absurd (hidle.symm.trans hrun) nofun⟩
  · next hrun =>
    split at ht
    · next m hcut =>
      cases ht
      exact ⟨rfl, rfl, rfl, rfl, rfl, rfl, fun hidle => absurd (hrun.symm.trans hidle) nofun, fun _ => ⟨_, hcut⟩⟩
    · cases ht

/-- With the invariant, what a reset leaves in `MEM` is what a number of engine steps leave. -/
theorem ResetFrom.exists_run (h : ResetFrom s t) (hs : Inv s) (hmode : s.engine.mode = .run) :
    ∃ k u, Host.Core.run Sys2Proof.core k (withSteps k s) = .next u ∧ t.mem = u.mem := by
  obtain ⟨k, hcut⟩ := h.mem_run hmode
  exact exists_run_of_cutMem hs hmode hcut

/-! ## Writes of registers -/

/-- No other word of the window names `CTRL` (10_state.md R22). -/
theorem regAt_ne_ctrl {off : Byte} (h : ¬off.toNat < 4) : regAt off ≠ some .ctrl := by
  unfold regAt
  split
  · omega
  all_goals nofun

/-- A write to `CTRL` while `rst` is released (10_state.md R24). -/
theorem hostRegWrite_ctrl {off : Byte} (v : Word) (hrst : s.rst = false) (hoff : off.toNat < 4) :
    hostRegWrite off v s = writeCtrl v s := by
  unfold hostRegWrite
  rw [hrst, regAt_ctrl hoff]
  rfl

/-- Busy, a write to `CTRL` without `SRST` stores `IRQ_EN`, and a `START` is lost (10_state.md R24; 70_reset_and_hazards.md
R311). -/
theorem writeCtrl_busy {v : Word} (hbusy : s.busy = true) (hsrst : v.getLsbD 1 = false) :
    writeCtrl v s = .next { s with regs := { s.regs with irqEn := v.getLsbD 2 } } := by
  unfold writeCtrl
  rw [hsrst, hbusy, Bool.not_true, Bool.and_false]
  rfl

/-- Busy, a write to a register other than `CTRL` is lost (10_state.md R37). -/
theorem hostRegWrite_lost {off : Byte} (v : Word) (hbusy : s.busy = true) (hoff : ¬off.toNat < 4) :
    hostRegWrite off v s = .next s := by
  simp only [hostRegWrite, hbusy, if_true]
  split
  · rfl
  · split
    · rfl
    · exact absurd ‹_› (regAt_ne_ctrl hoff)
    · rfl
    · rfl

end Sys2Proof.Machine
end

section
/-! The statements of 70_reset_and_hazards.md, from the facts above. -/

namespace Sys2Proof.Machine

/-- Settles O13: every turn ends the command or leaves fewer records, and every turn is a number of engine steps. -/
theorem everyCommandEnds : Obligations.EveryCommandEnds := by
  intro s h hagenda hmode
  obtain ⟨hturns, hsteps⟩ := commandEnds h hagenda hmode
  refine ⟨hturns, hsteps, fun t ht => ?_⟩
  obtain ⟨n, hpos, hrun⟩ := reachedBySteps_of_engineTurn h hmode ht
  have hnothing : withSteps 0 t = t := set_agenda_self ((engineTurn_agenda hmode ht).trans hagenda)
  refine ⟨n, hpos, ?_⟩
  have hrun := hrun 0
  rw [Nat.zero_add, hnothing] at hrun
  exact hrun

/-- Settles O18: the write is a reset, and the steps a reset cuts short are steps of the machine. -/
theorem softResetFromAnyState : Obligations.SoftResetFromAnyState := by
  intro s t off v rest hrst hoff hagenda hsrst ht
  rw [step_regWrite hagenda, hostRegWrite_ctrl (s := { s with agenda := rest }) v hrst hoff, writeCtrl, if_pos hsrst] at ht
  have hreset := takeReset_resetFrom ht
  exact ⟨hreset.regs, hreset.status, hreset.engine, hreset.platform, hreset.rst, hreset.agenda, hreset.mem_idle,
    hreset.mem_run, fun h => hreset.exists_run (h.set_agenda rest)⟩

/-- Settles O19: asserting `rst` is a reset, whose level no engine step sees, and a write is lost behind it. -/
theorem hardResetHolds : Obligations.HardResetHolds := by
  refine ⟨fun s rest hagenda => step_host hagenda, fun s t rest hagenda ht => ?_⟩
  rw [step_host hagenda] at ht
  have hreset : ResetFrom { s with agenda := rest, rst := true } t := takeReset_resetFrom ht
  have hmem (hmode : s.engine.mode = .run) : ∃ k, cutMem k { s with agenda := rest } = .ok t.mem := by
    obtain ⟨k, hcut⟩ := hreset.mem_run hmode
    exact ⟨k, ((surrounding_rst true).cutMem k { s with agenda := rest } rfl).symm.trans hcut⟩
  refine ⟨hreset.rst, hreset.regs, hreset.status, hreset.engine, hreset.mem_idle, hmem, fun h hmode => ?_,
    fun off v more hmore => ?_⟩
  · obtain ⟨k, hcut⟩ := hmem hmode
    exact exists_run_of_cutMem (s := { s with agenda := rest }) (h.set_agenda rest) hmode hcut
  · rw [step_regWrite (hreset.agenda.trans hmore), hostRegWrite, if_pos hreset.rst]

/-- Settles O10: the reset values have the invariant, and no cell of `MEM` is listed. -/
theorem resetHasInvariant : Obligations.ResetHasInvariant :=
  inv_of_reset rfl rfl rfl ⟨rfl, nofun⟩ ⟨by decide, le_rfl⟩

/-- Settles O21: at `CTRL` the write stores `IRQ_EN`, elsewhere it is lost. -/
theorem writesWhileBusyIgnored : Obligations.WritesWhileBusyIgnored := by
  intro s off v rest hrst hmode hagenda hsrst
  have hbusy : s.busy = true := (busy_iff s).2 hmode
  rw [step_regWrite hagenda]
  split
  · next hoff =>
    rw [hostRegWrite_ctrl (s := { s with agenda := rest }) v hrst hoff]
    exact writeCtrl_busy (s := { s with agenda := rest }) hbusy (hsrst hoff)
  · next hoff => exact hostRegWrite_lost (s := { s with agenda := rest }) v hbusy hoff

end Sys2Proof.Machine
end
